-- ==== Sys2Proof/Word.lean ====
section
/-!
DEFINITION. The word types of the 80386 and the two sizes an attribute can have (00_scope.md R3, 20_memory.md R61).
-/

namespace Sys2Proof

/-- A byte of memory or of an instruction: 8 bits (R61). -/
abbrev Byte := BitVec 8

/-- A 32-bit value: a general register, a linear or physical address, a special register (R20, R60). -/
abbrev Word := BitVec 32

/-- The operand-size and the address-size attribute are each 16 or 32 (R3). -/
inductive Size where
  | w16
  | w32
  deriving DecidableEq, Repr, Inhabited

/-- The other size: what a 66h or 67h byte selects (R102). -/
def Size.other : Size → Size
  | .w16 => .w32
  | .w32 => .w16

end Sys2Proof
end

