-- ==== Sys2Proof/Config.lean ====
section
/-!
DEFINITION. What an implementation fixes and what the spec leaves free: the parameters of 00_scope.md section 3 and of
92_eei_decisions.md ("Open parameters, gathered"), and the free values `any_N()` (section 4.3, R8, D13).
A constant without a body is a FREE VALUE: nothing in Lean can evaluate it, and a claim holds whatever it is.
-/

namespace Sys2Proof

/-- What `Translate` answers for one linear address (R70): a physical address, or a page fault whose cause is a page that
is not present (`violation = false`) or a protection violation (`violation = true`), bit 0 of the fault code. -/
inductive Translation where
  | mapped (phys : Word)
  | missing (violation : Bool)
  deriving DecidableEq, Repr, Inhabited

/-- `any_1()` (section 4.3): the n-th one-bit draw. DESIGN CHOICE, log 7; safe: no law constrains it. -/
opaque Config.anyBit : Nat → Bool

/-- `any_16()` (section 4.3, R179): the n-th 16-bit draw. DESIGN CHOICE, log 7; safe. -/
opaque Config.anyHalf : Nat → BitVec 16

/-- `any_32()` and the reserved bits of a special register (section 4.3, R34, R212): the n-th 32-bit draw.
DESIGN CHOICE, log 7 and log 8; safe. -/
opaque Config.anyWord : Nat → Word

/-- `Translate(lin, write, user)` of R70 and D18, the page translation, OPEN. It is also given the page-directory base
(CR3) and the memory that holds the tables, because a write to either may change it (R212). DESIGN CHOICE, log 10. -/
opaque Config.translate (cr3 : Word) (mem : List Host.Cell) (lin : Word) (write user : Bool) : Translation

/-- `REAL_SS_LIMIT_VECTOR` of R65, C9 and D17, OPEN: true where the vector of a Real Address Mode limit violation through
SS is 12 (the alternative), false where it is 13 (the source's text). DESIGN CHOICE, log 14; safe. -/
opaque Config.realSsLimitIsTwelve : Bool

/-- `ADMIT_REP` of R236 and D16: the REP byte on MOVS is admitted. DESIGN CHOICE, log 15. -/
def Config.admitRep : Bool := true

/-- `SET_ACCESSED` of R81 and D22: a segment load writes the descriptor's Accessed bit. Log 15. -/
def Config.setAccessed : Bool := true

/-- `OPC_MOV_SREG_RM` of C1 and D7: the opcode of MOV Sreg,r/m16, which the source prints as 8D. Log 15. -/
def Config.opcMovSregRm : Byte := 0x8E#8

end Sys2Proof
end

