-- ==== Sys2Proof/Syntax.lean ====
section
/-!
DEFINITION. The instructions of section 17.3.M as terms: one constructor of `Instr` for each of the 43 rows of
opcode_table.json (R2, R6, R117, R124), with the operands as the encoding names them (30_encoding.md).
-/

namespace Sys2Proof

/-- The eight 32-bit general registers and, by bits 15:0, the word registers AX, CX, DX, BX, SP, BP, SI, DI (R20, R21). -/
inductive Reg where
  | eax | ecx | edx | ebx | esp | ebp | esi | edi
  deriving DecidableEq, Repr, Inhabited

/-- The eight byte registers (R21). -/
inductive Reg8 where
  | al | cl | dl | bl | ah | ch | dh | bh
  deriving DecidableEq, Repr, Inhabited

/-- The six segment registers (R28, R106). -/
inductive SegReg where
  | es | cs | ss | ds | fs | gs
  deriving DecidableEq, Repr, Inhabited

/-- The five segment registers that MOV Sreg,r/m16 loads: CS is not among them (R159, R178). -/
inductive SegDest where
  | es | ss | ds | fs | gs
  deriving DecidableEq, Repr, Inhabited

/-- The control registers the source names (R34, R107). -/
inductive CtrlReg where
  | cr0 | cr2 | cr3
  deriving DecidableEq, Repr, Inhabited

/-- The debug registers DR0 to DR3: breakpoint addresses (R35, R205, R207). -/
inductive BreakReg where
  | dr0 | dr1 | dr2 | dr3
  deriving DecidableEq, Repr, Inhabited

/-- The debug registers DR6 and DR7: status and control (R35, R206, R208). -/
inductive DebugReg where
  | dr6 | dr7
  deriving DecidableEq, Repr, Inhabited

/-- The test registers TR6 and TR7 (R36, R209, R210). -/
inductive TestReg where
  | tr6 | tr7
  deriving DecidableEq, Repr, Inhabited

/-- The base of a 16-bit addressing form, the rows of the table of R108. -/
inductive Base16 where
  | bxSi | bxDi | bpSi | bpDi | si | di | bp | bx
  deriving DecidableEq, Repr, Inhabited

/-- The displacement of a 16-bit addressing form: none (mod 00), one byte (mod 01) or two (mod 10) (R108). -/
inductive Disp16 where
  | none
  | d8 (d : BitVec 8)
  | d16 (d : BitVec 16)
  deriving DecidableEq, Repr, Inhabited

/-- The displacement of a 32-bit addressing form: none (mod 00), one byte (mod 01) or four (mod 10) (R109, R110). -/
inductive Disp32 where
  | none
  | d8 (d : BitVec 8)
  | d32 (d : BitVec 32)
  deriving DecidableEq, Repr, Inhabited

/-- A memory operand of a ModRM byte with mod not 11 (R108 to R110). -/
inductive Mem where
  /-- 16-bit, mod 00, r/m 110: the displacement alone. -/
  | direct16 (d : BitVec 16)
  /-- 16-bit, a base and a displacement. -/
  | based16 (b : Base16) (d : Disp16)
  /-- 32-bit, mod 00, r/m 101: the displacement alone. -/
  | direct32 (d : BitVec 32)
  /-- 32-bit, a base register and a displacement, no SIB byte. -/
  | based32 (b : Reg) (d : Disp32)
  /-- SIB byte with a base register; `index = none` is the field value 100 (R110). -/
  | scaled (ss : BitVec 2) (index : Option Reg) (base : Reg) (d : Disp32)
  /-- SIB byte with mod 00 and base 101: no base register, four displacement bytes (R110). -/
  | scaledNoBase (ss : BitVec 2) (index : Option Reg) (d : BitVec 32)
  deriving DecidableEq, Repr, Inhabited

/-- The `r/m` operand over the registers `R` of its width: a register (mod 11) or memory (R104). -/
inductive Rm (R : Type) where
  | reg (r : R)
  | mem (m : Mem)
  deriving DecidableEq, Repr

/-- The attributes of one instruction (R3, R101, R102): operand size, address size, and the segment override if there is
one. A 66h or 67h byte stands in the encoding exactly where the attribute differs from `DEFAULT_SIZE`. -/
structure Attr where
  opsize : Size
  adsize : Size
  seg : Option SegReg
  deriving DecidableEq, Repr, Inhabited

/-- The instructions of section 17.3.M, in the order of opcode_table.json. -/
inductive Instr where
  /-- 88 /r, MOV r/m8,r8 (R152). -/
  | movRm8R8 (a : Attr) (dst : Rm Reg8) (src : Reg8)
  /-- 89 /r, MOV r/m16,r16 (R153). -/
  | movRm16R16 (a : Attr) (dst : Rm Reg) (src : Reg)
  /-- 89 /r, MOV r/m32,r32 (R154). -/
  | movRm32R32 (a : Attr) (dst : Rm Reg) (src : Reg)
  /-- 8A /r, MOV r8,r/m8 (R155). -/
  | movR8Rm8 (a : Attr) (dst : Reg8) (src : Rm Reg8)
  /-- 8B /r, MOV r16,r/m16 (R156). -/
  | movR16Rm16 (a : Attr) (dst : Reg) (src : Rm Reg)
  /-- 8B /r, MOV r32,r/m32 (R157). -/
  | movR32Rm32 (a : Attr) (dst : Reg) (src : Rm Reg)
  /-- 8C /r, MOV r/m16,Sreg (R158, R179). -/
  | movRm16Sreg (a : Attr) (dst : Rm Reg) (src : SegReg)
  /-- 8E /r (printed 8D, C1), MOV Sreg,r/m16 (R159, R172 to R178). -/
  | movSregRm16 (a : Attr) (dst : SegDest) (src : Rm Reg)
  /-- A0, MOV AL,moffs8 (R160). -/
  | movAlMoffs8 (a : Attr) (off : Word)
  /-- A1, MOV AX,moffs16 (R161). -/
  | movAxMoffs16 (a : Attr) (off : Word)
  /-- A1, MOV EAX,moffs32 (R162). -/
  | movEaxMoffs32 (a : Attr) (off : Word)
  /-- A2, MOV moffs8,AL (R163). -/
  | movMoffs8Al (a : Attr) (off : Word)
  /-- A3, MOV moffs16,AX (R164). -/
  | movMoffs16Ax (a : Attr) (off : Word)
  /-- A3, MOV moffs32,EAX (R165). -/
  | movMoffs32Eax (a : Attr) (off : Word)
  /-- B0 + rb, MOV reg8,imm8 (R166). -/
  | movReg8Imm8 (a : Attr) (dst : Reg8) (imm : BitVec 8)
  /-- B8 + rw, MOV reg16,imm16 (R167). -/
  | movReg16Imm16 (a : Attr) (dst : Reg) (imm : BitVec 16)
  /-- B8 + rd, MOV reg32,imm32 (R168). -/
  | movReg32Imm32 (a : Attr) (dst : Reg) (imm : BitVec 32)
  /-- C6 /0, MOV r/m8,imm8 (R169). -/
  | movRm8Imm8 (a : Attr) (dst : Rm Reg8) (imm : BitVec 8)
  /-- C7 /0, MOV r/m16,imm16 (R170). -/
  | movRm16Imm16 (a : Attr) (dst : Rm Reg) (imm : BitVec 16)
  /-- C7 /0, MOV r/m32,imm32 (R171). -/
  | movRm32Imm32 (a : Attr) (dst : Rm Reg) (imm : BitVec 32)
  /-- 0F 20 /r, MOV r32,CR0/CR2/CR3 (R203). -/
  | movR32Cr (a : Attr) (dst : Reg) (src : CtrlReg)
  /-- 0F 22 /r, MOV CR0/CR2/CR3,r32 (R204). -/
  | movCrR32 (a : Attr) (dst : CtrlReg) (src : Reg)
  /-- 0F 21 /r, MOV r32,DR0 -- 3 (R205). -/
  | movR32Dr03 (a : Attr) (dst : Reg) (src : BreakReg)
  /-- 0F 21 /r, MOV r32,DR6/DR7 (R206). -/
  | movR32Dr67 (a : Attr) (dst : Reg) (src : DebugReg)
  /-- 0F 23 /r, MOV DR0 -- 3,r32 (R207). -/
  | movDr03R32 (a : Attr) (dst : BreakReg) (src : Reg)
  /-- 0F 23 /r, MOV DR6/DR7,r32 (R208). -/
  | movDr67R32 (a : Attr) (dst : DebugReg) (src : Reg)
  /-- 0F 24 /r, MOV r32,TR6/TR7 (R209). -/
  | movR32Tr (a : Attr) (dst : Reg) (src : TestReg)
  /-- 0F 26 /r, MOV TR6/TR7,r32 (R210). -/
  | movTrR32 (a : Attr) (dst : TestReg) (src : Reg)
  /-- A4, MOVS m8,m8 = MOVSB (R231). -/
  | movs8 (a : Attr)
  /-- A5, MOVS m16,m16 = MOVSW (R232). -/
  | movs16 (a : Attr)
  /-- A5, MOVS m32,m32 = MOVSD (R233). -/
  | movs32 (a : Attr)
  /-- F3 A4, REP MOVS m8,m8 (R236). -/
  | repMovs8 (a : Attr)
  /-- F3 A5, REP MOVS m16,m16 (R236). -/
  | repMovs16 (a : Attr)
  /-- F3 A5, REP MOVS m32,m32 (R236). -/
  | repMovs32 (a : Attr)
  /-- 0F BE /r, MOVSX r16,r/m8 (R261). -/
  | movsxR16Rm8 (a : Attr) (dst : Reg) (src : Rm Reg8)
  /-- 0F BE /r, MOVSX r32,r/m8 (R262). -/
  | movsxR32Rm8 (a : Attr) (dst : Reg) (src : Rm Reg8)
  /-- 0F BF /r, MOVSX r32,r/m16 (R263). -/
  | movsxR32Rm16 (a : Attr) (dst : Reg) (src : Rm Reg)
  /-- 0F B6 /r, MOVZX r16,r/m8 (R271). -/
  | movzxR16Rm8 (a : Attr) (dst : Reg) (src : Rm Reg8)
  /-- 0F B6 /r, MOVZX r32,r/m8 (R272). -/
  | movzxR32Rm8 (a : Attr) (dst : Reg) (src : Rm Reg8)
  /-- 0F B7 /r, MOVZX r32,r/m16 (R273). -/
  | movzxR32Rm16 (a : Attr) (dst : Reg) (src : Rm Reg)
  /-- F6 /4, MUL AL,r/m8 (R281). -/
  | mulRm8 (a : Attr) (src : Rm Reg8)
  /-- F7 /4, MUL AX,r/m16 (R282). -/
  | mulRm16 (a : Attr) (src : Rm Reg)
  /-- F7 /4, MUL EAX,r/m32 (R283). -/
  | mulRm32 (a : Attr) (src : Rm Reg)
  deriving DecidableEq, Repr, Inhabited

end Sys2Proof
end

