-- ==== Sys2Proof/WellFormed.lean ====
section
/-!
DEFINITION. Which terms of `Instr` stand for an instruction the encoding can spell: the operand-size attribute of the row
(R117, R125), an addressing form of the instruction's address size (R108 to R110), a `moffs` offset of that size (R113).
-/

namespace Sys2Proof

/-- The address size an addressing form belongs to (R108, R109, R110). -/
def Mem.addrSize : Mem → Size
  | .direct16 _ | .based16 _ _ => .w16
  | .direct32 _ | .based32 _ _ | .scaled _ _ _ _ | .scaledNoBase _ _ _ => .w32

/-- With index = 100 (no index) the scale bits are 00 (R110, D27); ESP is no index register (R110). -/
def scaleOk (ss : BitVec 2) : Option Reg → Bool
  | none => ss == 0#2
  | some r => r != .esp

/-- The forms the tables of R108 to R110 have: BP and EBP need a displacement (mod 00 there means the displacement alone),
and ESP as a base needs a SIB byte. -/
def Mem.wellFormed : Mem → Bool
  | .direct16 _ | .direct32 _ => true
  | .based16 b d => !(b == .bp && d == .none)
  | .based32 b d => b != .esp && !(b == .ebp && d == .none)
  | .scaled ss index base d => scaleOk ss index && !(base == .ebp && d == .none)
  | .scaledNoBase ss index _ => scaleOk ss index

/-- The attributes an instruction carries. -/
def Instr.attr : Instr → Attr
  | .movRm8R8 a _ _ | .movRm16R16 a _ _ | .movRm32R32 a _ _ | .movR8Rm8 a _ _ | .movR16Rm16 a _ _ | .movR32Rm32 a _ _
  | .movRm16Sreg a _ _ | .movSregRm16 a _ _ | .movAlMoffs8 a _ | .movAxMoffs16 a _ | .movEaxMoffs32 a _
  | .movMoffs8Al a _ | .movMoffs16Ax a _ | .movMoffs32Eax a _ | .movReg8Imm8 a _ _ | .movReg16Imm16 a _ _
  | .movReg32Imm32 a _ _ | .movRm8Imm8 a _ _ | .movRm16Imm16 a _ _ | .movRm32Imm32 a _ _ | .movR32Cr a _ _
  | .movCrR32 a _ _ | .movR32Dr03 a _ _ | .movR32Dr67 a _ _ | .movDr03R32 a _ _ | .movDr67R32 a _ _ | .movR32Tr a _ _
  | .movTrR32 a _ _ | .movs8 a | .movs16 a | .movs32 a | .repMovs8 a | .repMovs16 a | .repMovs32 a
  | .movsxR16Rm8 a _ _ | .movsxR32Rm8 a _ _ | .movsxR32Rm16 a _ _ | .movzxR16Rm8 a _ _ | .movzxR32Rm8 a _ _
  | .movzxR32Rm16 a _ _ | .mulRm8 a _ | .mulRm16 a _ | .mulRm32 a _ => a

/-- The operand size that selects the row, where one does (column "sel." of R117; R125). -/
def Instr.rowOpsize : Instr → Option Size
  | .movRm16R16 _ _ _ | .movR16Rm16 _ _ _ | .movAxMoffs16 _ _ | .movMoffs16Ax _ _ | .movReg16Imm16 _ _ _
  | .movRm16Imm16 _ _ _ | .movs16 _ | .repMovs16 _ | .movsxR16Rm8 _ _ _ | .movzxR16Rm8 _ _ _ | .mulRm16 _ _ => some .w16
  | .movRm32R32 _ _ _ | .movR32Rm32 _ _ _ | .movEaxMoffs32 _ _ | .movMoffs32Eax _ _ | .movReg32Imm32 _ _ _
  | .movRm32Imm32 _ _ _ | .movs32 _ | .repMovs32 _ | .movsxR32Rm8 _ _ _ | .movsxR32Rm16 _ _ _ | .movzxR32Rm8 _ _ _
  | .movzxR32Rm16 _ _ _ | .mulRm32 _ _ => some .w32
  | .movRm8R8 _ _ _ | .movR8Rm8 _ _ _ | .movRm16Sreg _ _ _ | .movSregRm16 _ _ _ | .movAlMoffs8 _ _ | .movMoffs8Al _ _
  | .movReg8Imm8 _ _ _ | .movRm8Imm8 _ _ _ | .movR32Cr _ _ _ | .movCrR32 _ _ _ | .movR32Dr03 _ _ _ | .movR32Dr67 _ _ _
  | .movDr03R32 _ _ _ | .movDr67R32 _ _ _ | .movR32Tr _ _ _ | .movTrR32 _ _ _ | .movs8 _ | .repMovs8 _ | .mulRm8 _ _ => none

/-- The memory form of an `r/m` operand, if it is one (R104). -/
def Rm.mem? {R : Type} : Rm R → Option Mem
  | .reg _ => none
  | .mem m => some m

/-- The memory operand an instruction's ModRM byte names, if it has one. -/
def Instr.mem? : Instr → Option Mem
  | .movRm8R8 _ o _ | .movR8Rm8 _ _ o | .movRm8Imm8 _ o _ | .movsxR16Rm8 _ _ o | .movsxR32Rm8 _ _ o
  | .movzxR16Rm8 _ _ o | .movzxR32Rm8 _ _ o | .mulRm8 _ o => o.mem?
  | .movRm16R16 _ o _ | .movRm32R32 _ o _ | .movR16Rm16 _ _ o | .movR32Rm32 _ _ o | .movRm16Sreg _ o _
  | .movSregRm16 _ _ o | .movRm16Imm16 _ o _ | .movRm32Imm32 _ o _ | .movsxR32Rm16 _ _ o | .movzxR32Rm16 _ _ o
  | .mulRm16 _ o | .mulRm32 _ o => o.mem?
  | .movAlMoffs8 _ _ | .movAxMoffs16 _ _ | .movEaxMoffs32 _ _ | .movMoffs8Al _ _ | .movMoffs16Ax _ _
  | .movMoffs32Eax _ _ | .movReg8Imm8 _ _ _ | .movReg16Imm16 _ _ _ | .movReg32Imm32 _ _ _ | .movR32Cr _ _ _
  | .movCrR32 _ _ _ | .movR32Dr03 _ _ _ | .movR32Dr67 _ _ _ | .movDr03R32 _ _ _ | .movDr67R32 _ _ _ | .movR32Tr _ _ _
  | .movTrR32 _ _ _ | .movs8 _ | .movs16 _ | .movs32 _ | .repMovs8 _ | .repMovs16 _ | .repMovs32 _ => none

/-- The `moffs` offset of an instruction, if it has one (R113). -/
def Instr.moffs? : Instr → Option Word
  | .movAlMoffs8 _ off | .movAxMoffs16 _ off | .movEaxMoffs32 _ off | .movMoffs8Al _ off | .movMoffs16Ax _ off
  | .movMoffs32Eax _ off => some off
  | .movRm8R8 _ _ _ | .movRm16R16 _ _ _ | .movRm32R32 _ _ _ | .movR8Rm8 _ _ _ | .movR16Rm16 _ _ _ | .movR32Rm32 _ _ _
  | .movRm16Sreg _ _ _ | .movSregRm16 _ _ _ | .movReg8Imm8 _ _ _ | .movReg16Imm16 _ _ _ | .movReg32Imm32 _ _ _
  | .movRm8Imm8 _ _ _ | .movRm16Imm16 _ _ _ | .movRm32Imm32 _ _ _ | .movR32Cr _ _ _ | .movCrR32 _ _ _
  | .movR32Dr03 _ _ _ | .movR32Dr67 _ _ _ | .movDr03R32 _ _ _ | .movDr67R32 _ _ _ | .movR32Tr _ _ _ | .movTrR32 _ _ _
  | .movs8 _ | .movs16 _ | .movs32 _ | .repMovs8 _ | .repMovs16 _ | .repMovs32 _ | .movsxR16Rm8 _ _ _
  | .movsxR32Rm8 _ _ _ | .movsxR32Rm16 _ _ _ | .movzxR16Rm8 _ _ _ | .movzxR32Rm8 _ _ _ | .movzxR32Rm16 _ _ _
  | .mulRm8 _ _ | .mulRm16 _ _ | .mulRm32 _ _ => none

/-- The instruction's operand size is the one that selects its row (R125). -/
def Instr.opsizeOk (i : Instr) : Bool :=
  match i.rowOpsize with
  | none => true
  | some z => i.attr.opsize == z

/-- A ModRM memory operand is a form of the tables, of the instruction's address size (R108 to R110). -/
def Instr.memOk (i : Instr) : Bool :=
  match i.mem? with
  | none => true
  | some m => m.wellFormed && m.addrSize == i.attr.adsize

/-- A `moffs` offset has 2 bytes with a 16-bit address size (R113). -/
def Instr.moffsOk (i : Instr) : Bool :=
  match i.moffs? with
  | none => true
  | some off => i.attr.adsize == .w32 || off.toNat < 65536

/-- The terms that stand for an instruction of 30_encoding.md. -/
def Instr.wellFormed (i : Instr) : Bool :=
  i.opsizeOk && i.memOk && i.moffsOk

end Sys2Proof
end

