-- ==== Sys2Proof/Decode.lean ====
section
/-!
DEFINITION. From bytes to instructions and back (30_encoding.md). The decoder is total (R122): on any bytes it answers one
instruction with its length, a refusal by name (R118, R119), or that it needs a byte that is not there. The encoder, written
from the same tables, is below it, with the length of R116.
-/

namespace Sys2Proof

/-- Why an encoding has no step (R118, R119). A refusal is not an exception: the spec does not claim what the hardware does. -/
inductive DecodeRefusal where
  /-- An opcode outside 17.3.M (R119, D1), F6 and F7 with reg not 100 among them (R115). -/
  | opcodeOutside
  /-- 8C or 8E with reg = 6 or 7, which name no segment register (R178, D8). -/
  | segmentRegister
  /-- 8E with reg = 1: CS cannot be loaded by MOV (R178, D8). -/
  | csDestination
  /-- C6 or C7 with reg not 000 (R115, D9). -/
  | reservedDigit
  /-- 0F 20, 21, 22, 23, 24, 26 with mod not 11 (R213, D10). -/
  | modNotEleven
  /-- A special-register number the source does not name (R211, D11). -/
  | specialRegister
  /-- 0F BF or 0F B7 with a 16-bit operand size (R264, R274, D15). -/
  | wordSourceWordSize
  /-- F0h before any form (R78, D25). -/
  | lock
  /-- F2h before any form, after F3h too (R118, D25; log 32). -/
  | repne
  /-- F3h before a form in scope other than A4 and A5 (R118, D25). -/
  | misplacedRep
  /-- F3 A4 or F3 A5 where `ADMIT_REP` does not hold (R236, D16). -/
  | repNotAdmitted
  /-- Two prefix bytes of one kind, but for F2h after F3h (R101, D25; log 32). -/
  | repeatedKind
  /-- SIB with index = 100 and scale not 00: the effective address is undefined (R110, D27). -/
  | scaledNoIndex
  deriving DecidableEq, Repr

/-- How decoding stops without an instruction. -/
inductive DecodeStop where
  | refuse (r : DecodeRefusal)
  | more
  deriving DecidableEq, Repr

/-! ### Register numbers (R105, R106, R107) -/

/-- The number of a 16-bit or 32-bit register (R105). -/
def Reg.num : Reg → BitVec 3
  | .eax => 0#3 | .ecx => 1#3 | .edx => 2#3 | .ebx => 3#3 | .esp => 4#3 | .ebp => 5#3 | .esi => 6#3 | .edi => 7#3

/-- The 16-bit or 32-bit register of a number (R105). -/
def Reg.ofNum (n : BitVec 3) : Reg :=
  match n.toNat with
  | 0 => .eax | 1 => .ecx | 2 => .edx | 3 => .ebx | 4 => .esp | 5 => .ebp | 6 => .esi | _ => .edi

/-- The number of a byte register (R105). -/
def Reg8.num : Reg8 → BitVec 3
  | .al => 0#3 | .cl => 1#3 | .dl => 2#3 | .bl => 3#3 | .ah => 4#3 | .ch => 5#3 | .dh => 6#3 | .bh => 7#3

/-- The byte register of a number (R105). -/
def Reg8.ofNum (n : BitVec 3) : Reg8 :=
  match n.toNat with
  | 0 => .al | 1 => .cl | 2 => .dl | 3 => .bl | 4 => .ah | 5 => .ch | 6 => .dh | _ => .bh

/-- The number of a segment register (R106). -/
def SegReg.num : SegReg → BitVec 3
  | .es => 0#3 | .cs => 1#3 | .ss => 2#3 | .ds => 3#3 | .fs => 4#3 | .gs => 5#3

/-- The segment register of a number; 6 and 7 name none (R106). -/
def SegReg.ofNum (n : BitVec 3) : Option SegReg :=
  match n.toNat with
  | 0 => some .es | 1 => some .cs | 2 => some .ss | 3 => some .ds | 4 => some .fs | 5 => some .gs | _ => none

/-- A loadable segment register as a segment register (R159). -/
def SegDest.toSegReg : SegDest → SegReg
  | .es => .es | .ss => .ss | .ds => .ds | .fs => .fs | .gs => .gs

/-- The destination of MOV Sreg,r/m16 by number: 1 is CS, 6 and 7 name no register (R106, R159, R178). -/
def SegDest.ofNum (n : BitVec 3) : Except DecodeStop SegDest :=
  match n.toNat with
  | 0 => .ok .es | 1 => .error (.refuse .csDestination) | 2 => .ok .ss | 3 => .ok .ds | 4 => .ok .fs | 5 => .ok .gs
  | _ => .error (.refuse .segmentRegister)

/-- The number of a control register is the digit of its name (R107). -/
def CtrlReg.num : CtrlReg → BitVec 3
  | .cr0 => 0#3 | .cr2 => 2#3 | .cr3 => 3#3

/-- The control register of a number (R107, R211). -/
def CtrlReg.ofNum (n : BitVec 3) : Option CtrlReg :=
  match n.toNat with
  | 0 => some .cr0 | 2 => some .cr2 | 3 => some .cr3 | _ => none

/-- The number of DR0 to DR3 (R107). -/
def BreakReg.num : BreakReg → BitVec 3
  | .dr0 => 0#3 | .dr1 => 1#3 | .dr2 => 2#3 | .dr3 => 3#3

/-- DR0 to DR3 by number (R107). -/
def BreakReg.ofNum (n : BitVec 3) : Option BreakReg :=
  match n.toNat with
  | 0 => some .dr0 | 1 => some .dr1 | 2 => some .dr2 | 3 => some .dr3 | _ => none

/-- The number of DR6 and DR7 (R107). -/
def DebugReg.num : DebugReg → BitVec 3
  | .dr6 => 6#3 | .dr7 => 7#3

/-- DR6 and DR7 by number (R107). -/
def DebugReg.ofNum (n : BitVec 3) : Option DebugReg :=
  match n.toNat with
  | 6 => some .dr6 | 7 => some .dr7 | _ => none

/-- The number of TR6 and TR7 (R107). -/
def TestReg.num : TestReg → BitVec 3
  | .tr6 => 6#3 | .tr7 => 7#3

/-- TR6 and TR7 by number (R107, R211). -/
def TestReg.ofNum (n : BitVec 3) : Option TestReg :=
  match n.toNat with
  | 6 => some .tr6 | 7 => some .tr7 | _ => none

/-- The r/m value of a 16-bit base (R108). -/
def Base16.num : Base16 → BitVec 3
  | .bxSi => 0#3 | .bxDi => 1#3 | .bpSi => 2#3 | .bpDi => 3#3 | .si => 4#3 | .di => 5#3 | .bp => 6#3 | .bx => 7#3

/-- The 16-bit base of an r/m value (R108). -/
def Base16.ofNum (n : BitVec 3) : Base16 :=
  match n.toNat with
  | 0 => .bxSi | 1 => .bxDi | 2 => .bpSi | 3 => .bpDi | 4 => .si | 5 => .di | 6 => .bp | _ => .bx

/-! ### Bytes and fields -/

/-- Reads one byte. -/
def readByte : List Byte → Except DecodeStop (Byte × List Byte)
  | b :: r => .ok (b, r)
  | [] => .error .more

/-- Reads two bytes, the low one first (R62). -/
def readHalf : List Byte → Except DecodeStop (BitVec 16 × List Byte)
  | b0 :: b1 :: r => .ok (b1 ++ b0, r)
  | _ => .error .more

/-- Reads four bytes, the low one first (R62). -/
def readWord : List Byte → Except DecodeStop (BitVec 32 × List Byte)
  | b0 :: b1 :: b2 :: b3 :: r => .ok (b3 ++ b2 ++ b1 ++ b0, r)
  | _ => .error .more

/-- The two bytes of a 16-bit field, the low one first (R62). -/
def halfBytes (v : BitVec 16) : List Byte :=
  [v.extractLsb' 0 8, v.extractLsb' 8 8]

/-- The four bytes of a 32-bit field, the low one first (R62). -/
def wordBytes (v : BitVec 32) : List Byte :=
  [v.extractLsb' 0 8, v.extractLsb' 8 8, v.extractLsb' 16 8, v.extractLsb' 24 8]

/-- The mod field of a ModRM byte, and the scale field of a SIB byte: bits 7:6 (R104, R110). -/
def modField (b : Byte) : BitVec 2 := b.extractLsb' 6 2

/-- The reg field of a ModRM byte, and the index field of a SIB byte: bits 5:3 (R104, R110). -/
def regField (b : Byte) : BitVec 3 := b.extractLsb' 3 3

/-- The r/m field of a ModRM byte, the base field of a SIB byte, the register of B0 + rb: bits 2:0 (R104, R110, R114). -/
def rmField (b : Byte) : BitVec 3 := b.extractLsb' 0 3

/-- A byte of three fields of 2, 3 and 3 bits (R104, R110). -/
def fieldsByte (hi : BitVec 2) (mid lo : BitVec 3) : Byte := hi ++ mid ++ lo

/-! ### Prefix bytes (R101, R102) -/

/-- What a prefix byte is (R101). -/
inductive PrefixByte where
  | osize
  | asize
  | segment (g : SegReg)
  | rep
  | repne
  | lock
  deriving DecidableEq, Repr

/-- The prefix bytes of R101; every other byte is the first opcode byte. -/
def prefixByte (b : Byte) : Option PrefixByte :=
  if b = 0x66#8 then some .osize
  else if b = 0x67#8 then some .asize
  else if b = 0x26#8 then some (.segment .es)
  else if b = 0x2E#8 then some (.segment .cs)
  else if b = 0x36#8 then some (.segment .ss)
  else if b = 0x3E#8 then some (.segment .ds)
  else if b = 0x64#8 then some (.segment .fs)
  else if b = 0x65#8 then some (.segment .gs)
  else if b = 0xF3#8 then some .rep
  else if b = 0xF2#8 then some .repne
  else if b = 0xF0#8 then some .lock
  else none

/-- The prefix bytes read so far, at most one of each kind (R101). -/
structure Prefixes where
  osize : Bool := false
  asize : Bool := false
  seg : Option SegReg := none
  rep : Bool := false
  deriving DecidableEq, Repr

/-- One more prefix byte: refused where its kind was read before, and for F0h and F2h (R101, R118, D25). F2h after F3h is both a
REPNE and a second byte of the repeat kind: R118 has a row for each and no order of them, and the refusal is named after REPNE.
DESIGN CHOICE, log 32, safe. -/
def Prefixes.add (p : Prefixes) : PrefixByte → Except DecodeStop Prefixes
  | .osize => if p.osize then .error (.refuse .repeatedKind) else .ok { p with osize := true }
  | .asize => if p.asize then .error (.refuse .repeatedKind) else .ok { p with asize := true }
  | .segment g => if p.seg.isSome then .error (.refuse .repeatedKind) else .ok { p with seg := some g }
  | .rep => if p.rep then .error (.refuse .repeatedKind) else .ok { p with rep := true }
  | .repne => .error (.refuse .repne)
  | .lock => .error (.refuse .lock)

/-- Step (1) of R122: prefix bytes until a byte that is none; that byte is the first of the rest. -/
def readPrefixes (p : Prefixes) : List Byte → Except DecodeStop (Prefixes × List Byte)
  | [] => .error .more
  | b :: r =>
    match prefixByte b with
    | none => .ok (p, b :: r)
    | some k =>
      match p.add k with
      | .ok q => readPrefixes q r
      | .error e => .error e

/-- Step (2) of R122: the attributes, by `DEFAULT_SIZE` and the prefix bytes (R102). -/
def Prefixes.attr (d : Size) (p : Prefixes) : Attr where
  opsize := if p.osize then d.other else d
  adsize := if p.asize then d.other else d
  seg := p.seg

/-! ### Operands (R104, R108 to R110, R113) -/

/-- The displacement of a 16-bit form by mod (R108). -/
def readDisp16 (md : BitVec 2) (bs : List Byte) : Except DecodeStop (Disp16 × List Byte) :=
  if md = 0#2 then .ok (.none, bs)
  else if md = 1#2 then do
    let (d, r) ← readByte bs
    .ok (.d8 d, r)
  else do
    let (d, r) ← readHalf bs
    .ok (.d16 d, r)

/-- The displacement of a 32-bit form by mod (R109, R110). -/
def readDisp32 (md : BitVec 2) (bs : List Byte) : Except DecodeStop (Disp32 × List Byte) :=
  if md = 0#2 then .ok (.none, bs)
  else if md = 1#2 then do
    let (d, r) ← readByte bs
    .ok (.d8 d, r)
  else do
    let (d, r) ← readWord bs
    .ok (.d32 d, r)

/-- The 16-bit addressing forms (R108). -/
def readMem16 (md : BitVec 2) (rm : BitVec 3) (bs : List Byte) : Except DecodeStop (Mem × List Byte) :=
  if md = 0#2 ∧ rm = 6#3 then do
    let (d, r) ← readHalf bs
    .ok (.direct16 d, r)
  else do
    let (d, r) ← readDisp16 md bs
    .ok (.based16 (Base16.ofNum rm) d, r)

/-- The index field of a SIB byte: 100 means no index (R110). -/
def indexOfNum (n : BitVec 3) : Option Reg :=
  if n = 4#3 then none else some (Reg.ofNum n)

/-- The SIB byte and what follows it (R110, D27). An index of 100 with a scale not 00 is refused before the displacement is read.
DESIGN CHOICE, log 32, safe. -/
def readSib (md : BitVec 2) (bs : List Byte) : Except DecodeStop (Mem × List Byte) := do
  let (b, r) ← readByte bs
  if regField b = 4#3 ∧ modField b ≠ 0#2 then .error (.refuse .scaledNoIndex)
  else if rmField b = 5#3 ∧ md = 0#2 then do
    let (d, r) ← readWord r
    .ok (.scaledNoBase (modField b) (indexOfNum (regField b)) d, r)
  else do
    let (d, r) ← readDisp32 md r
    .ok (.scaled (modField b) (indexOfNum (regField b)) (Reg.ofNum (rmField b)) d, r)

/-- The 32-bit addressing forms (R109, R110). -/
def readMem32 (md : BitVec 2) (rm : BitVec 3) (bs : List Byte) : Except DecodeStop (Mem × List Byte) :=
  if rm = 4#3 then readSib md bs
  else if rm = 5#3 ∧ md = 0#2 then do
    let (d, r) ← readWord bs
    .ok (.direct32 d, r)
  else do
    let (d, r) ← readDisp32 md bs
    .ok (.based32 (Reg.ofNum rm) d, r)

/-- The `r/m` operand of a ModRM byte `b`, with its SIB byte and displacement (R104; step (5) of R122). -/
def readRm {R : Type} (ofNum : BitVec 3 → R) (adsize : Size) (b : Byte) (bs : List Byte) :
    Except DecodeStop (Rm R × List Byte) :=
  if modField b = 3#2 then .ok (.reg (ofNum (rmField b)), bs)
  else
    match adsize with
    | .w16 => do
      let (m, r) ← readMem16 (modField b) (rmField b) bs
      .ok (.mem m, r)
    | .w32 => do
      let (m, r) ← readMem32 (modField b) (rmField b) bs
      .ok (.mem m, r)

/-- A `moffs` offset: 2 or 4 bytes by the address size, unsigned (R113). -/
def readOffset (adsize : Size) (bs : List Byte) : Except DecodeStop (Word × List Byte) :=
  match adsize with
  | .w16 => do
    let (v, r) ← readHalf bs
    .ok (v.setWidth 32, r)
  | .w32 => readWord bs

/-! ### Formats (R100, R117) -/

/-- ModRM, a register operand in reg and an `r/m` operand. -/
def decodeRegRm {R : Type} (ofNum : BitVec 3 → R) (a : Attr) (make : BitVec 3 → Rm R → Instr) (bs : List Byte) :
    Except DecodeStop (Instr × List Byte) := do
  let (b, r) ← readByte bs
  let (o, r) ← readRm ofNum a.adsize b r
  .ok (make (regField b) o, r)

/-- ModRM with the digit in reg; another digit is refused as `no` says (R115). -/
def decodeDigitRm {R : Type} (ofNum : BitVec 3 → R) (a : Attr) (digit : BitVec 3) (no : DecodeRefusal) (make : Rm R → Instr)
    (bs : List Byte) : Except DecodeStop (Instr × List Byte) := do
  let (b, r) ← readByte bs
  if regField b = digit then do
    let (o, r) ← readRm ofNum a.adsize b r
    .ok (make o, r)
  else .error (.refuse no)

/-- MOV r/m16,Sreg (8C; R158, R178). -/
def decodeFromSreg (a : Attr) (bs : List Byte) : Except DecodeStop (Instr × List Byte) := do
  let (b, r) ← readByte bs
  match SegReg.ofNum (regField b) with
  | none => .error (.refuse .segmentRegister)
  | some g => do
    let (o, r) ← readRm Reg.ofNum a.adsize b r
    .ok (.movRm16Sreg a o g, r)

/-- MOV Sreg,r/m16 (8E; R159, R178). -/
def decodeToSreg (a : Attr) (bs : List Byte) : Except DecodeStop (Instr × List Byte) := do
  let (b, r) ← readByte bs
  let g ← SegDest.ofNum (regField b)
  let (o, r) ← readRm Reg.ofNum a.adsize b r
  .ok (.movSregRm16 a g o, r)

/-- C6 and C7: ModRM with reg = 000, then the immediate (R112, R115). -/
def decodeRmImm {R : Type} (ofNum : BitVec 3 → R) (a : Attr) (make : Rm R → List Byte → Except DecodeStop (Instr × List Byte))
    (bs : List Byte) : Except DecodeStop (Instr × List Byte) := do
  let (b, r) ← readByte bs
  if regField b = 0#3 then do
    let (o, r) ← readRm ofNum a.adsize b r
    make o r
  else .error (.refuse .reservedDigit)

/-- Step (4) of R122 where the opcode selects no row whatever the ModRM byte holds: the byte is read, then the refusal made. -/
def decodeNoRow (no : DecodeRefusal) (bs : List Byte) : Except DecodeStop (Instr × List Byte) := do
  let _ ← readByte bs
  .error (.refuse no)

/-- The special-register formats: ModRM with mod = 11; reg picks the special register, r/m the general one
(R104, R107, R200, R211, R213). Where mod is not 11 and reg names no register either, the refusal is named after mod: R118 has
a row for each and says nothing of both. DESIGN CHOICE, log 32, safe. -/
def decodeSpecial (make : BitVec 3 → Reg → Option Instr) (bs : List Byte) : Except DecodeStop (Instr × List Byte) := do
  let (b, r) ← readByte bs
  if modField b = 3#2 then
    match make (regField b) (Reg.ofNum (rmField b)) with
    | some i => .ok (i, r)
    | none => .error (.refuse .specialRegister)
  else .error (.refuse .modNotEleven)

/-- MOV r32,DRn by number (R205, R206, R211). -/
def fromDebug (a : Attr) (n : BitVec 3) (r : Reg) : Option Instr :=
  match BreakReg.ofNum n with
  | some k => some (.movR32Dr03 a r k)
  | none => (DebugReg.ofNum n).map (fun k => .movR32Dr67 a r k)

/-- MOV DRn,r32 by number (R207, R208, R211). -/
def toDebug (a : Attr) (n : BitVec 3) (r : Reg) : Option Instr :=
  match BreakReg.ofNum n with
  | some k => some (.movDr03R32 a k r)
  | none => (DebugReg.ofNum n).map (fun k => .movDr67R32 a k r)

/-- The two-byte opcodes, after the byte 0Fh (R103, R117, R119). -/
def decodeTwoByte (a : Attr) (bs : List Byte) : Except DecodeStop (Instr × List Byte) := do
  let (op, r) ← readByte bs
  if op = 0x20#8 then decodeSpecial (fun n g => (CtrlReg.ofNum n).map (fun c => .movR32Cr a g c)) r
  else if op = 0x22#8 then decodeSpecial (fun n g => (CtrlReg.ofNum n).map (fun c => .movCrR32 a c g)) r
  else if op = 0x21#8 then decodeSpecial (fromDebug a) r
  else if op = 0x23#8 then decodeSpecial (toDebug a) r
  else if op = 0x24#8 then decodeSpecial (fun n g => (TestReg.ofNum n).map (fun t => .movR32Tr a g t)) r
  else if op = 0x26#8 then decodeSpecial (fun n g => (TestReg.ofNum n).map (fun t => .movTrR32 a t g)) r
  else if op = 0xBE#8 then
    match a.opsize with
    | .w16 => decodeRegRm Reg8.ofNum a (fun n o => .movsxR16Rm8 a (Reg.ofNum n) o) r
    | .w32 => decodeRegRm Reg8.ofNum a (fun n o => .movsxR32Rm8 a (Reg.ofNum n) o) r
  else if op = 0xBF#8 then
    match a.opsize with
    | .w16 => decodeNoRow .wordSourceWordSize r
    | .w32 => decodeRegRm Reg.ofNum a (fun n o => .movsxR32Rm16 a (Reg.ofNum n) o) r
  else if op = 0xB6#8 then
    match a.opsize with
    | .w16 => decodeRegRm Reg8.ofNum a (fun n o => .movzxR16Rm8 a (Reg.ofNum n) o) r
    | .w32 => decodeRegRm Reg8.ofNum a (fun n o => .movzxR32Rm8 a (Reg.ofNum n) o) r
  else if op = 0xB7#8 then
    match a.opsize with
    | .w16 => decodeNoRow .wordSourceWordSize r
    | .w32 => decodeRegRm Reg.ofNum a (fun n o => .movzxR32Rm16 a (Reg.ofNum n) o) r
  else .error (.refuse .opcodeOutside)

/-- The opcode map without a REP byte (R117, R119; steps (3) to (6) of R122). -/
def decodeOpcode (a : Attr) (bs : List Byte) : Except DecodeStop (Instr × List Byte) := do
  let (op, r) ← readByte bs
  if op = 0x88#8 then decodeRegRm Reg8.ofNum a (fun n o => .movRm8R8 a o (Reg8.ofNum n)) r
  else if op = 0x89#8 then
    match a.opsize with
    | .w16 => decodeRegRm Reg.ofNum a (fun n o => .movRm16R16 a o (Reg.ofNum n)) r
    | .w32 => decodeRegRm Reg.ofNum a (fun n o => .movRm32R32 a o (Reg.ofNum n)) r
  else if op = 0x8A#8 then decodeRegRm Reg8.ofNum a (fun n o => .movR8Rm8 a (Reg8.ofNum n) o) r
  else if op = 0x8B#8 then
    match a.opsize with
    | .w16 => decodeRegRm Reg.ofNum a (fun n o => .movR16Rm16 a (Reg.ofNum n) o) r
    | .w32 => decodeRegRm Reg.ofNum a (fun n o => .movR32Rm32 a (Reg.ofNum n) o) r
  else if op = 0x8C#8 then decodeFromSreg a r
  else if op = Config.opcMovSregRm then decodeToSreg a r
  else if op = 0xA0#8 then do
    let (off, r) ← readOffset a.adsize r
    .ok (.movAlMoffs8 a off, r)
  else if op = 0xA1#8 then do
    let (off, r) ← readOffset a.adsize r
    match a.opsize with
    | .w16 => .ok (.movAxMoffs16 a off, r)
    | .w32 => .ok (.movEaxMoffs32 a off, r)
  else if op = 0xA2#8 then do
    let (off, r) ← readOffset a.adsize r
    .ok (.movMoffs8Al a off, r)
  else if op = 0xA3#8 then do
    let (off, r) ← readOffset a.adsize r
    match a.opsize with
    | .w16 => .ok (.movMoffs16Ax a off, r)
    | .w32 => .ok (.movMoffs32Eax a off, r)
  else if op = 0xA4#8 then .ok (.movs8 a, r)
  else if op = 0xA5#8 then
    match a.opsize with
    | .w16 => .ok (.movs16 a, r)
    | .w32 => .ok (.movs32 a, r)
  else if op.extractLsb' 3 5 = 0b10110#5 then do
    let (v, r) ← readByte r
    .ok (.movReg8Imm8 a (Reg8.ofNum (rmField op)) v, r)
  else if op.extractLsb' 3 5 = 0b10111#5 then
    match a.opsize with
    | .w16 => do
      let (v, r) ← readHalf r
      .ok (.movReg16Imm16 a (Reg.ofNum (rmField op)) v, r)
    | .w32 => do
      let (v, r) ← readWord r
      .ok (.movReg32Imm32 a (Reg.ofNum (rmField op)) v, r)
  else if op = 0xC6#8 then
    decodeRmImm Reg8.ofNum a
      (fun o r => do
        let (v, r) ← readByte r
        .ok (.movRm8Imm8 a o v, r)) r
  else if op = 0xC7#8 then
    match a.opsize with
    | .w16 =>
      decodeRmImm Reg.ofNum a
        (fun o r => do
          let (v, r) ← readHalf r
          .ok (.movRm16Imm16 a o v, r)) r
    | .w32 =>
      decodeRmImm Reg.ofNum a
        (fun o r => do
          let (v, r) ← readWord r
          .ok (.movRm32Imm32 a o v, r)) r
  else if op = 0xF6#8 then decodeDigitRm Reg8.ofNum a 4#3 .opcodeOutside (fun o => .mulRm8 a o) r
  else if op = 0xF7#8 then
    match a.opsize with
    | .w16 => decodeDigitRm Reg.ofNum a 4#3 .opcodeOutside (fun o => .mulRm16 a o) r
    | .w32 => decodeDigitRm Reg.ofNum a 4#3 .opcodeOutside (fun o => .mulRm32 a o) r
  else if op = 0x0F#8 then decodeTwoByte a r
  else .error (.refuse .opcodeOutside)

/-- What stops F3h before an opcode other than A4 and A5, in the order of R122: the opcodes of R119 in step (3), and F6 and F7
with reg not 100 in step (4), are outside; a form in scope is refused in step (4), after its ModRM byte if it has one, as a
misplaced REP (R118, D25). Where that byte shows another cause of R118 too, the misplaced REP is the one named. DESIGN CHOICE,
log 32, safe. -/
def decodeRepRefused (op : Byte) (bs : List Byte) : Except DecodeStop (Instr × List Byte) :=
  if [0x88#8, 0x89#8, 0x8A#8, 0x8B#8, 0x8C#8, Config.opcMovSregRm, 0xC6#8, 0xC7#8].contains op then decodeNoRow .misplacedRep bs
  else if [0xA0#8, 0xA1#8, 0xA2#8, 0xA3#8].contains op || op.extractLsb' 4 4 == 0xB#4 then .error (.refuse .misplacedRep)
  else if op = 0xF6#8 ∨ op = 0xF7#8 then do
    let (b, _) ← readByte bs
    .error (.refuse (if regField b = 4#3 then .misplacedRep else .opcodeOutside))
  else if op = 0x0F#8 then do
    let (c, r) ← readByte bs
    if [0x20#8, 0x21#8, 0x22#8, 0x23#8, 0x24#8, 0x26#8, 0xB6#8, 0xB7#8, 0xBE#8, 0xBF#8].contains c then
      decodeNoRow .misplacedRep r
    else .error (.refuse .opcodeOutside)
  else .error (.refuse .opcodeOutside)

/-- The opcode map after a REP byte: A4 and A5 only (R236, R118, R119, D16, D25). -/
def decodeRep (a : Attr) (bs : List Byte) : Except DecodeStop (Instr × List Byte) := do
  let (op, r) ← readByte bs
  if op = 0xA4#8 then
    if Config.admitRep then .ok (.repMovs8 a, r) else .error (.refuse .repNotAdmitted)
  else if op = 0xA5#8 then
    if Config.admitRep then
      match a.opsize with
      | .w16 => .ok (.repMovs16 a, r)
      | .w32 => .ok (.repMovs32 a, r)
    else .error (.refuse .repNotAdmitted)
  else decodeRepRefused op r

/-- The decoding procedure of R122, given `DEFAULT_SIZE` and the bytes at the program counter: the instruction and its
length, every byte read being counted. -/
def decode (d : Size) (bs : List Byte) : Except DecodeStop (Instr × Nat) := do
  let (p, r) ← readPrefixes {} bs
  let (i, rest) ← if p.rep then decodeRep (p.attr d) r else decodeOpcode (p.attr d) r
  .ok (i, bs.length - rest.length)

/-! ### The length of an instruction (R116) -/

/-- Bytes of a 16-bit form's displacement (R108). -/
def Disp16.length : Disp16 → Nat
  | .none => 0 | .d8 _ => 1 | .d16 _ => 2

/-- Bytes of a 32-bit form's displacement (R109). -/
def Disp32.length : Disp32 → Nat
  | .none => 0 | .d8 _ => 1 | .d32 _ => 4

/-- Bytes of an addressing form after its ModRM byte: SIB and displacement (R108 to R110). -/
def Mem.tailLength : Mem → Nat
  | .direct16 _ => 2
  | .based16 _ d => d.length
  | .direct32 _ => 4
  | .based32 _ d => d.length
  | .scaled _ _ _ d => 1 + d.length
  | .scaledNoBase _ _ _ => 5

/-- Bytes of an `r/m` operand: the ModRM byte and what follows it for the operand (R104, R116). -/
def Rm.length {R : Type} : Rm R → Nat
  | .reg _ => 1
  | .mem m => 1 + m.tailLength

/-- Bytes of a `moffs` offset (R113). -/
def Size.bytes : Size → Nat
  | .w16 => 2
  | .w32 => 4

/-- Whether the instruction carries the F3h byte (R236). -/
def Instr.isRep : Instr → Bool
  | .repMovs8 _ | .repMovs16 _ | .repMovs32 _ => true
  | .movRm8R8 _ _ _ | .movRm16R16 _ _ _ | .movRm32R32 _ _ _ | .movR8Rm8 _ _ _ | .movR16Rm16 _ _ _ | .movR32Rm32 _ _ _
  | .movRm16Sreg _ _ _ | .movSregRm16 _ _ _ | .movAlMoffs8 _ _ | .movAxMoffs16 _ _ | .movEaxMoffs32 _ _
  | .movMoffs8Al _ _ | .movMoffs16Ax _ _ | .movMoffs32Eax _ _ | .movReg8Imm8 _ _ _ | .movReg16Imm16 _ _ _
  | .movReg32Imm32 _ _ _ | .movRm8Imm8 _ _ _ | .movRm16Imm16 _ _ _ | .movRm32Imm32 _ _ _ | .movR32Cr _ _ _
  | .movCrR32 _ _ _ | .movR32Dr03 _ _ _ | .movR32Dr67 _ _ _ | .movDr03R32 _ _ _ | .movDr67R32 _ _ _ | .movR32Tr _ _ _
  | .movTrR32 _ _ _ | .movs8 _ | .movs16 _ | .movs32 _ | .movsxR16Rm8 _ _ _ | .movsxR32Rm8 _ _ _ | .movsxR32Rm16 _ _ _
  | .movzxR16Rm8 _ _ _ | .movzxR32Rm8 _ _ _ | .movzxR32Rm16 _ _ _ | .mulRm8 _ _ | .mulRm16 _ _ | .mulRm32 _ _ => false

/-- Bytes after the prefix bytes: opcode, ModRM, SIB, displacement, offset, immediate (R116). -/
def Instr.bodyLength : Instr → Nat
  | .movRm8R8 _ o _ | .movR8Rm8 _ _ o | .mulRm8 _ o => 1 + o.length
  | .movRm16R16 _ o _ | .movRm32R32 _ o _ | .movR16Rm16 _ _ o | .movR32Rm32 _ _ o | .movRm16Sreg _ o _
  | .movSregRm16 _ _ o | .mulRm16 _ o | .mulRm32 _ o => 1 + o.length
  | .movAlMoffs8 a _ | .movAxMoffs16 a _ | .movEaxMoffs32 a _ | .movMoffs8Al a _ | .movMoffs16Ax a _
  | .movMoffs32Eax a _ => 1 + a.adsize.bytes
  | .movReg8Imm8 _ _ _ => 2
  | .movReg16Imm16 _ _ _ => 3
  | .movReg32Imm32 _ _ _ => 5
  | .movRm8Imm8 _ o _ => 1 + o.length + 1
  | .movRm16Imm16 _ o _ => 1 + o.length + 2
  | .movRm32Imm32 _ o _ => 1 + o.length + 4
  | .movR32Cr _ _ _ | .movCrR32 _ _ _ | .movR32Dr03 _ _ _ | .movR32Dr67 _ _ _ | .movDr03R32 _ _ _ | .movDr67R32 _ _ _
  | .movR32Tr _ _ _ | .movTrR32 _ _ _ => 3
  | .movs8 _ | .movs16 _ | .movs32 _ | .repMovs8 _ | .repMovs16 _ | .repMovs32 _ => 1
  | .movsxR16Rm8 _ _ o | .movsxR32Rm8 _ _ o | .movzxR16Rm8 _ _ o | .movzxR32Rm8 _ _ o => 2 + o.length
  | .movsxR32Rm16 _ _ o | .movzxR32Rm16 _ _ o => 2 + o.length

/-- How many prefix bytes the attributes need, `DEFAULT_SIZE` being `d` (R101, R102). -/
def Attr.prefixCount (d : Size) (a : Attr) : Nat :=
  (if a.opsize = d then 0 else 1) + (if a.adsize = d then 0 else 1) + (if a.seg.isSome then 1 else 0)

/-- `length` of R116: every byte of the instruction, prefix bytes included, `DEFAULT_SIZE` being `d`. -/
def Instr.length (d : Size) (i : Instr) : Nat :=
  i.attr.prefixCount d + (if i.isRep then 1 else 0) + i.bodyLength

/-! ### The encoder (R100 to R117) -/

/-- The override byte of a segment register (R101). -/
def SegReg.overrideByte : SegReg → Byte
  | .es => 0x26#8 | .cs => 0x2E#8 | .ss => 0x36#8 | .ds => 0x3E#8 | .fs => 0x64#8 | .gs => 0x65#8

/-- The prefix bytes of an instruction, in one order of the several the decoder admits (R101; log 30). -/
def encodePrefixes (d : Size) (a : Attr) (rep : Bool) : List Byte :=
  (if a.opsize = d then [] else [0x66#8]) ++ (if a.adsize = d then [] else [0x67#8])
    ++ (match a.seg with | none => [] | some g => [g.overrideByte]) ++ (if rep then [0xF3#8] else [])

/-- The mod field of a 16-bit form with a base (R108). -/
def Disp16.md : Disp16 → BitVec 2
  | .none => 0#2 | .d8 _ => 1#2 | .d16 _ => 2#2

/-- The mod field of a 32-bit form with a base (R109). -/
def Disp32.md : Disp32 → BitVec 2
  | .none => 0#2 | .d8 _ => 1#2 | .d32 _ => 2#2

/-- The bytes of a displacement (R108). -/
def Disp16.bytes : Disp16 → List Byte
  | .none => [] | .d8 d => [d] | .d16 d => halfBytes d

/-- The bytes of a displacement (R109). -/
def Disp32.bytes : Disp32 → List Byte
  | .none => [] | .d8 d => [d] | .d32 d => wordBytes d

/-- The index field of a SIB byte (R110). -/
def indexNum : Option Reg → BitVec 3
  | none => 4#3
  | some r => r.num

/-- ModRM, SIB and displacement of a memory operand, `reg` being the reg field (R108 to R110). -/
def encodeMem (reg : BitVec 3) : Mem → List Byte
  | .direct16 d => fieldsByte 0#2 reg 6#3 :: halfBytes d
  | .based16 b d => fieldsByte d.md reg b.num :: d.bytes
  | .direct32 d => fieldsByte 0#2 reg 5#3 :: wordBytes d
  | .based32 b d => fieldsByte d.md reg b.num :: d.bytes
  | .scaled ss index b d => fieldsByte d.md reg 4#3 :: fieldsByte ss (indexNum index) b.num :: d.bytes
  | .scaledNoBase ss index d => fieldsByte 0#2 reg 4#3 :: fieldsByte ss (indexNum index) 5#3 :: wordBytes d

/-- The bytes of an `r/m` operand from its ModRM byte on (R104). -/
def encodeRm {R : Type} (num : R → BitVec 3) (reg : BitVec 3) : Rm R → List Byte
  | .reg r => [fieldsByte 3#2 reg (num r)]
  | .mem m => encodeMem reg m

/-- The bytes of a `moffs` offset (R113). -/
def offsetBytes (adsize : Size) (off : Word) : List Byte :=
  match adsize with
  | .w16 => halfBytes (off.setWidth 16)
  | .w32 => wordBytes off

/-- The opcode byte of B0 + rb or B8 + rw/rd (R114). -/
def regOpcode (high : BitVec 5) (n : BitVec 3) : Byte := high ++ n

/-- The bytes of an instruction after its prefix bytes (R117). -/
def Instr.body : Instr → List Byte
  | .movRm8R8 _ o r => 0x88#8 :: encodeRm Reg8.num r.num o
  | .movRm16R16 _ o r => 0x89#8 :: encodeRm Reg.num r.num o
  | .movRm32R32 _ o r => 0x89#8 :: encodeRm Reg.num r.num o
  | .movR8Rm8 _ r o => 0x8A#8 :: encodeRm Reg8.num r.num o
  | .movR16Rm16 _ r o => 0x8B#8 :: encodeRm Reg.num r.num o
  | .movR32Rm32 _ r o => 0x8B#8 :: encodeRm Reg.num r.num o
  | .movRm16Sreg _ o g => 0x8C#8 :: encodeRm Reg.num g.num o
  | .movSregRm16 _ g o => Config.opcMovSregRm :: encodeRm Reg.num g.toSegReg.num o
  | .movAlMoffs8 a off => 0xA0#8 :: offsetBytes a.adsize off
  | .movAxMoffs16 a off => 0xA1#8 :: offsetBytes a.adsize off
  | .movEaxMoffs32 a off => 0xA1#8 :: offsetBytes a.adsize off
  | .movMoffs8Al a off => 0xA2#8 :: offsetBytes a.adsize off
  | .movMoffs16Ax a off => 0xA3#8 :: offsetBytes a.adsize off
  | .movMoffs32Eax a off => 0xA3#8 :: offsetBytes a.adsize off
  | .movReg8Imm8 _ r v => [regOpcode 0b10110#5 r.num, v]
  | .movReg16Imm16 _ r v => regOpcode 0b10111#5 r.num :: halfBytes v
  | .movReg32Imm32 _ r v => regOpcode 0b10111#5 r.num :: wordBytes v
  | .movRm8Imm8 _ o v => 0xC6#8 :: (encodeRm Reg8.num 0#3 o ++ [v])
  | .movRm16Imm16 _ o v => 0xC7#8 :: (encodeRm Reg.num 0#3 o ++ halfBytes v)
  | .movRm32Imm32 _ o v => 0xC7#8 :: (encodeRm Reg.num 0#3 o ++ wordBytes v)
  | .movR32Cr _ r c => [0x0F#8, 0x20#8, fieldsByte 3#2 c.num r.num]
  | .movCrR32 _ c r => [0x0F#8, 0x22#8, fieldsByte 3#2 c.num r.num]
  | .movR32Dr03 _ r k => [0x0F#8, 0x21#8, fieldsByte 3#2 k.num r.num]
  | .movR32Dr67 _ r k => [0x0F#8, 0x21#8, fieldsByte 3#2 k.num r.num]
  | .movDr03R32 _ k r => [0x0F#8, 0x23#8, fieldsByte 3#2 k.num r.num]
  | .movDr67R32 _ k r => [0x0F#8, 0x23#8, fieldsByte 3#2 k.num r.num]
  | .movR32Tr _ r t => [0x0F#8, 0x24#8, fieldsByte 3#2 t.num r.num]
  | .movTrR32 _ t r => [0x0F#8, 0x26#8, fieldsByte 3#2 t.num r.num]
  | .movs8 _ => [0xA4#8]
  | .movs16 _ => [0xA5#8]
  | .movs32 _ => [0xA5#8]
  | .repMovs8 _ => [0xA4#8]
  | .repMovs16 _ => [0xA5#8]
  | .repMovs32 _ => [0xA5#8]
  | .movsxR16Rm8 _ r o => 0x0F#8 :: 0xBE#8 :: encodeRm Reg8.num r.num o
  | .movsxR32Rm8 _ r o => 0x0F#8 :: 0xBE#8 :: encodeRm Reg8.num r.num o
  | .movsxR32Rm16 _ r o => 0x0F#8 :: 0xBF#8 :: encodeRm Reg.num r.num o
  | .movzxR16Rm8 _ r o => 0x0F#8 :: 0xB6#8 :: encodeRm Reg8.num r.num o
  | .movzxR32Rm8 _ r o => 0x0F#8 :: 0xB6#8 :: encodeRm Reg8.num r.num o
  | .movzxR32Rm16 _ r o => 0x0F#8 :: 0xB7#8 :: encodeRm Reg.num r.num o
  | .mulRm8 _ o => 0xF6#8 :: encodeRm Reg8.num 4#3 o
  | .mulRm16 _ o => 0xF7#8 :: encodeRm Reg.num 4#3 o
  | .mulRm32 _ o => 0xF7#8 :: encodeRm Reg.num 4#3 o

/-- The bytes of a well-formed instruction, `DEFAULT_SIZE` being `d`. -/
def encode (d : Size) (i : Instr) : List Byte :=
  encodePrefixes d i.attr i.isRep ++ i.body

/-! ### The words of opcode_table.json (R124) -/

/-- The longest instruction the hardware takes, in bytes (R116). -/
def maxLength : Nat := 15

/-- The bytes of a word of the table, the first byte in bits 7:0; every byte from bit `nbits` on is 0. -/
def paddedBytes (nbits w : Nat) : List Byte :=
  (List.range maxLength).map (fun k => if 8 * k < nbits then BitVec.ofNat 8 (w >>> (8 * k)) else 0#8)

/-- A row's word as the bytes of an instruction. The table's words are the bytes AFTER the prefix bytes (R124), so a row that
exists only with the other operand size (0F BF, 0F B7 under a 16-bit `DEFAULT_SIZE`) gets the 66h its size needs (log 4). -/
def tableBytes (d : Size) (nbits w : Nat) : List Byte :=
  match decode d (paddedBytes nbits w) with
  | .ok _ => paddedBytes nbits w
  | .error _ =>
    match decode d (0x66#8 :: paddedBytes nbits w) with
    | .ok _ => 0x66#8 :: paddedBytes nbits w
    | .error _ => paddedBytes nbits w

/-- What the decoder reads from a word of the table, with the `DEFAULT_SIZE` of the reset state, 16 (R351; log 4). -/
def decodeTableWord (nbits w : Nat) : Option Instr :=
  match decode .w16 (tableBytes .w16 nbits w) with
  | .ok (i, _) => some i
  | .error _ => none

end Sys2Proof
end

