-- ==== Sys2Proof/Machine/State.lean ====
section
/-!
DEFINITION. Everything the spec gives the machine to hold (10_state.md, 20_memory.md R60, R61), how a step can stop, and the
state after reset (R40, R351; log 1, log 2, log 3).
-/

namespace Sys2Proof.Machine

/-- The eight general registers (R20). The 16-bit and 8-bit views alias them (R21) and are computed in Ops.lean. -/
structure Regs where
  eax : Word
  ecx : Word
  edx : Word
  ebx : Word
  esp : Word
  ebp : Word
  esi : Word
  edi : Word
  deriving DecidableEq, Repr

/-- EFLAGS as the one-bit cells R25 names; `ie` is IF. The word with its fixed bits is `Eflags.toWord` (Flags.lean). -/
structure Eflags where
  cf : Bool
  pf : Bool
  af : Bool
  zf : Bool
  sf : Bool
  tf : Bool
  ie : Bool
  df : Bool
  of : Bool
  iopl : BitVec 2
  nt : Bool
  rf : Bool
  vm : Bool
  deriving DecidableEq, Repr

/-- A segment register: the visible selector and the hidden part (R28). -/
structure Segment where
  sel : BitVec 16
  valid : Bool
  base : Word
  limit : Word
  ar : Byte
  big : Bool
  deriving DecidableEq, Repr

/-- The six segment registers (R28). -/
structure Segments where
  es : Segment
  cs : Segment
  ss : Segment
  ds : Segment
  fs : Segment
  gs : Segment
  deriving DecidableEq, Repr

/-- GDTR: a 32-bit linear base and a 16-bit limit (R32); and IDTR, which R39 names and whose base and limit R40 lists without
their widths: it has GDTR's here. DESIGN CHOICE, log 33, safe. -/
structure TableReg where
  base : Word
  limit : BitVec 16
  deriving DecidableEq, Repr

/-- LDTR: a 16-bit selector with a hidden 32-bit base, a 32-bit limit and a valid bit (R32); and the task register, which R39
names and to which no rule gives a field: it has LDTR's here. DESIGN CHOICE, log 33, safe. -/
structure SystemSegment where
  sel : BitVec 16
  valid : Bool
  base : Word
  limit : Word
  deriving DecidableEq, Repr

/-- Physical bytes `lo` to `hi - 1` (R79, D20; log 13). -/
structure CodeRegion where
  lo : Nat
  hi : Nat
  deriving DecidableEq, Repr

/-- The program's code region: the physical bytes that the launch names as program text, as a list of ranges, since the pages
of a program need not lie together (R79, D20; log 13). -/
abbrev ProgramText := List CodeRegion

/-- Memory: the bytes that have a value, given by the launch or stored since, by rising address (R61, R41; Memory.lean). -/
abbrev Memory := List Host.Cell

/-- The machine's state. `draws`, `tlbTested` and `code` are the model's own (log 7, log 9, log 13). -/
structure State where
  regs : Regs
  pc : Word
  flags : Eflags
  segs : Segments
  gdtr : TableReg
  ldtr : SystemSegment
  idtr : TableReg
  task : SystemSegment
  cr0 : Word
  cr2 : Word
  cr3 : Word
  dr0 : Word
  dr1 : Word
  dr2 : Word
  dr3 : Word
  dr6 : Word
  dr7 : Word
  tr6 : Word
  tr7 : Word
  inhibit : Bool
  mem : Memory
  draws : Nat
  tlbTested : Bool
  code : ProgramText
  deriving DecidableEq, Repr

/-- How a step stops with a fault. -/
inductive Fault where
  /-- An exception raised by an instruction or its fetch (R300): the vector, the error code where there is one (R301), and
  for a page fault the linear address that CR2 records (R70). Raised by `raise` (Ops.lean) alone. It is terminal (R309, D5);
  the state is that of before the instruction (R308). Safe: the model stops where the hardware enters a handler (log 5). -/
  | exception (vector : BitVec 8) (code : Option (BitVec 16)) (linear : Option Word)
  /-- A read or a fetch of a byte of memory that has no value: the launch does not give it and no store wrote it (R41, D6, U13:
  "a model faults on reading it rather than supplying zero"). Raised by `givenByte` (Ops.lean) alone. Safe (log 3). -/
  | unwritten (address : Word)
  deriving DecidableEq, Repr

/-- How a step stops without a meaning. -/
inductive Refusal where
  /-- An instruction that has no meaning yet; raised by `exec` alone. Safe. -/
  | notModelled (mnemonic : String)
  /-- An encoding the spec refuses (R118, R119); raised by `step`. Safe: no claim is made of the hardware (log 22). -/
  | encoding (r : DecodeRefusal)
  /-- A store into the program's code region (R79, D20); raised by the write operations of Ops.lean. Safe (log 13). -/
  | storeToCode
  /-- The fetch of a byte outside the program's code region (R5, R79, D20): program text is what the launch names, so that no
  store can reach a byte that is fetched; raised by `fetchByte` (Fetch.lean). Safe (log 13). -/
  | fetchOutsideCode
  /-- A write of DR7 with any of bits 7:0 set: it would arm a breakpoint (R212, R320, D12); raised by MOV DR6/DR7,r32.
  Safe (log 21). -/
  | breakpointEnable
  /-- A write of TR6 with CR0.PG = 1: it would run a TLB command (R212, U7, D12); raised by MOV TR6/TR7,r32. Safe (log 9). -/
  | tlbCommandWithPaging
  deriving DecidableEq, Repr

/-- DS, ES, SS, FS, GS after reset: selector 0, base 0, limit FFFFh, valid, writable data (R40; PRESUMED, log 1). -/
def dataSegmentAtReset : Segment where
  sel := 0x0000#16
  valid := true
  base := 0x00000000#32
  limit := 0x0000FFFF#32
  ar := 0x93#8
  big := false

/-- CS after reset (R40, R351; PRESUMED, log 1): the first fetch is at physical FFFFFFF0h. -/
def codeSegmentAtReset : Segment where
  sel := 0xF000#16
  valid := true
  base := 0xFFFF0000#32
  limit := 0x0000FFFF#32
  ar := 0x9B#8
  big := false

/-- The machine after RESET. The source states no reset value (R40, R350): the values are the family's, from the table of R40
(PRESUMED, log 1), and zero where that table says "undefined" (DESIGN CHOICE, log 2). Unsafe, as those entries say. -/
def State.reset : State where
  regs := { eax := 0x00000000#32, ecx := 0x00000000#32, edx := 0x00000300#32, ebx := 0x00000000#32,
            esp := 0x00000000#32, ebp := 0x00000000#32, esi := 0x00000000#32, edi := 0x00000000#32 }
  pc := 0x0000FFF0#32
  flags := { cf := false, pf := false, af := false, zf := false, sf := false, tf := false, ie := false, df := false,
             of := false, iopl := 0#2, nt := false, rf := false, vm := false }
  segs := { es := dataSegmentAtReset, cs := codeSegmentAtReset, ss := dataSegmentAtReset, ds := dataSegmentAtReset,
            fs := dataSegmentAtReset, gs := dataSegmentAtReset }
  gdtr := { base := 0x00000000#32, limit := 0x0000#16 }
  ldtr := { sel := 0x0000#16, valid := false, base := 0x00000000#32, limit := 0x00000000#32 }
  idtr := { base := 0x00000000#32, limit := 0x03FF#16 }
  task := { sel := 0x0000#16, valid := false, base := 0x00000000#32, limit := 0x00000000#32 }
  cr0 := 0x00000000#32
  cr2 := 0x00000000#32
  cr3 := 0x00000000#32
  dr0 := 0x00000000#32
  dr1 := 0x00000000#32
  dr2 := 0x00000000#32
  dr3 := 0x00000000#32
  dr6 := 0x00000000#32
  dr7 := 0x00000000#32
  tr6 := 0x00000000#32
  tr7 := 0x00000000#32
  inhibit := false
  mem := []
  draws := 0
  tlbTested := false
  code := []

end Sys2Proof.Machine
end

