-- ==== Sys2Proof/Machine/Memory.lean ====
section
/-!
DEFINITION. Memory as a map from byte address to byte (20_memory.md R61, R74, R75) in one canonical form: addresses strictly
rising, every address below 2^32. A byte that is not listed has no value (10_state.md R41; log 3).
-/

namespace Sys2Proof.Machine

/-- What an address that no entry lists reads as: no value, neither the launch nor a store has given it one (R41, D6, U13;
log 3). -/
def Memory.unlisted : Option Byte := none

/-- The byte at an address, where it has a value (R61, R74, R41). -/
def Memory.read : Memory → Nat → Option Byte
  | [], _ => Memory.unlisted
  | (k, b) :: r, a => if k = a then some b else Memory.read r a

/-- Stores one byte, keeping the canonical form. -/
def Memory.write : Memory → Nat → Byte → Memory
  | [], a, v => [(a, v)]
  | (k, b) :: r, a, v =>
    if a < k then (a, v) :: (k, b) :: r
    else if a = k then (a, v) :: r
    else (k, b) :: Memory.write r a v

/-- The canonical form from an address on. -/
def Memory.wfFrom (lo : Nat) : Memory → Bool
  | [] => true
  | (a, _) :: r => decide (lo ≤ a) && decide (a < 4294967296) && Memory.wfFrom (a + 1) r

/-- The canonical form: rising addresses of the 32-bit physical space. -/
def Memory.wf (m : Memory) : Bool := Memory.wfFrom 0 m

/-- Stores bytes at physical addresses, one after the other. -/
def Memory.writeBytes (m : Memory) : List Word → List Byte → Memory
  | p :: ps, b :: bs => Memory.writeBytes (Memory.write m p.toNat b) ps bs
  | _, _ => m

/-- The value of bytes, the first the least significant: little-endian (R62). -/
def fromBytes : List Byte → Nat
  | [] => 0
  | b :: r => b.toNat + 256 * fromBytes r

/-- The `n` bytes of a value, the least significant first: little-endian (R62). -/
def toBytes : Nat → Nat → List Byte
  | 0, _ => []
  | n + 1, v => BitVec.ofNat 8 v :: toBytes n (v / 256)

end Sys2Proof.Machine
end

