-- ==== Sys2Proof/Machine/Ops.lean ====
section
/-!
DEFINITION. The named operations over registers, segments and memory that every meaning shares: register views (R20 to R22),
mode and privilege (R33, R38), raising an exception (R300, R301, R308, R309), the checks of a memory access (R65 to R69),
translation (R70), the checked access (R71), and completing an instruction (R24, R37, R123).
-/

namespace Sys2Proof.Machine

/-- How an operation ends without a result: outcome (b) or (c) of R7. -/
inductive Stop where
  | fault (f : Fault)
  | refuse (r : Refusal)
  deriving DecidableEq, Repr

/-- A stop as the outcome of a step. -/
def Stop.outcome : Stop → Host.Outcome State Fault Refusal
  | .fault f => .fault f
  | .refuse r => .refused r

/-! ### General registers and their views (R20, R21, R22) -/

/-- `x[r]` (R20). -/
def Regs.get (x : Regs) : Reg → Word
  | .eax => x.eax | .ecx => x.ecx | .edx => x.edx | .ebx => x.ebx
  | .esp => x.esp | .ebp => x.ebp | .esi => x.esi | .edi => x.edi

/-- `x[r] <- v` (R20). -/
def Regs.set (x : Regs) (r : Reg) (v : Word) : Regs :=
  match r with
  | .eax => { x with eax := v } | .ecx => { x with ecx := v } | .edx => { x with edx := v } | .ebx => { x with ebx := v }
  | .esp => { x with esp := v } | .ebp => { x with ebp := v } | .esi => { x with esi := v } | .edi => { x with edi := v }

/-- `x16[r]`: bits 15:0 (R21). -/
def Regs.get16 (x : Regs) (r : Reg) : BitVec 16 := (x.get r).extractLsb' 0 16

/-- `x16[r] <- v`: bits 31:16 are kept (R22). -/
def Regs.set16 (x : Regs) (r : Reg) (v : BitVec 16) : Regs := x.set r ((x.get r).extractLsb' 16 16 ++ v)

/-- The 32-bit register a byte register lies in (R21). -/
def byteHome : Reg8 → Reg
  | .al | .ah => .eax | .cl | .ch => .ecx | .dl | .dh => .edx | .bl | .bh => .ebx

/-- AH, CH, DH, BH are bits 15:8; AL, CL, DL, BL are bits 7:0 (R21). -/
def isHighByte : Reg8 → Bool
  | .al | .cl | .dl | .bl => false
  | .ah | .ch | .dh | .bh => true

/-- `x8[r]` (R21). -/
def Regs.get8 (x : Regs) (r : Reg8) : BitVec 8 :=
  if isHighByte r then (x.get (byteHome r)).extractLsb' 8 8 else (x.get (byteHome r)).extractLsb' 0 8

/-- `x8[r] <- v`: every other bit is kept (R22). -/
def Regs.set8 (x : Regs) (r : Reg8) (v : BitVec 8) : Regs :=
  if isHighByte r then
    x.set (byteHome r) ((x.get (byteHome r)).extractLsb' 16 16 ++ v ++ (x.get (byteHome r)).extractLsb' 0 8)
  else x.set (byteHome r) ((x.get (byteHome r)).extractLsb' 8 24 ++ v)

/-! ### Segment registers (R28) -/

/-- `seg[g]` (R28). -/
def Segments.get (x : Segments) : SegReg → Segment
  | .es => x.es | .cs => x.cs | .ss => x.ss | .ds => x.ds | .fs => x.fs | .gs => x.gs

/-- A write of a loadable segment register, visible and hidden part (R28, R159). -/
def Segments.set (x : Segments) (g : SegDest) (v : Segment) : Segments :=
  match g with
  | .es => { x with es := v } | .ss => { x with ss := v } | .ds => { x with ds := v }
  | .fs => { x with fs := v } | .gs => { x with gs := v }

/-! ### Mode, privilege, default size (R33, R38, R102) -/

/-- The three operating modes (R38, R315). -/
inductive Mode where
  | real
  | prot
  | v86
  deriving DecidableEq, Repr

/-- CR0.PE, bit 0 (R34). -/
def State.pe (s : State) : Bool := s.cr0.getLsbD 0

/-- CR0.PG, bit 31 (R34). -/
def State.pg (s : State) : Bool := s.cr0.getLsbD 31

/-- The operating mode, from CR0.PE and EFLAGS.VM (R38, D4; log 18). -/
def State.mode (s : State) : Mode :=
  if s.pe then if s.flags.vm then .v86 else .prot else .real

/-- CPL: bits 1:0 of CS's selector in Protected Mode, 3 in Virtual 8086 Mode, 0 in Real Address Mode (R33, D32; log 18). -/
def State.cpl (s : State) : BitVec 2 :=
  match s.mode with
  | .real => 0#2
  | .prot => s.segs.cs.sel.extractLsb' 0 2
  | .v86 => 3#2

/-- `DEFAULT_SIZE`: 16 in Real Address and Virtual 8086 Mode, CS's D bit in Protected Mode (R102, D4; log 18). -/
def State.defaultSize (s : State) : Size :=
  match s.mode with
  | .real | .v86 => .w16
  | .prot => if s.segs.cs.big then .w32 else .w16

/-- Paging is in effect: CR0.PG = 1, and not Real Address Mode, where translation is always the identity (R70; log 11). -/
def State.paging (s : State) : Bool := s.pg && s.mode != .real

/-- Whether an access is made at CPL 3 (R70, R71). -/
def State.user (s : State) : Bool := s.cpl == 3#2

/-! ### Taking an exception (R300, R301, R308, R309) -/

/-- The exceptions of R300. -/
inductive Exception where
  /-- #GP(code), general protection. -/
  | gp (code : BitVec 16)
  /-- #SS(code), stack fault. -/
  | ss (code : BitVec 16)
  /-- #NP(code), segment not present. -/
  | np (code : BitVec 16)
  /-- #PF(fault-code), page fault, with the linear address CR2 records (R70, R301). -/
  | pf (code : BitVec 16) (linear : Word)
  /-- An interrupt without error code: Interrupt 13 of Real Address Mode, or its alternative through SS (R65). -/
  | interrupt (vector : BitVec 8)
  deriving DecidableEq, Repr

/-- The vector of an exception (R300). -/
def Exception.vector : Exception → BitVec 8
  | .gp _ => 13#8 | .ss _ => 12#8 | .np _ => 11#8 | .pf _ _ => 14#8 | .interrupt v => v

/-- The error code of an exception, where it has one (R301). -/
def Exception.code : Exception → Option (BitVec 16)
  | .gp c | .ss c | .np c | .pf c _ => some c
  | .interrupt _ => none

/-- The linear address a page fault records (R70, R301; log 25). -/
def Exception.linear : Exception → Option Word
  | .pf _ l => some l
  | .gp _ | .ss _ | .np _ | .interrupt _ => none

/-- Taking an exception, the one operation all instructions share: the terminal outcome Fault(vector, error code) of R7 and
R309 (D5; log 5). Nothing of the state changes (R308). The scope has no return from an exception (R310). -/
def raise {α : Type} (x : Exception) : Except Stop α :=
  .error (.fault (.exception x.vector x.code x.linear))

/-- The error code `(selector)`: EXT and IDT are 0, TI and index as in the selector (R301, D30). -/
def selectorCode (sel : BitVec 16) : BitVec 16 := sel &&& 0xFFFC#16

/-- The fault code of a page fault: bit 0 protection violation, bit 1 write, bit 2 the `user` argument of `Translate` (R70).
For an operand and a fetch that argument says whether the access is made at CPL 3. The descriptor read and the Accessed-bit
write of a segment load have `user = false` (R81), so that their page fault has bit 2 = 0 at CPL 3 too, where R70's "made at
CPL 3" would give 1: the spec leaves this open. DESIGN CHOICE, log 31, unsafe for that bit. -/
def pageFaultCode (violation write user : Bool) : BitVec 16 :=
  (if violation then 1#16 else 0#16) ||| (if write then 2#16 else 0#16) ||| (if user then 4#16 else 0#16)

/-- The vector of a Real Address Mode range violation: 13, but through SS the parameter `REAL_SS_LIMIT_VECTOR`
(R65, C9, D17; log 14). -/
def realLimitVector (g : SegReg) : BitVec 8 :=
  if g = .ss ∧ Config.realSsLimitIsTwelve = true then 12#8 else 13#8

/-! ### The checks of an access (R65 to R69, R83) -/

/-- Why memory is accessed. -/
inductive Access where
  | read
  | write
  | fetch
  deriving DecidableEq, Repr

/-- AR bit 7: the segment is present (R30). -/
def arPresent (ar : Byte) : Bool := ar.getLsbD 7

/-- AR bits 6:5: DPL (R30). -/
def arDpl (ar : Byte) : BitVec 2 := ar.extractLsb' 5 2

/-- AR bit 4: a code or data segment, not a system one (R30). -/
def arCodeOrData (ar : Byte) : Bool := ar.getLsbD 4

/-- AR bit 3: a code segment (R30). -/
def arCode (ar : Byte) : Bool := ar.getLsbD 3

/-- AR bit 2: expand-down for a data segment, conforming for a code segment (R30). -/
def arExpandDownOrConforming (ar : Byte) : Bool := ar.getLsbD 2

/-- AR bit 1: writable for a data segment, readable for a code segment (R30). -/
def arWritableOrReadable (ar : Byte) : Bool := ar.getLsbD 1

/-- The effective address space of Real Address Mode: 0 to 0FFFFh, no wrap-around (R65). -/
def inRealRange (off n : Nat) : Bool := decide (off + n - 1 ≤ 0xFFFF)

/-- The access is within the segment's limits, expand-up or expand-down (R67). -/
def inLimit (g : Segment) (off n : Nat) : Bool :=
  if !arCode g.ar && arExpandDownOrConforming g.ar then
    decide (g.limit.toNat < off) && decide (off + n - 1 ≤ if g.big then 0xFFFFFFFF else 0xFFFF)
  else decide (off + n - 1 ≤ g.limit.toNat)

/-- The segment's type allows the access: a write needs a writable data segment, a read is not of an execute-only code
segment, a fetch is legal whether or not the segment is readable (R68, R83). -/
def typeAllows (g : Segment) : Access → Bool
  | .read => !(arCode g.ar && !arWritableOrReadable g.ar)
  | .write => !arCode g.ar && arWritableOrReadable g.ar
  | .fetch => true

/-- Steps (1) and (2) of R71: in Real Address Mode the range check with Interrupt 13, in Virtual 8086 Mode the same check
with #GP(0) (R66), in Protected Mode the valid bit (R69), then the access type (R68), then the limits (R67). -/
def checkAccess (s : State) (g : SegReg) (k : Access) (off n : Nat) : Except Stop Unit :=
  match s.mode with
  | .real => if inRealRange off n then .ok () else raise (.interrupt (realLimitVector g))
  | .v86 => if inRealRange off n then .ok () else raise (.gp 0#16)
  | .prot =>
    if !(s.segs.get g).valid then raise (.gp 0#16)
    else if !typeAllows (s.segs.get g) k then raise (.gp 0#16)
    else if inLimit (s.segs.get g) off n then .ok ()
    else if g = .ss then raise (.ss 0#16)
    else raise (.gp 0#16)

/-! ### Translation and the accesses (R70, R71) -/

/-- `Translate`: the identity without paging, otherwise the parameter, which may raise #PF (R70, D18; log 10). -/
def translate (s : State) (lin : Word) (write user : Bool) : Except Stop Word :=
  if s.paging then
    match Config.translate s.cr3 s.mem lin write user with
    | .mapped p => .ok p
    | .missing violation => raise (.pf (pageFaultCode violation write user) lin)
  else .ok lin

/-- The physical addresses of `n` bytes from a linear address up, wrapping modulo 2^32 (step (3) of R71, R63): if any byte
raises #PF, no byte is accessed. -/
def translateRun (s : State) (write user : Bool) : Word → Nat → Except Stop (List Word)
  | _, 0 => .ok []
  | lin, n + 1 => do
    let p ← translate s lin write user
    let ps ← translateRun s write user (lin + 1#32) n
    .ok (p :: ps)

/-- The byte lies in a range of program text. -/
def CodeRegion.contains (c : CodeRegion) (p : Word) : Bool := decide (c.lo ≤ p.toNat) && decide (p.toNat < c.hi)

/-- The byte lies in the program's code region (R79). -/
def ProgramText.contains (c : ProgramText) (p : Word) : Bool := c.any (fun r => r.contains p)

/-- The byte at a physical address; a byte that has no value faults (R41, D6, U13; log 3). -/
def givenByte (m : Memory) (p : Word) : Except Stop Byte :=
  match Memory.read m p.toNat with
  | some b => .ok b
  | none => .error (.fault (.unwritten p))

/-- The bytes at physical addresses, in their order; the first that has no value faults (R41). -/
def givenBytes (m : Memory) : List Word → Except Stop (List Byte)
  | [] => .ok []
  | p :: ps => do
    let b ← givenByte m p
    let bs ← givenBytes m ps
    .ok (b :: bs)

/-- `MemRead` at a linear address: `w` bits, little-endian (section 4.3 of 00_scope, R62). Every byte is translated before one
is read (R71). -/
def linRead (s : State) (w : Nat) (lin : Word) (user : Bool) : Except Stop (BitVec w) := do
  let ps ← translateRun s false user lin (w / 8)
  let bs ← givenBytes s.mem ps
  .ok (BitVec.ofNat w (fromBytes bs))

/-- `MemWrite` at a linear address: `w` bits, little-endian; refused where a byte lies in the code region (R62, R79). -/
def linWrite (s : State) (w : Nat) (lin : Word) (user : Bool) (v : BitVec w) : Except Stop State := do
  let ps ← translateRun s true user lin (w / 8)
  if ps.any s.code.contains then .error (.refuse .storeToCode)
  else .ok { s with mem := Memory.writeBytes s.mem ps (toBytes (w / 8) v.toNat) }

/-- The linear address of offset `off` in segment `g` (R63). -/
def State.linear (s : State) (g : SegReg) (off : Word) : Word := (s.segs.get g).base + off

/-- `SegRead(g, off, w/8)`: the checked read (R71). -/
def segRead (s : State) (w : Nat) (g : SegReg) (off : Word) : Except Stop (BitVec w) := do
  checkAccess s g .read off.toNat (w / 8)
  linRead s w (s.linear g off) s.user

/-- `SegWrite(g, off, w/8, v)`: the checked write (R71). -/
def segWrite (s : State) (w : Nat) (g : SegReg) (off : Word) (v : BitVec w) : Except Stop State := do
  checkAccess s g .write off.toNat (w / 8)
  linWrite s w (s.linear g off) s.user v

/-! ### Completing an instruction (R24, R37, R123) -/

/-- `pc + length`, modulo 2^16 with a 16-bit `DEFAULT_SIZE`, modulo 2^32 otherwise (R24, D24). -/
def nextPc (d : Size) (pc : Word) (n : Nat) : Word :=
  match d with
  | .w16 => ((pc + BitVec.ofNat 32 n).extractLsb' 0 16).setWidth 32
  | .w32 => pc + BitVec.ofNat 32 n

/-- The completion of an instruction of `n` bytes: pc advances (R123) and the interrupt-inhibit latch becomes `inh`, which is
1 for a MOV into SS only (R37, R177). -/
def State.advance (t : State) (d : Size) (n : Nat) (inh : Bool) : State :=
  { t with pc := nextPc d t.pc n, inhibit := inh }

/-- Ends instruction `i`, begun in `s`: completed with the state its rule wrote, or stopped (R7). The length and the modulus
are those of the state the instruction began in (R212: a new mode governs from the next instruction on). -/
def retireWith (inh : Bool) (i : Instr) (s : State) : Except Stop State → Host.Outcome State Fault Refusal
  | .ok t => .next (t.advance s.defaultSize (i.length s.defaultSize) inh)
  | .error e => e.outcome

/-- Ends any instruction but a MOV into SS: the latch is cleared (R37). -/
def retire (i : Instr) (s : State) (r : Except Stop State) : Host.Outcome State Fault Refusal :=
  retireWith false i s r

end Sys2Proof.Machine
end

