-- ==== Sys2Proof/Machine/Operands.lean ====
section
/-!
DEFINITION. Operands: effective addresses (30_encoding.md R108 to R111), the segment of a memory operand (R64), and reading and
writing an `r/m` or `moffs` operand at each width (40_mov.md R151 to R157, R160 to R165).
-/

namespace Sys2Proof.Machine

/-- The sum of a 16-bit form's base registers (R108). -/
def base16Value (x : Regs) : Base16 → BitVec 16
  | .bxSi => x.get16 .ebx + x.get16 .esi
  | .bxDi => x.get16 .ebx + x.get16 .edi
  | .bpSi => x.get16 .ebp + x.get16 .esi
  | .bpDi => x.get16 .ebp + x.get16 .edi
  | .si => x.get16 .esi
  | .di => x.get16 .edi
  | .bp => x.get16 .ebp
  | .bx => x.get16 .ebx

/-- A 16-bit form's displacement, `disp8` sign-extended (R108). -/
def disp16Value : Disp16 → BitVec 16
  | .none => 0#16
  | .d8 d => d.signExtend 16
  | .d16 d => d

/-- A 32-bit form's displacement, `disp8` sign-extended (R109). -/
def disp32Value : Disp32 → BitVec 32
  | .none => 0#32
  | .d8 d => d.signExtend 32
  | .d32 d => d

/-- The scaled index of a SIB byte: 0 where there is no index (R110). -/
def indexValue (x : Regs) (ss : BitVec 2) : Option Reg → Word
  | none => 0#32
  | some r => x.get r <<< ss.toNat

/-- `EA`: the offset of a memory operand, from the registers before the instruction (R108 to R111). A 16-bit sum wraps modulo
2^16 and is zero-extended; a 32-bit sum wraps modulo 2^32. -/
def effectiveAddress (x : Regs) : Mem → Word
  | .direct16 d => d.setWidth 32
  | .based16 b d => (base16Value x b + disp16Value d).setWidth 32
  | .direct32 d => d
  | .based32 b d => x.get b + disp32Value d
  | .scaled ss index b d => x.get b + indexValue x ss index + disp32Value d
  | .scaledNoBase ss index d => indexValue x ss index + d

/-- The default segment of a 16-bit base: SS with BP, DS otherwise (R108, R64). -/
def base16Segment : Base16 → SegReg
  | .bpSi | .bpDi | .bp => .ss
  | .bxSi | .bxDi | .si | .di | .bx => .ds

/-- The default segment of a 32-bit base register: SS with ESP or EBP, DS otherwise (R109, R110, R64). -/
def base32Segment : Reg → SegReg
  | .esp | .ebp => .ss
  | .eax | .ecx | .edx | .ebx | .esi | .edi => .ds

/-- The default segment of a memory operand (R64, R108 to R110). -/
def defaultSegment : Mem → SegReg
  | .direct16 _ | .direct32 _ | .scaledNoBase _ _ _ => .ds
  | .based16 b _ => base16Segment b
  | .based32 b _ | .scaled _ _ b _ => base32Segment b

/-- `S`: the segment of a memory operand, the override's if there is one (R64). -/
def operandSegment (a : Attr) (m : Mem) : SegReg := a.seg.getD (defaultSegment m)

/-- The segment of a `moffs` operand: DS unless overridden (R64, R113). -/
def moffsSegment (a : Attr) : SegReg := a.seg.getD .ds

/-- The value of an `r/m8` operand (R104, R155). -/
def readRm8 (a : Attr) (s : State) : Rm Reg8 → Except Stop (BitVec 8)
  | .reg r => .ok (s.regs.get8 r)
  | .mem m => segRead s 8 (operandSegment a m) (effectiveAddress s.regs m)

/-- The value of an `r/m16` operand (R104, R156). -/
def readRm16 (a : Attr) (s : State) : Rm Reg → Except Stop (BitVec 16)
  | .reg r => .ok (s.regs.get16 r)
  | .mem m => segRead s 16 (operandSegment a m) (effectiveAddress s.regs m)

/-- The value of an `r/m32` operand (R104, R157). -/
def readRm32 (a : Attr) (s : State) : Rm Reg → Except Stop (BitVec 32)
  | .reg r => .ok (s.regs.get r)
  | .mem m => segRead s 32 (operandSegment a m) (effectiveAddress s.regs m)

/-- `x8[r] <- v` in the state (R22). -/
def State.setReg8 (s : State) (r : Reg8) (v : BitVec 8) : State := { s with regs := s.regs.set8 r v }

/-- `x16[r] <- v` in the state (R22). -/
def State.setReg16 (s : State) (r : Reg) (v : BitVec 16) : State := { s with regs := s.regs.set16 r v }

/-- `x[r] <- v` in the state (R20). -/
def State.setReg (s : State) (r : Reg) (v : Word) : State := { s with regs := s.regs.set r v }

/-- A write of an `r/m8` operand (R104, R152). -/
def writeRm8 (a : Attr) (s : State) (v : BitVec 8) : Rm Reg8 → Except Stop State
  | .reg r => .ok (s.setReg8 r v)
  | .mem m => segWrite s 8 (operandSegment a m) (effectiveAddress s.regs m) v

/-- A write of an `r/m16` operand (R104, R153). -/
def writeRm16 (a : Attr) (s : State) (v : BitVec 16) : Rm Reg → Except Stop State
  | .reg r => .ok (s.setReg16 r v)
  | .mem m => segWrite s 16 (operandSegment a m) (effectiveAddress s.regs m) v

/-- A write of an `r/m32` operand (R104, R154). -/
def writeRm32 (a : Attr) (s : State) (v : BitVec 32) : Rm Reg → Except Stop State
  | .reg r => .ok (s.setReg r v)
  | .mem m => segWrite s 32 (operandSegment a m) (effectiveAddress s.regs m) v

end Sys2Proof.Machine
end

