-- ==== Sys2Proof/Machine/Extend.lean ====
section
/-!
DEFINITION. MOVSX and MOVZX (43_movsx.md R260 to R264, 44_movzx.md R270 to R274): a register or memory source of 8 or 16 bits,
sign-extended or zero-extended to the operand size; no flag.
-/

namespace Sys2Proof.Machine

/-- MOVSX r16,r/m8 (R261). -/
def execMovsxR16Rm8 (a : Attr) (dst : Reg) (src : Rm Reg8) (s : State) : Host.Outcome State Fault Refusal :=
  retire (.movsxR16Rm8 a dst src) s do
    let v ← readRm8 a s src
    .ok (s.setReg16 dst (v.signExtend 16))

/-- MOVSX r32,r/m8 (R262). -/
def execMovsxR32Rm8 (a : Attr) (dst : Reg) (src : Rm Reg8) (s : State) : Host.Outcome State Fault Refusal :=
  retire (.movsxR32Rm8 a dst src) s do
    let v ← readRm8 a s src
    .ok (s.setReg dst (v.signExtend 32))

/-- MOVSX r32,r/m16 (R263). -/
def execMovsxR32Rm16 (a : Attr) (dst : Reg) (src : Rm Reg) (s : State) : Host.Outcome State Fault Refusal :=
  retire (.movsxR32Rm16 a dst src) s do
    let v ← readRm16 a s src
    .ok (s.setReg dst (v.signExtend 32))

/-- MOVZX r16,r/m8 (R271). -/
def execMovzxR16Rm8 (a : Attr) (dst : Reg) (src : Rm Reg8) (s : State) : Host.Outcome State Fault Refusal :=
  retire (.movzxR16Rm8 a dst src) s do
    let v ← readRm8 a s src
    .ok (s.setReg16 dst (v.setWidth 16))

/-- MOVZX r32,r/m8 (R272). -/
def execMovzxR32Rm8 (a : Attr) (dst : Reg) (src : Rm Reg8) (s : State) : Host.Outcome State Fault Refusal :=
  retire (.movzxR32Rm8 a dst src) s do
    let v ← readRm8 a s src
    .ok (s.setReg dst (v.setWidth 32))

/-- MOVZX r32,r/m16 (R273). -/
def execMovzxR32Rm16 (a : Attr) (dst : Reg) (src : Rm Reg) (s : State) : Host.Outcome State Fault Refusal :=
  retire (.movzxR32Rm16 a dst src) s do
    let v ← readRm16 a s src
    .ok (s.setReg dst (v.setWidth 32))

end Sys2Proof.Machine
end

