-- ==== Sys2Proof/Machine/Mov.lean ====
section
/-!
DEFINITION. MOV -- Move Data: the register and memory forms, the moffs forms and the immediate forms (40_mov.md R150 to R157,
R160 to R171). "DEST <- SRC", copied unchanged at the width of the form; no flag is read or written.
-/

namespace Sys2Proof.Machine

/-- MOV r/m8,r8 (R152). -/
def execMovRm8R8 (a : Attr) (dst : Rm Reg8) (src : Reg8) (s : State) : Host.Outcome State Fault Refusal :=
  retire (.movRm8R8 a dst src) s (writeRm8 a s (s.regs.get8 src) dst)

/-- MOV r/m16,r16 (R153). -/
def execMovRm16R16 (a : Attr) (dst : Rm Reg) (src : Reg) (s : State) : Host.Outcome State Fault Refusal :=
  retire (.movRm16R16 a dst src) s (writeRm16 a s (s.regs.get16 src) dst)

/-- MOV r/m32,r32 (R154). -/
def execMovRm32R32 (a : Attr) (dst : Rm Reg) (src : Reg) (s : State) : Host.Outcome State Fault Refusal :=
  retire (.movRm32R32 a dst src) s (writeRm32 a s (s.regs.get src) dst)

/-- MOV r8,r/m8 (R155). -/
def execMovR8Rm8 (a : Attr) (dst : Reg8) (src : Rm Reg8) (s : State) : Host.Outcome State Fault Refusal :=
  retire (.movR8Rm8 a dst src) s do
    let v ← readRm8 a s src
    .ok (s.setReg8 dst v)

/-- MOV r16,r/m16 (R156). -/
def execMovR16Rm16 (a : Attr) (dst : Reg) (src : Rm Reg) (s : State) : Host.Outcome State Fault Refusal :=
  retire (.movR16Rm16 a dst src) s do
    let v ← readRm16 a s src
    .ok (s.setReg16 dst v)

/-- MOV r32,r/m32 (R157). -/
def execMovR32Rm32 (a : Attr) (dst : Reg) (src : Rm Reg) (s : State) : Host.Outcome State Fault Refusal :=
  retire (.movR32Rm32 a dst src) s do
    let v ← readRm32 a s src
    .ok (s.setReg dst v)

/-- MOV AL,moffs8 (R160). -/
def execMovAlMoffs8 (a : Attr) (off : Word) (s : State) : Host.Outcome State Fault Refusal :=
  retire (.movAlMoffs8 a off) s do
    let v ← segRead s 8 (moffsSegment a) off
    .ok (s.setReg8 .al v)

/-- MOV AX,moffs16 (R161). -/
def execMovAxMoffs16 (a : Attr) (off : Word) (s : State) : Host.Outcome State Fault Refusal :=
  retire (.movAxMoffs16 a off) s do
    let v ← segRead s 16 (moffsSegment a) off
    .ok (s.setReg16 .eax v)

/-- MOV EAX,moffs32 (R162). -/
def execMovEaxMoffs32 (a : Attr) (off : Word) (s : State) : Host.Outcome State Fault Refusal :=
  retire (.movEaxMoffs32 a off) s do
    let v ← segRead s 32 (moffsSegment a) off
    .ok (s.setReg .eax v)

/-- MOV moffs8,AL (R163). -/
def execMovMoffs8Al (a : Attr) (off : Word) (s : State) : Host.Outcome State Fault Refusal :=
  retire (.movMoffs8Al a off) s (segWrite s 8 (moffsSegment a) off (s.regs.get8 .al))

/-- MOV moffs16,AX (R164). -/
def execMovMoffs16Ax (a : Attr) (off : Word) (s : State) : Host.Outcome State Fault Refusal :=
  retire (.movMoffs16Ax a off) s (segWrite s 16 (moffsSegment a) off (s.regs.get16 .eax))

/-- MOV moffs32,EAX (R165). -/
def execMovMoffs32Eax (a : Attr) (off : Word) (s : State) : Host.Outcome State Fault Refusal :=
  retire (.movMoffs32Eax a off) s (segWrite s 32 (moffsSegment a) off (s.regs.get .eax))

/-- MOV reg8,imm8 (R166). -/
def execMovReg8Imm8 (a : Attr) (dst : Reg8) (imm : BitVec 8) (s : State) : Host.Outcome State Fault Refusal :=
  retire (.movReg8Imm8 a dst imm) s (.ok (s.setReg8 dst imm))

/-- MOV reg16,imm16 (R167). -/
def execMovReg16Imm16 (a : Attr) (dst : Reg) (imm : BitVec 16) (s : State) : Host.Outcome State Fault Refusal :=
  retire (.movReg16Imm16 a dst imm) s (.ok (s.setReg16 dst imm))

/-- MOV reg32,imm32 (R168). -/
def execMovReg32Imm32 (a : Attr) (dst : Reg) (imm : BitVec 32) (s : State) : Host.Outcome State Fault Refusal :=
  retire (.movReg32Imm32 a dst imm) s (.ok (s.setReg dst imm))

/-- MOV r/m8,imm8 (R169). -/
def execMovRm8Imm8 (a : Attr) (dst : Rm Reg8) (imm : BitVec 8) (s : State) : Host.Outcome State Fault Refusal :=
  retire (.movRm8Imm8 a dst imm) s (writeRm8 a s imm dst)

/-- MOV r/m16,imm16 (R170). -/
def execMovRm16Imm16 (a : Attr) (dst : Rm Reg) (imm : BitVec 16) (s : State) : Host.Outcome State Fault Refusal :=
  retire (.movRm16Imm16 a dst imm) s (writeRm16 a s imm dst)

/-- MOV r/m32,imm32 (R171). -/
def execMovRm32Imm32 (a : Attr) (dst : Rm Reg) (imm : BitVec 32) (s : State) : Host.Outcome State Fault Refusal :=
  retire (.movRm32Imm32 a dst imm) s (writeRm32 a s imm dst)

end Sys2Proof.Machine
end

