-- ==== Sys2Proof/Machine/Flags.lean ====
section
/-!
DEFINITION. EFLAGS: the word its cells make (10_state.md R25) and the flag effects of the instructions in scope (R27): the six
undefined flags of a special-register move (R202) and the flags of MUL (R284). An undefined flag is a free draw (D13; log 7).
-/

namespace Sys2Proof.Machine

/-- One cell as a bit of a word. -/
def flagBit (b : Bool) (n : Nat) : Word := if b then 1#32 <<< n else 0#32

/-- EFLAGS as a word: bit 1 reads as 1; bits 3, 5, 15 and 31:18 are zero (R25). -/
def Eflags.toWord (f : Eflags) : Word :=
  flagBit f.cf 0 ||| 2#32 ||| flagBit f.pf 2 ||| flagBit f.af 4 ||| flagBit f.zf 6 ||| flagBit f.sf 7 ||| flagBit f.tf 8
    ||| flagBit f.ie 9 ||| flagBit f.df 10 ||| flagBit f.of 11 ||| (f.iopl.setWidth 32 <<< 12) ||| flagBit f.nt 14
    ||| flagBit f.rf 16 ||| flagBit f.vm 17

/-- `UndefFlags6` of R202: OF, SF, ZF, AF, PF and CF are six draws of their own; every other bit is kept. -/
def undefFlags6 (s : State) : State :=
  { s with
    flags := { s.flags with
      of := Config.anyBit s.draws
      sf := Config.anyBit (s.draws + 1)
      zf := Config.anyBit (s.draws + 2)
      af := Config.anyBit (s.draws + 3)
      pf := Config.anyBit (s.draws + 4)
      cf := Config.anyBit (s.draws + 5) }
    draws := s.draws + 6 }

/-- `MulFlags(hi)` of R284: CF = OF = (the high half is not 0); SF, ZF, AF and PF are four draws of their own. -/
def mulFlags (s : State) (high : Bool) : State :=
  { s with
    flags := { s.flags with
      cf := high
      of := high
      sf := Config.anyBit s.draws
      zf := Config.anyBit (s.draws + 1)
      af := Config.anyBit (s.draws + 2)
      pf := Config.anyBit (s.draws + 3) }
    draws := s.draws + 4 }

end Sys2Proof.Machine
end

