-- ==== Sys2Proof/Machine/Mul.lean ====
section
/-!
DEFINITION. MUL -- Unsigned Multiplication (45_mul.md R280 to R285): the exact product of the accumulator and the operand, its
low half in the accumulator, its high half in AH, DX or EDX; CF = OF = (the high half is not 0).
-/

namespace Sys2Proof.Machine

/-- The exact product of two `n`-bit unsigned integers, `2 * n` bits wide: nothing is truncated (R280). -/
def product {n : Nat} (x y : BitVec n) : BitVec (2 * n) := x.setWidth (2 * n) * y.setWidth (2 * n)

/-- The low half of a product (R285). -/
def productLow {n : Nat} (p : BitVec (2 * n)) : BitVec n := p.extractLsb' 0 n

/-- The high half of a product (R285). -/
def productHigh {n : Nat} (p : BitVec (2 * n)) : BitVec n := p.extractLsb' n n

/-- AX <- the product of AL and a byte; the flags from AH (R281, R284). -/
def mulByte (s : State) (v : BitVec 8) : State :=
  mulFlags (s.setReg16 .eax (product (s.regs.get8 .al) v)) (productHigh (product (s.regs.get8 .al) v) != 0#8)

/-- DX:AX <- the product of AX and a word; the flags from DX (R282, R284). -/
def mulHalf (s : State) (v : BitVec 16) : State :=
  mulFlags
    ((s.setReg16 .eax (productLow (product (s.regs.get16 .eax) v))).setReg16 .edx
      (productHigh (product (s.regs.get16 .eax) v)))
    (productHigh (product (s.regs.get16 .eax) v) != 0#16)

/-- EDX:EAX <- the product of EAX and a doubleword; the flags from EDX (R283, R284). -/
def mulWord (s : State) (v : BitVec 32) : State :=
  mulFlags
    ((s.setReg .eax (productLow (product (s.regs.get .eax) v))).setReg .edx (productHigh (product (s.regs.get .eax) v)))
    (productHigh (product (s.regs.get .eax) v) != 0#32)

/-- MUL AL,r/m8 (R281). -/
def execMulRm8 (a : Attr) (src : Rm Reg8) (s : State) : Host.Outcome State Fault Refusal :=
  retire (.mulRm8 a src) s do
    let v ← readRm8 a s src
    .ok (mulByte s v)

/-- MUL AX,r/m16 (R282). -/
def execMulRm16 (a : Attr) (src : Rm Reg) (s : State) : Host.Outcome State Fault Refusal :=
  retire (.mulRm16 a src) s do
    let v ← readRm16 a s src
    .ok (mulHalf s v)

/-- MUL EAX,r/m32 (R283). -/
def execMulRm32 (a : Attr) (src : Rm Reg) (s : State) : Host.Outcome State Fault Refusal :=
  retire (.mulRm32 a src) s do
    let v ← readRm32 a s src
    .ok (mulWord s v)

end Sys2Proof.Machine
end

