-- ==== Sys2Proof/Machine/Segment.lean ====
section
/-!
DEFINITION. MOV to and from the segment registers (40_mov.md R158, R159, R172 to R179): selectors and descriptors (10_state.md
R29 to R32), the descriptor-table read (20_memory.md R81) and the load of a segment register with its checks.
-/

namespace Sys2Proof.Machine

/-! ### Selectors and descriptors (R29, R31, R32) -/

/-- RPL: bits 1:0 of a selector (R29). -/
def selectorRpl (sel : BitVec 16) : BitVec 2 := sel.extractLsb' 0 2

/-- TI: bit 2 of a selector, 0 for the global table, 1 for the local one (R29). -/
def selectorTi (sel : BitVec 16) : Bool := sel.getLsbD 2

/-- The index: bits 15:3 of a selector (R29). -/
def selectorIndex (sel : BitVec 16) : Nat := (sel.extractLsb' 3 13).toNat

/-- A null selector: 0000h to 0003h (R29). -/
def selectorNull (sel : BitVec 16) : Bool := sel.extractLsb' 2 14 == 0#14

/-- The AR byte of a descriptor (R31). -/
def descriptorAr (d : BitVec 64) : Byte := d.extractLsb' 40 8

/-- The base of a descriptor (R31). -/
def descriptorBase (d : BitVec 64) : Word := d.extractLsb' 56 8 ++ d.extractLsb' 16 24

/-- The limit of a descriptor, in bytes or, with G = 1, in units of 1000h bytes (R31). -/
def descriptorLimit (d : BitVec 64) : Word :=
  if d.getLsbD 55 then d.extractLsb' 48 4 ++ d.extractLsb' 0 16 ++ 0xFFF#12
  else (d.extractLsb' 48 4 ++ d.extractLsb' 0 16).setWidth 32

/-- The segment register loaded with a selector and its descriptor (R31). -/
def loadedSegment (sel : BitVec 16) (d : BitVec 64) : Segment where
  sel := sel
  valid := true
  base := descriptorBase d
  limit := descriptorLimit d
  ar := descriptorAr d
  big := d.getLsbD 54

/-- The linear base of the table a selector names (R32). -/
def tableBase (s : State) (sel : BitVec 16) : Word := if selectorTi sel then s.ldtr.base else s.gdtr.base

/-- The index is within the limits of its table; for the local table LDTR must be valid (R32, R81). -/
def indexInTable (s : State) (sel : BitVec 16) : Bool :=
  if selectorTi sel then s.ldtr.valid && decide (8 * selectorIndex sel + 7 ≤ s.ldtr.limit.toNat)
  else decide (8 * selectorIndex sel + 7 ≤ s.gdtr.limit.toNat)

/-- The linear address of the table entry a selector names (R32). -/
def entryAddress (s : State) (sel : BitVec 16) : Word := tableBase s sel + BitVec.ofNat 32 (8 * selectorIndex sel)

/-- `ReadDescriptor(sel)`: the limit check, then the 8 bytes of the entry, read with supervisor rights (R81). -/
def readDescriptor (s : State) (sel : BitVec 16) : Except Stop (BitVec 64) :=
  if indexInTable s sel then linRead s 64 (entryAddress s sel) false else raise (.gp (selectorCode sel))

/-! ### Loading a segment register (R172 to R176) -/

/-- The load itself, after every check: the Accessed bit is written back if it was 0 (R81, D22; log 24), and the register
gets the selector and the descriptor as read (R173, R174). -/
def commitLoad (s : State) (g : SegDest) (sel : BitVec 16) (d : BitVec 64) : Except Stop State := do
  let t ←
    if Config.setAccessed && !d.getLsbD 40 then
      linWrite s 8 (entryAddress s sel + 5#32) false (descriptorAr d ||| 0x01#8)
    else .ok s
  .ok { t with segs := t.segs.set g (loadedSegment sel d) }

/-- The AR byte of a writable data segment (R30, R173). -/
def arWritableData (ar : Byte) : Bool := arCodeOrData ar && !arCode ar && arWritableOrReadable ar

/-- The AR byte of a data or readable code segment (R30, R174). -/
def arDataOrReadableCode (ar : Byte) : Bool := arCodeOrData ar && (!arCode ar || arWritableOrReadable ar)

/-- The AR byte of a data or nonconforming code segment (R30, R174, C5). -/
def arDataOrNonconforming (ar : Byte) : Bool := !arCode ar || !arExpandDownOrConforming ar

/-- Load of SS in Protected Mode: the checks in the listing's order (R173). -/
def loadStackSegment (s : State) (sel : BitVec 16) : Except Stop State :=
  if selectorNull sel then raise (.gp 0#16)
  else do
    let d ← readDescriptor s sel
    if selectorRpl sel ≠ s.cpl then raise (.gp (selectorCode sel))
    else if !arWritableData (descriptorAr d) then raise (.gp (selectorCode sel))
    else if arDpl (descriptorAr d) ≠ s.cpl then raise (.gp (selectorCode sel))
    else if !arPresent (descriptorAr d) then raise (.ss (selectorCode sel))
    else commitLoad s .ss sel d

/-- Load of DS, ES, FS or GS with a non-null selector in Protected Mode: the checks in the listing's order (R174, C5). -/
def loadDataSegment (s : State) (g : SegDest) (sel : BitVec 16) : Except Stop State := do
  let d ← readDescriptor s sel
  if !arDataOrReadableCode (descriptorAr d) then raise (.gp (selectorCode sel))
  else if arDataOrNonconforming (descriptorAr d) = true
      ∧ ¬(selectorRpl sel ≤ arDpl (descriptorAr d) ∧ s.cpl ≤ arDpl (descriptorAr d)) then
    raise (.gp (selectorCode sel))
  else if !arPresent (descriptorAr d) then raise (.np (selectorCode sel))
  else commitLoad s g sel d

/-- Load of DS, ES, FS or GS with a null selector in Protected Mode: the valid bit is cleared, the other hidden fields stay
(R175, U4; log 17). -/
def loadNullSegment (s : State) (g : SegDest) (sel : BitVec 16) : State :=
  { s with segs := s.segs.set g { s.segs.get g.toSegReg with sel := sel, valid := false } }

/-- Load of a segment register in Real Address Mode or Virtual 8086 Mode: base = selector * 16; limit, AR byte and `big`
stay (R176, D26). -/
def loadRealSegment (s : State) (g : SegDest) (sel : BitVec 16) : State :=
  { s with segs := s.segs.set g { s.segs.get g.toSegReg with sel := sel, base := sel.setWidth 32 <<< 4, valid := true } }

/-- `LoadSeg(g, sel)` (R172). -/
def loadSegment (s : State) (g : SegDest) (sel : BitVec 16) : Except Stop State :=
  match s.mode with
  | .prot =>
    if g = .ss then loadStackSegment s sel
    else if selectorNull sel then .ok (loadNullSegment s g sel)
    else loadDataSegment s g sel
  | .real | .v86 => .ok (loadRealSegment s g sel)

/-- The 32-bit register destination of MOV r/m16,Sreg: the selector below 16 bits that are a draw (R179, D14; log 7). -/
def setRegSelector (s : State) (r : Reg) (sel : BitVec 16) : State :=
  { s with regs := s.regs.set r (Config.anyHalf s.draws ++ sel), draws := s.draws + 1 }

/-- MOV r/m16,Sreg (R158, R179). -/
def execMovRm16Sreg (a : Attr) (dst : Rm Reg) (src : SegReg) (s : State) : Host.Outcome State Fault Refusal :=
  retire (.movRm16Sreg a dst src) s
    (match dst, a.opsize with
    | .reg r, .w32 => .ok (setRegSelector s r (s.segs.get src).sel)
    | .reg r, .w16 => writeRm16 a s (s.segs.get src).sel (.reg r)
    | .mem m, _ => writeRm16 a s (s.segs.get src).sel (.mem m))

/-- MOV Sreg,r/m16 (R159): a completed load of SS sets the interrupt-inhibit latch (R177). -/
def execMovSregRm16 (a : Attr) (dst : SegDest) (src : Rm Reg) (s : State) : Host.Outcome State Fault Refusal :=
  retireWith (dst == .ss) (.movSregRm16 a dst src) s do
    let sel ← readRm16 a s src
    loadSegment s dst sel

end Sys2Proof.Machine
end

