-- ==== Sys2Proof/Machine/Special.lean ====
section
/-!
DEFINITION. MOV to and from the control, debug and test registers (41_mov_special.md R200 to R213): always 32 bits, privilege
check first, six flags undefined afterwards.
-/

namespace Sys2Proof.Machine

/-- `PrivCheck` of R201. -/
def privCheck (s : State) : Except Stop Unit :=
  match s.mode with
  | .v86 => raise (.gp 0#16)
  | .prot => if s.cpl ≠ 0#2 then raise (.gp 0#16) else .ok ()
  | .real => .ok ()

/-- The value a read gives: the cell in the defined bits, a draw in the reserved ones (R34, U6; log 8). -/
def withReserved (defined cell draw : Word) : Word := (cell &&& defined) ||| (draw &&& ~~~defined)

/-! ### Control registers (R34) -/

/-- `cr[n]` (R34). -/
def State.ctrl (s : State) : CtrlReg → Word
  | .cr0 => s.cr0 | .cr2 => s.cr2 | .cr3 => s.cr3

/-- `cr[n] <- v` (R34): from the next instruction on, CR0.PE and CR0.PG govern mode and translation (R212, R38; log 12). -/
def State.setCtrl (s : State) (c : CtrlReg) (v : Word) : State :=
  match c with
  | .cr0 => { s with cr0 := v } | .cr2 => { s with cr2 := v } | .cr3 => { s with cr3 := v }

/-- The bits that are not reserved: CR0 bits 31 and 4:0, all of CR2, CR3 bits 31:12 (R34, U6). -/
def ctrlDefined : CtrlReg → Word
  | .cr0 => 0x8000001F#32 | .cr2 => 0xFFFFFFFF#32 | .cr3 => 0xFFFFF000#32

/-! ### Debug registers (R35) -/

/-- `dr[0]` to `dr[3]` (R35). -/
def State.breakAddr (s : State) : BreakReg → Word
  | .dr0 => s.dr0 | .dr1 => s.dr1 | .dr2 => s.dr2 | .dr3 => s.dr3

/-- `dr[0]` to `dr[3] <- v` (R35). -/
def State.setBreakAddr (s : State) (k : BreakReg) (v : Word) : State :=
  match k with
  | .dr0 => { s with dr0 := v } | .dr1 => { s with dr1 := v } | .dr2 => { s with dr2 := v } | .dr3 => { s with dr3 := v }

/-- `dr[6]`, `dr[7]` (R35). -/
def State.debug (s : State) : DebugReg → Word
  | .dr6 => s.dr6 | .dr7 => s.dr7

/-- `dr[6]`, `dr[7] <- v` (R35). -/
def State.setDebug (s : State) (k : DebugReg) (v : Word) : State :=
  match k with
  | .dr6 => { s with dr6 := v } | .dr7 => { s with dr7 := v }

/-- The bits that are not reserved: DR6 bits 15, 14, 13 and 3:0; all of DR7 but bits 15, 14, 12, 11, 10 (R35, U6). -/
def debugDefined : DebugReg → Word
  | .dr6 => 0x0000E00F#32 | .dr7 => 0xFFFF23FF#32

/-- The write would enable a breakpoint: DR7 with any of bits 7:0 set (R212, R320). -/
def armsBreakpoint (k : DebugReg) (v : Word) : Bool := k == .dr7 && v.extractLsb' 0 8 != 0#8

/-! ### Test registers (R36) -/

/-- `tr[6]`, `tr[7]` (R36). -/
def State.test (s : State) : TestReg → Word
  | .tr6 => s.tr6 | .tr7 => s.tr7

/-- `tr[6]`, `tr[7] <- v` (R36). A write of TR6 also runs a TLB test command on the hardware, so that every later read of
TR6 and TR7 is a draw (R212, U7; log 9). -/
def State.setTest (s : State) (t : TestReg) (v : Word) : State :=
  match t with
  | .tr6 => { s with tr6 := v, tlbTested := true } | .tr7 => { s with tr7 := v }

/-- The bits that are not reserved: TR6 bits 31:5 and 0; TR7 bits 31:12 and 4:2 (R36, U6). -/
def testDefined : TestReg → Word
  | .tr6 => 0xFFFFFFE1#32 | .tr7 => 0xFFFFF01C#32

/-- What a read of TR6 or TR7 gives (R209, R212, U6, U7). -/
def testRead (s : State) (t : TestReg) : Word :=
  if s.tlbTested then Config.anyWord s.draws else withReserved (testDefined t) (s.test t) (Config.anyWord s.draws)

/-- `x[r] <- v` where `v` used the draw of number `draws` (section 4.3 of 00_scope; log 7). -/
def State.setRegDrawn (s : State) (r : Reg) (v : Word) : State :=
  { s with regs := s.regs.set r v, draws := s.draws + 1 }

/-! ### The eight rows -/

/-- MOV r32,CR0/CR2/CR3 (R203). -/
def execMovR32Cr (a : Attr) (dst : Reg) (src : CtrlReg) (s : State) : Host.Outcome State Fault Refusal :=
  retire (.movR32Cr a dst src) s do
    privCheck s
    .ok (undefFlags6 (s.setRegDrawn dst (withReserved (ctrlDefined src) (s.ctrl src) (Config.anyWord s.draws))))

/-- MOV CR0/CR2/CR3,r32 (R204, R212). -/
def execMovCrR32 (a : Attr) (dst : CtrlReg) (src : Reg) (s : State) : Host.Outcome State Fault Refusal :=
  retire (.movCrR32 a dst src) s do
    privCheck s
    .ok (undefFlags6 (s.setCtrl dst (s.regs.get src)))

/-- MOV r32,DR0 -- 3 (R205). -/
def execMovR32Dr03 (a : Attr) (dst : Reg) (src : BreakReg) (s : State) : Host.Outcome State Fault Refusal :=
  retire (.movR32Dr03 a dst src) s do
    privCheck s
    .ok (undefFlags6 (s.setReg dst (s.breakAddr src)))

/-- MOV r32,DR6/DR7 (R206). -/
def execMovR32Dr67 (a : Attr) (dst : Reg) (src : DebugReg) (s : State) : Host.Outcome State Fault Refusal :=
  retire (.movR32Dr67 a dst src) s do
    privCheck s
    .ok (undefFlags6 (s.setRegDrawn dst (withReserved (debugDefined src) (s.debug src) (Config.anyWord s.draws))))

/-- MOV DR0 -- 3,r32 (R207). -/
def execMovDr03R32 (a : Attr) (dst : BreakReg) (src : Reg) (s : State) : Host.Outcome State Fault Refusal :=
  retire (.movDr03R32 a dst src) s do
    privCheck s
    .ok (undefFlags6 (s.setBreakAddr dst (s.regs.get src)))

/-- MOV DR6/DR7,r32 (R208): a write of DR7 that enables a breakpoint is refused (R212). -/
def execMovDr67R32 (a : Attr) (dst : DebugReg) (src : Reg) (s : State) : Host.Outcome State Fault Refusal :=
  retire (.movDr67R32 a dst src) s do
    privCheck s
    if armsBreakpoint dst (s.regs.get src) then .error (.refuse .breakpointEnable)
    else .ok (undefFlags6 (s.setDebug dst (s.regs.get src)))

/-- MOV r32,TR6/TR7 (R209). -/
def execMovR32Tr (a : Attr) (dst : Reg) (src : TestReg) (s : State) : Host.Outcome State Fault Refusal :=
  retire (.movR32Tr a dst src) s do
    privCheck s
    .ok (undefFlags6 (s.setRegDrawn dst (testRead s src)))

/-- MOV TR6/TR7,r32 (R210): a write of TR6 with CR0.PG = 1 is refused (R212). -/
def execMovTrR32 (a : Attr) (dst : TestReg) (src : Reg) (s : State) : Host.Outcome State Fault Refusal :=
  retire (.movTrR32 a dst src) s do
    privCheck s
    if (dst == .tr6 && s.pg) = true then .error (.refuse .tlbCommandWithPaging)
    else .ok (undefFlags6 (s.setTest dst (s.regs.get src)))

end Sys2Proof.Machine
end

