-- ==== Sys2Proof/Machine/Strings.lean ====
section
/-!
DEFINITION. MOVS and REP MOVS (42_movs.md R230 to R237): one element is read whole through DS or the override, then written
through ES, then the index registers advance; one iteration of REP MOVS is one step.
-/

namespace Sys2Proof.Machine

/-- An index or count register at the address size: 16 bits zero-extended, or 32 bits (R230, R236). -/
def indexRead (z : Size) (x : Regs) (r : Reg) : Word :=
  match z with
  | .w16 => (x.get16 r).setWidth 32
  | .w32 => x.get r

/-- A write of an index or count register at the address size: with 16 bits, bits 31:16 are kept (R230, R236). -/
def indexWrite (z : Size) (x : Regs) (r : Reg) (v : Word) : Regs :=
  match z with
  | .w16 => x.set16 r (v.extractLsb' 0 16)
  | .w32 => x.set r v

/-- `delta` for an element of `w` bits: its bytes, added or, with DF = 1, subtracted (R230, R26). -/
def stringDelta (s : State) (w : Nat) : Word :=
  if s.flags.df then -(BitVec.ofNat 32 (w / 8)) else BitVec.ofNat 32 (w / 8)

/-- The segment of the source element: DS unless overridden; the destination is always ES (R64, R230, R235). -/
def stringSource (a : Attr) : SegReg := a.seg.getD .ds

/-- (E)SI and (E)DI after one element (R230). -/
def advanceIndexes (z : Size) (delta : Word) (x : Regs) : Regs :=
  indexWrite z (indexWrite z x .esi (indexRead z x .esi + delta)) .edi (indexRead z x .edi + delta)

/-- `MovsStep` of R230 for an element of `w` bits. A stop leaves everything unchanged (R237). -/
def movsStep (a : Attr) (w : Nat) (s : State) : Except Stop State := do
  let v ← segRead s w (stringSource a) (indexRead a.adsize s.regs .esi)
  let t ← segWrite s w .es (indexRead a.adsize s.regs .edi) v
  .ok { t with regs := advanceIndexes a.adsize (stringDelta s w) t.regs }

/-- MOVS m8,m8 = MOVSB (R231, R234). -/
def execMovs8 (a : Attr) (s : State) : Host.Outcome State Fault Refusal :=
  retire (.movs8 a) s (movsStep a 8 s)

/-- MOVS m16,m16 = MOVSW (R232, R234). -/
def execMovs16 (a : Attr) (s : State) : Host.Outcome State Fault Refusal :=
  retire (.movs16 a) s (movsStep a 16 s)

/-- MOVS m32,m32 = MOVSD (R233, R234). -/
def execMovs32 (a : Attr) (s : State) : Host.Outcome State Fault Refusal :=
  retire (.movs32 a) s (movsStep a 32 s)

/-- The count register less one, at the address size (R236). -/
def countDown (z : Size) (x : Regs) : Regs := indexWrite z x .ecx (indexRead z x .ecx - 1#32)

/-- One iteration of REP MOVS (R236): with a count of 0 nothing moves and pc advances; otherwise one element moves and the
count goes down, and pc advances where the count has become 0. An iteration that is not the last leaves pc at the
instruction and, since the instruction has not completed, the interrupt-inhibit latch as it was (R37; log 16). -/
def repStep (i : Instr) (a : Attr) (w : Nat) (s : State) : Host.Outcome State Fault Refusal :=
  if indexRead a.adsize s.regs .ecx = 0#32 then retire i s (.ok s)
  else
    match movsStep a w s with
    | .error e => e.outcome
    | .ok t =>
      if indexRead a.adsize (countDown a.adsize t.regs) .ecx = 0#32 then
        retire i s (.ok { t with regs := countDown a.adsize t.regs })
      else .next { t with regs := countDown a.adsize t.regs }

/-- REP MOVS m8,m8 (R236). -/
def execRepMovs8 (a : Attr) (s : State) : Host.Outcome State Fault Refusal := repStep (.repMovs8 a) a 8 s

/-- REP MOVS m16,m16 (R236). -/
def execRepMovs16 (a : Attr) (s : State) : Host.Outcome State Fault Refusal := repStep (.repMovs16 a) a 16 s

/-- REP MOVS m32,m32 (R236). -/
def execRepMovs32 (a : Attr) (s : State) : Host.Outcome State Fault Refusal := repStep (.repMovs32 a) a 32 s

end Sys2Proof.Machine
end

