-- ==== Sys2Proof/Machine/Dispatch.lean ====
section
/-! DEFINITION. The meaning of every instruction, one arm per constructor (00_scope.md R2, R6, R7). -/

namespace Sys2Proof.Machine

/-- One instruction executed in a state (R7). -/
def exec (i : Instr) (s : State) : Host.Outcome State Fault Refusal :=
  match i with
  | .movRm8R8 a dst src => Sys2Proof.Machine.execMovRm8R8 a dst src s
  | .movRm16R16 a dst src => Sys2Proof.Machine.execMovRm16R16 a dst src s
  | .movRm32R32 a dst src => Sys2Proof.Machine.execMovRm32R32 a dst src s
  | .movR8Rm8 a dst src => Sys2Proof.Machine.execMovR8Rm8 a dst src s
  | .movR16Rm16 a dst src => Sys2Proof.Machine.execMovR16Rm16 a dst src s
  | .movR32Rm32 a dst src => Sys2Proof.Machine.execMovR32Rm32 a dst src s
  | .movRm16Sreg a dst src => Sys2Proof.Machine.execMovRm16Sreg a dst src s
  | .movSregRm16 a dst src => Sys2Proof.Machine.execMovSregRm16 a dst src s
  | .movAlMoffs8 a off => Sys2Proof.Machine.execMovAlMoffs8 a off s
  | .movAxMoffs16 a off => Sys2Proof.Machine.execMovAxMoffs16 a off s
  | .movEaxMoffs32 a off => Sys2Proof.Machine.execMovEaxMoffs32 a off s
  | .movMoffs8Al a off => Sys2Proof.Machine.execMovMoffs8Al a off s
  | .movMoffs16Ax a off => Sys2Proof.Machine.execMovMoffs16Ax a off s
  | .movMoffs32Eax a off => Sys2Proof.Machine.execMovMoffs32Eax a off s
  | .movReg8Imm8 a dst imm => Sys2Proof.Machine.execMovReg8Imm8 a dst imm s
  | .movReg16Imm16 a dst imm => Sys2Proof.Machine.execMovReg16Imm16 a dst imm s
  | .movReg32Imm32 a dst imm => Sys2Proof.Machine.execMovReg32Imm32 a dst imm s
  | .movRm8Imm8 a dst imm => Sys2Proof.Machine.execMovRm8Imm8 a dst imm s
  | .movRm16Imm16 a dst imm => Sys2Proof.Machine.execMovRm16Imm16 a dst imm s
  | .movRm32Imm32 a dst imm => Sys2Proof.Machine.execMovRm32Imm32 a dst imm s
  | .movR32Cr a dst src => Sys2Proof.Machine.execMovR32Cr a dst src s
  | .movCrR32 a dst src => Sys2Proof.Machine.execMovCrR32 a dst src s
  | .movR32Dr03 a dst src => Sys2Proof.Machine.execMovR32Dr03 a dst src s
  | .movR32Dr67 a dst src => Sys2Proof.Machine.execMovR32Dr67 a dst src s
  | .movDr03R32 a dst src => Sys2Proof.Machine.execMovDr03R32 a dst src s
  | .movDr67R32 a dst src => Sys2Proof.Machine.execMovDr67R32 a dst src s
  | .movR32Tr a dst src => Sys2Proof.Machine.execMovR32Tr a dst src s
  | .movTrR32 a dst src => Sys2Proof.Machine.execMovTrR32 a dst src s
  | .movs8 a => Sys2Proof.Machine.execMovs8 a s
  | .movs16 a => Sys2Proof.Machine.execMovs16 a s
  | .movs32 a => Sys2Proof.Machine.execMovs32 a s
  | .repMovs8 a => Sys2Proof.Machine.execRepMovs8 a s
  | .repMovs16 a => Sys2Proof.Machine.execRepMovs16 a s
  | .repMovs32 a => Sys2Proof.Machine.execRepMovs32 a s
  | .movsxR16Rm8 a dst src => Sys2Proof.Machine.execMovsxR16Rm8 a dst src s
  | .movsxR32Rm8 a dst src => Sys2Proof.Machine.execMovsxR32Rm8 a dst src s
  | .movsxR32Rm16 a dst src => Sys2Proof.Machine.execMovsxR32Rm16 a dst src s
  | .movzxR16Rm8 a dst src => Sys2Proof.Machine.execMovzxR16Rm8 a dst src s
  | .movzxR32Rm8 a dst src => Sys2Proof.Machine.execMovzxR32Rm8 a dst src s
  | .movzxR32Rm16 a dst src => Sys2Proof.Machine.execMovzxR32Rm16 a dst src s
  | .mulRm8 a src => Sys2Proof.Machine.execMulRm8 a src s
  | .mulRm16 a src => Sys2Proof.Machine.execMulRm16 a src s
  | .mulRm32 a src => Sys2Proof.Machine.execMulRm32 a src s

end Sys2Proof.Machine
end

