-- ==== Sys2Proof/Machine/Fetch.lean ====
section
/-!
DEFINITION. Fetching the bytes of an instruction (20_memory.md R83, R24; 30_encoding.md R116; log 19), and storing a word of
opcode_table.json where the next instruction is fetched (log 4).
-/

namespace Sys2Proof.Machine

/-- The linear address of byte `k` of the instruction at the program counter (R24, R63, R83). -/
def fetchLinear (s : State) (k : Nat) : Word := s.linear .cs (s.pc + BitVec.ofNat 32 k)

/-- Fetches byte `k` of the instruction: the checks of R71 as a read of an executable segment, then the byte (R83, R24). The
offset `pc + k` is an integer: an instruction that runs past the limit faults and does not wrap (R24; log 19). A byte outside
the program's code region is refused: program text is what the launch names, so that no store reaches a fetched byte (R5, R79,
D20; log 13). A byte that has no value faults (R41). -/
def fetchByte (s : State) (k : Nat) : Except Stop Byte := do
  checkAccess s .cs .fetch (s.pc.toNat + k) 1
  let p ← translate s (fetchLinear s k) false s.user
  if s.code.contains p then givenByte s.mem p else .error (.refuse .fetchOutsideCode)

/-- What stops an instruction whose bytes do not end within 15: #GP(0) (R116). -/
def tooLong : Stop := .fault (.exception (Exception.gp 0#16).vector (Exception.gp 0#16).code (Exception.gp 0#16).linear)

/-- The bytes from byte `k` on, at most `n` of them, up to the first that cannot be fetched; and the stop of the byte after
them, which the step makes only where the decoder needs that byte (R116, R122; log 19). -/
def fetchFrom (s : State) : Nat → Nat → List Byte × Stop
  | 0, _ => ([], tooLong)
  | n + 1, k =>
    match fetchByte s k with
    | .error e => ([], e)
    | .ok b => (b :: (fetchFrom s n (k + 1)).1, (fetchFrom s n (k + 1)).2)

/-- The bytes at the program counter that can be fetched, at most 15, and what stops the next one (R116). -/
def fetchWindow (s : State) : List Byte × Stop := fetchFrom s maxLength 0

/-- Where byte `k` of the instruction at the program counter lies in memory. A byte whose page faults has no place: the
linear address stands for it (log 4, log 10). -/
def fetchPhysical (s : State) (k : Nat) : Word :=
  match translate s (fetchLinear s k) false s.user with
  | .ok p => p
  | .error _ => fetchLinear s k

/-- The bytes `k` to `k + n - 1` of the instruction as program text (log 4, log 13). -/
def fetchedText (s : State) : Nat → Nat → ProgramText
  | _, 0 => []
  | k, n + 1 => ⟨(fetchPhysical s k).toNat, (fetchPhysical s k).toNat + 1⟩ :: fetchedText s (k + 1) n

/-- Stores bytes where the instruction's bytes from byte `k` on are fetched; the addresses are those of `s`. -/
def storeFetched (s : State) : Nat → List Byte → Memory → Memory
  | _, [], m => m
  | k, b :: r, m => storeFetched s (k + 1) r (Memory.write m (fetchPhysical s k).toNat b)

end Sys2Proof.Machine
end

