-- ==== Sys2Proof/Machine/Step.lean ====
section
/-!
DEFINITION. One step of the machine (00_scope.md R7, 30_encoding.md R122) and the placing of a table word where the step
fetches (log 4).
-/

namespace Sys2Proof.Machine

/-- One step: the bytes at the program counter are fetched and decoded, and the instruction executes (R122). An encoding the
spec refuses is refused by its name (R118, R119); where the decoder needs a byte that cannot be fetched, the step ends as that
byte's fetch does (R83, R24, R116). -/
def step (s : State) : Host.Outcome State Fault Refusal :=
  match decode s.defaultSize (fetchWindow s).1 with
  | .ok (i, _) => exec i s
  | .error (.refuse r) => .refused (.encoding r)
  | .error .more => (fetchWindow s).2.outcome

/-- `s` with the instruction of a table word stored where the next step fetches: the bytes of `tableBytes`, zeros above them
up to the longest instruction, and those bytes named as program text, without which no byte is fetched (log 4, log 13). -/
def State.withFetchWord (s : State) (nbits w : Nat) : State :=
  { s with
    mem := storeFetched s 0 ((tableBytes s.defaultSize nbits w).take maxLength) s.mem
    code := fetchedText s 0 maxLength ++ s.code }

end Sys2Proof.Machine
end

