-- ==== Sys2Proof/Safety.lean ====
section
/-!
DEFINITION. The terms claims are stated in: a run and its end (00_scope.md R7, R9; log 23), the invariant, when an operand is
readable and what a store leaves (20_memory.md R62 to R71, said byte by byte and not through the model's access operations),
and what each instruction may write.
-/

namespace Sys2Proof.Machine

/-! ### Runs (R7, R9, R353, R362) -/

/-- How a run of bounded length ends (R7, R9). -/
inductive RunEnd where
  /-- `pc` reached the end address; nothing is fetched there. -/
  | finished (s : State)
  /-- The steps allowed are used up (R362: nothing bounds a run). -/
  | running (s : State)
  /-- A step raised an exception. -/
  | fault (f : Fault)
  /-- A step was refused. -/
  | refused (r : Refusal)
  deriving DecidableEq, Repr

/-- A run of at most `n` steps with the end address `stop` (R9, D23). -/
def runTo (stop : Word) : Nat → State → RunEnd
  | 0, s => if s.pc = stop then .finished s else .running s
  | n + 1, s =>
    if s.pc = stop then .finished s
    else
      match step s with
      | .next t => runTo stop n t
      | .fault f => .fault f
      | .refused r => .refused r

/-- A safe run: it reaches the end address within `n` steps, with no fault and no refusal on the way (R9). -/
def safeRun (stop : Word) (n : Nat) (s : State) : Prop := ∃ t, runTo stop n s = .finished t

/-! ### The invariant -/

/-- What every step keeps: memory is canonical (R61; log 3); SS is valid and a writable data segment (R68, R69); no breakpoint
is enabled and TF is 0, the launch premises of R320 and R353. -/
def State.inv (s : State) : Prop :=
  Memory.wf s.mem = true ∧ s.segs.ss.valid = true ∧ arCodeOrData s.segs.ss.ar = true ∧ arCode s.segs.ss.ar = false
    ∧ arWritableOrReadable s.segs.ss.ar = true ∧ s.dr7.extractLsb' 0 8 = 0#8 ∧ s.flags.tf = false

/-! ### Operands in memory -/

/-- The byte at linear address `lin` lies at physical address `p` for such an access (R70). -/
def State.mapsTo (s : State) (write user : Bool) (lin p : Word) : Prop :=
  if s.paging = true then Config.translate s.cr3 s.mem lin write user = .mapped p else p = lin

/-- The bytes from linear address `lin` on, wrapping modulo 2^32, lie at these physical addresses (R63, R71 (3)). -/
def State.placed (s : State) (write user : Bool) : Word → List Word → Prop
  | _, [] => True
  | lin, p :: ps => s.mapsTo write user lin p ∧ State.placed s write user (lin + 1#32) ps

/-- R67 in numbers: an operand of `n` bytes at offset `off` lies within the segment's limits. Expand-down (AR bit 3 = 0,
bit 2 = 1): every byte is above the limit and at most the top, FFFFFFFFh with `big`, FFFFh without; otherwise the last byte is
at most the limit. No sum wraps. -/
def Segment.withinLimits (x : Segment) (off n : Nat) : Prop :=
  (x.ar.getLsbD 3 = false ∧ x.ar.getLsbD 2 = true →
      x.limit.toNat < off ∧ off + n - 1 ≤ if x.big = true then 0xFFFFFFFF else 0xFFFF)
    ∧ (x.ar.getLsbD 3 = true ∨ x.ar.getLsbD 2 = false → off + n - 1 ≤ x.limit.toNat)

/-- R68 in AR bits: a write needs a data segment (bit 3 = 0) that is writable (bit 1 = 1), a read no code segment that is not
readable; a fetch passes (R83). -/
def Segment.admits (x : Segment) : Access → Prop
  | .read => x.ar.getLsbD 3 = true → x.ar.getLsbD 1 = true
  | .write => x.ar.getLsbD 3 = false ∧ x.ar.getLsbD 1 = true
  | .fetch => True

/-- Whether an access of `n` bytes at an offset passes the checks before translation (R65 to R69). -/
def State.accessLegal (s : State) (g : SegReg) (k : Access) (off n : Nat) : Prop :=
  match s.mode with
  | .real | .v86 => off + n - 1 ≤ 0xFFFF
  | .prot => (s.segs.get g).valid = true ∧ (s.segs.get g).admits k ∧ (s.segs.get g).withinLimits off n

/-- Which exception an access that fails those checks raises, the first cause in the order of R71. -/
def State.accessRaises (s : State) (g : SegReg) (k : Access) (off n : Nat) (x : Exception) : Prop :=
  match s.mode with
  | .real => 0xFFFF < off + n - 1 ∧ x = .interrupt (if g = .ss ∧ Config.realSsLimitIsTwelve = true then 12#8 else 13#8)
  | .v86 => 0xFFFF < off + n - 1 ∧ x = .gp 0#16
  | .prot =>
    ((s.segs.get g).valid = false ∧ x = .gp 0#16)
      ∨ ((s.segs.get g).valid = true ∧ ¬(s.segs.get g).admits k ∧ x = .gp 0#16)
      ∨ ((s.segs.get g).valid = true ∧ (s.segs.get g).admits k ∧ ¬(s.segs.get g).withinLimits off n
        ∧ x = if g = .ss then .ss 0#16 else .gp 0#16)

/-- The bytes at these physical addresses have values, and they are `bs` (R41, R61). -/
def State.holds (s : State) (ps : List Word) (bs : List Byte) : Prop :=
  ps.map (fun p => Memory.read s.mem p.toNat) = bs.map some

/-- The `n` bytes at `g:off` can be read: the access is legal, their pages are there and they have values. -/
def State.canRead (s : State) (g : SegReg) (off : Word) (n : Nat) : Prop :=
  s.accessLegal g .read off.toNat n
    ∧ ∃ ps bs, ps.length = n ∧ s.placed false s.user (s.linear g off) ps ∧ s.holds ps bs

/-- The byte at `g:off` can be read and is `v`. -/
def State.reads8 (s : State) (g : SegReg) (off : Word) (v : BitVec 8) : Prop :=
  s.accessLegal g .read off.toNat 1 ∧ ∃ p0, s.placed false s.user (s.linear g off) [p0] ∧ s.holds [p0] [v]

/-- The word at `g:off` can be read and is `v`, the byte at the lower address in bits 7:0 (R62). -/
def State.reads16 (s : State) (g : SegReg) (off : Word) (v : BitVec 16) : Prop :=
  s.accessLegal g .read off.toNat 2
    ∧ ∃ p0 p1 b0 b1, s.placed false s.user (s.linear g off) [p0, p1] ∧ s.holds [p0, p1] [b0, b1] ∧ v = b1 ++ b0

/-- The doubleword at `g:off` can be read and is `v`, the byte at the lowest address in bits 7:0 (R62). -/
def State.reads32 (s : State) (g : SegReg) (off : Word) (v : BitVec 32) : Prop :=
  s.accessLegal g .read off.toNat 4
    ∧ ∃ p0 p1 p2 p3 b0 b1 b2 b3, s.placed false s.user (s.linear g off) [p0, p1, p2, p3]
      ∧ s.holds [p0, p1, p2, p3] [b0, b1, b2, b3] ∧ v = b3 ++ b2 ++ b1 ++ b0

/-- The bytes `bs` can be fetched from the program counter on: each at a legal offset, its page there, in the program's code
region, and with that value (R24, R79, R83). -/
def State.fetches (s : State) (bs : List Byte) : Prop :=
  ∀ k, k < bs.length → s.accessLegal .cs .fetch (s.pc.toNat + k) 1
    ∧ ∃ p, s.mapsTo false s.user (s.segs.cs.base + (s.pc + BitVec.ofNat 32 k)) p ∧ s.code.contains p = true
      ∧ bs[k]? = Memory.read s.mem p.toNat

/-- The byte `v` can be stored at `g:off`, and memory is `m` afterwards. -/
def State.stores8 (s : State) (g : SegReg) (off : Word) (v : BitVec 8) (m : Memory) : Prop :=
  s.accessLegal g .write off.toNat 1
    ∧ ∃ p0, s.placed true s.user (s.linear g off) [p0] ∧ s.code.contains p0 = false ∧ m = Memory.write s.mem p0.toNat v

/-- The word `v` can be stored at `g:off`, and memory is `m` afterwards (R62). -/
def State.stores16 (s : State) (g : SegReg) (off : Word) (v : BitVec 16) (m : Memory) : Prop :=
  s.accessLegal g .write off.toNat 2
    ∧ ∃ p0 p1, s.placed true s.user (s.linear g off) [p0, p1] ∧ s.code.contains p0 = false ∧ s.code.contains p1 = false
      ∧ m = Memory.write (Memory.write s.mem p0.toNat (v.extractLsb' 0 8)) p1.toNat (v.extractLsb' 8 8)

/-- The doubleword `v` can be stored at `g:off`, and memory is `m` afterwards (R62). -/
def State.stores32 (s : State) (g : SegReg) (off : Word) (v : BitVec 32) (m : Memory) : Prop :=
  s.accessLegal g .write off.toNat 4
    ∧ ∃ p0 p1 p2 p3, s.placed true s.user (s.linear g off) [p0, p1, p2, p3] ∧ s.code.contains p0 = false
      ∧ s.code.contains p1 = false ∧ s.code.contains p2 = false ∧ s.code.contains p3 = false
      ∧ m = Memory.write (Memory.write (Memory.write (Memory.write s.mem p0.toNat (v.extractLsb' 0 8))
          p1.toNat (v.extractLsb' 8 8)) p2.toNat (v.extractLsb' 16 8)) p3.toNat (v.extractLsb' 24 8)

/-- An `r/m8` operand has the value `v` (R104). -/
def State.rmIs8 (s : State) (a : Attr) (o : Rm Reg8) (v : BitVec 8) : Prop :=
  match o with
  | .reg r => v = s.regs.get8 r
  | .mem m => s.reads8 (operandSegment a m) (effectiveAddress s.regs m) v

/-- An `r/m16` operand has the value `v` (R104). -/
def State.rmIs16 (s : State) (a : Attr) (o : Rm Reg) (v : BitVec 16) : Prop :=
  match o with
  | .reg r => v = s.regs.get16 r
  | .mem m => s.reads16 (operandSegment a m) (effectiveAddress s.regs m) v

/-- An `r/m32` operand has the value `v` (R104). -/
def State.rmIs32 (s : State) (a : Attr) (o : Rm Reg) (v : BitVec 32) : Prop :=
  match o with
  | .reg r => v = s.regs.get r
  | .mem m => s.reads32 (operandSegment a m) (effectiveAddress s.regs m) v

/-- `t` is `s` with `v` written to an `r/m8` operand that can be written, and nothing else changed (R104). -/
def State.rmSet8 (s : State) (a : Attr) (o : Rm Reg8) (v : BitVec 8) (t : State) : Prop :=
  match o with
  | .reg r => t = { s with regs := s.regs.set8 r v }
  | .mem m => ∃ m', s.stores8 (operandSegment a m) (effectiveAddress s.regs m) v m' ∧ t = { s with mem := m' }

/-- `t` is `s` with `v` written to an `r/m16` operand that can be written, and nothing else changed (R104). -/
def State.rmSet16 (s : State) (a : Attr) (o : Rm Reg) (v : BitVec 16) (t : State) : Prop :=
  match o with
  | .reg r => t = { s with regs := s.regs.set16 r v }
  | .mem m => ∃ m', s.stores16 (operandSegment a m) (effectiveAddress s.regs m) v m' ∧ t = { s with mem := m' }

/-- `t` is `s` with `v` written to an `r/m32` operand that can be written, and nothing else changed (R104). -/
def State.rmSet32 (s : State) (a : Attr) (o : Rm Reg) (v : BitVec 32) (t : State) : Prop :=
  match o with
  | .reg r => t = { s with regs := s.regs.set r v }
  | .mem m => ∃ m', s.stores32 (operandSegment a m) (effectiveAddress s.regs m) v m' ∧ t = { s with mem := m' }

/-- `t` with the program counter past instruction `i`, which began in `s`, and the interrupt-inhibit latch clear (R123, R37). -/
def State.past (t s : State) (i : Instr) : State :=
  { t with pc := nextPc s.defaultSize s.pc (i.length s.defaultSize), inhibit := false }

/-- The same with the latch at `h`: a MOV into SS sets it (R177). -/
def State.pastLatch (t s : State) (i : Instr) (h : Bool) : State :=
  { t with pc := nextPc s.defaultSize s.pc (i.length s.defaultSize), inhibit := h }

/-- The instruction may execute: MOV to and from the special registers in Real Address Mode, or in Protected Mode at
privilege level 0 (R201). -/
def State.privileged (s : State) : Prop := s.mode = .real ∨ (s.mode = .prot ∧ s.cpl = 0#2)

/-- The state in which the six status flags are the next six draws (R202). -/
def State.sixFlagsDrawn (s t : State) : State :=
  { t with
    flags := { s.flags with
      of := Config.anyBit t.draws
      sf := Config.anyBit (t.draws + 1)
      zf := Config.anyBit (t.draws + 2)
      af := Config.anyBit (t.draws + 3)
      pf := Config.anyBit (t.draws + 4)
      cf := Config.anyBit (t.draws + 5) }
    draws := t.draws + 6 }

/-! ### Exceptions and descriptors -/

/-- The outcome of an instruction that raises `x` (R7, R309). -/
def raised (x : Exception) : Host.Outcome State Fault Refusal := .fault (.exception x.vector x.code x.linear)

/-- #GP with an error code: vector 13 (R300). -/
def gpFault (code : BitVec 16) : Host.Outcome State Fault Refusal := .fault (.exception 13#8 (some code) none)

/-- #SS with an error code: vector 12 (R300). -/
def ssFault (code : BitVec 16) : Host.Outcome State Fault Refusal := .fault (.exception 12#8 (some code) none)

/-- #NP with an error code: vector 11 (R300). -/
def npFault (code : BitVec 16) : Host.Outcome State Fault Refusal := .fault (.exception 11#8 (some code) none)

/-- The fault of an access whose page is missing: vector 14, the fault code of R70 (bit 0 a protection violation, bit 1 a write,
bit 2 the `user` argument of `Translate`; log 31), and the linear address of the byte for CR2 (R300, R301). -/
def pageFault (violation write user : Bool) (lin : Word) : Host.Outcome State Fault Refusal :=
  .fault (.exception 14#8
    (some (BitVec.ofNat 16
      ((if violation = true then 1 else 0) + (if write = true then 2 else 0) + (if user = true then 4 else 0))))
    (some lin))

/-- The page of the byte at linear address `lin` is missing for such an access (R70). -/
def State.misses (s : State) (violation write user : Bool) (lin : Word) : Prop :=
  s.paging = true ∧ Config.translate s.cr3 s.mem lin write user = .missing violation

/-- Byte `k` of an access from linear address `lin` on is the first whose page is missing (R71 (3)). -/
def State.firstMissing (s : State) (violation write user : Bool) (lin : Word) (k : Nat) : Prop :=
  (∃ ps, ps.length = k ∧ s.placed write user lin ps) ∧ s.misses violation write user (lin + BitVec.ofNat 32 k)

/-- The index of a selector is within the limits of the table its TI bit names (R29, R32, R81). -/
def State.inTable (s : State) (sel : BitVec 16) : Prop :=
  (sel.getLsbD 2 = false → 8 * (sel.toNat / 8) + 7 ≤ s.gdtr.limit.toNat)
    ∧ (sel.getLsbD 2 = true → s.ldtr.valid = true ∧ 8 * (sel.toNat / 8) + 7 ≤ s.ldtr.limit.toNat)

/-- The linear address of the table entry a selector names (R29, R32). -/
def State.entryAt (s : State) (sel : BitVec 16) : Word :=
  (if sel.getLsbD 2 = true then s.ldtr.base else s.gdtr.base) + BitVec.ofNat 32 (8 * (sel.toNat / 8))

/-- The eight bytes of the table entry that a selector names can be read with supervisor rights and are the descriptor `d`
(R31, R32, R81). -/
def State.descriptorIs (s : State) (sel : BitVec 16) (d : BitVec 64) : Prop :=
  s.inTable sel
    ∧ ∃ p0 p1 p2 p3 p4 p5 p6 p7 b0 b1 b2 b3 b4 b5 b6 b7,
      s.placed false false (s.entryAt sel) [p0, p1, p2, p3, p4, p5, p6, p7]
        ∧ s.holds [p0, p1, p2, p3, p4, p5, p6, p7] [b0, b1, b2, b3, b4, b5, b6, b7]
        ∧ d = b7 ++ b6 ++ b5 ++ b4 ++ b3 ++ b2 ++ b1 ++ b0

/-- Memory is `m` after the Accessed bit of descriptor `d` is written back, where it was 0 (R81, D22). -/
def State.accessedSet (s : State) (sel : BitVec 16) (d : BitVec 64) (m : Memory) : Prop :=
  if d.getLsbD 40 = true then m = s.mem
  else ∃ p, s.placed true false (s.entryAt sel + 5#32) [p] ∧ s.code.contains p = false
    ∧ m = Memory.write s.mem p.toNat (d.extractLsb' 40 8 ||| 0x01#8)

/-- Every check of the listing for SS passes: RPL, a writable data segment, DPL, present (R173). -/
def State.stackLoadPasses (s : State) (sel : BitVec 16) (d : BitVec 64) : Prop :=
  sel.extractLsb' 0 2 = s.cpl ∧ (d.getLsbD 44 = true ∧ d.getLsbD 43 = false ∧ d.getLsbD 41 = true)
    ∧ d.extractLsb' 45 2 = s.cpl ∧ d.getLsbD 47 = true

/-- Every check of the listing for DS, ES, FS and GS passes: data or readable code, the privileges, present (R174). -/
def State.dataLoadPasses (s : State) (sel : BitVec 16) (d : BitVec 64) : Prop :=
  (d.getLsbD 44 = true ∧ (d.getLsbD 43 = false ∨ d.getLsbD 41 = true))
    ∧ ((d.getLsbD 43 = false ∨ d.getLsbD 42 = false) →
      (sel.extractLsb' 0 2).toNat ≤ (d.extractLsb' 45 2).toNat ∧ s.cpl.toNat ≤ (d.extractLsb' 45 2).toNat)
    ∧ d.getLsbD 47 = true

/-! ### Effective addresses in numbers -/

/-- A 16-bit form's displacement as a number, the byte signed (R108). -/
def disp16Int : Disp16 → Int
  | .none => 0
  | .d8 d => d.toInt
  | .d16 d => d.toNat

/-- A 32-bit form's displacement as a number, the byte signed (R109). -/
def disp32Int : Disp32 → Int
  | .none => 0
  | .d8 d => d.toInt
  | .d32 d => d.toNat

/-- The scaled index as a number: the register times 1, 2, 4 or 8, and 0 without an index (R110). -/
def scaledIndexNat (x : Regs) (z : BitVec 2) : Option Reg → Nat
  | none => 0
  | some r => (x.get r).toNat * 2 ^ z.toNat

/-- The addressing form has BP, EBP or ESP as its base register (R64, R108 to R110). -/
def stackBased : Mem → Bool
  | .based16 b _ => b == .bpSi || b == .bpDi || b == .bp
  | .based32 b _ | .scaled _ _ b _ => b == .ebp || b == .esp
  | .direct16 _ | .direct32 _ | .scaledNoBase _ _ _ => false

/-! ### Index registers -/

/-- A register at an address size as a number: 16 bits or 32 bits (R230, R236). -/
def sizedValue (z : Size) (x : Regs) (r : Reg) : Nat :=
  match z with
  | .w16 => (x.get16 r).toNat
  | .w32 => (x.get r).toNat

/-- A register at an address size with a number stored, modulo 2^16 (bits 31:16 kept) or 2^32 (R22, R230, R236). -/
def sizedSet (z : Size) (x : Regs) (r : Reg) (v : Int) : Regs :=
  match z with
  | .w16 => x.set16 r (BitVec.ofInt 16 v)
  | .w32 => x.set r (BitVec.ofInt 32 v)

/-- `delta` of R230 as an integer: `n` with DF = 0, `-n` with DF = 1. -/
def moveDelta (s : State) (n : Nat) : Int := if s.flags.df = true then -(n : Int) else (n : Int)

/-- The index registers after one element of `n` bytes (R230). -/
def movedIndexes (s : State) (z : Size) (n : Nat) : Regs :=
  sizedSet z (sizedSet z s.regs .esi (sizedValue z s.regs .esi + moveDelta s n)) .edi
    (sizedValue z s.regs .edi + moveDelta s n)

/-- One instruction executed `n` times in a row, where each time it gives a next state. -/
def execTimes (i : Instr) : Nat → State → Option State
  | 0, s => some s
  | n + 1, s =>
    match exec i s with
    | .next t => execTimes i n t
    | .fault _ | .refused _ => none

/-! ### Families and what they write -/

/-- The eight rows of 41_mov_special.md (R200). -/
def isSpecial : Instr → Bool
  | .movR32Cr _ _ _ | .movCrR32 _ _ _ | .movR32Dr03 _ _ _ | .movR32Dr67 _ _ _ | .movDr03R32 _ _ _ | .movDr67R32 _ _ _
  | .movR32Tr _ _ _ | .movTrR32 _ _ _ => true
  | _ => false

/-- The three rows of 45_mul.md (R280). -/
def isMul : Instr → Bool
  | .mulRm8 _ _ | .mulRm16 _ _ | .mulRm32 _ _ => true
  | _ => false

/-- The register an `r/m` destination names, if it is one. -/
def rmNames (o : Rm Reg) (r : Reg) : Bool :=
  match o with
  | .reg d => d == r
  | .mem _ => false

/-- The register whose byte an `r/m8` destination names, if it is one (R21). -/
def rmNamesByte (o : Rm Reg8) (r : Reg) : Bool :=
  match o with
  | .reg d => byteHome d == r
  | .mem _ => false

/-- The general registers an instruction may write (R23 and the form's own destination). -/
def writesReg (i : Instr) (r : Reg) : Bool :=
  match i with
  | .movRm8R8 _ o _ | .movRm8Imm8 _ o _ => rmNamesByte o r
  | .movRm16R16 _ o _ | .movRm32R32 _ o _ | .movRm16Sreg _ o _ | .movRm16Imm16 _ o _ | .movRm32Imm32 _ o _ => rmNames o r
  | .movR8Rm8 _ d _ | .movReg8Imm8 _ d _ => byteHome d == r
  | .movR16Rm16 _ d _ | .movR32Rm32 _ d _ | .movReg16Imm16 _ d _ | .movReg32Imm32 _ d _ | .movR32Cr _ d _
  | .movR32Dr03 _ d _ | .movR32Dr67 _ d _ | .movR32Tr _ d _ | .movsxR16Rm8 _ d _ | .movsxR32Rm8 _ d _
  | .movsxR32Rm16 _ d _ | .movzxR16Rm8 _ d _ | .movzxR32Rm8 _ d _ | .movzxR32Rm16 _ d _ => d == r
  | .movAlMoffs8 _ _ | .movAxMoffs16 _ _ | .movEaxMoffs32 _ _ | .mulRm8 _ _ => r == .eax
  | .mulRm16 _ _ | .mulRm32 _ _ => r == .eax || r == .edx
  | .movs8 _ | .movs16 _ | .movs32 _ => r == .esi || r == .edi
  | .repMovs8 _ | .repMovs16 _ | .repMovs32 _ => r == .esi || r == .edi || r == .ecx
  | .movSregRm16 _ _ _ | .movMoffs8Al _ _ | .movMoffs16Ax _ _ | .movMoffs32Eax _ _ | .movCrR32 _ _ _ | .movDr03R32 _ _ _
  | .movDr67R32 _ _ _ | .movTrR32 _ _ _ => false

/-- The registers an instruction writes 16 bits of (R22): word destinations, AX of A1 and MUL, DX of MUL, and the index and
count registers of MOVS and REP MOVS with 16-bit addresses. -/
def wordDestinations : Instr → List Reg
  | .movRm16R16 _ (.reg d) _ | .movR16Rm16 _ d _ | .movReg16Imm16 _ d _ | .movRm16Imm16 _ (.reg d) _ | .movsxR16Rm8 _ d _
  | .movzxR16Rm8 _ d _ => [d]
  | .movRm16Sreg a (.reg d) _ => if a.opsize = .w16 then [d] else []
  | .movAxMoffs16 _ _ | .mulRm8 _ _ => [.eax]
  | .mulRm16 _ _ => [.eax, .edx]
  | .movs8 a | .movs16 a | .movs32 a => if a.adsize = .w16 then [.esi, .edi] else []
  | .repMovs8 a | .repMovs16 a | .repMovs32 a => if a.adsize = .w16 then [.esi, .edi, .ecx] else []
  | _ => []

/-- The byte register an instruction writes (R22): byte destinations, and AL of A0. -/
def byteDestinations : Instr → List Reg8
  | .movRm8R8 _ (.reg d) _ | .movR8Rm8 _ d _ | .movReg8Imm8 _ d _ | .movRm8Imm8 _ (.reg d) _ => [d]
  | .movAlMoffs8 _ _ => [.al]
  | _ => []

/-- The physical addresses of the `n` bytes a store at `g:off` writes. -/
def State.storeAt (s : State) (g : SegReg) (off : Word) (n : Nat) : Except Stop (List Word) :=
  translateRun s true s.user (s.linear g off) n

/-- The physical addresses a store of an `r/m` destination of `n` bytes writes. -/
def rmStoreAt {R : Type} (s : State) (a : Attr) (o : Rm R) (n : Nat) : Except Stop (List Word) :=
  match o with
  | .reg _ => .ok []
  | .mem m => s.storeAt (operandSegment a m) (effectiveAddress s.regs m) n

/-- The physical address of the Accessed bit that a Protected Mode load of a non-null selector writes back, where the
descriptor's bit was 0 (R81). -/
def accessedAt (s : State) (sel : BitVec 16) : Except Stop (List Word) :=
  if s.mode = .prot ∧ selectorNull sel = false then do
    let d ← readDescriptor s sel
    if d.getLsbD 40 then .ok [] else translateRun s true false (entryAddress s sel + 5#32) 1
  else .ok []

/-- The physical addresses of the bytes an instruction stores to, computed as its meaning computes them; no address for a
form that stores nothing. -/
def storesTo (i : Instr) (s : State) : Except Stop (List Word) :=
  match i with
  | .movRm8R8 a o _ | .movRm8Imm8 a o _ => rmStoreAt s a o 1
  | .movRm16R16 a o _ | .movRm16Sreg a o _ | .movRm16Imm16 a o _ => rmStoreAt s a o 2
  | .movRm32R32 a o _ | .movRm32Imm32 a o _ => rmStoreAt s a o 4
  | .movMoffs8Al a off => s.storeAt (moffsSegment a) off 1
  | .movMoffs16Ax a off => s.storeAt (moffsSegment a) off 2
  | .movMoffs32Eax a off => s.storeAt (moffsSegment a) off 4
  | .movs8 a => s.storeAt .es (indexRead a.adsize s.regs .edi) 1
  | .movs16 a => s.storeAt .es (indexRead a.adsize s.regs .edi) 2
  | .movs32 a => s.storeAt .es (indexRead a.adsize s.regs .edi) 4
  | .repMovs8 a =>
    if indexRead a.adsize s.regs .ecx = 0#32 then .ok [] else s.storeAt .es (indexRead a.adsize s.regs .edi) 1
  | .repMovs16 a =>
    if indexRead a.adsize s.regs .ecx = 0#32 then .ok [] else s.storeAt .es (indexRead a.adsize s.regs .edi) 2
  | .repMovs32 a =>
    if indexRead a.adsize s.regs .ecx = 0#32 then .ok [] else s.storeAt .es (indexRead a.adsize s.regs .edi) 4
  | .movSregRm16 a _ src => do
    let sel ← readRm16 a s src
    accessedAt s sel
  | .movR8Rm8 _ _ _ | .movR16Rm16 _ _ _ | .movR32Rm32 _ _ _ | .movAlMoffs8 _ _ | .movAxMoffs16 _ _ | .movEaxMoffs32 _ _
  | .movReg8Imm8 _ _ _ | .movReg16Imm16 _ _ _ | .movReg32Imm32 _ _ _ | .movR32Cr _ _ _ | .movCrR32 _ _ _
  | .movR32Dr03 _ _ _ | .movR32Dr67 _ _ _ | .movDr03R32 _ _ _ | .movDr67R32 _ _ _ | .movR32Tr _ _ _ | .movTrR32 _ _ _
  | .movsxR16Rm8 _ _ _ | .movsxR32Rm8 _ _ _ | .movsxR32Rm16 _ _ _ | .movzxR16Rm8 _ _ _ | .movzxR32Rm8 _ _ _
  | .movzxR32Rm16 _ _ _ | .mulRm8 _ _ | .mulRm16 _ _ | .mulRm32 _ _ => .ok []

/-- The operand in memory that an instruction reads before it does anything else: its segment, its offset, its bytes. -/
def readsFrom (i : Instr) (s : State) : Option (SegReg × Word × Nat) :=
  match i with
  | .movR8Rm8 a _ (.mem m) | .movsxR16Rm8 a _ (.mem m) | .movsxR32Rm8 a _ (.mem m) | .movzxR16Rm8 a _ (.mem m)
  | .movzxR32Rm8 a _ (.mem m) | .mulRm8 a (.mem m) => some (operandSegment a m, effectiveAddress s.regs m, 1)
  | .movR16Rm16 a _ (.mem m) | .movSregRm16 a _ (.mem m) | .movsxR32Rm16 a _ (.mem m) | .movzxR32Rm16 a _ (.mem m)
  | .mulRm16 a (.mem m) => some (operandSegment a m, effectiveAddress s.regs m, 2)
  | .movR32Rm32 a _ (.mem m) | .mulRm32 a (.mem m) => some (operandSegment a m, effectiveAddress s.regs m, 4)
  | .movAlMoffs8 a off => some (moffsSegment a, off, 1)
  | .movAxMoffs16 a off => some (moffsSegment a, off, 2)
  | .movEaxMoffs32 a off => some (moffsSegment a, off, 4)
  | .movs8 a => some (stringSource a, indexRead a.adsize s.regs .esi, 1)
  | .movs16 a => some (stringSource a, indexRead a.adsize s.regs .esi, 2)
  | .movs32 a => some (stringSource a, indexRead a.adsize s.regs .esi, 4)
  | .repMovs8 a =>
    if sizedValue a.adsize s.regs .ecx = 0 then none else some (stringSource a, indexRead a.adsize s.regs .esi, 1)
  | .repMovs16 a =>
    if sizedValue a.adsize s.regs .ecx = 0 then none else some (stringSource a, indexRead a.adsize s.regs .esi, 2)
  | .repMovs32 a =>
    if sizedValue a.adsize s.regs .ecx = 0 then none else some (stringSource a, indexRead a.adsize s.regs .esi, 4)
  | _ => none

/-- The operand in memory that a MOV writes and reads none before: its segment, its offset, its bytes. -/
def writesOnly (i : Instr) (s : State) : Option (SegReg × Word × Nat) :=
  match i with
  | .movRm8R8 a (.mem m) _ | .movRm8Imm8 a (.mem m) _ => some (operandSegment a m, effectiveAddress s.regs m, 1)
  | .movRm16R16 a (.mem m) _ | .movRm16Sreg a (.mem m) _ | .movRm16Imm16 a (.mem m) _ =>
    some (operandSegment a m, effectiveAddress s.regs m, 2)
  | .movRm32R32 a (.mem m) _ | .movRm32Imm32 a (.mem m) _ => some (operandSegment a m, effectiveAddress s.regs m, 4)
  | .movMoffs8Al a off => some (moffsSegment a, off, 1)
  | .movMoffs16Ax a off => some (moffsSegment a, off, 2)
  | .movMoffs32Eax a off => some (moffsSegment a, off, 4)
  | _ => none

end Sys2Proof.Machine
end

