-- ==== Sys2Proof/Certificates/Slice0/Obligations.lean ====
section
/-!
DEFINITION. The statements for the provers. Each docstring names the rules of spec/ it formalises, or the log entry where it
rests on a choice of the model. The terms are those of Sys2Proof/Safety.lean.
-/

open Sys2Proof Sys2Proof.Machine

/-! ### Encoding (30_encoding.md) -/

/-- Decoding the encoder's bytes gives the instruction back with its length, whatever follows them; and so does decoding them
with the prefix bytes in any other order (R100 to R117, R122; the encoder's own order is log 30). -/
def Obligations.DecodeInvertsEncode : Prop :=
  ∀ (d : Size) (i : Instr) (rest : List Byte), i.wellFormed = true →
    decode d (encode d i ++ rest) = .ok (i, i.length d)
    ∧ ∀ ps : List Byte, ps.Perm (encodePrefixes d i.attr i.isRep) → decode d (ps ++ i.body ++ rest) = .ok (i, i.length d)

/-- What the decoder answers is well formed, as long as R116 counts, and at most 14 bytes (R116, D25). -/
def Obligations.DecodedInstructionIsWellFormed : Prop :=
  ∀ (d : Size) (bs : List Byte) (i : Instr) (n : Nat), decode d bs = .ok (i, n) →
    i.wellFormed = true ∧ n = i.length d ∧ 1 ≤ n ∧ n ≤ 14 ∧ n ≤ bs.length

/-- Fourteen bytes are always enough: an instruction or a refusal by name (R122, D25). -/
def Obligations.DecoderNeedsAtMostFourteenBytes : Prop :=
  ∀ (d : Size) (bs : List Byte), 14 ≤ bs.length →
    (∃ i n, decode d bs = .ok (i, n)) ∨ ∃ r, decode d bs = .error (.refuse r)

/-- Bytes after an instruction, or after the byte a refusal is decided at, change nothing (R116, R122). -/
def Obligations.DecoderIgnoresLaterBytes : Prop :=
  ∀ (d : Size) (bs rest : List Byte),
    (∀ i n, decode d bs = .ok (i, n) → decode d (bs ++ rest) = .ok (i, n) ∧ decode d (bs.take n ++ rest) = .ok (i, n))
      ∧ ∀ r, decode d bs = .error (.refuse r) → decode d (bs ++ rest) = .error (.refuse r)

/-- Words written out from the spec's encodings decode to the instructions they stand for (T1, T4, T9, T13, T21, T23, T91, T136,
T185, T230 of 95_test_vectors.md). -/
def Obligations.WrittenWordsDecode : Prop :=
  decode .w16 [0x89#8, 0xD8#8] = .ok (.movRm16R16 ⟨.w16, .w16, none⟩ (.reg .eax) .ebx, 2)
    ∧ decode .w16 [0x66#8, 0xB8#8, 0x78#8, 0x56#8, 0x34#8, 0x12#8]
      = .ok (.movReg32Imm32 ⟨.w32, .w16, none⟩ .eax 0x12345678#32, 6)
    ∧ decode .w16 [0x8B#8, 0x46#8, 0xFE#8]
      = .ok (.movR16Rm16 ⟨.w16, .w16, none⟩ .eax (.mem (.based16 .bp (.d8 0xFE#8))), 3)
    ∧ decode .w32 [0x8B#8, 0x5C#8, 0xBE#8, 0x08#8]
      = .ok (.movR32Rm32 ⟨.w32, .w32, none⟩ .ebx (.mem (.scaled 2#2 (some .edi) .esi (.d8 0x08#8))), 4)
    ∧ decode .w16 [0x66#8, 0x67#8, 0x2E#8, 0xC7#8, 0x84#8, 0x88#8, 0x44#8, 0x33#8, 0x22#8, 0x11#8, 0x78#8, 0x56#8, 0x34#8,
        0x12#8]
      = .ok (.movRm32Imm32 ⟨.w32, .w32, some .cs⟩ (.mem (.scaled 2#2 (some .ecx) .eax (.d32 0x11223344#32))) 0x12345678#32, 14)
    ∧ decode .w32 [0xF3#8, 0x66#8, 0xA5#8] = .ok (.repMovs16 ⟨.w16, .w32, none⟩, 3)
    ∧ decode .w16 [0x8C#8, 0xC8#8] = .ok (.movRm16Sreg ⟨.w16, .w16, none⟩ (.reg .eax) .cs, 2)
    ∧ decode .w16 [0x8E#8, 0xC8#8] = .error (.refuse .csDestination)
    ∧ decode .w32 [0x0F#8, 0x22#8, 0xC0#8] = .ok (.movCrR32 ⟨.w32, .w32, none⟩ .cr0 .eax, 3)
    ∧ decode .w16 [0x0F#8, 0xBE#8, 0xC3#8] = .ok (.movsxR16Rm8 ⟨.w16, .w16, none⟩ .eax (.reg .bl), 3)
    ∧ decode .w16 [0xF6#8, 0xE3#8] = .ok (.mulRm8 ⟨.w16, .w16, none⟩ (.reg .bl), 2)

/-- The opcodes outside section 17.3.M are refused by that name, after any prefix bytes that R101 admits, in any order (those of
`encodePrefixes`, permuted), REP among them: every other first byte that is no prefix, every other byte after 0F, and F6 or F7
with reg not 100 (R101, R119, R122). -/
def Obligations.OpcodesOutsideAreRefused : Prop :=
  ∀ (d : Size) (a : Attr) (rep : Bool) (ps rest : List Byte) (b c : Byte), ps.Perm (encodePrefixes d a rep) →
    (prefixByte b = none →
      b ∉ [0x88#8, 0x89#8, 0x8A#8, 0x8B#8, 0x8C#8, 0x8E#8, 0xC6#8, 0xC7#8, 0xF6#8, 0xF7#8, 0x0F#8] →
      ¬(0xA0 ≤ b.toNat ∧ b.toNat ≤ 0xA5) → ¬(0xB0 ≤ b.toNat ∧ b.toNat ≤ 0xBF) →
      decode d (ps ++ b :: rest) = .error (.refuse .opcodeOutside))
    ∧ (c ∉ [0x20#8, 0x21#8, 0x22#8, 0x23#8, 0x24#8, 0x26#8, 0xB6#8, 0xB7#8, 0xBE#8, 0xBF#8] →
      decode d (ps ++ 0x0F#8 :: c :: rest) = .error (.refuse .opcodeOutside))
    ∧ (regField c ≠ 4#3 →
      decode d (ps ++ 0xF6#8 :: c :: rest) = .error (.refuse .opcodeOutside)
        ∧ decode d (ps ++ 0xF7#8 :: c :: rest) = .error (.refuse .opcodeOutside))

/-- Encodings that have no form are refused by name, after any prefix bytes that R101 admits, in any order (those of
`encodePrefixes`, permuted): LOCK, REPNE, a second operand-size, address-size or REP byte and any two override bytes, REP before a
form in scope other than A4 and A5, MOV to CS, the segment-register numbers 6 and 7, C6 and C7 with reg not 000, the special
moves with mod not 11 or a register that is not named, 0F BF and 0F B7 with a 16-bit operand size, and under every opcode with an
`r/m` operand in memory a SIB byte with index 100 and scale not 00 (R101, R110, R115, R118, R122, R178, R211, R213, R264, R274).
Where one byte shows two of these causes, the name is the model's choice: REP before the others and mod before reg in a ModRM
byte, and REPNE for F2h after F3h (log 32). -/
def Obligations.FormlessEncodingsAreRefused : Prop :=
  ∀ (d : Size) (a : Attr) (rep : Bool) (ps rest : List Byte) (b c : Byte), ps.Perm (encodePrefixes d a rep) →
    (decode d (ps ++ 0xF0#8 :: rest) = .error (.refuse .lock)
      ∧ decode d (ps ++ 0xF2#8 :: rest) = .error (.refuse .repne)
      ∧ (a.opsize ≠ d → decode d (ps ++ 0x66#8 :: rest) = .error (.refuse .repeatedKind))
      ∧ (a.adsize ≠ d → decode d (ps ++ 0x67#8 :: rest) = .error (.refuse .repeatedKind))
      ∧ (a.seg.isSome = true → b ∈ [0x26#8, 0x2E#8, 0x36#8, 0x3E#8, 0x64#8, 0x65#8] →
        decode d (ps ++ b :: rest) = .error (.refuse .repeatedKind)))
    ∧ (rep = true → decode d (ps ++ 0xF3#8 :: rest) = .error (.refuse .repeatedKind)
      ∧ (c ∈ [0x88#8, 0x89#8, 0x8A#8, 0x8B#8, 0x8C#8, 0x8E#8, 0xC6#8, 0xC7#8] ∨ (c ∈ [0xF6#8, 0xF7#8] ∧ regField b = 4#3) →
        decode d (ps ++ c :: b :: rest) = .error (.refuse .misplacedRep))
      ∧ ((0xA0 ≤ c.toNat ∧ c.toNat ≤ 0xA3) ∨ (0xB0 ≤ c.toNat ∧ c.toNat ≤ 0xBF) →
        decode d (ps ++ c :: rest) = .error (.refuse .misplacedRep))
      ∧ (c ∈ [0x20#8, 0x21#8, 0x22#8, 0x23#8, 0x24#8, 0x26#8, 0xB6#8, 0xB7#8, 0xBE#8, 0xBF#8] →
        decode d (ps ++ 0x0F#8 :: c :: b :: rest) = .error (.refuse .misplacedRep)))
    ∧ (rep = false →
      (regField b = 1#3 → decode d (ps ++ 0x8E#8 :: b :: rest) = .error (.refuse .csDestination))
      ∧ (regField b = 6#3 ∨ regField b = 7#3 →
        decode d (ps ++ 0x8E#8 :: b :: rest) = .error (.refuse .segmentRegister)
          ∧ decode d (ps ++ 0x8C#8 :: b :: rest) = .error (.refuse .segmentRegister))
      ∧ (regField b ≠ 0#3 → decode d (ps ++ 0xC6#8 :: b :: rest) = .error (.refuse .reservedDigit)
          ∧ decode d (ps ++ 0xC7#8 :: b :: rest) = .error (.refuse .reservedDigit))
      ∧ (c ∈ [0x20#8, 0x21#8, 0x22#8, 0x23#8, 0x24#8, 0x26#8] → modField b ≠ 3#2 →
          decode d (ps ++ 0x0F#8 :: c :: b :: rest) = .error (.refuse .modNotEleven))
      ∧ (modField b = 3#2 →
          c ∈ [0x20#8, 0x22#8] ∧ regField b ∉ [0#3, 2#3, 3#3] ∨ c ∈ [0x21#8, 0x23#8] ∧ regField b ∈ [4#3, 5#3]
            ∨ c ∈ [0x24#8, 0x26#8] ∧ regField b ∉ [6#3, 7#3] →
          decode d (ps ++ 0x0F#8 :: c :: b :: rest) = .error (.refuse .specialRegister))
      ∧ (a.opsize = .w16 → decode d (ps ++ 0x0F#8 :: 0xBF#8 :: b :: rest) = .error (.refuse .wordSourceWordSize)
          ∧ decode d (ps ++ 0x0F#8 :: 0xB7#8 :: b :: rest) = .error (.refuse .wordSourceWordSize))
      ∧ (∀ sib, a.adsize = .w32 → modField b ≠ 3#2 → rmField b = 4#3 → regField sib = 4#3 → modField sib ≠ 0#2 →
          (c ∈ [0x88#8, 0x89#8, 0x8A#8, 0x8B#8] ∨ (c = 0x8C#8 ∧ regField b ∉ [6#3, 7#3])
              ∨ (c = 0x8E#8 ∧ regField b ∉ [1#3, 6#3, 7#3]) ∨ (c ∈ [0xC6#8, 0xC7#8] ∧ regField b = 0#3)
              ∨ (c ∈ [0xF6#8, 0xF7#8] ∧ regField b = 4#3) →
            decode d (ps ++ c :: b :: sib :: rest) = .error (.refuse .scaledNoIndex))
          ∧ (c ∈ [0xBE#8, 0xB6#8] ∨ (c ∈ [0xBF#8, 0xB7#8] ∧ a.opsize = .w32) →
            decode d (ps ++ 0x0F#8 :: c :: b :: sib :: rest) = .error (.refuse .scaledNoIndex))))

/-! ### Steps, fetching, reset -/

/-- Where the bytes at the program counter can be fetched and decode to `i`, the step is exactly the execution of `i`
(R7, R83, R122). -/
def Obligations.StepRunsDecodedInstruction : Prop :=
  ∀ (s : State) (bs : List Byte) (i : Instr) (n : Nat), decode s.defaultSize bs = .ok (i, n) → bs.length ≤ 15 →
    s.fetches bs → step s = exec i s

/-- Where the bytes that can be fetched decode to a refusal, the step is refused by that name; and where the decoder needs a byte
beyond them that lies outside the program's code region, the step is refused as a fetch outside it (R79, R118, R119, R122; that
nothing outside the region is fetched is log 13). -/
def Obligations.StepRefusesByName : Prop :=
  ∀ (s : State) (bs : List Byte), bs.length ≤ 15 → s.fetches bs →
    (∀ r, decode s.defaultSize bs = .error (.refuse r) → step s = .refused (.encoding r))
    ∧ (decode s.defaultSize bs = .error .more → bs.length < 15 → s.accessLegal .cs .fetch (s.pc.toNat + bs.length) 1 →
      ∀ p, s.mapsTo false s.user (s.segs.cs.base + (s.pc + BitVec.ofNat 32 bs.length)) p → s.code.contains p = false →
        step s = .refused .fetchOutsideCode)

/-- An instruction that runs past the limit of the code segment faults on the fetch: where the decoder needs a byte beyond the
bytes `bs`, and that byte is at an illegal offset, the step raises Interrupt 13 in Real Address Mode and #GP(0) in the other
modes (R24, R83); and where it is program text that has no value, the fetch faults at that byte (R41). -/
def Obligations.FetchPastLimitFaults : Prop :=
  ∀ (s : State) (bs : List Byte), decode s.defaultSize bs = .error .more → bs.length < 15 → s.fetches bs →
    (¬s.accessLegal .cs .fetch (s.pc.toNat + bs.length) 1 →
      step s = if s.mode = .real then .fault (.exception 13#8 none none) else gpFault 0#16)
    ∧ (s.accessLegal .cs .fetch (s.pc.toNat + bs.length) 1 →
      ∀ p, s.mapsTo false s.user (s.segs.cs.base + (s.pc + BitVec.ofNat 32 bs.length)) p → s.code.contains p = true →
        Memory.read s.mem p.toNat = none → step s = .fault (.unwritten p))

/-- The state after reset, where the table of R40 gives the family's values. The spec states none of them for the model to
rest on (R40, R350): they are the model's choice, log 1. -/
def Obligations.ResetIsTheFamilys : Prop :=
  State.reset.mode = .real ∧ State.reset.defaultSize = .w16 ∧ State.reset.cpl = 0#2 ∧ State.reset.paging = false
    ∧ State.reset.pc = 0x0000FFF0#32 ∧ State.reset.flags.toWord = 0x00000002#32 ∧ State.reset.regs.eax = 0#32
    ∧ State.reset.regs.get8 .dh = 3#8 ∧ State.reset.segs.cs.sel = 0xF000#16 ∧ State.reset.segs.cs.valid = true
    ∧ State.reset.segs.cs.limit = 0xFFFF#32 ∧ fetchLinear State.reset 0 = 0xFFFFFFF0#32
    ∧ (∀ g, g ≠ .cs → (State.reset.segs.get g).sel = 0#16 ∧ (State.reset.segs.get g).base = 0#32
        ∧ (State.reset.segs.get g).limit = 0xFFFF#32 ∧ (State.reset.segs.get g).valid = true
        ∧ arWritableData (State.reset.segs.get g).ar = true)
    ∧ State.reset.dr7 = 0#32 ∧ State.reset.idtr.base = 0#32 ∧ State.reset.idtr.limit = 0x03FF#16
    ∧ State.reset.inhibit = false ∧ State.reset.mem = []

/-- The invariant of `State.inv` holds at reset. The reset values are the model's, log 1 and log 3. -/
def Obligations.InvHoldsAtReset : Prop := State.reset.inv

/-- Every step keeps the invariant: canonical memory (R61), SS valid and a writable data segment (R68, R69), no breakpoint enabled
and TF = 0 (R320). -/
def Obligations.EveryStepKeepsInv : Prop :=
  ∀ s t : State, s.inv → step s = .next t → t.inv

/-- Every step leaves the program's code region and its bytes as they are; and where a step answers a next state, the bytes of
the instruction it ran lie in the region, so that no store reaches a byte that has been fetched (R5, R79, D20; the region is the
state's `code`, log 13). -/
def Obligations.CodeBytesNeverChange : Prop :=
  ∀ s t : State, step s = .next t → t.code = s.code
    ∧ (∀ p : Word, s.code.contains p = true → Memory.read t.mem p.toNat = Memory.read s.mem p.toNat)
    ∧ ∃ i n bs, decode s.defaultSize bs = .ok (i, n) ∧ bs.length = n ∧ s.fetches bs ∧ exec i s = .next t

/-! ### MOV -- Move Data: register and memory forms (40_mov.md) -/

/-- MOV to an `r/m` operand from a register of its width: the register's value is stored there unchanged, and nothing else
changes but pc and the latch (R152, R153, R154). -/
def Obligations.MovStoresRegister : Prop :=
  ∀ (a : Attr) (s t : State),
    (∀ dst src, s.rmSet8 a dst (s.regs.get8 src) t →
      exec (.movRm8R8 a dst src) s = .next (t.past s (.movRm8R8 a dst src)))
    ∧ (∀ dst src, s.rmSet16 a dst (s.regs.get16 src) t →
      exec (.movRm16R16 a dst src) s = .next (t.past s (.movRm16R16 a dst src)))
    ∧ (∀ dst src, s.rmSet32 a dst (s.regs.get src) t →
      exec (.movRm32R32 a dst src) s = .next (t.past s (.movRm32R32 a dst src)))

/-- MOV to a register from an `r/m` operand of its width (R155, R156, R157). -/
def Obligations.MovLoadsOperand : Prop :=
  ∀ (a : Attr) (s : State),
    (∀ dst src v, s.rmIs8 a src v → exec (.movR8Rm8 a dst src) s
      = .next (State.past { s with regs := s.regs.set8 dst v } s (.movR8Rm8 a dst src)))
    ∧ (∀ dst src v, s.rmIs16 a src v → exec (.movR16Rm16 a dst src) s
      = .next (State.past { s with regs := s.regs.set16 dst v } s (.movR16Rm16 a dst src)))
    ∧ (∀ dst src v, s.rmIs32 a src v → exec (.movR32Rm32 a dst src) s
      = .next (State.past { s with regs := s.regs.set dst v } s (.movR32Rm32 a dst src)))

/-- The `moffs` loads put the datum at DS, or the override, and the encoded offset into AL, AX or EAX (R160, R161, R162). -/
def Obligations.MoffsLoadsAccumulator : Prop :=
  ∀ (a : Attr) (off : Word) (s : State),
    (∀ v, s.reads8 (a.seg.getD .ds) off v → exec (.movAlMoffs8 a off) s
      = .next (State.past { s with regs := s.regs.set8 .al v } s (.movAlMoffs8 a off)))
    ∧ (∀ v, s.reads16 (a.seg.getD .ds) off v → exec (.movAxMoffs16 a off) s
      = .next (State.past { s with regs := s.regs.set16 .eax v } s (.movAxMoffs16 a off)))
    ∧ (∀ v, s.reads32 (a.seg.getD .ds) off v → exec (.movEaxMoffs32 a off) s
      = .next (State.past { s with regs := s.regs.set .eax v } s (.movEaxMoffs32 a off)))

/-- The `moffs` stores put AL, AX or EAX at DS, or the override, and the encoded offset (R163, R164, R165). -/
def Obligations.MoffsStoresAccumulator : Prop :=
  ∀ (a : Attr) (off : Word) (s : State) (m : Memory),
    (s.stores8 (a.seg.getD .ds) off (s.regs.get8 .al) m →
      exec (.movMoffs8Al a off) s = .next (State.past { s with mem := m } s (.movMoffs8Al a off)))
    ∧ (s.stores16 (a.seg.getD .ds) off (s.regs.get16 .eax) m →
      exec (.movMoffs16Ax a off) s = .next (State.past { s with mem := m } s (.movMoffs16Ax a off)))
    ∧ (s.stores32 (a.seg.getD .ds) off (s.regs.get .eax) m →
      exec (.movMoffs32Eax a off) s = .next (State.past { s with mem := m } s (.movMoffs32Eax a off)))

/-- The immediate forms with the register in the opcode complete in every state (R166, R167, R168). -/
def Obligations.MovImmediateToRegister : Prop :=
  ∀ (a : Attr) (s : State),
    (∀ dst imm, exec (.movReg8Imm8 a dst imm) s
      = .next (State.past { s with regs := s.regs.set8 dst imm } s (.movReg8Imm8 a dst imm)))
    ∧ (∀ dst imm, exec (.movReg16Imm16 a dst imm) s
      = .next (State.past { s with regs := s.regs.set16 dst imm } s (.movReg16Imm16 a dst imm)))
    ∧ (∀ dst imm, exec (.movReg32Imm32 a dst imm) s
      = .next (State.past { s with regs := s.regs.set dst imm } s (.movReg32Imm32 a dst imm)))

/-- The immediate forms with an `r/m` destination (R169, R170, R171). -/
def Obligations.MovImmediateToOperand : Prop :=
  ∀ (a : Attr) (s t : State),
    (∀ dst imm, s.rmSet8 a dst imm t → exec (.movRm8Imm8 a dst imm) s = .next (t.past s (.movRm8Imm8 a dst imm)))
    ∧ (∀ dst imm, s.rmSet16 a dst imm t → exec (.movRm16Imm16 a dst imm) s = .next (t.past s (.movRm16Imm16 a dst imm)))
    ∧ (∀ dst imm, s.rmSet32 a dst imm t → exec (.movRm32Imm32 a dst imm) s = .next (t.past s (.movRm32Imm32 a dst imm)))

/-! ### MOV to and from the segment registers (40_mov.md) -/

/-- MOV r/m16,Sreg: the selector goes to a memory word whatever the operand size, to a 16-bit register, or to bits 15:0 of a
32-bit register whose bits 31:16 are then the next 16-bit draw (R158, R179). -/
def Obligations.MovFromSegmentRegister : Prop :=
  ∀ (a : Attr) (src : SegReg) (s : State),
    (∀ dm m, s.stores16 (operandSegment a dm) (effectiveAddress s.regs dm) (s.segs.get src).sel m →
      exec (.movRm16Sreg a (.mem dm) src) s = .next (State.past { s with mem := m } s (.movRm16Sreg a (.mem dm) src)))
    ∧ (∀ r, a.opsize = .w16 → exec (.movRm16Sreg a (.reg r) src) s
      = .next (State.past { s with regs := s.regs.set16 r (s.segs.get src).sel } s (.movRm16Sreg a (.reg r) src)))
    ∧ (∀ r, a.opsize = .w32 → exec (.movRm16Sreg a (.reg r) src) s
      = .next (State.past
          { s with regs := s.regs.set r (Config.anyHalf s.draws ++ (s.segs.get src).sel), draws := s.draws + 1 } s
          (.movRm16Sreg a (.reg r) src)))

/-- Outside Protected Mode a load of a segment register never faults once its operand is read: the selector, base = 16 times
the selector and a set valid bit; limit, AR byte and `big` stay; a load of SS sets the latch (R176, R177). -/
def Obligations.SegmentLoadOutsideProtectedMode : Prop :=
  ∀ (a : Attr) (dst : SegDest) (src : Rm Reg) (sel : BitVec 16) (s : State), s.mode ≠ .prot → s.rmIs16 a src sel →
    exec (.movSregRm16 a dst src) s
      = .next (State.pastLatch
          { s with
            segs := s.segs.set dst
              ({ s.segs.get dst.toSegReg with sel := sel, base := BitVec.ofNat 32 (16 * sel.toNat), valid := true }) } s
          (.movSregRm16 a dst src) (dst == .ss))

/-- A null selector in Protected Mode: DS, ES, FS or GS takes it and its valid bit is cleared, with no fault and nothing read
from a table (the hidden fields kept are log 17); SS raises #GP(0), the error code 0 whatever the selector's RPL (R175, R173). -/
def Obligations.NullSelectorLoads : Prop :=
  ∀ (a : Attr) (dst : SegDest) (src : Rm Reg) (sel : BitVec 16) (s : State), s.mode = .prot → s.rmIs16 a src sel →
    sel.toNat ≤ 3 →
    (dst ≠ .ss → exec (.movSregRm16 a dst src) s
      = .next (State.past
          { s with segs := s.segs.set dst ({ s.segs.get dst.toSegReg with sel := sel, valid := false }) } s
          (.movSregRm16 a dst src)))
    ∧ (dst = .ss → exec (.movSregRm16 a dst src) s = gpFault 0#16)

/-- A selector whose index is outside its table's limits, or that names the local table while LDTR is not valid, raises
#GP(selector), for SS and the other four alike (R173, R174, R81, R301). -/
def Obligations.SelectorOutsideTableFaults : Prop :=
  ∀ (a : Attr) (dst : SegDest) (src : Rm Reg) (sel : BitVec 16) (s : State), s.mode = .prot → s.rmIs16 a src sel →
    3 < sel.toNat →
    (sel.getLsbD 2 = false → s.gdtr.limit.toNat < 8 * (sel.toNat / 8) + 7 →
      exec (.movSregRm16 a dst src) s = gpFault (sel &&& 0xFFFC#16))
    ∧ (sel.getLsbD 2 = true → (s.ldtr.valid = false ∨ s.ldtr.limit.toNat < 8 * (sel.toNat / 8) + 7) →
      exec (.movSregRm16 a dst src) s = gpFault (sel &&& 0xFFFC#16))

/-- Load of SS in Protected Mode with a selector whose descriptor can be read: the checks in the listing's order, the first
that fails raising its exception; and the load, with the latch set, where all pass. Where all pass, the Accessed bit is 0 and
the page of the AR byte is missing for the write, its page fault is raised, and only there; its fault code has bit 1 set, and
bit 2 clear at every privilege level (log 31) (R173, R177, R81, R70). -/
def Obligations.StackSegmentLoad : Prop :=
  ∀ (a : Attr) (src : Rm Reg) (sel : BitVec 16) (s : State), s.mode = .prot → s.rmIs16 a src sel → 3 < sel.toNat →
    (∀ d m, s.descriptorIs sel d →
      if sel.extractLsb' 0 2 ≠ s.cpl then exec (.movSregRm16 a .ss src) s = gpFault (sel &&& 0xFFFC#16)
      else if ¬(d.getLsbD 44 = true ∧ d.getLsbD 43 = false ∧ d.getLsbD 41 = true) then
        exec (.movSregRm16 a .ss src) s = gpFault (sel &&& 0xFFFC#16)
      else if d.extractLsb' 45 2 ≠ s.cpl then exec (.movSregRm16 a .ss src) s = gpFault (sel &&& 0xFFFC#16)
      else if d.getLsbD 47 = false then exec (.movSregRm16 a .ss src) s = ssFault (sel &&& 0xFFFC#16)
      else s.accessedSet sel d m →
        exec (.movSregRm16 a .ss src) s
          = .next (State.pastLatch { s with mem := m, segs := { s.segs with ss := loadedSegment sel d } } s
              (.movSregRm16 a .ss src) true))
    ∧ ∀ v, exec (.movSregRm16 a .ss src) s = pageFault v true false (s.entryAt sel + 5#32)
      ↔ ∃ d, s.descriptorIs sel d ∧ s.stackLoadPasses sel d ∧ d.getLsbD 40 = false
        ∧ s.misses v true false (s.entryAt sel + 5#32)

/-- Load of DS, ES, FS or GS in Protected Mode with a selector that is not null and whose descriptor can be read: the checks in
the listing's order, and the load where all pass. Where all pass, the Accessed bit is 0 and the page of the AR byte is missing
for the write, its page fault is raised, and only there; its fault code has bit 1 set, and bit 2 clear at every privilege level
(log 31) (R174, R81, R70). -/
def Obligations.DataSegmentLoad : Prop :=
  ∀ (a : Attr) (dst : SegDest) (src : Rm Reg) (sel : BitVec 16) (s : State), s.mode = .prot → dst ≠ .ss →
    s.rmIs16 a src sel → 3 < sel.toNat →
    (∀ d m, s.descriptorIs sel d →
      if ¬(d.getLsbD 44 = true ∧ (d.getLsbD 43 = false ∨ d.getLsbD 41 = true)) then
        exec (.movSregRm16 a dst src) s = gpFault (sel &&& 0xFFFC#16)
      else if (d.getLsbD 43 = false ∨ d.getLsbD 42 = false)
          ∧ ¬((sel.extractLsb' 0 2).toNat ≤ (d.extractLsb' 45 2).toNat ∧ s.cpl.toNat ≤ (d.extractLsb' 45 2).toNat) then
        exec (.movSregRm16 a dst src) s = gpFault (sel &&& 0xFFFC#16)
      else if d.getLsbD 47 = false then exec (.movSregRm16 a dst src) s = npFault (sel &&& 0xFFFC#16)
      else s.accessedSet sel d m →
        exec (.movSregRm16 a dst src) s
          = .next (State.past { s with mem := m, segs := s.segs.set dst (loadedSegment sel d) } s (.movSregRm16 a dst src)))
    ∧ ∀ v, exec (.movSregRm16 a dst src) s = pageFault v true false (s.entryAt sel + 5#32)
      ↔ ∃ d, s.descriptorIs sel d ∧ s.dataLoadPasses sel d ∧ d.getLsbD 40 = false
        ∧ s.misses v true false (s.entryAt sel + 5#32)

/-- The hidden part a descriptor gives: base, limit in bytes or in units of 1000h, the AR byte and the D/B bit (R31). -/
def Obligations.DescriptorFieldsLoaded : Prop :=
  ∀ (sel : BitVec 16) (d : BitVec 64),
    (loadedSegment sel d).sel = sel ∧ (loadedSegment sel d).valid = true
      ∧ (loadedSegment sel d).base.toNat = (d.toNat / 2 ^ 56) * 2 ^ 24 + d.toNat / 2 ^ 16 % 2 ^ 24
      ∧ (loadedSegment sel d).limit.toNat
        = (if d.getLsbD 55 = true then (d.toNat / 2 ^ 48 % 16 * 65536 + d.toNat % 65536) * 4096 + 4095
          else d.toNat / 2 ^ 48 % 16 * 65536 + d.toNat % 65536)
      ∧ (loadedSegment sel d).ar.toNat = d.toNat / 2 ^ 40 % 256 ∧ (loadedSegment sel d).big = d.getLsbD 54

/-- A completed MOV into SS sets the interrupt-inhibit latch, in every mode; every other instruction that completes clears
it, and an iteration of REP MOVS that is not the last, which completes nothing, leaves it (R37, R177; the last clause is
log 16). -/
def Obligations.LatchAfterInstruction : Prop :=
  ∀ (i : Instr) (s t : State), exec i s = .next t →
    (∀ a src, i = .movSregRm16 a .ss src → t.inhibit = true)
    ∧ ((∀ a src, i ≠ .movSregRm16 a .ss src) → i.isRep = false → t.inhibit = false)
    ∧ (i.isRep = true → sizedValue i.attr.adsize t.regs .ecx = 0 → t.inhibit = false)
    ∧ (i.isRep = true → sizedValue i.attr.adsize t.regs .ecx ≠ 0 → t.inhibit = s.inhibit ∧ t.pc = s.pc)

/-! ### MOV to and from the special registers (41_mov_special.md) -/

/-- The privilege check of the eight rows, and that it is their only exception: #GP(0) in Virtual 8086 Mode and in Protected
Mode at a level that is not 0 (R201). -/
def Obligations.SpecialMovesNeedPrivilege : Prop :=
  ∀ (i : Instr) (s : State), isSpecial i = true →
    ((s.mode = .v86 ∨ (s.mode = .prot ∧ s.cpl ≠ 0#2)) → exec i s = gpFault 0#16)
    ∧ (∀ f, exec i s = .fault f → s.mode = .v86 ∨ (s.mode = .prot ∧ s.cpl ≠ 0#2))

/-- The moves from a special register write all 32 bits of the general register: the bits of the cell, but draws in reserved
positions, and in all of TR6 and TR7 after a write of TR6; then the six flags are draws (R202, R203, R205, R206, R209, R212). -/
def Obligations.MovFromSpecialRegister : Prop :=
  ∀ (a : Attr) (dst : Reg) (s : State), s.privileged →
    (∀ src, ∃ v, v &&& ctrlDefined src = s.ctrl src &&& ctrlDefined src ∧ exec (.movR32Cr a dst src) s
      = .next (State.past (s.sixFlagsDrawn { s with regs := s.regs.set dst v, draws := s.draws + 1 }) s (.movR32Cr a dst src)))
    ∧ (∀ src, exec (.movR32Dr03 a dst src) s
      = .next (State.past (s.sixFlagsDrawn { s with regs := s.regs.set dst (s.breakAddr src) }) s (.movR32Dr03 a dst src)))
    ∧ (∀ src, ∃ v, v &&& debugDefined src = s.debug src &&& debugDefined src ∧ exec (.movR32Dr67 a dst src) s
      = .next (State.past (s.sixFlagsDrawn { s with regs := s.regs.set dst v, draws := s.draws + 1 }) s
          (.movR32Dr67 a dst src)))
    ∧ (∀ src, ∃ v, (s.tlbTested = false → v &&& testDefined src = s.test src &&& testDefined src)
      ∧ exec (.movR32Tr a dst src) s
        = .next (State.past (s.sixFlagsDrawn { s with regs := s.regs.set dst v, draws := s.draws + 1 }) s
            (.movR32Tr a dst src)))

/-- The moves to a special register: the register receives the value and nothing else changes but the six flags, which are
draws; a write of TR6 marks the test registers, whose reads are draws from then on (log 9) (R202, R204, R207, R208, R210, R212).
That the cell keeps all 32 bits of the value, reserved positions too, is log 8, and that a write of CR0 that changes PE or PG
completes is log 12. -/
def Obligations.MovToSpecialRegister : Prop :=
  ∀ (a : Attr) (src : Reg) (s : State), s.privileged →
    exec (.movCrR32 a .cr0 src) s
      = .next (State.past (s.sixFlagsDrawn { s with cr0 := s.regs.get src }) s (.movCrR32 a .cr0 src))
    ∧ exec (.movCrR32 a .cr2 src) s
      = .next (State.past (s.sixFlagsDrawn { s with cr2 := s.regs.get src }) s (.movCrR32 a .cr2 src))
    ∧ exec (.movCrR32 a .cr3 src) s
      = .next (State.past (s.sixFlagsDrawn { s with cr3 := s.regs.get src }) s (.movCrR32 a .cr3 src))
    ∧ exec (.movDr03R32 a .dr0 src) s
      = .next (State.past (s.sixFlagsDrawn { s with dr0 := s.regs.get src }) s (.movDr03R32 a .dr0 src))
    ∧ exec (.movDr03R32 a .dr1 src) s
      = .next (State.past (s.sixFlagsDrawn { s with dr1 := s.regs.get src }) s (.movDr03R32 a .dr1 src))
    ∧ exec (.movDr03R32 a .dr2 src) s
      = .next (State.past (s.sixFlagsDrawn { s with dr2 := s.regs.get src }) s (.movDr03R32 a .dr2 src))
    ∧ exec (.movDr03R32 a .dr3 src) s
      = .next (State.past (s.sixFlagsDrawn { s with dr3 := s.regs.get src }) s (.movDr03R32 a .dr3 src))
    ∧ exec (.movDr67R32 a .dr6 src) s
      = .next (State.past (s.sixFlagsDrawn { s with dr6 := s.regs.get src }) s (.movDr67R32 a .dr6 src))
    ∧ ((s.regs.get src).toNat % 256 = 0 → exec (.movDr67R32 a .dr7 src) s
      = .next (State.past (s.sixFlagsDrawn { s with dr7 := s.regs.get src }) s (.movDr67R32 a .dr7 src)))
    ∧ (s.pg = false → exec (.movTrR32 a .tr6 src) s
      = .next (State.past (s.sixFlagsDrawn { s with tr6 := s.regs.get src, tlbTested := true }) s (.movTrR32 a .tr6 src)))
    ∧ exec (.movTrR32 a .tr7 src) s
      = .next (State.past (s.sixFlagsDrawn { s with tr7 := s.regs.get src }) s (.movTrR32 a .tr7 src))

/-- The two writes that R212 refuses, in the states whose privilege admits them: DR7 with any of bits 7:0 set, and TR6 with
CR0.PG = 1. -/
def Obligations.RefusedSpecialWrites : Prop :=
  ∀ (a : Attr) (src : Reg) (s : State), s.privileged →
    ((s.regs.get src).toNat % 256 ≠ 0 → exec (.movDr67R32 a .dr7 src) s = .refused .breakpointEnable)
    ∧ (s.pg = true → exec (.movTrR32 a .tr6 src) s = .refused .tlbCommandWithPaging)

/-- What is written to a special register is read back in its defined positions: a move there and a move back give a general
register that agrees with the source in every position that is not reserved (R34, R35, R36, R212). TR6 is left out: after a
write of it, reads are draws. -/
def Obligations.SpecialRegisterReadsBack : Prop :=
  ∀ (a b : Attr) (src dst : Reg) (s t u : State),
    (∀ c, exec (.movCrR32 a c src) s = .next t → exec (.movR32Cr b dst c) t = .next u →
      u.regs.get dst &&& ctrlDefined c = s.regs.get src &&& ctrlDefined c)
    ∧ (∀ k, exec (.movDr03R32 a k src) s = .next t → exec (.movR32Dr03 b dst k) t = .next u →
      u.regs.get dst = s.regs.get src)
    ∧ (∀ k, exec (.movDr67R32 a k src) s = .next t → exec (.movR32Dr67 b dst k) t = .next u →
      u.regs.get dst &&& debugDefined k = s.regs.get src &&& debugDefined k)
    ∧ (s.tlbTested = false → exec (.movTrR32 a .tr7 src) s = .next t → exec (.movR32Tr b dst .tr7) t = .next u →
      u.regs.get dst &&& testDefined .tr7 = s.regs.get src &&& testDefined .tr7)

/-- The mode after an instruction: only a MOV into CR0 can change it or the paging; then bit 0 of the value written and VM give
the mode, and bit 31 of it the paging, which is never on in Real Address Mode (R38, R70, R204, R212); while the mode stays, CPL
stays (R33). That the next instruction follows the new mode is log 12, that paging needs another mode than Real Address Mode is
log 11, and that mode, CPL and default size are computed from CR0, VM and CS is log 18. -/
def Obligations.OnlyMovCr0ChangesMode : Prop :=
  ∀ (i : Instr) (s t : State), exec i s = .next t →
    ((∀ a src, i ≠ .movCrR32 a .cr0 src) → t.mode = s.mode ∧ t.paging = s.paging ∧ t.cpl = s.cpl
      ∧ t.defaultSize = s.defaultSize)
    ∧ (∀ a src, i = .movCrR32 a .cr0 src →
      t.mode = (if (s.regs.get src).getLsbD 0 = false then .real else if s.flags.vm = true then .v86 else .prot)
      ∧ t.paging = ((s.regs.get src).getLsbD 31 && t.mode != .real)
      ∧ (t.mode = s.mode → t.cpl = s.cpl))

/-- Outside Real Address Mode and privilege level 0 no instruction changes a control, debug or test register (R201, R316). -/
def Obligations.UnprivilegedCodeKeepsSpecialRegisters : Prop :=
  ∀ (i : Instr) (s t : State), ¬s.privileged → exec i s = .next t →
    t.cr0 = s.cr0 ∧ t.cr2 = s.cr2 ∧ t.cr3 = s.cr3 ∧ t.dr0 = s.dr0 ∧ t.dr1 = s.dr1 ∧ t.dr2 = s.dr2 ∧ t.dr3 = s.dr3
      ∧ t.dr6 = s.dr6 ∧ t.dr7 = s.dr7 ∧ t.tr6 = s.tr6 ∧ t.tr7 = s.tr7 ∧ t.tlbTested = s.tlbTested

/-! ### MOVS (42_movs.md) -/

/-- MOVS reads the whole element at DS, or the override, and the source index, stores it at ES and the destination index, and
advances both indexes by its bytes, down where DF = 1 (R230 to R235). -/
def Obligations.MovsMovesOneElement : Prop :=
  ∀ (a : Attr) (s : State) (m : Memory),
    (∀ v, s.reads8 (a.seg.getD .ds) (BitVec.ofNat 32 (sizedValue a.adsize s.regs .esi)) v →
      s.stores8 .es (BitVec.ofNat 32 (sizedValue a.adsize s.regs .edi)) v m → exec (.movs8 a) s
        = .next (State.past { s with mem := m, regs := movedIndexes s a.adsize 1 } s (.movs8 a)))
    ∧ (∀ v, s.reads16 (a.seg.getD .ds) (BitVec.ofNat 32 (sizedValue a.adsize s.regs .esi)) v →
      s.stores16 .es (BitVec.ofNat 32 (sizedValue a.adsize s.regs .edi)) v m → exec (.movs16 a) s
        = .next (State.past { s with mem := m, regs := movedIndexes s a.adsize 2 } s (.movs16 a)))
    ∧ (∀ v, s.reads32 (a.seg.getD .ds) (BitVec.ofNat 32 (sizedValue a.adsize s.regs .esi)) v →
      s.stores32 .es (BitVec.ofNat 32 (sizedValue a.adsize s.regs .edi)) v m → exec (.movs32 a) s
        = .next (State.past { s with mem := m, regs := movedIndexes s a.adsize 4 } s (.movs32 a)))

/-- One iteration of REP MOVS with a count that is not 0: the element moves as MOVS moves it and the count goes down by one;
where it becomes 0 the instruction is completed, otherwise pc and the latch stay (R236; the latch is log 16). -/
def Obligations.RepMovsMovesOneElement : Prop :=
  ∀ (a : Attr) (s : State) (m : Memory), sizedValue a.adsize s.regs .ecx ≠ 0 →
    (∀ v, s.reads8 (a.seg.getD .ds) (BitVec.ofNat 32 (sizedValue a.adsize s.regs .esi)) v →
      s.stores8 .es (BitVec.ofNat 32 (sizedValue a.adsize s.regs .edi)) v m → exec (.repMovs8 a) s
        = .next (if sizedValue a.adsize s.regs .ecx = 1
            then State.past { s with mem := m, regs := sizedSet a.adsize (movedIndexes s a.adsize 1) .ecx 0 } s (.repMovs8 a)
            else { s with
              mem := m
              regs := sizedSet a.adsize (movedIndexes s a.adsize 1) .ecx (sizedValue a.adsize s.regs .ecx - 1) }))
    ∧ (∀ v, s.reads16 (a.seg.getD .ds) (BitVec.ofNat 32 (sizedValue a.adsize s.regs .esi)) v →
      s.stores16 .es (BitVec.ofNat 32 (sizedValue a.adsize s.regs .edi)) v m → exec (.repMovs16 a) s
        = .next (if sizedValue a.adsize s.regs .ecx = 1
            then State.past { s with mem := m, regs := sizedSet a.adsize (movedIndexes s a.adsize 2) .ecx 0 } s (.repMovs16 a)
            else { s with
              mem := m
              regs := sizedSet a.adsize (movedIndexes s a.adsize 2) .ecx (sizedValue a.adsize s.regs .ecx - 1) }))
    ∧ (∀ v, s.reads32 (a.seg.getD .ds) (BitVec.ofNat 32 (sizedValue a.adsize s.regs .esi)) v →
      s.stores32 .es (BitVec.ofNat 32 (sizedValue a.adsize s.regs .edi)) v m → exec (.repMovs32 a) s
        = .next (if sizedValue a.adsize s.regs .ecx = 1
            then State.past { s with mem := m, regs := sizedSet a.adsize (movedIndexes s a.adsize 4) .ecx 0 } s (.repMovs32 a)
            else { s with
              mem := m
              regs := sizedSet a.adsize (movedIndexes s a.adsize 4) .ecx (sizedValue a.adsize s.regs .ecx - 1) }))

/-- REP MOVS with a count of 0 moves nothing and completes (R236). -/
def Obligations.RepMovsWithCountZero : Prop :=
  ∀ (a : Attr) (s : State), sizedValue a.adsize s.regs .ecx = 0 →
    exec (.repMovs8 a) s = .next (s.past s (.repMovs8 a)) ∧ exec (.repMovs16 a) s = .next (s.past s (.repMovs16 a))
      ∧ exec (.repMovs32 a) s = .next (s.past s (.repMovs32 a))

/-- A block of `n` iterations of REP MOVS, `n` at most the count: the count has gone down by `n`, both indexes have moved by
`n` elements modulo the address size, and pc is past the instruction exactly where the count has become 0 (R236). -/
def Obligations.RepMovsBlockProgress : Prop :=
  ∀ (i : Instr) (a : Attr) (w n : Nat) (s t : State),
    (i = .repMovs8 a ∧ w = 1) ∨ (i = .repMovs16 a ∧ w = 2) ∨ (i = .repMovs32 a ∧ w = 4) →
    n ≤ sizedValue a.adsize s.regs .ecx → 0 < n → execTimes i n s = some t →
    sizedValue a.adsize t.regs .ecx = sizedValue a.adsize s.regs .ecx - n
      ∧ (sizedValue a.adsize t.regs .esi : Int)
        = (sizedValue a.adsize s.regs .esi + n * moveDelta s w) % (if a.adsize = .w16 then 65536 else 4294967296)
      ∧ (sizedValue a.adsize t.regs .edi : Int)
        = (sizedValue a.adsize s.regs .edi + n * moveDelta s w) % (if a.adsize = .w16 then 65536 else 4294967296)
      ∧ t.pc = (if n = sizedValue a.adsize s.regs .ecx then nextPc s.defaultSize s.pc (i.length s.defaultSize) else s.pc)

/-! ### MOVSX, MOVZX, MUL (43_movsx.md, 44_movzx.md, 45_mul.md) -/

/-- MOVSX puts the source, taken as a signed integer, into the register named by reg (R260 to R263). -/
def Obligations.MovsxExtendsSigned : Prop :=
  ∀ (a : Attr) (dst : Reg) (s : State),
    (∀ src v, s.rmIs8 a src v → exec (.movsxR16Rm8 a dst src) s
      = .next (State.past { s with regs := s.regs.set16 dst (BitVec.ofInt 16 v.toInt) } s (.movsxR16Rm8 a dst src)))
    ∧ (∀ src v, s.rmIs8 a src v → exec (.movsxR32Rm8 a dst src) s
      = .next (State.past { s with regs := s.regs.set dst (BitVec.ofInt 32 v.toInt) } s (.movsxR32Rm8 a dst src)))
    ∧ (∀ src v, s.rmIs16 a src v → exec (.movsxR32Rm16 a dst src) s
      = .next (State.past { s with regs := s.regs.set dst (BitVec.ofInt 32 v.toInt) } s (.movsxR32Rm16 a dst src)))

/-- MOVZX puts the source, taken as an unsigned integer, into the register named by reg (R270 to R273). -/
def Obligations.MovzxExtendsUnsigned : Prop :=
  ∀ (a : Attr) (dst : Reg) (s : State),
    (∀ src v, s.rmIs8 a src v → exec (.movzxR16Rm8 a dst src) s
      = .next (State.past { s with regs := s.regs.set16 dst (BitVec.ofNat 16 v.toNat) } s (.movzxR16Rm8 a dst src)))
    ∧ (∀ src v, s.rmIs8 a src v → exec (.movzxR32Rm8 a dst src) s
      = .next (State.past { s with regs := s.regs.set dst (BitVec.ofNat 32 v.toNat) } s (.movzxR32Rm8 a dst src)))
    ∧ (∀ src v, s.rmIs16 a src v → exec (.movzxR32Rm16 a dst src) s
      = .next (State.past { s with regs := s.regs.set dst (BitVec.ofNat 32 v.toNat) } s (.movzxR32Rm16 a dst src)))

/-- MUL leaves the exact unsigned product in AX, DX:AX or EDX:EAX, sets CF and OF exactly where the product does not fit the
width of its factors, and draws SF, ZF, AF and PF (R280 to R285). -/
def Obligations.MulGivesExactProduct : Prop :=
  ∀ (a : Attr) (s : State),
    (∀ src v, s.rmIs8 a src v → exec (.mulRm8 a src) s
      = .next (State.past
          { s with
            regs := s.regs.set16 .eax (BitVec.ofNat 16 ((s.regs.get8 .al).toNat * v.toNat))
            flags := { s.flags with
              cf := decide (2 ^ 8 ≤ (s.regs.get8 .al).toNat * v.toNat)
              of := decide (2 ^ 8 ≤ (s.regs.get8 .al).toNat * v.toNat)
              sf := Config.anyBit s.draws
              zf := Config.anyBit (s.draws + 1)
              af := Config.anyBit (s.draws + 2)
              pf := Config.anyBit (s.draws + 3) }
            draws := s.draws + 4 } s (.mulRm8 a src)))
    ∧ (∀ src v, s.rmIs16 a src v → exec (.mulRm16 a src) s
      = .next (State.past
          { s with
            regs := (s.regs.set16 .eax (BitVec.ofNat 16 ((s.regs.get16 .eax).toNat * v.toNat))).set16 .edx
              (BitVec.ofNat 16 ((s.regs.get16 .eax).toNat * v.toNat / 2 ^ 16))
            flags := { s.flags with
              cf := decide (2 ^ 16 ≤ (s.regs.get16 .eax).toNat * v.toNat)
              of := decide (2 ^ 16 ≤ (s.regs.get16 .eax).toNat * v.toNat)
              sf := Config.anyBit s.draws
              zf := Config.anyBit (s.draws + 1)
              af := Config.anyBit (s.draws + 2)
              pf := Config.anyBit (s.draws + 3) }
            draws := s.draws + 4 } s (.mulRm16 a src)))
    ∧ (∀ src v, s.rmIs32 a src v → exec (.mulRm32 a src) s
      = .next (State.past
          { s with
            regs := (s.regs.set .eax (BitVec.ofNat 32 ((s.regs.get .eax).toNat * v.toNat))).set .edx
              (BitVec.ofNat 32 ((s.regs.get .eax).toNat * v.toNat / 2 ^ 32))
            flags := { s.flags with
              cf := decide (2 ^ 32 ≤ (s.regs.get .eax).toNat * v.toNat)
              of := decide (2 ^ 32 ≤ (s.regs.get .eax).toNat * v.toNat)
              sf := Config.anyBit s.draws
              zf := Config.anyBit (s.draws + 1)
              af := Config.anyBit (s.draws + 2)
              pf := Config.anyBit (s.draws + 3) }
            draws := s.draws + 4 } s (.mulRm32 a src)))

/-- After MUL, CF and OF are equal and are 1 exactly where the result's high half, AH, DX or EDX, is not 0; SF, ZF, AF and PF
are four draws; every other bit of EFLAGS is unchanged; and where the operand cannot be read the outcome is no next state, so
that no flag changes (R284). -/
def Obligations.MulFlagsFromHighHalf : Prop :=
  ∀ (a : Attr) (s t : State),
    (∀ src, exec (.mulRm8 a src) s = .next t → t.flags = { s.flags with
        cf := (t.regs.get8 .ah != 0#8), of := (t.regs.get8 .ah != 0#8), sf := Config.anyBit s.draws
        zf := Config.anyBit (s.draws + 1), af := Config.anyBit (s.draws + 2), pf := Config.anyBit (s.draws + 3) })
    ∧ (∀ src, exec (.mulRm16 a src) s = .next t → t.flags = { s.flags with
        cf := (t.regs.get16 .edx != 0#16), of := (t.regs.get16 .edx != 0#16), sf := Config.anyBit s.draws
        zf := Config.anyBit (s.draws + 1), af := Config.anyBit (s.draws + 2), pf := Config.anyBit (s.draws + 3) })
    ∧ (∀ src, exec (.mulRm32 a src) s = .next t → t.flags = { s.flags with
        cf := (t.regs.get .edx != 0#32), of := (t.regs.get .edx != 0#32), sf := Config.anyBit s.draws
        zf := Config.anyBit (s.draws + 1), af := Config.anyBit (s.draws + 2), pf := Config.anyBit (s.draws + 3) })
    ∧ (∀ src e, readRm8 a s src = .error e → exec (.mulRm8 a src) s = e.outcome)
    ∧ (∀ src e, readRm16 a s src = .error e → exec (.mulRm16 a src) s = e.outcome)
    ∧ (∀ src e, readRm32 a s src = .error e → exec (.mulRm32 a src) s = e.outcome)

/-! ### Exceptions (20_memory.md, 60_exceptions.md) -/

/-- An instruction that reads a memory operand at an illegal address raises the exception of the first cause: in Real Address Mode
Interrupt 13, or through SS the vector that log 14 leaves open, #GP(0) in Virtual 8086 Mode, #GP(0) or #SS(0) in Protected Mode
(R65 to R69, R71, R151, R305); and where the operand is legal and its pages are there, a byte that has no value faults (R41);
that the first such byte is the one named is log 3. -/
def Obligations.IllegalReadRaises : Prop :=
  ∀ (i : Instr) (s : State) (g : SegReg) (off : Word) (n : Nat), readsFrom i s = some (g, off, n) →
    (∀ x, s.accessRaises g .read off.toNat n x → exec i s = raised x)
    ∧ (∀ ps p qs, s.accessLegal g .read off.toNat n → (ps ++ p :: qs).length = n →
      s.placed false s.user (s.linear g off) (ps ++ p :: qs) → (∀ q ∈ ps, Memory.read s.mem q.toNat ≠ none) →
      Memory.read s.mem p.toNat = none → exec i s = .fault (.unwritten p))

/-- A MOV that stores to an illegal address raises the exception of the first cause (R65 to R69, R71, R151); and a legal store
raises the page fault of its byte `k`, with bit 1 of the fault code set, exactly where that byte is the first whose page is
missing for a write (R70, R71, R301). -/
def Obligations.IllegalWriteRaises : Prop :=
  ∀ (i : Instr) (s : State) (g : SegReg) (off : Word) (n : Nat), writesOnly i s = some (g, off, n) →
    (∀ x, s.accessRaises g .write off.toNat n x → exec i s = raised x)
    ∧ (s.accessLegal g .write off.toNat n → ∀ v k, k < n →
      (exec i s = pageFault v true s.user (s.linear g off + BitVec.ofNat 32 k)
        ↔ s.firstMissing v true s.user (s.linear g off) k))

/-- MOVS whose source can be read and whose destination is illegal raises the destination's exception, and so does an
iteration of REP MOVS: ES is never overridden (R230, R237, R305). Where the destination is legal, the page fault of its byte
`k`, with bit 1 of the fault code set, is raised exactly where the source can be read and that byte is the first whose page is
missing for a write (R70, R71, R301). -/
def Obligations.MovsIllegalDestinationRaises : Prop :=
  ∀ (a : Attr) (i : Instr) (n : Nat) (s : State),
    (n = 1 ∧ (i = .movs8 a ∨ i = .repMovs8 a)) ∨ (n = 2 ∧ (i = .movs16 a ∨ i = .repMovs16 a))
      ∨ (n = 4 ∧ (i = .movs32 a ∨ i = .repMovs32 a)) →
    (i.isRep = true → sizedValue a.adsize s.regs .ecx ≠ 0) →
    (s.canRead (a.seg.getD .ds) (BitVec.ofNat 32 (sizedValue a.adsize s.regs .esi)) n →
      ∀ x, s.accessRaises .es .write (sizedValue a.adsize s.regs .edi) n x → exec i s = raised x)
    ∧ (s.accessLegal .es .write (sizedValue a.adsize s.regs .edi) n → ∀ v k, k < n →
      (exec i s = pageFault v true s.user
          (s.segs.es.base + BitVec.ofNat 32 (sizedValue a.adsize s.regs .edi) + BitVec.ofNat 32 k)
        ↔ s.canRead (a.seg.getD .ds) (BitVec.ofNat 32 (sizedValue a.adsize s.regs .esi)) n
          ∧ s.firstMissing v true s.user (s.segs.es.base + BitVec.ofNat 32 (sizedValue a.adsize s.regs .edi)) k))

/-- A page fault on a read, each with vector 14, bit 1 of the fault code clear and the linear address of its byte for CR2, and
each raised exactly where that byte is the first whose page is missing: on byte `k` of a memory operand that is legal; on byte
`k` of the table entry in a load of a segment register, read with supervisor rights, so that bit 2 of the fault code is clear at
every privilege level (log 31); and on a byte of the instruction that the decoder needs (R70, R71, R81, R83, R301, R302). -/
def Obligations.PageFaultOnRead : Prop :=
  ∀ (s : State) (v : Bool),
    (∀ i g off n k, readsFrom i s = some (g, off, n) → s.accessLegal g .read off.toNat n → k < n →
      (exec i s = pageFault v false s.user (s.linear g off + BitVec.ofNat 32 k)
        ↔ s.firstMissing v false s.user (s.linear g off) k))
    ∧ (∀ a dst src sel k, s.mode = .prot → s.rmIs16 a src sel → 3 < sel.toNat → s.inTable sel → k < 8 →
      (exec (.movSregRm16 a dst src) s = pageFault v false false (s.entryAt sel + BitVec.ofNat 32 k)
        ↔ s.firstMissing v false false (s.entryAt sel) k))
    ∧ (∀ bs, decode s.defaultSize bs = .error .more → bs.length < 15 → s.fetches bs →
      s.accessLegal .cs .fetch (s.pc.toNat + bs.length) 1 →
      (step s = pageFault v false s.user (s.segs.cs.base + (s.pc + BitVec.ofNat 32 bs.length))
        ↔ s.misses v false s.user (s.segs.cs.base + (s.pc + BitVec.ofNat 32 bs.length))))

/-- Which exceptions an instruction can raise in each mode: in Real Address Mode vector 13, or the alternative 12 (log 14), with no
error code; in Virtual 8086 Mode #GP(0) or a page fault; in Protected Mode vectors 11 to 14, with an error code; a page fault
only with paging on (R300, R302). -/
def Obligations.ExceptionsByMode : Prop :=
  ∀ (i : Instr) (s : State) (v : BitVec 8) (c : Option (BitVec 16)) (l : Option Word),
    exec i s = .fault (.exception v c l) →
    (s.mode = .real → (v = 13#8 ∨ (v = 12#8 ∧ Config.realSsLimitIsTwelve = true)) ∧ c = none ∧ l = none)
    ∧ (s.mode = .v86 → (v = 13#8 ∧ c = some 0#16 ∧ l = none) ∨ (v = 14#8 ∧ s.paging = true ∧ c.isSome = true ∧ l.isSome = true))
    ∧ (s.mode = .prot → ((v = 11#8 ∨ v = 12#8 ∨ v = 13#8) ∧ c.isSome = true ∧ l = none)
      ∨ (v = 14#8 ∧ s.paging = true ∧ c.isSome = true ∧ l.isSome = true))

/-- The forms with register and immediate operands only, but for the loads of a segment register and the special moves,
raise nothing in any mode (R302). -/
def Obligations.RegisterFormsNeverStop : Prop :=
  ∀ (i : Instr) (s : State), i.mem? = none → i.moffs? = none → isSpecial i = false →
    (∀ a, i ≠ .movs8 a ∧ i ≠ .movs16 a ∧ i ≠ .movs32 a) → i.isRep = false →
    (∀ a g o, i ≠ .movSregRm16 a g o) → ∃ t, exec i s = .next t ∧ t.mem = s.mem

/-- A store to any byte of the program's code region completes in no state (R79, D20; the region is log 13). -/
def Obligations.StoreToCodeNeverCompletes : Prop :=
  ∀ (i : Instr) (s : State) (ps : List Word), storesTo i s = .ok ps → (∃ p ∈ ps, s.code.contains p = true) →
    ∀ t, exec i s ≠ .next t

/-! ### Frames -/

/-- Every byte of memory outside the bytes an instruction stores to reads as before; a form that stores nothing leaves all of
memory (R61, R74, R150, R280). -/
def Obligations.MemoryOutsideStoreUnchanged : Prop :=
  ∀ (i : Instr) (s t : State), exec i s = .next t →
    ∃ ps, storesTo i s = .ok ps ∧ (ps = [] → t.mem = s.mem)
      ∧ ∀ adr : Nat, (∀ p ∈ ps, p.toNat ≠ adr) → Memory.read t.mem adr = Memory.read s.mem adr

/-- Every general register but the instruction's destination, and the index and count registers of MOVS and REP MOVS, keeps
its value (R20, R23, R150). -/
def Obligations.OtherRegistersUnchanged : Prop :=
  ∀ (i : Instr) (s t : State) (r : Reg), exec i s = .next t → writesReg i r = false → t.regs.get r = s.regs.get r

/-- A write of an 8-bit or 16-bit register view changes only its bits: every instruction that writes a 16-bit register (a word
destination of MOV, MOVSX or MOVZX, AX of A1 and MUL, DX of MUL, SI, DI and CX of MOVS and REP MOVS with 16-bit addresses) keeps
bits 31:16, and every one that writes an 8-bit register (a byte destination of MOV, AL of A0) keeps the other 24 bits (R22). -/
def Obligations.NarrowWritesKeepOtherBits : Prop :=
  ∀ (i : Instr) (s t : State), exec i s = .next t →
    (∀ d ∈ wordDestinations i, ∀ k, 16 ≤ k → (t.regs.get d).getLsbD k = (s.regs.get d).getLsbD k)
    ∧ (∀ d ∈ byteDestinations i, ∀ k, (if isHighByte d = true then k < 8 ∨ 16 ≤ k else 8 ≤ k) →
        (t.regs.get (byteHome d)).getLsbD k = (s.regs.get (byteHome d)).getLsbD k)

/-- Every segment register but the destination of a MOV Sreg,r/m16 keeps its visible and hidden part; CS is never written
(R28, R159, R178). -/
def Obligations.OtherSegmentsUnchanged : Prop :=
  ∀ (i : Instr) (s t : State) (g : SegReg), exec i s = .next t →
    (∀ a d o, i = .movSregRm16 a d o → g ≠ d.toSegReg) → t.segs.get g = s.segs.get g

/-- No instruction writes the descriptor-table registers, the task register or the code region; and every special register
but the destination of a MOV into it keeps its cell (R27, R32, R39, R200). -/
def Obligations.OtherSystemStateUnchanged : Prop :=
  ∀ (i : Instr) (s t : State), exec i s = .next t →
    t.gdtr = s.gdtr ∧ t.ldtr = s.ldtr ∧ t.idtr = s.idtr ∧ t.task = s.task ∧ t.code = s.code
    ∧ (∀ c, (∀ a r, i ≠ .movCrR32 a c r) → t.ctrl c = s.ctrl c)
    ∧ (∀ k, (∀ a r, i ≠ .movDr03R32 a k r) → t.breakAddr k = s.breakAddr k)
    ∧ (∀ k, (∀ a r, i ≠ .movDr67R32 a k r) → t.debug k = s.debug k)
    ∧ (∀ k, (∀ a r, i ≠ .movTrR32 a k r) → t.test k = s.test k)

/-- The flags an instruction writes, complete: MOV -- Move Data, MOVS, MOVSX and MOVZX none; the special moves the six status
flags, each a draw; MUL CF and OF, equal, and SF, ZF, AF and PF, each a draw; DF, IF, TF, IOPL, NT, RF and VM nothing (R27). -/
def Obligations.FlagsWritten : Prop :=
  ∀ (i : Instr) (s t : State), exec i s = .next t →
    (isSpecial i = false → isMul i = false → t.flags = s.flags)
    ∧ (isSpecial i = true → ∃ k, t.flags = { s.flags with
        of := Config.anyBit k, sf := Config.anyBit (k + 1), zf := Config.anyBit (k + 2), af := Config.anyBit (k + 3)
        pf := Config.anyBit (k + 4), cf := Config.anyBit (k + 5) })
    ∧ (isMul i = true → ∃ k h, t.flags = { s.flags with
        cf := h, of := h, sf := Config.anyBit k, zf := Config.anyBit (k + 1), af := Config.anyBit (k + 2)
        pf := Config.anyBit (k + 3) })

/-- No instruction reads OF, SF, ZF, AF, PF or CF, and none reads the interrupt-inhibit latch: two states that differ in them
alone give the same fault or the same refusal, or next states that again differ in them alone (R27, R37). -/
def Obligations.StatusFlagsAndLatchAreNotRead : Prop :=
  ∀ (i : Instr) (s : State) (o f z x p c h : Bool),
    match exec i s,
      exec i { s with flags := { s.flags with of := o, sf := f, zf := z, af := x, pf := p, cf := c }, inhibit := h } with
    | .next t, .next u => ∃ o' f' z' x' p' c' h', u = { t with
        flags := { t.flags with of := o', sf := f', zf := z', af := x', pf := p', cf := c' }, inhibit := h' }
    | .fault e, .fault e' => e = e'
    | .refused r, .refused r' => r = r'
    | _, _ => False

/-- An instruction that completes advances pc by its length, modulo 2^16 with a 16-bit default size and modulo 2^32 with a
32-bit one; of the others, REP MOVS alone stays at the instruction, while its count is not 0 (R24, R123, R236). -/
def Obligations.ProgramCounterAdvances : Prop :=
  ∀ (i : Instr) (s t : State), exec i s = .next t →
    t.pc.toNat = (if i.isRep = true ∧ sizedValue i.attr.adsize t.regs .ecx ≠ 0 then s.pc.toNat
      else (s.pc.toNat + i.length s.defaultSize) % (if s.defaultSize = .w16 then 65536 else 4294967296))

/-! ### Memory -/

/-- A doubleword stored is read back whole, by words and by bytes: the byte at offset k above the address holds bits
8k+7 to 8k, with no paging, through the same segment, at any alignment (R62, R72, R74, R82). -/
def Obligations.StoredDoublewordReadsBack : Prop :=
  ∀ (a b : Attr) (off : Word) (s t u : State), s.paging = false →
    moffsSegment a = moffsSegment b → exec (.movMoffs32Eax a off) s = .next t →
    (exec (.movEaxMoffs32 b off) t = .next u → u.regs.eax = s.regs.eax)
    ∧ (∀ k : Nat, k ≤ 2 → exec (.movAxMoffs16 b (off + BitVec.ofNat 32 k)) t = .next u →
      u.regs.get16 .eax = s.regs.eax.extractLsb' (8 * k) 16)
    ∧ (∀ k : Nat, k ≤ 3 → exec (.movAlMoffs8 b (off + BitVec.ofNat 32 k)) t = .next u →
      u.regs.get8 .al = s.regs.eax.extractLsb' (8 * k) 8)

/-- The offset of a memory operand, every form: a 16-bit form's base registers and displacement summed modulo 2^16 and
zero-extended, a 32-bit form's base, scaled index and displacement summed modulo 2^32, a part that is absent counting 0; the
displacement byte is signed. The segment is the override's; without one it is SS with a base of BP, EBP or ESP and DS otherwise,
and DS for a `moffs` operand (R64, R108, R109, R110). -/
def Obligations.EffectiveAddressSums : Prop :=
  ∀ (x : Regs),
    (∀ d, (effectiveAddress x (.direct16 d)).toNat = d.toNat)
    ∧ (∀ b d, effectiveAddress x (.based16 b d)
        = BitVec.setWidth 32 (BitVec.ofInt 16 ((base16Value x b).toNat + disp16Int d)))
    ∧ (base16Value x .bxSi = BitVec.ofNat 16 (x.ebx.toNat + x.esi.toNat)
        ∧ base16Value x .bxDi = BitVec.ofNat 16 (x.ebx.toNat + x.edi.toNat)
        ∧ base16Value x .bpSi = BitVec.ofNat 16 (x.ebp.toNat + x.esi.toNat)
        ∧ base16Value x .bpDi = BitVec.ofNat 16 (x.ebp.toNat + x.edi.toNat)
        ∧ base16Value x .si = BitVec.ofNat 16 x.esi.toNat ∧ base16Value x .di = BitVec.ofNat 16 x.edi.toNat
        ∧ base16Value x .bp = BitVec.ofNat 16 x.ebp.toNat ∧ base16Value x .bx = BitVec.ofNat 16 x.ebx.toNat)
    ∧ (∀ d, effectiveAddress x (.direct32 d) = d)
    ∧ (∀ b d, effectiveAddress x (.based32 b d) = BitVec.ofInt 32 ((x.get b).toNat + disp32Int d))
    ∧ (∀ z r b d, effectiveAddress x (.scaled z r b d)
        = BitVec.ofInt 32 ((x.get b).toNat + scaledIndexNat x z r + disp32Int d))
    ∧ (∀ z r d, effectiveAddress x (.scaledNoBase z r d) = BitVec.ofNat 32 (scaledIndexNat x z r + d.toNat))
    ∧ (∀ o z g m, operandSegment ⟨o, z, some g⟩ m = g ∧ moffsSegment ⟨o, z, some g⟩ = g)
    ∧ (∀ o z m, operandSegment ⟨o, z, none⟩ m = (if stackBased m = true then .ss else .ds)
        ∧ moffsSegment ⟨o, z, none⟩ = .ds)
end

