-- ==== Sys2Proof/Laws/Memory.lean ====
section
/-!
SUPPORT. Memory: reading after a write, the canonical form, and the bytes of a value (20_memory.md R61, R62, R74).
-/

namespace Sys2Proof.Machine

theorem Memory.wfFrom_mono {m : Memory} {lo hi : Nat} (h : lo ≤ hi) (w : Memory.wfFrom hi m = true) :
    Memory.wfFrom lo m = true := by
  cases m with
  | nil => rfl
  | cons e r =>
    obtain ⟨k, b⟩ := e
    simp only [Memory.wfFrom, Bool.and_eq_true, decide_eq_true_eq] at w ⊢
    exact ⟨⟨by omega, w.1.2⟩, w.2⟩

/-- An address below every entry has no value. -/
theorem Memory.read_of_wfFrom {m : Memory} {lo a : Nat} (w : Memory.wfFrom lo m = true) (h : a < lo) :
    Memory.read m a = Memory.unlisted := by
  induction m generalizing lo with
  | nil => rfl
  | cons e r ih =>
    obtain ⟨k, b⟩ := e
    simp only [Memory.wfFrom, Bool.and_eq_true, decide_eq_true_eq] at w
    have hk : k ≠ a := by omega
    simp only [Memory.read, if_neg hk]
    exact ih w.2 (by omega)

/-- A write leaves every other byte as it was, whatever form the memory has. -/
theorem Memory.read_write_of_ne (m : Memory) {a b : Nat} (v : Byte) (h : b ≠ a) :
    Memory.read (Memory.write m a v) b = Memory.read m b := by
  have h' : ¬a = b := fun e => h e.symm
  induction m with
  | nil => simp [Memory.write, Memory.read, h']
  | cons e r ih =>
    obtain ⟨k, c⟩ := e
    unfold Memory.write
    by_cases h1 : a < k
    · simp [h1, Memory.read, h']
    · by_cases h2 : a = k
      · subst h2
        simp [Memory.read, h']
      · simp only [if_neg h1, if_neg h2, Memory.read, ih]

/-- A byte read after it was written is the byte written, whatever form the memory has. -/
theorem Memory.read_write_same (m : Memory) (a : Nat) (v : Byte) : Memory.read (Memory.write m a v) a = some v := by
  induction m with
  | nil => simp [Memory.write, Memory.read]
  | cons e r ih =>
    obtain ⟨k, c⟩ := e
    unfold Memory.write
    by_cases h1 : a < k
    · simp [h1, Memory.read]
    · by_cases h2 : a = k
      · subst h2
        simp [Memory.read]
      · have hk : ¬k = a := fun e => h2 e.symm
        simp only [if_neg h1, if_neg h2, Memory.read, if_neg hk, ih]

theorem Memory.wfFrom_write {m : Memory} {lo a : Nat} (v : Byte) (w : Memory.wfFrom lo m = true) (ha : a < 4294967296)
    (hl : lo ≤ a) : Memory.wfFrom lo (Memory.write m a v) = true := by
  induction m generalizing lo with
  | nil => simp [Memory.write, Memory.wfFrom, ha, hl]
  | cons e r ih =>
    obtain ⟨k, c⟩ := e
    simp only [Memory.wfFrom, Bool.and_eq_true, decide_eq_true_eq] at w
    unfold Memory.write
    by_cases h1 : a < k
    · simp only [if_pos h1, Memory.wfFrom, Bool.and_eq_true, decide_eq_true_eq]
      exact ⟨⟨hl, ha⟩, ⟨h1, w.1.2⟩, w.2⟩
    · by_cases h2 : a = k
      · subst h2
        simp only [if_neg h1, if_pos, Memory.wfFrom, Bool.and_eq_true, decide_eq_true_eq]
        exact ⟨⟨hl, ha⟩, w.2⟩
      · simp only [if_neg h1, if_neg h2, Memory.wfFrom, Bool.and_eq_true, decide_eq_true_eq]
        exact ⟨w.1, ih w.2 (by omega)⟩

/-- A write within the 32-bit space keeps the canonical form. -/
theorem Memory.wf_write {m : Memory} {a : Nat} (v : Byte) (w : Memory.wf m = true) (ha : a < 4294967296) :
    Memory.wf (Memory.write m a v) = true := Memory.wfFrom_write v w ha (Nat.zero_le a)

/-- Writes at physical addresses keep the canonical form. -/
theorem Memory.wf_writeBytes {m : Memory} (ps : List Word) (bs : List Byte) (w : Memory.wf m = true) :
    Memory.wf (Memory.writeBytes m ps bs) = true := by
  induction ps generalizing m bs with
  | nil => cases bs <;> exact w
  | cons p ps ih =>
    cases bs with
    | nil => exact w
    | cons b bs => exact ih bs (Memory.wf_write b w p.isLt)

/-- A write of several bytes leaves every byte at another address as it was. -/
theorem Memory.read_writeBytes_of_notMem (m : Memory) (ps : List Word) (bs : List Byte) (a : Nat)
    (h : ∀ p ∈ ps, p.toNat ≠ a) : Memory.read (Memory.writeBytes m ps bs) a = Memory.read m a := by
  induction ps generalizing m bs with
  | nil => cases bs <;> rfl
  | cons p ps ih =>
    cases bs with
    | nil => rfl
    | cons b bs =>
      simp only [Memory.writeBytes]
      rw [ih _ _ (fun q hq => h q (List.mem_cons_of_mem p hq))]
      exact Memory.read_write_of_ne m b (fun e => h p (List.mem_cons_self ..) e.symm)

/-! ### Bytes of a value (R62) -/

@[simp] theorem toBytes_length (n v : Nat) : (toBytes n v).length = n := by
  induction n generalizing v with
  | zero => rfl
  | succ n ih => simp [toBytes, ih]

/-- The bytes of a value put together again are the value, modulo what `n` bytes hold. -/
theorem fromBytes_toBytes (n v : Nat) : fromBytes (toBytes n v) = v % 256 ^ n := by
  induction n generalizing v with
  | zero => simp [toBytes, fromBytes, Nat.mod_one]
  | succ n ih =>
    have e : 256 ^ (n + 1) = 256 * 256 ^ n := by rw [Nat.pow_succ, Nat.mul_comm]
    rw [e, Nat.mod_mul]
    simp only [toBytes, fromBytes, ih, BitVec.toNat_ofNat]

theorem fromBytes_lt (bs : List Byte) : fromBytes bs < 256 ^ bs.length := by
  induction bs with
  | nil => simp [fromBytes]
  | cons b r ih =>
    have := b.isLt
    simp only [fromBytes, List.length_cons, Nat.pow_succ]
    omega

/-- Two bytes as a 16-bit value: the first in bits 7:0. -/
theorem ofNat_fromBytes_two (b0 b1 : Byte) : BitVec.ofNat 16 (fromBytes [b0, b1]) = b1 ++ b0 := by
  apply BitVec.eq_of_toNat_eq
  simp only [fromBytes, BitVec.toNat_ofNat, BitVec.toNat_append]
  have := b0.isLt; have := b1.isLt
  rw [← Nat.shiftLeft_add_eq_or_of_lt (by omega), Nat.shiftLeft_eq]
  omega

/-- Four bytes as a 32-bit value: the first in bits 7:0. -/
theorem ofNat_fromBytes_four (b0 b1 b2 b3 : Byte) :
    BitVec.ofNat 32 (fromBytes [b0, b1, b2, b3]) = b3 ++ b2 ++ b1 ++ b0 := by
  apply BitVec.eq_of_toNat_eq
  simp only [fromBytes, BitVec.toNat_ofNat, BitVec.toNat_append]
  have := b0.isLt; have := b1.isLt; have := b2.isLt; have := b3.isLt
  rw [← Nat.shiftLeft_add_eq_or_of_lt (by omega), ← Nat.shiftLeft_add_eq_or_of_lt (by omega),
    ← Nat.shiftLeft_add_eq_or_of_lt (by omega)]
  simp only [Nat.shiftLeft_eq]
  omega

theorem toBytes_one (v : BitVec 8) : toBytes 1 v.toNat = [v] := by
  simp [toBytes]

theorem ofNat_div_eq_extract {w : Nat} (v : BitVec w) (k : Nat) :
    BitVec.ofNat 8 (v.toNat / 2 ^ k) = v.extractLsb' k 8 := by
  apply BitVec.eq_of_toNat_eq
  simp [BitVec.extractLsb'_toNat, Nat.shiftRight_eq_div_pow]

/-- The bytes of a 16-bit value, bits 7:0 first. -/
theorem toBytes_two (v : BitVec 16) : toBytes 2 v.toNat = [v.extractLsb' 0 8, v.extractLsb' 8 8] := by
  rw [← ofNat_div_eq_extract v 0, ← ofNat_div_eq_extract v 8]
  simp [toBytes]

/-- The bytes of a 32-bit value, bits 7:0 first. -/
theorem toBytes_four (v : BitVec 32) :
    toBytes 4 v.toNat = [v.extractLsb' 0 8, v.extractLsb' 8 8, v.extractLsb' 16 8, v.extractLsb' 24 8] := by
  rw [← ofNat_div_eq_extract v 0, ← ofNat_div_eq_extract v 8, ← ofNat_div_eq_extract v 16, ← ofNat_div_eq_extract v 24]
  simp [toBytes, Nat.div_div_eq_div_mul]

end Sys2Proof.Machine
end

