-- ==== Sys2Proof/Laws/Access.lean ====
section
/-!
SUPPORT. What the shared operations over memory can do, once each: the checks, the translation, the checked read and write
(20_memory.md R62 to R71), and the reads and writes of an `r/m` operand (30_encoding.md R104).
-/

namespace Sys2Proof.Machine

/-- A computation of several parts succeeds exactly where each part does. -/
theorem except_bind_ok {ε α β : Type} {x : Except ε α} {f : α → Except ε β} {b : β} :
    (x >>= f) = .ok b ↔ ∃ a, x = .ok a ∧ f a = .ok b := by
  cases x with
  | error e => exact ⟨(fun h => nomatch h), (fun ⟨_, h, _⟩ => nomatch h)⟩
  | ok a => exact ⟨(fun h => ⟨a, rfl, h⟩), (fun ⟨_, h, h'⟩ => by cases h; exact h')⟩

/-- It fails where the first part fails, or where the first succeeds and the rest fails. -/
theorem except_bind_error {ε α β : Type} {x : Except ε α} {f : α → Except ε β} {e : ε} :
    (x >>= f) = .error e ↔ x = .error e ∨ ∃ a, x = .ok a ∧ f a = .error e := by
  cases x with
  | error e' =>
    exact ⟨fun h => .inl (by cases h; rfl), fun h => by
      rcases h with h | ⟨_, h, _⟩
      · cases h; rfl
      · exact nomatch h⟩
  | ok a =>
    exact ⟨fun h => .inr ⟨a, rfl, h⟩, fun h => by
      rcases h with h | ⟨_, h, h'⟩
      · exact nomatch h
      · cases h; exact h'⟩

@[simp] theorem except_ok_bind {ε α β : Type} (a : α) (f : α → Except ε β) : ((Except.ok a : Except ε α) >>= f) = f a := rfl

@[simp] theorem except_error_bind {ε α β : Type} (e : ε) (f : α → Except ε β) :
    ((Except.error e : Except ε α) >>= f) = .error e := rfl

/-! ### The checks (R65 to R69, R71) -/

/-- The limit check is R67's arithmetic. -/
theorem inLimit_iff (x : Segment) (off n : Nat) : inLimit x off n = true ↔ x.withinLimits off n := by
  unfold inLimit Segment.withinLimits arCode arExpandDownOrConforming
  cases x.ar.getLsbD 3 <;> cases x.ar.getLsbD 2 <;> simp

/-- The type check is R68's reading of the AR bits. -/
theorem typeAllows_iff (x : Segment) (k : Access) : typeAllows x k = true ↔ x.admits k := by
  cases k <;> simp only [typeAllows, Segment.admits, arCode, arWritableOrReadable] <;> cases x.ar.getLsbD 3 <;>
    cases x.ar.getLsbD 1 <;> simp

theorem inRealRange_iff (off n : Nat) : inRealRange off n = true ↔ off + n - 1 ≤ 0xFFFF := by simp [inRealRange]

/-- The checks pass exactly where the access is legal. -/
theorem checkAccess_ok_iff (s : State) (g : SegReg) (k : Access) (off n : Nat) :
    checkAccess s g k off n = .ok () ↔ s.accessLegal g k off n := by
  unfold checkAccess State.accessLegal
  rw [← inLimit_iff, ← typeAllows_iff, ← inRealRange_iff]
  cases s.mode with
  | real => cases inRealRange off n <;> simp [raise]
  | v86 => cases inRealRange off n <;> simp [raise]
  | prot => (repeat' split) <;> simp_all [raise]

/-- Where they fail, they raise the exception of the first cause. -/
theorem checkAccess_of_raises {s : State} {g : SegReg} {k : Access} {off n : Nat} {x : Exception}
    (h : s.accessRaises g k off n x) : checkAccess s g k off n = raise x := by
  unfold State.accessRaises at h
  unfold checkAccess
  rw [← inLimit_iff, ← typeAllows_iff, ← Nat.not_le, ← inRealRange_iff] at h
  cases hm : s.mode with
  | real => rw [hm] at h; obtain ⟨h1, rfl⟩ := h; simp [h1, realLimitVector]
  | v86 => rw [hm] at h; obtain ⟨h1, rfl⟩ := h; simp [h1]
  | prot =>
    simp only [hm] at h
    rcases h with ⟨h1, rfl⟩ | ⟨h1, h2, rfl⟩ | ⟨h1, h2, h3, rfl⟩
    · simp [h1]
    · simp [h1, h2]
    · by_cases hg : g = .ss
      · subst hg; simp [h1, h2, h3]
      · simp [h1, h2, h3, hg]

/-- An access is legal or raises some exception. -/
theorem accessLegal_or_raises (s : State) (g : SegReg) (k : Access) (off n : Nat) :
    s.accessLegal g k off n ∨ ∃ x, s.accessRaises g k off n x := by
  unfold State.accessLegal State.accessRaises
  cases s.mode with
  | real => by_cases h : off + n - 1 ≤ 0xFFFF <;> simp_all; omega
  | v86 => by_cases h : off + n - 1 ≤ 0xFFFF <;> simp_all; omega
  | prot =>
    cases hv : (s.segs.get g).valid with
    | false => exact .inr ⟨_, .inl ⟨rfl, rfl⟩⟩
    | true =>
      by_cases ha : (s.segs.get g).admits k
      · by_cases hl : (s.segs.get g).withinLimits off n
        · exact .inl ⟨rfl, ha, hl⟩
        · exact .inr ⟨_, .inr (.inr ⟨rfl, ha, hl, rfl⟩)⟩
      · exact .inr ⟨_, .inr (.inl ⟨rfl, ha, rfl⟩)⟩

/-- A failed check is a fault with a vector of R300: Interrupt 13 or its alternative in Real Address Mode; #GP(0) or #SS(0)
otherwise. -/
theorem checkAccess_error {s : State} {g : SegReg} {k : Access} {off n : Nat} {e : Stop}
    (h : checkAccess s g k off n = .error e) : ∃ x, s.accessRaises g k off n x ∧ raise (α := Unit) x = .error e := by
  rcases accessLegal_or_raises s g k off n with hl | ⟨x, hx⟩
  · rw [(checkAccess_ok_iff ..).2 hl] at h; exact nomatch h
  · exact ⟨x, hx, (checkAccess_of_raises hx).symm.trans h⟩

/-! ### Translation (R70) -/

theorem translate_ok_iff (s : State) (lin : Word) (w u : Bool) (p : Word) :
    translate s lin w u = .ok p ↔ s.mapsTo w u lin p := by
  unfold translate State.mapsTo
  by_cases hp : s.paging = true
  · simp only [if_pos hp]
    cases Config.translate s.cr3 s.mem lin w u <;> simp [raise]
  · simp only [if_neg hp, Except.ok.injEq]; exact eq_comm

/-- The fault of a page that is missing. -/
def missStop (violation write user : Bool) (lin : Word) : Stop :=
  .fault (.exception 14#8 (some (pageFaultCode violation write user)) (some lin))

theorem missStop_outcome (v w u : Bool) (lin : Word) : (missStop v w u lin).outcome = pageFault v w u lin := by
  cases v <;> cases w <;> cases u <;> rfl

theorem missStop_inj {v v' w w' u u' : Bool} {l l' : Word} (h : missStop v w u l = missStop v' w' u' l') :
    v = v' ∧ w = w' ∧ u = u' ∧ l = l' := by
  simp only [missStop, Stop.fault.injEq, Fault.exception.injEq, Option.some.injEq, true_and] at h
  refine ⟨?_, ?_, ?_, h.2⟩ <;> revert h <;> cases v <;> cases v' <;> cases w <;> cases w' <;> cases u <;> cases u' <;> simp [pageFaultCode]

/-- A translation fails exactly where the page is missing, with its page fault. -/
theorem translate_error_iff (s : State) (lin : Word) (w u : Bool) (e : Stop) :
    translate s lin w u = .error e ↔ ∃ v, s.misses v w u lin ∧ e = missStop v w u lin := by
  unfold translate State.misses
  by_cases hp : s.paging = true
  · simp only [hp, true_and, if_true]
    cases Config.translate s.cr3 s.mem lin w u with
    | mapped p => simp
    | missing v => simp [raise, missStop, Exception.vector, Exception.code, Exception.linear, eq_comm]
  · simp [hp]

theorem translateRun_ok_iff (s : State) (w u : Bool) (lin : Word) (n : Nat) (ps : List Word) :
    translateRun s w u lin n = .ok ps ↔ s.placed w u lin ps ∧ ps.length = n := by
  induction n generalizing lin ps with
  | zero => cases ps <;> simp [translateRun, State.placed]
  | succ n ih =>
    simp only [translateRun, except_bind_ok, Except.ok.injEq, translate_ok_iff]
    constructor
    · rintro ⟨p, hp, qs, hq, rfl⟩
      obtain ⟨h1, h2⟩ := (ih _ _).1 hq
      exact ⟨⟨hp, h1⟩, by simp [h2]⟩
    · rintro ⟨hp, hl⟩
      cases ps with
      | nil => simp at hl
      | cons p qs => exact ⟨p, hp.1, qs, (ih _ _).2 ⟨hp.2, by simpa using hl⟩, rfl⟩

theorem translateRun_of_placed {s : State} {w u : Bool} {lin : Word} {ps : List Word} (h : s.placed w u lin ps) :
    translateRun s w u lin ps.length = .ok ps := (translateRun_ok_iff ..).2 ⟨h, rfl⟩

theorem translateRun_length {s : State} {w u : Bool} {lin : Word} {n : Nat} {ps : List Word}
    (h : translateRun s w u lin n = .ok ps) : ps.length = n := ((translateRun_ok_iff ..).1 h).2

theorem succ_offset (lin : Word) (k : Nat) : lin + 1#32 + BitVec.ofNat 32 k = lin + BitVec.ofNat 32 (k + 1) := by
  rw [BitVec.add_assoc, ← BitVec.ofNat_add, Nat.add_comm]

/-- A run of translations fails exactly at its first missing page. -/
theorem translateRun_error_iff (s : State) (w u : Bool) (lin : Word) (n : Nat) (e : Stop) :
    translateRun s w u lin n = .error e
      ↔ ∃ v k, k < n ∧ s.firstMissing v w u lin k ∧ e = missStop v w u (lin + BitVec.ofNat 32 k) := by
  induction n generalizing lin with
  | zero => simp [translateRun]
  | succ n ih =>
    have last : ∀ q : List Word, (Except.ok q : Except Stop (List Word)) ≠ .error e := fun _ h => nomatch h
    simp only [translateRun, except_bind_error, translate_error_iff, ih, last, and_false, exists_false, or_false, translate_ok_iff]
    constructor
    · rintro (⟨v, h, rfl⟩ | ⟨p, hp, v, k, hk, ⟨⟨ps, hl, hq⟩, h⟩, rfl⟩)
      · exact ⟨v, 0, by omega, ⟨⟨[], rfl, trivial⟩, by simpa using h⟩, by simp⟩
      · rw [succ_offset] at h ⊢
        exact ⟨v, k + 1, by omega, ⟨⟨p :: ps, by simp [hl], hp, hq⟩, h⟩, rfl⟩
    · rintro ⟨v, k, hk, ⟨⟨ps, hl, hq⟩, h⟩, rfl⟩
      cases ps with
      | nil => cases hl; exact .inl ⟨v, by simpa using h, by simp⟩
      | cons p ps =>
        cases hl
        refine .inr ⟨p, hq.1, v, ps.length, by simpa using hk, ⟨⟨ps, rfl, hq.2⟩, ?_⟩, ?_⟩
        · rw [succ_offset]; exact h
        · rw [succ_offset]; rfl

/-- Where byte `k` of a run is the first whose page is missing, the run stops there. -/
theorem translateRun_of_firstMissing {s : State} {v w u : Bool} {lin : Word} {k n : Nat} (hk : k < n)
    (h : s.firstMissing v w u lin k) : translateRun s w u lin n = .error (missStop v w u (lin + BitVec.ofNat 32 k)) :=
  (translateRun_error_iff ..).2 ⟨v, k, hk, h, rfl⟩

/-- Without paging a byte of memory lies at its linear address. -/
theorem mapsTo_of_not_paging {s : State} (h : s.paging = false) (w u : Bool) (lin : Word) : s.mapsTo w u lin lin := by
  simp [State.mapsTo, h]

theorem translateRun_of_not_paging {s : State} (h : s.paging = false) (w u : Bool) (lin : Word) (n : Nat) :
    translateRun s w u lin n = .ok ((List.range n).map (fun k => lin + BitVec.ofNat 32 k)) := by
  induction n generalizing lin with
  | zero => rfl
  | succ n ih =>
    have ht : translate s lin w u = .ok lin := by simp [translate, h]
    simp only [translateRun, ht, except_ok_bind, ih, List.range_succ_eq_map, List.map_cons, List.map_map]
    congr 2
    · simp
    · refine List.map_congr_left (fun k _ => ?_)
      simp only [Function.comp, Nat.succ_eq_add_one]
      rw [BitVec.add_assoc, ← BitVec.ofNat_add, Nat.add_comm]

/-! ### Reads and writes (R62, R71, R79) -/

/-- Bytes that all have values are given, and they are those. -/
theorem givenBytes_ok_iff (s : State) (ps : List Word) (bs : List Byte) : givenBytes s.mem ps = .ok bs ↔ s.holds ps bs := by
  unfold State.holds
  induction ps generalizing bs with
  | nil => cases bs <;> simp [givenBytes]
  | cons p ps ih =>
    simp only [givenBytes, except_bind_ok, ih, Except.ok.injEq, givenByte]
    constructor
    · rintro ⟨b, h1, cs, h2, rfl⟩
      split at h1
      · cases h1; simp [*]
      · exact nomatch h1
    · intro h
      cases bs with
      | nil => simp at h
      | cons b bs =>
        simp only [List.map_cons, List.cons.injEq] at h
        exact ⟨b, by rw [h.1], bs, h.2, rfl⟩

/-- Bytes cannot be given exactly where one has no value, and the first such byte is named (R41). -/
theorem givenBytes_error_iff (m : Memory) (ps : List Word) (e : Stop) :
    givenBytes m ps = .error e ↔ ∃ qs p rs, ps = qs ++ p :: rs ∧ (∀ q ∈ qs, Memory.read m q.toNat ≠ none)
      ∧ Memory.read m p.toNat = none ∧ e = .fault (.unwritten p) := by
  induction ps with
  | nil => simp [givenBytes]
  | cons p ps ih =>
    have last : ∀ q : List Byte, (Except.ok q : Except Stop (List Byte)) ≠ .error e := fun _ h => nomatch h
    simp only [givenBytes, except_bind_error, ih, last, and_false, exists_false, or_false, givenByte]
    cases hr : Memory.read m p.toNat with
    | none =>
      simp only [Except.error.injEq, reduceCtorEq, false_and, exists_false, or_false]
      constructor
      · rintro rfl; exact ⟨[], p, ps, rfl, by simp, hr, rfl⟩
      · rintro ⟨qs, q, rs, h1, h2, _, rfl⟩
        cases qs with
        | nil => cases h1; rfl
        | cons x qs => cases h1; exact absurd hr (h2 _ (List.mem_cons_self ..))
    | some b =>
      simp only [reduceCtorEq, false_or, Except.ok.injEq]
      constructor
      · rintro ⟨_, rfl, qs, q, rs, rfl, h2, h3, rfl⟩
        refine ⟨p :: qs, q, rs, rfl, ?_, h3, rfl⟩
        simpa [hr] using h2
      · rintro ⟨qs, q, rs, h1, h2, h3, rfl⟩
        cases qs with
        | nil => cases h1; rw [hr] at h3; exact nomatch h3
        | cons x qs => cases h1; exact ⟨b, rfl, qs, q, rs, rfl, fun y hy => h2 y (List.mem_cons_of_mem _ hy), h3, rfl⟩

/-- What a read at a linear address gives: the value of bytes that all are placed and have values. -/
theorem linRead_ok {s : State} {w : Nat} {lin : Word} {u : Bool} {v : BitVec w} (h : linRead s w lin u = .ok v) :
    ∃ ps bs, translateRun s false u lin (w / 8) = .ok ps ∧ s.holds ps bs ∧ v = BitVec.ofNat w (fromBytes bs) := by
  simp only [linRead, except_bind_ok, Except.ok.injEq, givenBytes_ok_iff] at h
  obtain ⟨ps, h1, bs, h2, h3⟩ := h
  exact ⟨ps, bs, h1, h2, h3.symm⟩

/-- Bytes that are placed and have values are read. -/
theorem linRead_of_holds {s : State} {w : Nat} {lin : Word} {u : Bool} {ps : List Word} {bs : List Byte}
    (hp : s.placed false u lin ps) (hl : ps.length = w / 8) (h : s.holds ps bs) :
    linRead s w lin u = .ok (BitVec.ofNat w (fromBytes bs)) := by
  simp only [linRead, (translateRun_ok_iff ..).2 ⟨hp, hl⟩, except_ok_bind, (givenBytes_ok_iff ..).2 h]

/-- A read at a linear address fails exactly at its first missing page, or at its first byte that has no value. -/
theorem linRead_error {s : State} {w : Nat} {lin : Word} {u : Bool} {e : Stop} (h : linRead s w lin u = .error e) :
    (∃ v k, k < w / 8 ∧ s.firstMissing v false u lin k ∧ e = missStop v false u (lin + BitVec.ofNat 32 k))
      ∨ ∃ ps p, s.placed false u lin ps ∧ ps.length = w / 8 ∧ p ∈ ps ∧ Memory.read s.mem p.toNat = none
        ∧ e = .fault (.unwritten p) := by
  simp only [linRead, except_bind_error] at h
  rcases h with h | ⟨ps, h1, h | ⟨bs, _, h⟩⟩
  · exact .inl ((translateRun_error_iff ..).1 h)
  · obtain ⟨qs, p, rs, rfl, _, h3, rfl⟩ := (givenBytes_error_iff ..).1 h
    obtain ⟨h4, h5⟩ := (translateRun_ok_iff ..).1 h1
    exact .inr ⟨_, p, h4, h5, by simp, h3, rfl⟩
  · exact nomatch h

/-- A write at a linear address fails exactly at its first missing page, or is refused at a byte of program text. -/
theorem linWrite_error {s : State} {w : Nat} {lin : Word} {u : Bool} {v : BitVec w} {e : Stop}
    (h : linWrite s w lin u v = .error e) :
    (∃ x k, k < w / 8 ∧ s.firstMissing x true u lin k ∧ e = missStop x true u (lin + BitVec.ofNat 32 k))
      ∨ e = .refuse .storeToCode := by
  simp only [linWrite, except_bind_error] at h
  rcases h with h | ⟨ps, _, h⟩
  · exact .inl ((translateRun_error_iff ..).1 h)
  · split at h
    · cases h; exact .inr rfl
    · exact nomatch h

/-- What a write at a linear address leaves: memory alone changes, at the addresses of the bytes, none of them code. -/
theorem linWrite_ok {s t : State} {w : Nat} {lin : Word} {u : Bool} {v : BitVec w} (h : linWrite s w lin u v = .ok t) :
    ∃ ps, translateRun s true u lin (w / 8) = .ok ps ∧ ps.any s.code.contains = false
      ∧ t = { s with mem := Memory.writeBytes s.mem ps (toBytes (w / 8) v.toNat) } := by
  simp only [linWrite, except_bind_ok] at h
  obtain ⟨ps, h1, h2⟩ := h
  refine ⟨ps, h1, ?_⟩
  split at h2
  · exact nomatch h2
  · rename_i hc
    exact ⟨by simpa only [Bool.not_eq_true] using hc, by cases h2; rfl⟩

theorem segRead_ok {s : State} {w : Nat} {g : SegReg} {off : Word} {v : BitVec w} (h : segRead s w g off = .ok v) :
    s.accessLegal g .read off.toNat (w / 8) ∧ linRead s w (s.linear g off) s.user = .ok v := by
  simp only [segRead, except_bind_ok] at h
  obtain ⟨_, h1, h2⟩ := h
  exact ⟨(checkAccess_ok_iff ..).1 h1, h2⟩

/-- What a checked write can do. -/
theorem segWrite_ok {s t : State} {w : Nat} {g : SegReg} {off : Word} {v : BitVec w} (h : segWrite s w g off v = .ok t) :
    s.accessLegal g .write off.toNat (w / 8) ∧ ∃ ps, s.storeAt g off (w / 8) = .ok ps ∧ ps.any s.code.contains = false
      ∧ t = { s with mem := Memory.writeBytes s.mem ps (toBytes (w / 8) v.toNat) } := by
  simp only [segWrite, except_bind_ok] at h
  obtain ⟨_, h1, h2⟩ := h
  exact ⟨(checkAccess_ok_iff ..).1 h1, linWrite_ok h2⟩

/-- A checked read of a legal operand is the read at its linear address. -/
theorem segRead_of_legal {s : State} {w : Nat} {g : SegReg} {off : Word} (h : s.accessLegal g .read off.toNat (w / 8)) :
    segRead s w g off = linRead s w (s.linear g off) s.user := by
  simp only [segRead, (checkAccess_ok_iff ..).2 h, except_ok_bind]

/-- A checked write of a legal operand is the write at its linear address. -/
theorem segWrite_of_legal {s : State} {w : Nat} {g : SegReg} {off : Word} {v : BitVec w}
    (h : s.accessLegal g .write off.toNat (w / 8)) : segWrite s w g off v = linWrite s w (s.linear g off) s.user v := by
  simp only [segWrite, (checkAccess_ok_iff ..).2 h, except_ok_bind]

/-- A read whose byte `k` is the first with a missing page stops there. -/
theorem linRead_of_firstMissing {s : State} {w k : Nat} {lin : Word} {v u : Bool} (hk : k < w / 8)
    (h : s.firstMissing v false u lin k) : linRead s w lin u = .error (missStop v false u (lin + BitVec.ofNat 32 k)) := by
  simp only [linRead, translateRun_of_firstMissing hk h, except_error_bind]

/-- A write whose byte `k` is the first with a missing page stops there. -/
theorem linWrite_of_firstMissing {s : State} {w k : Nat} {lin : Word} {v u : Bool} {x : BitVec w} (hk : k < w / 8)
    (h : s.firstMissing v true u lin k) : linWrite s w lin u x = .error (missStop v true u (lin + BitVec.ofNat 32 k)) := by
  simp only [linWrite, translateRun_of_firstMissing hk h, except_error_bind]

/-- A checked read succeeds exactly where the operand can be read. -/
theorem segRead_ok_iff (s : State) (w : Nat) (g : SegReg) (off : Word) :
    (∃ v, segRead s w g off = .ok v) ↔ s.canRead g off (w / 8) := by
  constructor
  · rintro ⟨v, h⟩
    obtain ⟨h1, h2⟩ := segRead_ok h
    obtain ⟨ps, bs, h3, h4, _⟩ := linRead_ok h2
    obtain ⟨h5, h6⟩ := (translateRun_ok_iff ..).1 h3
    exact ⟨h1, ps, bs, h6, h5, h4⟩
  · rintro ⟨h1, ps, bs, h2, h3, h4⟩
    exact ⟨_, by simp only [segRead, (checkAccess_ok_iff ..).2 h1, except_ok_bind]; exact linRead_of_holds h3 h2 h4⟩

theorem segRead8_of_reads {s : State} {g : SegReg} {off : Word} {v : BitVec 8} (h : s.reads8 g off v) :
    segRead s 8 g off = .ok v := by
  obtain ⟨h1, p0, h2, h3⟩ := h
  simp [segRead, (checkAccess_ok_iff ..).2 h1, linRead_of_holds (w := 8) h2 rfl h3, fromBytes]

theorem segRead16_of_reads {s : State} {g : SegReg} {off : Word} {v : BitVec 16} (h : s.reads16 g off v) :
    segRead s 16 g off = .ok v := by
  obtain ⟨h1, p0, p1, b0, b1, h2, h3, rfl⟩ := h
  rw [← ofNat_fromBytes_two]
  simp only [segRead, (checkAccess_ok_iff ..).2 h1, except_ok_bind]
  exact linRead_of_holds h2 rfl h3

theorem segRead32_of_reads {s : State} {g : SegReg} {off : Word} {v : BitVec 32} (h : s.reads32 g off v) :
    segRead s 32 g off = .ok v := by
  obtain ⟨h1, p0, p1, p2, p3, b0, b1, b2, b3, h2, h3, rfl⟩ := h
  rw [← ofNat_fromBytes_four]
  simp only [segRead, (checkAccess_ok_iff ..).2 h1, except_ok_bind]
  exact linRead_of_holds h2 rfl h3

/-- What stops a checked read: a check, a missing page, or a byte that has no value (R71, R41). -/
theorem segRead_error {s : State} {w : Nat} {g : SegReg} {off : Word} {e : Stop} (h : segRead s w g off = .error e) :
    (∃ x, s.accessRaises g .read off.toNat (w / 8) x ∧ raise (α := Unit) x = .error e)
      ∨ (s.accessLegal g .read off.toNat (w / 8) ∧ linRead s w (s.linear g off) s.user = .error e) := by
  simp only [segRead, except_bind_error] at h
  rcases h with h | ⟨_, h1, h2⟩
  · exact .inl (checkAccess_error h)
  · exact .inr ⟨(checkAccess_ok_iff ..).1 h1, h2⟩

/-- What stops a checked write: a check, a missing page, or a byte of program text (R71, R79). -/
theorem segWrite_error {s : State} {w : Nat} {g : SegReg} {off : Word} {v : BitVec w} {e : Stop}
    (h : segWrite s w g off v = .error e) :
    (∃ x, s.accessRaises g .write off.toNat (w / 8) x ∧ raise (α := Unit) x = .error e)
      ∨ (s.accessLegal g .write off.toNat (w / 8) ∧ linWrite s w (s.linear g off) s.user v = .error e) := by
  simp only [segWrite, except_bind_error] at h
  rcases h with h | ⟨_, h1, h2⟩
  · exact .inl (checkAccess_error h)
  · exact .inr ⟨(checkAccess_ok_iff ..).1 h1, h2⟩

theorem segWrite8_of_stores {s : State} {g : SegReg} {off : Word} {v : BitVec 8} {m : Memory} (h : s.stores8 g off v m) :
    segWrite s 8 g off v = .ok { s with mem := m } := by
  obtain ⟨h1, p0, h2, h3, rfl⟩ := h
  have h4 := translateRun_of_placed h2
  simp only [List.length_cons, List.length_nil] at h4
  simp only [segWrite, (checkAccess_ok_iff ..).2 h1, linWrite, Nat.reduceDiv, h4, except_ok_bind, List.any_cons, List.any_nil, h3,
    Bool.or_self, Bool.false_eq_true, if_false, toBytes_one, Memory.writeBytes]

theorem segWrite16_of_stores {s : State} {g : SegReg} {off : Word} {v : BitVec 16} {m : Memory} (h : s.stores16 g off v m) :
    segWrite s 16 g off v = .ok { s with mem := m } := by
  obtain ⟨h1, p0, p1, h2, h3, h3', rfl⟩ := h
  have h4 := translateRun_of_placed h2
  simp only [List.length_cons, List.length_nil] at h4
  simp only [segWrite, (checkAccess_ok_iff ..).2 h1, linWrite, Nat.reduceDiv, h4, except_ok_bind, List.any_cons, List.any_nil, h3,
    h3', Bool.or_self, Bool.false_eq_true, if_false, toBytes_two, Memory.writeBytes]

theorem segWrite32_of_stores {s : State} {g : SegReg} {off : Word} {v : BitVec 32} {m : Memory} (h : s.stores32 g off v m) :
    segWrite s 32 g off v = .ok { s with mem := m } := by
  obtain ⟨h1, p0, p1, p2, p3, h2, h3, h3', h3'', h3''', rfl⟩ := h
  have h4 := translateRun_of_placed h2
  simp only [List.length_cons, List.length_nil] at h4
  simp only [segWrite, (checkAccess_ok_iff ..).2 h1, linWrite, Nat.reduceDiv, h4, except_ok_bind, List.any_cons, List.any_nil, h3,
    h3', h3'', h3''', Bool.or_self, Bool.false_eq_true, if_false, toBytes_four, Memory.writeBytes]

/-- A checked read of an illegal address raises the exception of the first cause. -/
theorem segRead_of_raises {s : State} {w : Nat} {g : SegReg} {off : Word} {x : Exception}
    (h : s.accessRaises g .read off.toNat (w / 8) x) : segRead s w g off = raise x := by
  simp only [segRead, checkAccess_of_raises h]; rfl

/-- A checked write of an illegal address raises the exception of the first cause. -/
theorem segWrite_of_raises {s : State} {w : Nat} {g : SegReg} {off : Word} {v : BitVec w} {x : Exception}
    (h : s.accessRaises g .write off.toNat (w / 8) x) : segWrite s w g off v = raise x := by
  simp only [segWrite, checkAccess_of_raises h]; rfl

/-! ### `r/m` operands (R104) -/

theorem readRm8_of_rmIs {s : State} {a : Attr} {o : Rm Reg8} {v : BitVec 8} (h : s.rmIs8 a o v) : readRm8 a s o = .ok v := by
  cases o with
  | reg r => exact congrArg _ (Eq.symm h)
  | mem m => exact segRead8_of_reads h

theorem readRm16_of_rmIs {s : State} {a : Attr} {o : Rm Reg} {v : BitVec 16} (h : s.rmIs16 a o v) :
    readRm16 a s o = .ok v := by
  cases o with
  | reg r => exact congrArg _ (Eq.symm h)
  | mem m => exact segRead16_of_reads h

theorem readRm32_of_rmIs {s : State} {a : Attr} {o : Rm Reg} {v : BitVec 32} (h : s.rmIs32 a o v) :
    readRm32 a s o = .ok v := by
  cases o with
  | reg r => exact congrArg _ (Eq.symm h)
  | mem m => exact segRead32_of_reads h

theorem writeRm8_of_rmSet {s t : State} {a : Attr} {o : Rm Reg8} {v : BitVec 8} (h : s.rmSet8 a o v t) :
    writeRm8 a s v o = .ok t := by
  cases o with
  | reg r => exact congrArg _ (Eq.symm h)
  | mem m => obtain ⟨m', h1, rfl⟩ := h; exact segWrite8_of_stores h1

theorem writeRm16_of_rmSet {s t : State} {a : Attr} {o : Rm Reg} {v : BitVec 16} (h : s.rmSet16 a o v t) :
    writeRm16 a s v o = .ok t := by
  cases o with
  | reg r => exact congrArg _ (Eq.symm h)
  | mem m => obtain ⟨m', h1, rfl⟩ := h; exact segWrite16_of_stores h1

theorem writeRm32_of_rmSet {s t : State} {a : Attr} {o : Rm Reg} {v : BitVec 32} (h : s.rmSet32 a o v t) :
    writeRm32 a s v o = .ok t := by
  cases o with
  | reg r => exact congrArg _ (Eq.symm h)
  | mem m => obtain ⟨m', h1, rfl⟩ := h; exact segWrite32_of_stores h1

end Sys2Proof.Machine
end

