-- ==== Sys2Proof/Laws/Decode.lean ====
section
/-!
SUPPORT. The decoder's parts and the encoder's against each other (30_encoding.md): fields and register numbers, immediates and
displacements, the `r/m` operand, the prefix bytes, and the lengths of what the encoder writes.
-/

namespace Sys2Proof

open Machine (except_ok_bind)

/-! ### Fields and numbers (R104 to R107, R110) -/

theorem modField_fieldsByte : ∀ (a : BitVec 2) (b c : BitVec 3), modField (fieldsByte a b c) = a := by decide

theorem regField_fieldsByte : ∀ (a : BitVec 2) (b c : BitVec 3), regField (fieldsByte a b c) = b := by decide

theorem rmField_fieldsByte : ∀ (a : BitVec 2) (b c : BitVec 3), rmField (fieldsByte a b c) = c := by decide

@[simp] theorem Reg.ofNum_num (r : Reg) : Reg.ofNum r.num = r := by cases r <;> rfl

@[simp] theorem Reg8.ofNum_num (r : Reg8) : Reg8.ofNum r.num = r := by cases r <;> rfl

@[simp] theorem Base16.ofNum_num (b : Base16) : Base16.ofNum b.num = b := by cases b <;> rfl

@[simp] theorem SegReg.ofNum_num (g : SegReg) : SegReg.ofNum g.num = some g := by cases g <;> rfl

@[simp] theorem SegDest.ofNum_num (g : SegDest) : SegDest.ofNum g.toSegReg.num = .ok g := by cases g <;> rfl

@[simp] theorem CtrlReg.ofNum_num (c : CtrlReg) : CtrlReg.ofNum c.num = some c := by cases c <;> rfl

@[simp] theorem BreakReg.ofNum_num (k : BreakReg) : BreakReg.ofNum k.num = some k := by cases k <;> rfl

@[simp] theorem DebugReg.ofNum_num (k : DebugReg) : DebugReg.ofNum k.num = some k := by cases k <;> rfl

@[simp] theorem TestReg.ofNum_num (t : TestReg) : TestReg.ofNum t.num = some t := by cases t <;> rfl

theorem Base16.num_eq_six (b : Base16) : b.num = 6#3 ↔ b = .bp := by cases b <;> decide

theorem Reg.num_eq_five (r : Reg) : r.num = 5#3 ↔ r = .ebp := by cases r <;> decide

theorem Reg.num_eq_four (r : Reg) : r.num = 4#3 ↔ r = .esp := by cases r <;> decide

theorem Disp16.md_eq_zero (d : Disp16) : d.md = 0#2 ↔ d = .none := by cases d <;> simp [Disp16.md]

theorem Disp32.md_eq_zero (d : Disp32) : d.md = 0#2 ↔ d = .none := by cases d <;> simp [Disp32.md]

theorem Disp16.md_ne_three (d : Disp16) : ¬d.md = 3#2 := by cases d <;> simp [Disp16.md]

theorem Disp32.md_ne_three (d : Disp32) : ¬d.md = 3#2 := by cases d <;> simp [Disp32.md]

/-- The index of a SIB byte is read back, and the byte is no refused one (R110, D27). -/
theorem indexOfNum_indexNum {ss : BitVec 2} {i : Option Reg} (h : scaleOk ss i = true) :
    indexOfNum (indexNum i) = i ∧ ¬(indexNum i = 4#3 ∧ ss ≠ 0#2) := by
  cases i with
  | none => simp [scaleOk] at h; subst h; decide
  | some r =>
    cases r <;> first
      | exact ⟨rfl, fun hh => absurd hh.1 (by decide)⟩
      | (simp [scaleOk] at h)

/-! ### Immediates, displacements, offsets (R62, R108, R109, R112, R113) -/

theorem readHalf_halfBytes (v : BitVec 16) (r : List Byte) : readHalf (halfBytes v ++ r) = .ok (v, r) := by
  simp only [halfBytes, List.cons_append, List.nil_append, readHalf]
  congr 2
  apply BitVec.eq_of_toNat_eq
  have := v.isLt
  simp only [BitVec.toNat_append, BitVec.extractLsb'_toNat, Nat.shiftRight_eq_div_pow]
  rw [← Nat.shiftLeft_add_eq_or_of_lt (Nat.mod_lt _ (by decide))]
  simp only [Nat.shiftLeft_eq]; omega

theorem readWord_wordBytes (v : BitVec 32) (r : List Byte) : readWord (wordBytes v ++ r) = .ok (v, r) := by
  simp only [wordBytes, List.cons_append, List.nil_append, readWord]
  congr 2
  apply BitVec.eq_of_toNat_eq
  have := v.isLt
  simp only [BitVec.toNat_append, BitVec.extractLsb'_toNat, Nat.shiftRight_eq_div_pow]
  rw [← Nat.shiftLeft_add_eq_or_of_lt (Nat.mod_lt _ (by decide)), ← Nat.shiftLeft_add_eq_or_of_lt (Nat.mod_lt _ (by decide)),
    ← Nat.shiftLeft_add_eq_or_of_lt (Nat.mod_lt _ (by decide))]
  simp only [Nat.shiftLeft_eq]; omega

theorem readDisp16_bytes (d : Disp16) (r : List Byte) : readDisp16 d.md (d.bytes ++ r) = .ok (d, r) := by
  cases d with
  | none => rfl
  | d8 v => rfl
  | d16 v => simp [readDisp16, Disp16.md, Disp16.bytes, readHalf_halfBytes]

theorem readDisp32_bytes (d : Disp32) (r : List Byte) : readDisp32 d.md (d.bytes ++ r) = .ok (d, r) := by
  cases d with
  | none => rfl
  | d8 v => rfl
  | d32 v => simp [readDisp32, Disp32.md, Disp32.bytes, readWord_wordBytes]

theorem readOffset_offsetBytes {z : Size} {off : Word} (h : z = .w32 ∨ off.toNat < 65536) (r : List Byte) :
    readOffset z (offsetBytes z off ++ r) = .ok (off, r) := by
  cases z with
  | w32 => exact readWord_wordBytes off r
  | w16 =>
    simp only [readOffset, offsetBytes, readHalf_halfBytes, except_ok_bind]
    congr 2
    have h' : off.toNat < 65536 := by simpa using h
    apply BitVec.eq_of_toNat_eq
    simp; omega

/-! ### The `r/m` operand (R104, R108 to R110) -/

/-- A well-formed memory operand is read back from its bytes, whatever follows them. -/
theorem readRm_encodeMem {R : Type} (ofNum : BitVec 3 → R) (reg : BitVec 3) {m : Mem} {z : Size} (hw : m.wellFormed = true)
    (hz : m.addrSize = z) (r : List Byte) :
    ∃ b t, encodeMem reg m ++ r = b :: t ∧ regField b = reg ∧ readRm ofNum z b t = .ok (.mem m, r) := by
  subst hz
  cases m with
  | direct16 d =>
    refine ⟨_, _, rfl, regField_fieldsByte _ _ _, ?_⟩
    simp only [readRm, modField_fieldsByte, rmField_fieldsByte, Mem.addrSize, readMem16]
    simp [readHalf_halfBytes]
  | based16 b d =>
    refine ⟨_, _, rfl, regField_fieldsByte _ _ _, ?_⟩
    have : ¬(d.md = 0#2 ∧ b.num = 6#3) := by
      rw [Disp16.md_eq_zero, Base16.num_eq_six]; rintro ⟨rfl, rfl⟩; simp [Mem.wellFormed] at hw
    simp only [readRm, modField_fieldsByte, rmField_fieldsByte, Mem.addrSize, readMem16, Disp16.md_ne_three, if_false, this,
      List.append_eq, readDisp16_bytes, except_ok_bind, Base16.ofNum_num]
  | direct32 d =>
    refine ⟨_, _, rfl, regField_fieldsByte _ _ _, ?_⟩
    simp only [readRm, modField_fieldsByte, rmField_fieldsByte, Mem.addrSize, readMem32]
    simp [readWord_wordBytes]
  | based32 b d =>
    refine ⟨_, _, rfl, regField_fieldsByte _ _ _, ?_⟩
    have hb : ¬b.num = 4#3 := by
      rw [Reg.num_eq_four]; rintro rfl; simp [Mem.wellFormed] at hw
    have : ¬(b.num = 5#3 ∧ d.md = 0#2) := by
      rw [Disp32.md_eq_zero, Reg.num_eq_five]; rintro ⟨rfl, rfl⟩; simp [Mem.wellFormed] at hw
    simp only [readRm, modField_fieldsByte, rmField_fieldsByte, Mem.addrSize, readMem32, Disp32.md_ne_three, if_false, this, hb,
      List.append_eq, readDisp32_bytes, except_ok_bind, Reg.ofNum_num]
  | scaled ss i b d =>
    refine ⟨_, _, rfl, regField_fieldsByte _ _ _, ?_⟩
    simp only [Mem.wellFormed, Bool.and_eq_true] at hw
    obtain ⟨h1, h2⟩ := indexOfNum_indexNum hw.1
    have : ¬(b.num = 5#3 ∧ d.md = 0#2) := by
      rw [Disp32.md_eq_zero, Reg.num_eq_five]; rintro ⟨rfl, rfl⟩; simp at hw
    simp only [readRm, modField_fieldsByte, rmField_fieldsByte, Mem.addrSize, readMem32, Disp32.md_ne_three, if_false, if_true,
      readSib, List.append_eq, List.cons_append, readByte, except_ok_bind, regField_fieldsByte]
    simp only [h2, this, if_false, readDisp32_bytes, except_ok_bind, Reg.ofNum_num, h1]
  | scaledNoBase ss i d =>
    refine ⟨_, _, rfl, regField_fieldsByte _ _ _, ?_⟩
    simp only [Mem.wellFormed] at hw
    obtain ⟨h1, h2⟩ := indexOfNum_indexNum hw
    simp only [readRm, modField_fieldsByte, rmField_fieldsByte, Mem.addrSize, readMem32, if_true, readSib, List.append_eq,
      List.cons_append, readByte, except_ok_bind, regField_fieldsByte]
    simp only [h2, if_false, readWord_wordBytes, except_ok_bind, h1, and_self, if_true]
    rfl

/-- An `r/m` operand is read back from its bytes, whatever follows them. -/
theorem readRm_encodeRm {R : Type} {num : R → BitVec 3} {ofNum : BitVec 3 → R} (hn : ∀ r, ofNum (num r) = r) (reg : BitVec 3)
    {o : Rm R} {z : Size} (hw : ∀ m, o.mem? = some m → m.wellFormed = true ∧ m.addrSize = z) (r : List Byte) :
    ∃ b t, encodeRm num reg o ++ r = b :: t ∧ regField b = reg ∧ readRm ofNum z b t = .ok (o, r) := by
  cases o with
  | reg q =>
    exact ⟨_, _, rfl, regField_fieldsByte _ _ _, by
      simp only [readRm, modField_fieldsByte, if_true, rmField_fieldsByte, hn]; rfl⟩
  | mem m => exact readRm_encodeMem ofNum reg (hw m rfl).1 (hw m rfl).2 r

/-! ### Prefix bytes (R101, R102) -/

/-- The prefix bytes `ps` read after `p`, where each is one that `p` and those before it admit. -/
def addPrefixes : Prefixes → List Byte → Option Prefixes
  | p, [] => some p
  | p, b :: r =>
    match prefixByte b with
    | none => none
    | some k =>
      match p.add k with
      | .ok q => addPrefixes q r
      | .error _ => none

theorem addPrefixes_cons (p : Prefixes) (b : Byte) (r : List Byte) (q : Prefixes) :
    addPrefixes p (b :: r) = some q ↔ ∃ k p', prefixByte b = some k ∧ p.add k = .ok p' ∧ addPrefixes p' r = some q := by
  simp only [addPrefixes]
  cases prefixByte b with
  | none => simp
  | some k => cases h : p.add k <;> simp [h]

/-- Prefix bytes that are admitted are read, and the reading goes on behind them. -/
theorem readPrefixes_append {p q : Prefixes} {ps : List Byte} (h : addPrefixes p ps = some q) (t : List Byte) :
    readPrefixes p (ps ++ t) = readPrefixes q t := by
  induction ps generalizing p with
  | nil => cases h; rfl
  | cons b r ih =>
    obtain ⟨k, p', h1, h2, h3⟩ := (addPrefixes_cons ..).1 h
    simp only [List.cons_append, readPrefixes, h1, h2]
    exact ih h3

/-- Two prefix bytes that are admitted in one order are admitted in the other, and give the same. -/
theorem Prefixes.add_comm {p q r : Prefixes} {j k : PrefixByte} (h1 : p.add j = .ok q) (h2 : q.add k = .ok r) :
    ∃ q', p.add k = .ok q' ∧ q'.add j = .ok r := by
  obtain ⟨o, z, g, f⟩ := p
  cases j <;> cases k <;> cases o <;> cases z <;> cases g <;> cases f <;> simp_all [Prefixes.add] <;> subst h1 <;> simp_all

/-- Prefix bytes may stand in any order (R101). -/
theorem addPrefixes_perm {ps qs : List Byte} (h : ps.Perm qs) {p q : Prefixes} (hq : addPrefixes p ps = some q) :
    addPrefixes p qs = some q := by
  induction h generalizing p with
  | nil => exact hq
  | cons b _ ih =>
    obtain ⟨k, p', h1, h2, h3⟩ := (addPrefixes_cons ..).1 hq
    exact (addPrefixes_cons ..).2 ⟨k, p', h1, h2, ih h3⟩
  | swap a b l =>
    obtain ⟨k, p', h1, h2, h3⟩ := (addPrefixes_cons ..).1 hq
    obtain ⟨j, p'', h4, h5, h6⟩ := (addPrefixes_cons ..).1 h3
    obtain ⟨q', h7, h8⟩ := Prefixes.add_comm h2 h5
    exact (addPrefixes_cons ..).2 ⟨j, q', h4, h7, (addPrefixes_cons ..).2 ⟨k, p'', h1, h8, h6⟩⟩
  | trans _ _ ih1 ih2 => exact ih2 (ih1 hq)

theorem addPrefixes_encodePrefixes (d : Size) (a : Attr) (rep : Bool) :
    addPrefixes {} (encodePrefixes d a rep) = some ⟨a.opsize ≠ d, a.adsize ≠ d, a.seg, rep⟩ := by
  obtain ⟨z1, z2, sg⟩ := a
  cases d <;> cases z1 <;> cases z2 <;> cases rep <;> rcases sg with _ | g <;> first
    | rfl
    | (cases g <;> rfl)

/-- The prefix bytes of an instruction, in any order, are read as its attributes, whatever follows them (R101). -/
theorem readPrefixes_of_perm {d : Size} {a : Attr} {rep : Bool} {ps : List Byte} (h : ps.Perm (encodePrefixes d a rep))
    (t : List Byte) : readPrefixes {} (ps ++ t) = readPrefixes ⟨a.opsize ≠ d, a.adsize ≠ d, a.seg, rep⟩ t :=
  readPrefixes_append (addPrefixes_perm h.symm (addPrefixes_encodePrefixes d a rep)) t

/-- The prefix bytes of an instruction are read back; `b` is its first opcode byte. -/
theorem readPrefixes_encodePrefixes (d : Size) (a : Attr) (rep : Bool) {b : Byte} (t : List Byte) (hb : prefixByte b = none) :
    readPrefixes {} (encodePrefixes d a rep ++ b :: t) = .ok (⟨a.opsize ≠ d, a.adsize ≠ d, a.seg, rep⟩, b :: t) := by
  rw [readPrefixes_of_perm (.refl _)]
  simp only [readPrefixes, hb]

/-- The attributes they give are the instruction's. -/
theorem attr_encodePrefixes (d : Size) (a : Attr) (rep : Bool) :
    Prefixes.attr d ⟨a.opsize ≠ d, a.adsize ≠ d, a.seg, rep⟩ = a := by
  obtain ⟨z1, z2, sg⟩ := a
  cases d <;> cases z1 <;> cases z2 <;> rfl

/-- Behind the prefix bytes of an instruction, in any order, the opcode map decides, with the attributes they give (R101, R122). -/
theorem decode_of_perm {d : Size} {a : Attr} {rep : Bool} {ps : List Byte} (h : ps.Perm (encodePrefixes d a rep)) {b : Byte}
    (t : List Byte) (hb : prefixByte b = none) :
    decode d (ps ++ b :: t) = (if rep then decodeRep a (b :: t) else decodeOpcode a (b :: t)) >>= fun x =>
      .ok (x.1, (ps ++ b :: t).length - x.2.length) := by
  have hr : readPrefixes {} (ps ++ b :: t) = .ok (⟨a.opsize ≠ d, a.adsize ≠ d, a.seg, rep⟩, b :: t) := by
    rw [readPrefixes_of_perm h]; simp only [readPrefixes, hb]
  simp only [decode, hr, except_ok_bind, attr_encodePrefixes]
  cases rep <;> rfl

/-- A prefix byte that is not admitted behind them is refused there (R101, R118). -/
theorem decode_of_perm_refused {d : Size} {a : Attr} {rep : Bool} {ps : List Byte} (h : ps.Perm (encodePrefixes d a rep)) {b : Byte}
    {k : PrefixByte} {e : DecodeStop} (t : List Byte) (hb : prefixByte b = some k)
    (he : Prefixes.add ⟨a.opsize ≠ d, a.adsize ≠ d, a.seg, rep⟩ k = .error e) : decode d (ps ++ b :: t) = .error e := by
  have hr : readPrefixes {} (ps ++ b :: t) = .error e := by
    rw [readPrefixes_of_perm h]; simp only [readPrefixes, hb, he]
  rw [decode, hr]; rfl

/-! ### Lengths (R116) -/

@[simp] theorem encodeRm_length {R : Type} (num : R → BitVec 3) (n : BitVec 3) (o : Rm R) :
    (encodeRm num n o).length = o.length := by
  cases o with
  | reg r => rfl
  | mem m =>
    cases m with
    | direct16 d => rfl
    | based16 b d => cases d <;> rfl
    | direct32 d => rfl
    | based32 b d => cases d <;> rfl
    | scaled ss i b d => cases d <;> rfl
    | scaledNoBase ss i d => rfl

@[simp] theorem offsetBytes_length (z : Size) (off : Word) : (offsetBytes z off).length = z.bytes := by cases z <;> rfl

@[simp] theorem encodePrefixes_length (d : Size) (a : Attr) (rep : Bool) :
    (encodePrefixes d a rep).length = a.prefixCount d + (if rep then 1 else 0) := by
  obtain ⟨z1, z2, sg⟩ := a
  cases d <;> cases z1 <;> cases z2 <;> cases rep <;> rcases sg with _ | g <;> rfl

/-- The length of an encoding, where the bytes after the prefix bytes are as many as `Instr.bodyLength` says. -/
theorem encode_length_of_body {i : Instr} (h : i.body.length = i.bodyLength) (d : Size) :
    (encode d i).length = i.length d := by
  unfold encode Instr.length
  rw [List.length_append, encodePrefixes_length, h]

end Sys2Proof
end

