-- ==== Sys2Proof/Laws/State.lean ====
section
/-!
SUPPORT. The fields of the state after each named update, one lemma per field, and register and segment files after a write.
-/

namespace Sys2Proof.Machine

/-! ### State.advance -/

@[simp] theorem State.advance_regs (s : State) (d : Size) (n : Nat) (h : Bool) : (s.advance d n h).regs = s.regs := rfl
@[simp] theorem State.advance_pc (s : State) (d : Size) (n : Nat) (h : Bool) : (s.advance d n h).pc = nextPc d s.pc n := rfl
@[simp] theorem State.advance_flags (s : State) (d : Size) (n : Nat) (h : Bool) : (s.advance d n h).flags = s.flags := rfl
@[simp] theorem State.advance_segs (s : State) (d : Size) (n : Nat) (h : Bool) : (s.advance d n h).segs = s.segs := rfl
@[simp] theorem State.advance_gdtr (s : State) (d : Size) (n : Nat) (h : Bool) : (s.advance d n h).gdtr = s.gdtr := rfl
@[simp] theorem State.advance_ldtr (s : State) (d : Size) (n : Nat) (h : Bool) : (s.advance d n h).ldtr = s.ldtr := rfl
@[simp] theorem State.advance_idtr (s : State) (d : Size) (n : Nat) (h : Bool) : (s.advance d n h).idtr = s.idtr := rfl
@[simp] theorem State.advance_task (s : State) (d : Size) (n : Nat) (h : Bool) : (s.advance d n h).task = s.task := rfl
@[simp] theorem State.advance_cr0 (s : State) (d : Size) (n : Nat) (h : Bool) : (s.advance d n h).cr0 = s.cr0 := rfl
@[simp] theorem State.advance_cr2 (s : State) (d : Size) (n : Nat) (h : Bool) : (s.advance d n h).cr2 = s.cr2 := rfl
@[simp] theorem State.advance_cr3 (s : State) (d : Size) (n : Nat) (h : Bool) : (s.advance d n h).cr3 = s.cr3 := rfl
@[simp] theorem State.advance_dr0 (s : State) (d : Size) (n : Nat) (h : Bool) : (s.advance d n h).dr0 = s.dr0 := rfl
@[simp] theorem State.advance_dr1 (s : State) (d : Size) (n : Nat) (h : Bool) : (s.advance d n h).dr1 = s.dr1 := rfl
@[simp] theorem State.advance_dr2 (s : State) (d : Size) (n : Nat) (h : Bool) : (s.advance d n h).dr2 = s.dr2 := rfl
@[simp] theorem State.advance_dr3 (s : State) (d : Size) (n : Nat) (h : Bool) : (s.advance d n h).dr3 = s.dr3 := rfl
@[simp] theorem State.advance_dr6 (s : State) (d : Size) (n : Nat) (h : Bool) : (s.advance d n h).dr6 = s.dr6 := rfl
@[simp] theorem State.advance_dr7 (s : State) (d : Size) (n : Nat) (h : Bool) : (s.advance d n h).dr7 = s.dr7 := rfl
@[simp] theorem State.advance_tr6 (s : State) (d : Size) (n : Nat) (h : Bool) : (s.advance d n h).tr6 = s.tr6 := rfl
@[simp] theorem State.advance_tr7 (s : State) (d : Size) (n : Nat) (h : Bool) : (s.advance d n h).tr7 = s.tr7 := rfl
@[simp] theorem State.advance_inhibit (s : State) (d : Size) (n : Nat) (h : Bool) : (s.advance d n h).inhibit = h := rfl
@[simp] theorem State.advance_mem (s : State) (d : Size) (n : Nat) (h : Bool) : (s.advance d n h).mem = s.mem := rfl
@[simp] theorem State.advance_draws (s : State) (d : Size) (n : Nat) (h : Bool) : (s.advance d n h).draws = s.draws := rfl
@[simp] theorem State.advance_tlbTested (s : State) (d : Size) (n : Nat) (h : Bool) : (s.advance d n h).tlbTested = s.tlbTested := rfl
@[simp] theorem State.advance_code (s : State) (d : Size) (n : Nat) (h : Bool) : (s.advance d n h).code = s.code := rfl
@[simp] theorem State.advance_mode (s : State) (d : Size) (n : Nat) (h : Bool) : (s.advance d n h).mode = s.mode := rfl
@[simp] theorem State.advance_cpl (s : State) (d : Size) (n : Nat) (h : Bool) : (s.advance d n h).cpl = s.cpl := rfl
@[simp] theorem State.advance_defaultSize (s : State) (d : Size) (n : Nat) (h : Bool) : (s.advance d n h).defaultSize = s.defaultSize := rfl
@[simp] theorem State.advance_paging (s : State) (d : Size) (n : Nat) (h : Bool) : (s.advance d n h).paging = s.paging := rfl
@[simp] theorem State.advance_user (s : State) (d : Size) (n : Nat) (h : Bool) : (s.advance d n h).user = s.user := rfl

/-! ### State.setReg8 -/

@[simp] theorem State.setReg8_regs (s : State) (r : Reg8) (v : BitVec 8) : (s.setReg8 r v).regs = s.regs.set8 r v := rfl
@[simp] theorem State.setReg8_pc (s : State) (r : Reg8) (v : BitVec 8) : (s.setReg8 r v).pc = s.pc := rfl
@[simp] theorem State.setReg8_flags (s : State) (r : Reg8) (v : BitVec 8) : (s.setReg8 r v).flags = s.flags := rfl
@[simp] theorem State.setReg8_segs (s : State) (r : Reg8) (v : BitVec 8) : (s.setReg8 r v).segs = s.segs := rfl
@[simp] theorem State.setReg8_gdtr (s : State) (r : Reg8) (v : BitVec 8) : (s.setReg8 r v).gdtr = s.gdtr := rfl
@[simp] theorem State.setReg8_ldtr (s : State) (r : Reg8) (v : BitVec 8) : (s.setReg8 r v).ldtr = s.ldtr := rfl
@[simp] theorem State.setReg8_idtr (s : State) (r : Reg8) (v : BitVec 8) : (s.setReg8 r v).idtr = s.idtr := rfl
@[simp] theorem State.setReg8_task (s : State) (r : Reg8) (v : BitVec 8) : (s.setReg8 r v).task = s.task := rfl
@[simp] theorem State.setReg8_cr0 (s : State) (r : Reg8) (v : BitVec 8) : (s.setReg8 r v).cr0 = s.cr0 := rfl
@[simp] theorem State.setReg8_cr2 (s : State) (r : Reg8) (v : BitVec 8) : (s.setReg8 r v).cr2 = s.cr2 := rfl
@[simp] theorem State.setReg8_cr3 (s : State) (r : Reg8) (v : BitVec 8) : (s.setReg8 r v).cr3 = s.cr3 := rfl
@[simp] theorem State.setReg8_dr0 (s : State) (r : Reg8) (v : BitVec 8) : (s.setReg8 r v).dr0 = s.dr0 := rfl
@[simp] theorem State.setReg8_dr1 (s : State) (r : Reg8) (v : BitVec 8) : (s.setReg8 r v).dr1 = s.dr1 := rfl
@[simp] theorem State.setReg8_dr2 (s : State) (r : Reg8) (v : BitVec 8) : (s.setReg8 r v).dr2 = s.dr2 := rfl
@[simp] theorem State.setReg8_dr3 (s : State) (r : Reg8) (v : BitVec 8) : (s.setReg8 r v).dr3 = s.dr3 := rfl
@[simp] theorem State.setReg8_dr6 (s : State) (r : Reg8) (v : BitVec 8) : (s.setReg8 r v).dr6 = s.dr6 := rfl
@[simp] theorem State.setReg8_dr7 (s : State) (r : Reg8) (v : BitVec 8) : (s.setReg8 r v).dr7 = s.dr7 := rfl
@[simp] theorem State.setReg8_tr6 (s : State) (r : Reg8) (v : BitVec 8) : (s.setReg8 r v).tr6 = s.tr6 := rfl
@[simp] theorem State.setReg8_tr7 (s : State) (r : Reg8) (v : BitVec 8) : (s.setReg8 r v).tr7 = s.tr7 := rfl
@[simp] theorem State.setReg8_inhibit (s : State) (r : Reg8) (v : BitVec 8) : (s.setReg8 r v).inhibit = s.inhibit := rfl
@[simp] theorem State.setReg8_mem (s : State) (r : Reg8) (v : BitVec 8) : (s.setReg8 r v).mem = s.mem := rfl
@[simp] theorem State.setReg8_draws (s : State) (r : Reg8) (v : BitVec 8) : (s.setReg8 r v).draws = s.draws := rfl
@[simp] theorem State.setReg8_tlbTested (s : State) (r : Reg8) (v : BitVec 8) : (s.setReg8 r v).tlbTested = s.tlbTested := rfl
@[simp] theorem State.setReg8_code (s : State) (r : Reg8) (v : BitVec 8) : (s.setReg8 r v).code = s.code := rfl
@[simp] theorem State.setReg8_mode (s : State) (r : Reg8) (v : BitVec 8) : (s.setReg8 r v).mode = s.mode := rfl
@[simp] theorem State.setReg8_cpl (s : State) (r : Reg8) (v : BitVec 8) : (s.setReg8 r v).cpl = s.cpl := rfl
@[simp] theorem State.setReg8_defaultSize (s : State) (r : Reg8) (v : BitVec 8) : (s.setReg8 r v).defaultSize = s.defaultSize := rfl
@[simp] theorem State.setReg8_paging (s : State) (r : Reg8) (v : BitVec 8) : (s.setReg8 r v).paging = s.paging := rfl
@[simp] theorem State.setReg8_user (s : State) (r : Reg8) (v : BitVec 8) : (s.setReg8 r v).user = s.user := rfl

/-! ### State.setReg16 -/

@[simp] theorem State.setReg16_regs (s : State) (r : Reg) (v : BitVec 16) : (s.setReg16 r v).regs = s.regs.set16 r v := rfl
@[simp] theorem State.setReg16_pc (s : State) (r : Reg) (v : BitVec 16) : (s.setReg16 r v).pc = s.pc := rfl
@[simp] theorem State.setReg16_flags (s : State) (r : Reg) (v : BitVec 16) : (s.setReg16 r v).flags = s.flags := rfl
@[simp] theorem State.setReg16_segs (s : State) (r : Reg) (v : BitVec 16) : (s.setReg16 r v).segs = s.segs := rfl
@[simp] theorem State.setReg16_gdtr (s : State) (r : Reg) (v : BitVec 16) : (s.setReg16 r v).gdtr = s.gdtr := rfl
@[simp] theorem State.setReg16_ldtr (s : State) (r : Reg) (v : BitVec 16) : (s.setReg16 r v).ldtr = s.ldtr := rfl
@[simp] theorem State.setReg16_idtr (s : State) (r : Reg) (v : BitVec 16) : (s.setReg16 r v).idtr = s.idtr := rfl
@[simp] theorem State.setReg16_task (s : State) (r : Reg) (v : BitVec 16) : (s.setReg16 r v).task = s.task := rfl
@[simp] theorem State.setReg16_cr0 (s : State) (r : Reg) (v : BitVec 16) : (s.setReg16 r v).cr0 = s.cr0 := rfl
@[simp] theorem State.setReg16_cr2 (s : State) (r : Reg) (v : BitVec 16) : (s.setReg16 r v).cr2 = s.cr2 := rfl
@[simp] theorem State.setReg16_cr3 (s : State) (r : Reg) (v : BitVec 16) : (s.setReg16 r v).cr3 = s.cr3 := rfl
@[simp] theorem State.setReg16_dr0 (s : State) (r : Reg) (v : BitVec 16) : (s.setReg16 r v).dr0 = s.dr0 := rfl
@[simp] theorem State.setReg16_dr1 (s : State) (r : Reg) (v : BitVec 16) : (s.setReg16 r v).dr1 = s.dr1 := rfl
@[simp] theorem State.setReg16_dr2 (s : State) (r : Reg) (v : BitVec 16) : (s.setReg16 r v).dr2 = s.dr2 := rfl
@[simp] theorem State.setReg16_dr3 (s : State) (r : Reg) (v : BitVec 16) : (s.setReg16 r v).dr3 = s.dr3 := rfl
@[simp] theorem State.setReg16_dr6 (s : State) (r : Reg) (v : BitVec 16) : (s.setReg16 r v).dr6 = s.dr6 := rfl
@[simp] theorem State.setReg16_dr7 (s : State) (r : Reg) (v : BitVec 16) : (s.setReg16 r v).dr7 = s.dr7 := rfl
@[simp] theorem State.setReg16_tr6 (s : State) (r : Reg) (v : BitVec 16) : (s.setReg16 r v).tr6 = s.tr6 := rfl
@[simp] theorem State.setReg16_tr7 (s : State) (r : Reg) (v : BitVec 16) : (s.setReg16 r v).tr7 = s.tr7 := rfl
@[simp] theorem State.setReg16_inhibit (s : State) (r : Reg) (v : BitVec 16) : (s.setReg16 r v).inhibit = s.inhibit := rfl
@[simp] theorem State.setReg16_mem (s : State) (r : Reg) (v : BitVec 16) : (s.setReg16 r v).mem = s.mem := rfl
@[simp] theorem State.setReg16_draws (s : State) (r : Reg) (v : BitVec 16) : (s.setReg16 r v).draws = s.draws := rfl
@[simp] theorem State.setReg16_tlbTested (s : State) (r : Reg) (v : BitVec 16) : (s.setReg16 r v).tlbTested = s.tlbTested := rfl
@[simp] theorem State.setReg16_code (s : State) (r : Reg) (v : BitVec 16) : (s.setReg16 r v).code = s.code := rfl
@[simp] theorem State.setReg16_mode (s : State) (r : Reg) (v : BitVec 16) : (s.setReg16 r v).mode = s.mode := rfl
@[simp] theorem State.setReg16_cpl (s : State) (r : Reg) (v : BitVec 16) : (s.setReg16 r v).cpl = s.cpl := rfl
@[simp] theorem State.setReg16_defaultSize (s : State) (r : Reg) (v : BitVec 16) : (s.setReg16 r v).defaultSize = s.defaultSize := rfl
@[simp] theorem State.setReg16_paging (s : State) (r : Reg) (v : BitVec 16) : (s.setReg16 r v).paging = s.paging := rfl
@[simp] theorem State.setReg16_user (s : State) (r : Reg) (v : BitVec 16) : (s.setReg16 r v).user = s.user := rfl

/-! ### State.setReg -/

@[simp] theorem State.setReg_regs (s : State) (r : Reg) (v : Word) : (s.setReg r v).regs = s.regs.set r v := rfl
@[simp] theorem State.setReg_pc (s : State) (r : Reg) (v : Word) : (s.setReg r v).pc = s.pc := rfl
@[simp] theorem State.setReg_flags (s : State) (r : Reg) (v : Word) : (s.setReg r v).flags = s.flags := rfl
@[simp] theorem State.setReg_segs (s : State) (r : Reg) (v : Word) : (s.setReg r v).segs = s.segs := rfl
@[simp] theorem State.setReg_gdtr (s : State) (r : Reg) (v : Word) : (s.setReg r v).gdtr = s.gdtr := rfl
@[simp] theorem State.setReg_ldtr (s : State) (r : Reg) (v : Word) : (s.setReg r v).ldtr = s.ldtr := rfl
@[simp] theorem State.setReg_idtr (s : State) (r : Reg) (v : Word) : (s.setReg r v).idtr = s.idtr := rfl
@[simp] theorem State.setReg_task (s : State) (r : Reg) (v : Word) : (s.setReg r v).task = s.task := rfl
@[simp] theorem State.setReg_cr0 (s : State) (r : Reg) (v : Word) : (s.setReg r v).cr0 = s.cr0 := rfl
@[simp] theorem State.setReg_cr2 (s : State) (r : Reg) (v : Word) : (s.setReg r v).cr2 = s.cr2 := rfl
@[simp] theorem State.setReg_cr3 (s : State) (r : Reg) (v : Word) : (s.setReg r v).cr3 = s.cr3 := rfl
@[simp] theorem State.setReg_dr0 (s : State) (r : Reg) (v : Word) : (s.setReg r v).dr0 = s.dr0 := rfl
@[simp] theorem State.setReg_dr1 (s : State) (r : Reg) (v : Word) : (s.setReg r v).dr1 = s.dr1 := rfl
@[simp] theorem State.setReg_dr2 (s : State) (r : Reg) (v : Word) : (s.setReg r v).dr2 = s.dr2 := rfl
@[simp] theorem State.setReg_dr3 (s : State) (r : Reg) (v : Word) : (s.setReg r v).dr3 = s.dr3 := rfl
@[simp] theorem State.setReg_dr6 (s : State) (r : Reg) (v : Word) : (s.setReg r v).dr6 = s.dr6 := rfl
@[simp] theorem State.setReg_dr7 (s : State) (r : Reg) (v : Word) : (s.setReg r v).dr7 = s.dr7 := rfl
@[simp] theorem State.setReg_tr6 (s : State) (r : Reg) (v : Word) : (s.setReg r v).tr6 = s.tr6 := rfl
@[simp] theorem State.setReg_tr7 (s : State) (r : Reg) (v : Word) : (s.setReg r v).tr7 = s.tr7 := rfl
@[simp] theorem State.setReg_inhibit (s : State) (r : Reg) (v : Word) : (s.setReg r v).inhibit = s.inhibit := rfl
@[simp] theorem State.setReg_mem (s : State) (r : Reg) (v : Word) : (s.setReg r v).mem = s.mem := rfl
@[simp] theorem State.setReg_draws (s : State) (r : Reg) (v : Word) : (s.setReg r v).draws = s.draws := rfl
@[simp] theorem State.setReg_tlbTested (s : State) (r : Reg) (v : Word) : (s.setReg r v).tlbTested = s.tlbTested := rfl
@[simp] theorem State.setReg_code (s : State) (r : Reg) (v : Word) : (s.setReg r v).code = s.code := rfl
@[simp] theorem State.setReg_mode (s : State) (r : Reg) (v : Word) : (s.setReg r v).mode = s.mode := rfl
@[simp] theorem State.setReg_cpl (s : State) (r : Reg) (v : Word) : (s.setReg r v).cpl = s.cpl := rfl
@[simp] theorem State.setReg_defaultSize (s : State) (r : Reg) (v : Word) : (s.setReg r v).defaultSize = s.defaultSize := rfl
@[simp] theorem State.setReg_paging (s : State) (r : Reg) (v : Word) : (s.setReg r v).paging = s.paging := rfl
@[simp] theorem State.setReg_user (s : State) (r : Reg) (v : Word) : (s.setReg r v).user = s.user := rfl

/-! ### State.setRegDrawn -/

@[simp] theorem State.setRegDrawn_regs (s : State) (r : Reg) (v : Word) : (s.setRegDrawn r v).regs = s.regs.set r v := rfl
@[simp] theorem State.setRegDrawn_pc (s : State) (r : Reg) (v : Word) : (s.setRegDrawn r v).pc = s.pc := rfl
@[simp] theorem State.setRegDrawn_flags (s : State) (r : Reg) (v : Word) : (s.setRegDrawn r v).flags = s.flags := rfl
@[simp] theorem State.setRegDrawn_segs (s : State) (r : Reg) (v : Word) : (s.setRegDrawn r v).segs = s.segs := rfl
@[simp] theorem State.setRegDrawn_gdtr (s : State) (r : Reg) (v : Word) : (s.setRegDrawn r v).gdtr = s.gdtr := rfl
@[simp] theorem State.setRegDrawn_ldtr (s : State) (r : Reg) (v : Word) : (s.setRegDrawn r v).ldtr = s.ldtr := rfl
@[simp] theorem State.setRegDrawn_idtr (s : State) (r : Reg) (v : Word) : (s.setRegDrawn r v).idtr = s.idtr := rfl
@[simp] theorem State.setRegDrawn_task (s : State) (r : Reg) (v : Word) : (s.setRegDrawn r v).task = s.task := rfl
@[simp] theorem State.setRegDrawn_cr0 (s : State) (r : Reg) (v : Word) : (s.setRegDrawn r v).cr0 = s.cr0 := rfl
@[simp] theorem State.setRegDrawn_cr2 (s : State) (r : Reg) (v : Word) : (s.setRegDrawn r v).cr2 = s.cr2 := rfl
@[simp] theorem State.setRegDrawn_cr3 (s : State) (r : Reg) (v : Word) : (s.setRegDrawn r v).cr3 = s.cr3 := rfl
@[simp] theorem State.setRegDrawn_dr0 (s : State) (r : Reg) (v : Word) : (s.setRegDrawn r v).dr0 = s.dr0 := rfl
@[simp] theorem State.setRegDrawn_dr1 (s : State) (r : Reg) (v : Word) : (s.setRegDrawn r v).dr1 = s.dr1 := rfl
@[simp] theorem State.setRegDrawn_dr2 (s : State) (r : Reg) (v : Word) : (s.setRegDrawn r v).dr2 = s.dr2 := rfl
@[simp] theorem State.setRegDrawn_dr3 (s : State) (r : Reg) (v : Word) : (s.setRegDrawn r v).dr3 = s.dr3 := rfl
@[simp] theorem State.setRegDrawn_dr6 (s : State) (r : Reg) (v : Word) : (s.setRegDrawn r v).dr6 = s.dr6 := rfl
@[simp] theorem State.setRegDrawn_dr7 (s : State) (r : Reg) (v : Word) : (s.setRegDrawn r v).dr7 = s.dr7 := rfl
@[simp] theorem State.setRegDrawn_tr6 (s : State) (r : Reg) (v : Word) : (s.setRegDrawn r v).tr6 = s.tr6 := rfl
@[simp] theorem State.setRegDrawn_tr7 (s : State) (r : Reg) (v : Word) : (s.setRegDrawn r v).tr7 = s.tr7 := rfl
@[simp] theorem State.setRegDrawn_inhibit (s : State) (r : Reg) (v : Word) : (s.setRegDrawn r v).inhibit = s.inhibit := rfl
@[simp] theorem State.setRegDrawn_mem (s : State) (r : Reg) (v : Word) : (s.setRegDrawn r v).mem = s.mem := rfl
@[simp] theorem State.setRegDrawn_draws (s : State) (r : Reg) (v : Word) : (s.setRegDrawn r v).draws = s.draws + 1 := rfl
@[simp] theorem State.setRegDrawn_tlbTested (s : State) (r : Reg) (v : Word) : (s.setRegDrawn r v).tlbTested = s.tlbTested := rfl
@[simp] theorem State.setRegDrawn_code (s : State) (r : Reg) (v : Word) : (s.setRegDrawn r v).code = s.code := rfl
@[simp] theorem State.setRegDrawn_mode (s : State) (r : Reg) (v : Word) : (s.setRegDrawn r v).mode = s.mode := rfl
@[simp] theorem State.setRegDrawn_cpl (s : State) (r : Reg) (v : Word) : (s.setRegDrawn r v).cpl = s.cpl := rfl
@[simp] theorem State.setRegDrawn_defaultSize (s : State) (r : Reg) (v : Word) : (s.setRegDrawn r v).defaultSize = s.defaultSize := rfl
@[simp] theorem State.setRegDrawn_paging (s : State) (r : Reg) (v : Word) : (s.setRegDrawn r v).paging = s.paging := rfl
@[simp] theorem State.setRegDrawn_user (s : State) (r : Reg) (v : Word) : (s.setRegDrawn r v).user = s.user := rfl

/-! ### setRegSelector -/

@[simp] theorem setRegSelector_regs (s : State) (r : Reg) (g : BitVec 16) : (setRegSelector s r g).regs = s.regs.set r (Config.anyHalf s.draws ++ g) := rfl
@[simp] theorem setRegSelector_pc (s : State) (r : Reg) (g : BitVec 16) : (setRegSelector s r g).pc = s.pc := rfl
@[simp] theorem setRegSelector_flags (s : State) (r : Reg) (g : BitVec 16) : (setRegSelector s r g).flags = s.flags := rfl
@[simp] theorem setRegSelector_segs (s : State) (r : Reg) (g : BitVec 16) : (setRegSelector s r g).segs = s.segs := rfl
@[simp] theorem setRegSelector_gdtr (s : State) (r : Reg) (g : BitVec 16) : (setRegSelector s r g).gdtr = s.gdtr := rfl
@[simp] theorem setRegSelector_ldtr (s : State) (r : Reg) (g : BitVec 16) : (setRegSelector s r g).ldtr = s.ldtr := rfl
@[simp] theorem setRegSelector_idtr (s : State) (r : Reg) (g : BitVec 16) : (setRegSelector s r g).idtr = s.idtr := rfl
@[simp] theorem setRegSelector_task (s : State) (r : Reg) (g : BitVec 16) : (setRegSelector s r g).task = s.task := rfl
@[simp] theorem setRegSelector_cr0 (s : State) (r : Reg) (g : BitVec 16) : (setRegSelector s r g).cr0 = s.cr0 := rfl
@[simp] theorem setRegSelector_cr2 (s : State) (r : Reg) (g : BitVec 16) : (setRegSelector s r g).cr2 = s.cr2 := rfl
@[simp] theorem setRegSelector_cr3 (s : State) (r : Reg) (g : BitVec 16) : (setRegSelector s r g).cr3 = s.cr3 := rfl
@[simp] theorem setRegSelector_dr0 (s : State) (r : Reg) (g : BitVec 16) : (setRegSelector s r g).dr0 = s.dr0 := rfl
@[simp] theorem setRegSelector_dr1 (s : State) (r : Reg) (g : BitVec 16) : (setRegSelector s r g).dr1 = s.dr1 := rfl
@[simp] theorem setRegSelector_dr2 (s : State) (r : Reg) (g : BitVec 16) : (setRegSelector s r g).dr2 = s.dr2 := rfl
@[simp] theorem setRegSelector_dr3 (s : State) (r : Reg) (g : BitVec 16) : (setRegSelector s r g).dr3 = s.dr3 := rfl
@[simp] theorem setRegSelector_dr6 (s : State) (r : Reg) (g : BitVec 16) : (setRegSelector s r g).dr6 = s.dr6 := rfl
@[simp] theorem setRegSelector_dr7 (s : State) (r : Reg) (g : BitVec 16) : (setRegSelector s r g).dr7 = s.dr7 := rfl
@[simp] theorem setRegSelector_tr6 (s : State) (r : Reg) (g : BitVec 16) : (setRegSelector s r g).tr6 = s.tr6 := rfl
@[simp] theorem setRegSelector_tr7 (s : State) (r : Reg) (g : BitVec 16) : (setRegSelector s r g).tr7 = s.tr7 := rfl
@[simp] theorem setRegSelector_inhibit (s : State) (r : Reg) (g : BitVec 16) : (setRegSelector s r g).inhibit = s.inhibit := rfl
@[simp] theorem setRegSelector_mem (s : State) (r : Reg) (g : BitVec 16) : (setRegSelector s r g).mem = s.mem := rfl
@[simp] theorem setRegSelector_draws (s : State) (r : Reg) (g : BitVec 16) : (setRegSelector s r g).draws = s.draws + 1 := rfl
@[simp] theorem setRegSelector_tlbTested (s : State) (r : Reg) (g : BitVec 16) : (setRegSelector s r g).tlbTested = s.tlbTested := rfl
@[simp] theorem setRegSelector_code (s : State) (r : Reg) (g : BitVec 16) : (setRegSelector s r g).code = s.code := rfl
@[simp] theorem setRegSelector_mode (s : State) (r : Reg) (g : BitVec 16) : (setRegSelector s r g).mode = s.mode := rfl
@[simp] theorem setRegSelector_cpl (s : State) (r : Reg) (g : BitVec 16) : (setRegSelector s r g).cpl = s.cpl := rfl
@[simp] theorem setRegSelector_defaultSize (s : State) (r : Reg) (g : BitVec 16) : (setRegSelector s r g).defaultSize = s.defaultSize := rfl
@[simp] theorem setRegSelector_paging (s : State) (r : Reg) (g : BitVec 16) : (setRegSelector s r g).paging = s.paging := rfl
@[simp] theorem setRegSelector_user (s : State) (r : Reg) (g : BitVec 16) : (setRegSelector s r g).user = s.user := rfl

/-! ### State.setCtrl -/

@[simp] theorem State.setCtrl_regs (s : State) (c : CtrlReg) (v : Word) : (s.setCtrl c v).regs = s.regs := by cases c <;> rfl
@[simp] theorem State.setCtrl_pc (s : State) (c : CtrlReg) (v : Word) : (s.setCtrl c v).pc = s.pc := by cases c <;> rfl
@[simp] theorem State.setCtrl_flags (s : State) (c : CtrlReg) (v : Word) : (s.setCtrl c v).flags = s.flags := by cases c <;> rfl
@[simp] theorem State.setCtrl_segs (s : State) (c : CtrlReg) (v : Word) : (s.setCtrl c v).segs = s.segs := by cases c <;> rfl
@[simp] theorem State.setCtrl_gdtr (s : State) (c : CtrlReg) (v : Word) : (s.setCtrl c v).gdtr = s.gdtr := by cases c <;> rfl
@[simp] theorem State.setCtrl_ldtr (s : State) (c : CtrlReg) (v : Word) : (s.setCtrl c v).ldtr = s.ldtr := by cases c <;> rfl
@[simp] theorem State.setCtrl_idtr (s : State) (c : CtrlReg) (v : Word) : (s.setCtrl c v).idtr = s.idtr := by cases c <;> rfl
@[simp] theorem State.setCtrl_task (s : State) (c : CtrlReg) (v : Word) : (s.setCtrl c v).task = s.task := by cases c <;> rfl
@[simp] theorem State.setCtrl_dr0 (s : State) (c : CtrlReg) (v : Word) : (s.setCtrl c v).dr0 = s.dr0 := by cases c <;> rfl
@[simp] theorem State.setCtrl_dr1 (s : State) (c : CtrlReg) (v : Word) : (s.setCtrl c v).dr1 = s.dr1 := by cases c <;> rfl
@[simp] theorem State.setCtrl_dr2 (s : State) (c : CtrlReg) (v : Word) : (s.setCtrl c v).dr2 = s.dr2 := by cases c <;> rfl
@[simp] theorem State.setCtrl_dr3 (s : State) (c : CtrlReg) (v : Word) : (s.setCtrl c v).dr3 = s.dr3 := by cases c <;> rfl
@[simp] theorem State.setCtrl_dr6 (s : State) (c : CtrlReg) (v : Word) : (s.setCtrl c v).dr6 = s.dr6 := by cases c <;> rfl
@[simp] theorem State.setCtrl_dr7 (s : State) (c : CtrlReg) (v : Word) : (s.setCtrl c v).dr7 = s.dr7 := by cases c <;> rfl
@[simp] theorem State.setCtrl_tr6 (s : State) (c : CtrlReg) (v : Word) : (s.setCtrl c v).tr6 = s.tr6 := by cases c <;> rfl
@[simp] theorem State.setCtrl_tr7 (s : State) (c : CtrlReg) (v : Word) : (s.setCtrl c v).tr7 = s.tr7 := by cases c <;> rfl
@[simp] theorem State.setCtrl_inhibit (s : State) (c : CtrlReg) (v : Word) : (s.setCtrl c v).inhibit = s.inhibit := by cases c <;> rfl
@[simp] theorem State.setCtrl_mem (s : State) (c : CtrlReg) (v : Word) : (s.setCtrl c v).mem = s.mem := by cases c <;> rfl
@[simp] theorem State.setCtrl_draws (s : State) (c : CtrlReg) (v : Word) : (s.setCtrl c v).draws = s.draws := by cases c <;> rfl
@[simp] theorem State.setCtrl_tlbTested (s : State) (c : CtrlReg) (v : Word) : (s.setCtrl c v).tlbTested = s.tlbTested := by cases c <;> rfl
@[simp] theorem State.setCtrl_code (s : State) (c : CtrlReg) (v : Word) : (s.setCtrl c v).code = s.code := by cases c <;> rfl

/-! ### State.setBreakAddr -/

@[simp] theorem State.setBreakAddr_regs (s : State) (c : BreakReg) (v : Word) : (s.setBreakAddr c v).regs = s.regs := by cases c <;> rfl
@[simp] theorem State.setBreakAddr_pc (s : State) (c : BreakReg) (v : Word) : (s.setBreakAddr c v).pc = s.pc := by cases c <;> rfl
@[simp] theorem State.setBreakAddr_flags (s : State) (c : BreakReg) (v : Word) : (s.setBreakAddr c v).flags = s.flags := by cases c <;> rfl
@[simp] theorem State.setBreakAddr_segs (s : State) (c : BreakReg) (v : Word) : (s.setBreakAddr c v).segs = s.segs := by cases c <;> rfl
@[simp] theorem State.setBreakAddr_gdtr (s : State) (c : BreakReg) (v : Word) : (s.setBreakAddr c v).gdtr = s.gdtr := by cases c <;> rfl
@[simp] theorem State.setBreakAddr_ldtr (s : State) (c : BreakReg) (v : Word) : (s.setBreakAddr c v).ldtr = s.ldtr := by cases c <;> rfl
@[simp] theorem State.setBreakAddr_idtr (s : State) (c : BreakReg) (v : Word) : (s.setBreakAddr c v).idtr = s.idtr := by cases c <;> rfl
@[simp] theorem State.setBreakAddr_task (s : State) (c : BreakReg) (v : Word) : (s.setBreakAddr c v).task = s.task := by cases c <;> rfl
@[simp] theorem State.setBreakAddr_cr0 (s : State) (c : BreakReg) (v : Word) : (s.setBreakAddr c v).cr0 = s.cr0 := by cases c <;> rfl
@[simp] theorem State.setBreakAddr_cr2 (s : State) (c : BreakReg) (v : Word) : (s.setBreakAddr c v).cr2 = s.cr2 := by cases c <;> rfl
@[simp] theorem State.setBreakAddr_cr3 (s : State) (c : BreakReg) (v : Word) : (s.setBreakAddr c v).cr3 = s.cr3 := by cases c <;> rfl
@[simp] theorem State.setBreakAddr_dr6 (s : State) (c : BreakReg) (v : Word) : (s.setBreakAddr c v).dr6 = s.dr6 := by cases c <;> rfl
@[simp] theorem State.setBreakAddr_dr7 (s : State) (c : BreakReg) (v : Word) : (s.setBreakAddr c v).dr7 = s.dr7 := by cases c <;> rfl
@[simp] theorem State.setBreakAddr_tr6 (s : State) (c : BreakReg) (v : Word) : (s.setBreakAddr c v).tr6 = s.tr6 := by cases c <;> rfl
@[simp] theorem State.setBreakAddr_tr7 (s : State) (c : BreakReg) (v : Word) : (s.setBreakAddr c v).tr7 = s.tr7 := by cases c <;> rfl
@[simp] theorem State.setBreakAddr_inhibit (s : State) (c : BreakReg) (v : Word) : (s.setBreakAddr c v).inhibit = s.inhibit := by cases c <;> rfl
@[simp] theorem State.setBreakAddr_mem (s : State) (c : BreakReg) (v : Word) : (s.setBreakAddr c v).mem = s.mem := by cases c <;> rfl
@[simp] theorem State.setBreakAddr_draws (s : State) (c : BreakReg) (v : Word) : (s.setBreakAddr c v).draws = s.draws := by cases c <;> rfl
@[simp] theorem State.setBreakAddr_tlbTested (s : State) (c : BreakReg) (v : Word) : (s.setBreakAddr c v).tlbTested = s.tlbTested := by cases c <;> rfl
@[simp] theorem State.setBreakAddr_code (s : State) (c : BreakReg) (v : Word) : (s.setBreakAddr c v).code = s.code := by cases c <;> rfl
@[simp] theorem State.setBreakAddr_mode (s : State) (c : BreakReg) (v : Word) : (s.setBreakAddr c v).mode = s.mode := by cases c <;> rfl
@[simp] theorem State.setBreakAddr_cpl (s : State) (c : BreakReg) (v : Word) : (s.setBreakAddr c v).cpl = s.cpl := by cases c <;> rfl
@[simp] theorem State.setBreakAddr_defaultSize (s : State) (c : BreakReg) (v : Word) : (s.setBreakAddr c v).defaultSize = s.defaultSize := by cases c <;> rfl
@[simp] theorem State.setBreakAddr_paging (s : State) (c : BreakReg) (v : Word) : (s.setBreakAddr c v).paging = s.paging := by cases c <;> rfl
@[simp] theorem State.setBreakAddr_user (s : State) (c : BreakReg) (v : Word) : (s.setBreakAddr c v).user = s.user := by cases c <;> rfl

/-! ### State.setDebug -/

@[simp] theorem State.setDebug_regs (s : State) (c : DebugReg) (v : Word) : (s.setDebug c v).regs = s.regs := by cases c <;> rfl
@[simp] theorem State.setDebug_pc (s : State) (c : DebugReg) (v : Word) : (s.setDebug c v).pc = s.pc := by cases c <;> rfl
@[simp] theorem State.setDebug_flags (s : State) (c : DebugReg) (v : Word) : (s.setDebug c v).flags = s.flags := by cases c <;> rfl
@[simp] theorem State.setDebug_segs (s : State) (c : DebugReg) (v : Word) : (s.setDebug c v).segs = s.segs := by cases c <;> rfl
@[simp] theorem State.setDebug_gdtr (s : State) (c : DebugReg) (v : Word) : (s.setDebug c v).gdtr = s.gdtr := by cases c <;> rfl
@[simp] theorem State.setDebug_ldtr (s : State) (c : DebugReg) (v : Word) : (s.setDebug c v).ldtr = s.ldtr := by cases c <;> rfl
@[simp] theorem State.setDebug_idtr (s : State) (c : DebugReg) (v : Word) : (s.setDebug c v).idtr = s.idtr := by cases c <;> rfl
@[simp] theorem State.setDebug_task (s : State) (c : DebugReg) (v : Word) : (s.setDebug c v).task = s.task := by cases c <;> rfl
@[simp] theorem State.setDebug_cr0 (s : State) (c : DebugReg) (v : Word) : (s.setDebug c v).cr0 = s.cr0 := by cases c <;> rfl
@[simp] theorem State.setDebug_cr2 (s : State) (c : DebugReg) (v : Word) : (s.setDebug c v).cr2 = s.cr2 := by cases c <;> rfl
@[simp] theorem State.setDebug_cr3 (s : State) (c : DebugReg) (v : Word) : (s.setDebug c v).cr3 = s.cr3 := by cases c <;> rfl
@[simp] theorem State.setDebug_dr0 (s : State) (c : DebugReg) (v : Word) : (s.setDebug c v).dr0 = s.dr0 := by cases c <;> rfl
@[simp] theorem State.setDebug_dr1 (s : State) (c : DebugReg) (v : Word) : (s.setDebug c v).dr1 = s.dr1 := by cases c <;> rfl
@[simp] theorem State.setDebug_dr2 (s : State) (c : DebugReg) (v : Word) : (s.setDebug c v).dr2 = s.dr2 := by cases c <;> rfl
@[simp] theorem State.setDebug_dr3 (s : State) (c : DebugReg) (v : Word) : (s.setDebug c v).dr3 = s.dr3 := by cases c <;> rfl
@[simp] theorem State.setDebug_tr6 (s : State) (c : DebugReg) (v : Word) : (s.setDebug c v).tr6 = s.tr6 := by cases c <;> rfl
@[simp] theorem State.setDebug_tr7 (s : State) (c : DebugReg) (v : Word) : (s.setDebug c v).tr7 = s.tr7 := by cases c <;> rfl
@[simp] theorem State.setDebug_inhibit (s : State) (c : DebugReg) (v : Word) : (s.setDebug c v).inhibit = s.inhibit := by cases c <;> rfl
@[simp] theorem State.setDebug_mem (s : State) (c : DebugReg) (v : Word) : (s.setDebug c v).mem = s.mem := by cases c <;> rfl
@[simp] theorem State.setDebug_draws (s : State) (c : DebugReg) (v : Word) : (s.setDebug c v).draws = s.draws := by cases c <;> rfl
@[simp] theorem State.setDebug_tlbTested (s : State) (c : DebugReg) (v : Word) : (s.setDebug c v).tlbTested = s.tlbTested := by cases c <;> rfl
@[simp] theorem State.setDebug_code (s : State) (c : DebugReg) (v : Word) : (s.setDebug c v).code = s.code := by cases c <;> rfl
@[simp] theorem State.setDebug_mode (s : State) (c : DebugReg) (v : Word) : (s.setDebug c v).mode = s.mode := by cases c <;> rfl
@[simp] theorem State.setDebug_cpl (s : State) (c : DebugReg) (v : Word) : (s.setDebug c v).cpl = s.cpl := by cases c <;> rfl
@[simp] theorem State.setDebug_defaultSize (s : State) (c : DebugReg) (v : Word) : (s.setDebug c v).defaultSize = s.defaultSize := by cases c <;> rfl
@[simp] theorem State.setDebug_paging (s : State) (c : DebugReg) (v : Word) : (s.setDebug c v).paging = s.paging := by cases c <;> rfl
@[simp] theorem State.setDebug_user (s : State) (c : DebugReg) (v : Word) : (s.setDebug c v).user = s.user := by cases c <;> rfl

/-! ### State.setTest -/

@[simp] theorem State.setTest_regs (s : State) (c : TestReg) (v : Word) : (s.setTest c v).regs = s.regs := by cases c <;> rfl
@[simp] theorem State.setTest_pc (s : State) (c : TestReg) (v : Word) : (s.setTest c v).pc = s.pc := by cases c <;> rfl
@[simp] theorem State.setTest_flags (s : State) (c : TestReg) (v : Word) : (s.setTest c v).flags = s.flags := by cases c <;> rfl
@[simp] theorem State.setTest_segs (s : State) (c : TestReg) (v : Word) : (s.setTest c v).segs = s.segs := by cases c <;> rfl
@[simp] theorem State.setTest_gdtr (s : State) (c : TestReg) (v : Word) : (s.setTest c v).gdtr = s.gdtr := by cases c <;> rfl
@[simp] theorem State.setTest_ldtr (s : State) (c : TestReg) (v : Word) : (s.setTest c v).ldtr = s.ldtr := by cases c <;> rfl
@[simp] theorem State.setTest_idtr (s : State) (c : TestReg) (v : Word) : (s.setTest c v).idtr = s.idtr := by cases c <;> rfl
@[simp] theorem State.setTest_task (s : State) (c : TestReg) (v : Word) : (s.setTest c v).task = s.task := by cases c <;> rfl
@[simp] theorem State.setTest_cr0 (s : State) (c : TestReg) (v : Word) : (s.setTest c v).cr0 = s.cr0 := by cases c <;> rfl
@[simp] theorem State.setTest_cr2 (s : State) (c : TestReg) (v : Word) : (s.setTest c v).cr2 = s.cr2 := by cases c <;> rfl
@[simp] theorem State.setTest_cr3 (s : State) (c : TestReg) (v : Word) : (s.setTest c v).cr3 = s.cr3 := by cases c <;> rfl
@[simp] theorem State.setTest_dr0 (s : State) (c : TestReg) (v : Word) : (s.setTest c v).dr0 = s.dr0 := by cases c <;> rfl
@[simp] theorem State.setTest_dr1 (s : State) (c : TestReg) (v : Word) : (s.setTest c v).dr1 = s.dr1 := by cases c <;> rfl
@[simp] theorem State.setTest_dr2 (s : State) (c : TestReg) (v : Word) : (s.setTest c v).dr2 = s.dr2 := by cases c <;> rfl
@[simp] theorem State.setTest_dr3 (s : State) (c : TestReg) (v : Word) : (s.setTest c v).dr3 = s.dr3 := by cases c <;> rfl
@[simp] theorem State.setTest_dr6 (s : State) (c : TestReg) (v : Word) : (s.setTest c v).dr6 = s.dr6 := by cases c <;> rfl
@[simp] theorem State.setTest_dr7 (s : State) (c : TestReg) (v : Word) : (s.setTest c v).dr7 = s.dr7 := by cases c <;> rfl
@[simp] theorem State.setTest_inhibit (s : State) (c : TestReg) (v : Word) : (s.setTest c v).inhibit = s.inhibit := by cases c <;> rfl
@[simp] theorem State.setTest_mem (s : State) (c : TestReg) (v : Word) : (s.setTest c v).mem = s.mem := by cases c <;> rfl
@[simp] theorem State.setTest_draws (s : State) (c : TestReg) (v : Word) : (s.setTest c v).draws = s.draws := by cases c <;> rfl
@[simp] theorem State.setTest_code (s : State) (c : TestReg) (v : Word) : (s.setTest c v).code = s.code := by cases c <;> rfl
@[simp] theorem State.setTest_mode (s : State) (c : TestReg) (v : Word) : (s.setTest c v).mode = s.mode := by cases c <;> rfl
@[simp] theorem State.setTest_cpl (s : State) (c : TestReg) (v : Word) : (s.setTest c v).cpl = s.cpl := by cases c <;> rfl
@[simp] theorem State.setTest_defaultSize (s : State) (c : TestReg) (v : Word) : (s.setTest c v).defaultSize = s.defaultSize := by cases c <;> rfl
@[simp] theorem State.setTest_paging (s : State) (c : TestReg) (v : Word) : (s.setTest c v).paging = s.paging := by cases c <;> rfl
@[simp] theorem State.setTest_user (s : State) (c : TestReg) (v : Word) : (s.setTest c v).user = s.user := by cases c <;> rfl

/-! ### undefFlags6 -/

@[simp] theorem undefFlags6_regs (s : State) : (undefFlags6 s).regs = s.regs := rfl
@[simp] theorem undefFlags6_pc (s : State) : (undefFlags6 s).pc = s.pc := rfl
@[simp] theorem undefFlags6_segs (s : State) : (undefFlags6 s).segs = s.segs := rfl
@[simp] theorem undefFlags6_gdtr (s : State) : (undefFlags6 s).gdtr = s.gdtr := rfl
@[simp] theorem undefFlags6_ldtr (s : State) : (undefFlags6 s).ldtr = s.ldtr := rfl
@[simp] theorem undefFlags6_idtr (s : State) : (undefFlags6 s).idtr = s.idtr := rfl
@[simp] theorem undefFlags6_task (s : State) : (undefFlags6 s).task = s.task := rfl
@[simp] theorem undefFlags6_cr0 (s : State) : (undefFlags6 s).cr0 = s.cr0 := rfl
@[simp] theorem undefFlags6_cr2 (s : State) : (undefFlags6 s).cr2 = s.cr2 := rfl
@[simp] theorem undefFlags6_cr3 (s : State) : (undefFlags6 s).cr3 = s.cr3 := rfl
@[simp] theorem undefFlags6_dr0 (s : State) : (undefFlags6 s).dr0 = s.dr0 := rfl
@[simp] theorem undefFlags6_dr1 (s : State) : (undefFlags6 s).dr1 = s.dr1 := rfl
@[simp] theorem undefFlags6_dr2 (s : State) : (undefFlags6 s).dr2 = s.dr2 := rfl
@[simp] theorem undefFlags6_dr3 (s : State) : (undefFlags6 s).dr3 = s.dr3 := rfl
@[simp] theorem undefFlags6_dr6 (s : State) : (undefFlags6 s).dr6 = s.dr6 := rfl
@[simp] theorem undefFlags6_dr7 (s : State) : (undefFlags6 s).dr7 = s.dr7 := rfl
@[simp] theorem undefFlags6_tr6 (s : State) : (undefFlags6 s).tr6 = s.tr6 := rfl
@[simp] theorem undefFlags6_tr7 (s : State) : (undefFlags6 s).tr7 = s.tr7 := rfl
@[simp] theorem undefFlags6_inhibit (s : State) : (undefFlags6 s).inhibit = s.inhibit := rfl
@[simp] theorem undefFlags6_mem (s : State) : (undefFlags6 s).mem = s.mem := rfl
@[simp] theorem undefFlags6_draws (s : State) : (undefFlags6 s).draws = s.draws + 6 := rfl
@[simp] theorem undefFlags6_tlbTested (s : State) : (undefFlags6 s).tlbTested = s.tlbTested := rfl
@[simp] theorem undefFlags6_code (s : State) : (undefFlags6 s).code = s.code := rfl
@[simp] theorem undefFlags6_mode (s : State) : (undefFlags6 s).mode = s.mode := rfl
@[simp] theorem undefFlags6_cpl (s : State) : (undefFlags6 s).cpl = s.cpl := rfl
@[simp] theorem undefFlags6_defaultSize (s : State) : (undefFlags6 s).defaultSize = s.defaultSize := rfl
@[simp] theorem undefFlags6_paging (s : State) : (undefFlags6 s).paging = s.paging := rfl
@[simp] theorem undefFlags6_user (s : State) : (undefFlags6 s).user = s.user := rfl

/-! ### mulFlags -/

@[simp] theorem mulFlags_regs (s : State) (h : Bool) : (mulFlags s h).regs = s.regs := rfl
@[simp] theorem mulFlags_pc (s : State) (h : Bool) : (mulFlags s h).pc = s.pc := rfl
@[simp] theorem mulFlags_segs (s : State) (h : Bool) : (mulFlags s h).segs = s.segs := rfl
@[simp] theorem mulFlags_gdtr (s : State) (h : Bool) : (mulFlags s h).gdtr = s.gdtr := rfl
@[simp] theorem mulFlags_ldtr (s : State) (h : Bool) : (mulFlags s h).ldtr = s.ldtr := rfl
@[simp] theorem mulFlags_idtr (s : State) (h : Bool) : (mulFlags s h).idtr = s.idtr := rfl
@[simp] theorem mulFlags_task (s : State) (h : Bool) : (mulFlags s h).task = s.task := rfl
@[simp] theorem mulFlags_cr0 (s : State) (h : Bool) : (mulFlags s h).cr0 = s.cr0 := rfl
@[simp] theorem mulFlags_cr2 (s : State) (h : Bool) : (mulFlags s h).cr2 = s.cr2 := rfl
@[simp] theorem mulFlags_cr3 (s : State) (h : Bool) : (mulFlags s h).cr3 = s.cr3 := rfl
@[simp] theorem mulFlags_dr0 (s : State) (h : Bool) : (mulFlags s h).dr0 = s.dr0 := rfl
@[simp] theorem mulFlags_dr1 (s : State) (h : Bool) : (mulFlags s h).dr1 = s.dr1 := rfl
@[simp] theorem mulFlags_dr2 (s : State) (h : Bool) : (mulFlags s h).dr2 = s.dr2 := rfl
@[simp] theorem mulFlags_dr3 (s : State) (h : Bool) : (mulFlags s h).dr3 = s.dr3 := rfl
@[simp] theorem mulFlags_dr6 (s : State) (h : Bool) : (mulFlags s h).dr6 = s.dr6 := rfl
@[simp] theorem mulFlags_dr7 (s : State) (h : Bool) : (mulFlags s h).dr7 = s.dr7 := rfl
@[simp] theorem mulFlags_tr6 (s : State) (h : Bool) : (mulFlags s h).tr6 = s.tr6 := rfl
@[simp] theorem mulFlags_tr7 (s : State) (h : Bool) : (mulFlags s h).tr7 = s.tr7 := rfl
@[simp] theorem mulFlags_inhibit (s : State) (h : Bool) : (mulFlags s h).inhibit = s.inhibit := rfl
@[simp] theorem mulFlags_mem (s : State) (h : Bool) : (mulFlags s h).mem = s.mem := rfl
@[simp] theorem mulFlags_draws (s : State) (h : Bool) : (mulFlags s h).draws = s.draws + 4 := rfl
@[simp] theorem mulFlags_tlbTested (s : State) (h : Bool) : (mulFlags s h).tlbTested = s.tlbTested := rfl
@[simp] theorem mulFlags_code (s : State) (h : Bool) : (mulFlags s h).code = s.code := rfl
@[simp] theorem mulFlags_mode (s : State) (h : Bool) : (mulFlags s h).mode = s.mode := rfl
@[simp] theorem mulFlags_cpl (s : State) (h : Bool) : (mulFlags s h).cpl = s.cpl := rfl
@[simp] theorem mulFlags_defaultSize (s : State) (h : Bool) : (mulFlags s h).defaultSize = s.defaultSize := rfl
@[simp] theorem mulFlags_paging (s : State) (h : Bool) : (mulFlags s h).paging = s.paging := rfl
@[simp] theorem mulFlags_user (s : State) (h : Bool) : (mulFlags s h).user = s.user := rfl

/-! ### loadNullSegment -/

@[simp] theorem loadNullSegment_regs (s : State) (g : SegDest) (v : BitVec 16) : (loadNullSegment s g v).regs = s.regs := rfl
@[simp] theorem loadNullSegment_pc (s : State) (g : SegDest) (v : BitVec 16) : (loadNullSegment s g v).pc = s.pc := rfl
@[simp] theorem loadNullSegment_flags (s : State) (g : SegDest) (v : BitVec 16) : (loadNullSegment s g v).flags = s.flags := rfl
@[simp] theorem loadNullSegment_gdtr (s : State) (g : SegDest) (v : BitVec 16) : (loadNullSegment s g v).gdtr = s.gdtr := rfl
@[simp] theorem loadNullSegment_ldtr (s : State) (g : SegDest) (v : BitVec 16) : (loadNullSegment s g v).ldtr = s.ldtr := rfl
@[simp] theorem loadNullSegment_idtr (s : State) (g : SegDest) (v : BitVec 16) : (loadNullSegment s g v).idtr = s.idtr := rfl
@[simp] theorem loadNullSegment_task (s : State) (g : SegDest) (v : BitVec 16) : (loadNullSegment s g v).task = s.task := rfl
@[simp] theorem loadNullSegment_cr0 (s : State) (g : SegDest) (v : BitVec 16) : (loadNullSegment s g v).cr0 = s.cr0 := rfl
@[simp] theorem loadNullSegment_cr2 (s : State) (g : SegDest) (v : BitVec 16) : (loadNullSegment s g v).cr2 = s.cr2 := rfl
@[simp] theorem loadNullSegment_cr3 (s : State) (g : SegDest) (v : BitVec 16) : (loadNullSegment s g v).cr3 = s.cr3 := rfl
@[simp] theorem loadNullSegment_dr0 (s : State) (g : SegDest) (v : BitVec 16) : (loadNullSegment s g v).dr0 = s.dr0 := rfl
@[simp] theorem loadNullSegment_dr1 (s : State) (g : SegDest) (v : BitVec 16) : (loadNullSegment s g v).dr1 = s.dr1 := rfl
@[simp] theorem loadNullSegment_dr2 (s : State) (g : SegDest) (v : BitVec 16) : (loadNullSegment s g v).dr2 = s.dr2 := rfl
@[simp] theorem loadNullSegment_dr3 (s : State) (g : SegDest) (v : BitVec 16) : (loadNullSegment s g v).dr3 = s.dr3 := rfl
@[simp] theorem loadNullSegment_dr6 (s : State) (g : SegDest) (v : BitVec 16) : (loadNullSegment s g v).dr6 = s.dr6 := rfl
@[simp] theorem loadNullSegment_dr7 (s : State) (g : SegDest) (v : BitVec 16) : (loadNullSegment s g v).dr7 = s.dr7 := rfl
@[simp] theorem loadNullSegment_tr6 (s : State) (g : SegDest) (v : BitVec 16) : (loadNullSegment s g v).tr6 = s.tr6 := rfl
@[simp] theorem loadNullSegment_tr7 (s : State) (g : SegDest) (v : BitVec 16) : (loadNullSegment s g v).tr7 = s.tr7 := rfl
@[simp] theorem loadNullSegment_inhibit (s : State) (g : SegDest) (v : BitVec 16) : (loadNullSegment s g v).inhibit = s.inhibit := rfl
@[simp] theorem loadNullSegment_mem (s : State) (g : SegDest) (v : BitVec 16) : (loadNullSegment s g v).mem = s.mem := rfl
@[simp] theorem loadNullSegment_draws (s : State) (g : SegDest) (v : BitVec 16) : (loadNullSegment s g v).draws = s.draws := rfl
@[simp] theorem loadNullSegment_tlbTested (s : State) (g : SegDest) (v : BitVec 16) : (loadNullSegment s g v).tlbTested = s.tlbTested := rfl
@[simp] theorem loadNullSegment_code (s : State) (g : SegDest) (v : BitVec 16) : (loadNullSegment s g v).code = s.code := rfl
@[simp] theorem loadNullSegment_mode (s : State) (g : SegDest) (v : BitVec 16) : (loadNullSegment s g v).mode = s.mode := rfl
@[simp] theorem loadNullSegment_paging (s : State) (g : SegDest) (v : BitVec 16) : (loadNullSegment s g v).paging = s.paging := rfl

/-! ### loadRealSegment -/

@[simp] theorem loadRealSegment_regs (s : State) (g : SegDest) (v : BitVec 16) : (loadRealSegment s g v).regs = s.regs := rfl
@[simp] theorem loadRealSegment_pc (s : State) (g : SegDest) (v : BitVec 16) : (loadRealSegment s g v).pc = s.pc := rfl
@[simp] theorem loadRealSegment_flags (s : State) (g : SegDest) (v : BitVec 16) : (loadRealSegment s g v).flags = s.flags := rfl
@[simp] theorem loadRealSegment_gdtr (s : State) (g : SegDest) (v : BitVec 16) : (loadRealSegment s g v).gdtr = s.gdtr := rfl
@[simp] theorem loadRealSegment_ldtr (s : State) (g : SegDest) (v : BitVec 16) : (loadRealSegment s g v).ldtr = s.ldtr := rfl
@[simp] theorem loadRealSegment_idtr (s : State) (g : SegDest) (v : BitVec 16) : (loadRealSegment s g v).idtr = s.idtr := rfl
@[simp] theorem loadRealSegment_task (s : State) (g : SegDest) (v : BitVec 16) : (loadRealSegment s g v).task = s.task := rfl
@[simp] theorem loadRealSegment_cr0 (s : State) (g : SegDest) (v : BitVec 16) : (loadRealSegment s g v).cr0 = s.cr0 := rfl
@[simp] theorem loadRealSegment_cr2 (s : State) (g : SegDest) (v : BitVec 16) : (loadRealSegment s g v).cr2 = s.cr2 := rfl
@[simp] theorem loadRealSegment_cr3 (s : State) (g : SegDest) (v : BitVec 16) : (loadRealSegment s g v).cr3 = s.cr3 := rfl
@[simp] theorem loadRealSegment_dr0 (s : State) (g : SegDest) (v : BitVec 16) : (loadRealSegment s g v).dr0 = s.dr0 := rfl
@[simp] theorem loadRealSegment_dr1 (s : State) (g : SegDest) (v : BitVec 16) : (loadRealSegment s g v).dr1 = s.dr1 := rfl
@[simp] theorem loadRealSegment_dr2 (s : State) (g : SegDest) (v : BitVec 16) : (loadRealSegment s g v).dr2 = s.dr2 := rfl
@[simp] theorem loadRealSegment_dr3 (s : State) (g : SegDest) (v : BitVec 16) : (loadRealSegment s g v).dr3 = s.dr3 := rfl
@[simp] theorem loadRealSegment_dr6 (s : State) (g : SegDest) (v : BitVec 16) : (loadRealSegment s g v).dr6 = s.dr6 := rfl
@[simp] theorem loadRealSegment_dr7 (s : State) (g : SegDest) (v : BitVec 16) : (loadRealSegment s g v).dr7 = s.dr7 := rfl
@[simp] theorem loadRealSegment_tr6 (s : State) (g : SegDest) (v : BitVec 16) : (loadRealSegment s g v).tr6 = s.tr6 := rfl
@[simp] theorem loadRealSegment_tr7 (s : State) (g : SegDest) (v : BitVec 16) : (loadRealSegment s g v).tr7 = s.tr7 := rfl
@[simp] theorem loadRealSegment_inhibit (s : State) (g : SegDest) (v : BitVec 16) : (loadRealSegment s g v).inhibit = s.inhibit := rfl
@[simp] theorem loadRealSegment_mem (s : State) (g : SegDest) (v : BitVec 16) : (loadRealSegment s g v).mem = s.mem := rfl
@[simp] theorem loadRealSegment_draws (s : State) (g : SegDest) (v : BitVec 16) : (loadRealSegment s g v).draws = s.draws := rfl
@[simp] theorem loadRealSegment_tlbTested (s : State) (g : SegDest) (v : BitVec 16) : (loadRealSegment s g v).tlbTested = s.tlbTested := rfl
@[simp] theorem loadRealSegment_code (s : State) (g : SegDest) (v : BitVec 16) : (loadRealSegment s g v).code = s.code := rfl
@[simp] theorem loadRealSegment_mode (s : State) (g : SegDest) (v : BitVec 16) : (loadRealSegment s g v).mode = s.mode := rfl
@[simp] theorem loadRealSegment_paging (s : State) (g : SegDest) (v : BitVec 16) : (loadRealSegment s g v).paging = s.paging := rfl

/-! ### The cells a special-register write changes -/

@[simp] theorem State.setCtrl_ctrl (s : State) (c : CtrlReg) (v : Word) : (s.setCtrl c v).ctrl c = v := by cases c <;> rfl

theorem State.setCtrl_ctrl_of_ne (s : State) (c k : CtrlReg) (v : Word) (h : k ≠ c) : (s.setCtrl c v).ctrl k = s.ctrl k := by
  cases c <;> cases k <;> first | rfl | exact absurd rfl h

@[simp] theorem State.setBreakAddr_breakAddr (s : State) (c : BreakReg) (v : Word) :
    (s.setBreakAddr c v).breakAddr c = v := by cases c <;> rfl

theorem State.setBreakAddr_breakAddr_of_ne (s : State) (c k : BreakReg) (v : Word) (h : k ≠ c) :
    (s.setBreakAddr c v).breakAddr k = s.breakAddr k := by
  cases c <;> cases k <;> first | rfl | exact absurd rfl h

@[simp] theorem State.setDebug_debug (s : State) (c : DebugReg) (v : Word) : (s.setDebug c v).debug c = v := by cases c <;> rfl

theorem State.setDebug_debug_of_ne (s : State) (c k : DebugReg) (v : Word) (h : k ≠ c) :
    (s.setDebug c v).debug k = s.debug k := by
  cases c <;> cases k <;> first | rfl | exact absurd rfl h

@[simp] theorem State.setTest_test (s : State) (c : TestReg) (v : Word) : (s.setTest c v).test c = v := by cases c <;> rfl

theorem State.setTest_test_of_ne (s : State) (c k : TestReg) (v : Word) (h : k ≠ c) : (s.setTest c v).test k = s.test k := by
  cases c <;> cases k <;> first | rfl | exact absurd rfl h

/-! ### Register files -/

@[simp] theorem Regs.get_set_same (x : Regs) (r : Reg) (v : Word) : (x.set r v).get r = v := by cases r <;> rfl

theorem Regs.get_set_of_ne (x : Regs) (r q : Reg) (v : Word) (h : q ≠ r) : (x.set r v).get q = x.get q := by
  cases r <;> cases q <;> first | rfl | exact absurd rfl h

theorem Regs.get_set16_of_ne (x : Regs) (r q : Reg) (v : BitVec 16) (h : q ≠ r) : (x.set16 r v).get q = x.get q :=
  Regs.get_set_of_ne x r q _ h

theorem Regs.get_set8_of_ne (x : Regs) (r : Reg8) (q : Reg) (v : BitVec 8) (h : q ≠ byteHome r) :
    (x.set8 r v).get q = x.get q := by
  unfold Regs.set8; split <;> exact Regs.get_set_of_ne x _ q _ h

/-! ### Segment registers -/

@[simp] theorem Segments.get_set_same (x : Segments) (g : SegDest) (v : Segment) : (x.set g v).get g.toSegReg = v := by
  cases g <;> rfl

theorem Segments.get_set_of_ne (x : Segments) (g : SegDest) (k : SegReg) (v : Segment) (h : k ≠ g.toSegReg) :
    (x.set g v).get k = x.get k := by
  cases g <;> cases k <;> first | rfl | exact absurd rfl h

@[simp] theorem Segments.set_cs (x : Segments) (g : SegDest) (v : Segment) : (x.set g v).cs = x.cs := by cases g <;> rfl

end Sys2Proof.Machine
end

