-- ==== Sys2Proof/Laws/Exec.lean ====
section
/-!
SUPPORT. How an instruction ends, and for each constructor what it can do where it answers a next state: one inversion lemma
per meaning (00_scope.md R7), which later proofs cite instead of unfolding the meaning.
-/

namespace Sys2Proof.Machine

/-! ### Completing (R24, R37, R123) -/

@[simp] theorem retireWith_ok (h : Bool) (i : Instr) (s t : State) :
    retireWith h i s (.ok t) = .next (t.advance s.defaultSize (i.length s.defaultSize) h) := rfl

theorem retireWith_eq_next {h : Bool} {i : Instr} {s t : State} {r : Except Stop State} :
    retireWith h i s r = .next t ↔ ∃ u, r = .ok u ∧ t = u.advance s.defaultSize (i.length s.defaultSize) h := by
  cases r with
  | ok u => simp [retireWith, eq_comm]
  | error e => cases e <;> simp [retireWith, Stop.outcome]

theorem retireWith_eq_fault {h : Bool} {i : Instr} {s : State} {r : Except Stop State} {f : Fault} :
    retireWith h i s r = .fault f ↔ r = .error (.fault f) := by
  cases r with
  | ok u => simp [retireWith]
  | error e => cases e <;> simp [retireWith, Stop.outcome]

theorem retireWith_eq_refused {h : Bool} {i : Instr} {s : State} {r : Except Stop State} {f : Refusal} :
    retireWith h i s r = .refused f ↔ r = .error (.refuse f) := by
  cases r with
  | ok u => simp [retireWith]
  | error e => cases e <;> simp [retireWith, Stop.outcome]

/-- Completing a state whose pc the instruction has not touched. -/
theorem advance_eq_pastLatch {s t : State} (i : Instr) (h : Bool) (hp : t.pc = s.pc) :
    t.advance s.defaultSize (i.length s.defaultSize) h = t.pastLatch s i h := by
  simp [State.advance, State.pastLatch, hp]

theorem advance_eq_past {s t : State} (i : Instr) (hp : t.pc = s.pc) :
    t.advance s.defaultSize (i.length s.defaultSize) false = t.past s i := by
  simp [State.advance, State.past, hp]

/-! ### MOVS and the loads of a segment register -/

/-- What one moved element leaves: memory at the destination's bytes and the two index registers (R230). -/
theorem movsStep_ok {a : Attr} {w : Nat} {s u : State} (h : movsStep a w s = .ok u) :
    ∃ v ps, segRead s w (stringSource a) (indexRead a.adsize s.regs .esi) = .ok v
      ∧ s.storeAt .es (indexRead a.adsize s.regs .edi) (w / 8) = .ok ps ∧ ps.any s.code.contains = false
      ∧ u = { s with
          mem := Memory.writeBytes s.mem ps (toBytes (w / 8) v.toNat)
          regs := advanceIndexes a.adsize (stringDelta s w) s.regs } := by
  simp only [movsStep, except_bind_ok, Except.ok.injEq] at h
  obtain ⟨v, h1, t, h2, rfl⟩ := h
  obtain ⟨_, ps, h3, h4, rfl⟩ := segWrite_ok h2
  exact ⟨v, ps, h1, h3, h4, rfl⟩

/-- One iteration of REP MOVS: a count of 0, the last element, or an element that is not the last (R236). -/
theorem repStep_next {i : Instr} {a : Attr} {w : Nat} {s t : State} (h : repStep i a w s = .next t) :
    (indexRead a.adsize s.regs .ecx = 0#32 ∧ t = s.advance s.defaultSize (i.length s.defaultSize) false)
      ∨ (indexRead a.adsize s.regs .ecx ≠ 0#32 ∧ ∃ u, movsStep a w s = .ok u
        ∧ ((indexRead a.adsize (countDown a.adsize u.regs) .ecx = 0#32
            ∧ t = ({ u with regs := countDown a.adsize u.regs } : State).advance s.defaultSize (i.length s.defaultSize) false)
          ∨ (indexRead a.adsize (countDown a.adsize u.regs) .ecx ≠ 0#32
            ∧ t = { u with regs := countDown a.adsize u.regs }))) := by
  unfold repStep at h
  split at h
  · rename_i hc
    obtain ⟨u, h1, rfl⟩ := retireWith_eq_next.1 h
    cases h1
    exact .inl ⟨hc, rfl⟩
  · rename_i hc
    refine .inr ⟨hc, ?_⟩
    split at h
    · rename_i e _
      cases e <;> exact nomatch h
    · rename_i u hu
      refine ⟨u, hu, ?_⟩
      split at h
      · rename_i hz
        obtain ⟨u', h1, rfl⟩ := retireWith_eq_next.1 h
        cases h1
        exact .inl ⟨hz, rfl⟩
      · rename_i hz
        cases h
        exact .inr ⟨hz, rfl⟩

/-- What the load itself leaves: the segment register, and the Accessed bit where it was 0 (R81, R173, R174). -/
theorem commitLoad_ok {s u : State} {g : SegDest} {sel : BitVec 16} {d : BitVec 64} (h : commitLoad s g sel d = .ok u) :
    (d.getLsbD 40 = true ∧ u = { s with segs := s.segs.set g (loadedSegment sel d) })
      ∨ (d.getLsbD 40 = false ∧ ∃ ps, translateRun s true false (entryAddress s sel + 5#32) 1 = .ok ps
        ∧ ps.any s.code.contains = false
        ∧ u = { s with
            segs := s.segs.set g (loadedSegment sel d)
            mem := Memory.writeBytes s.mem ps [descriptorAr d ||| 0x01#8] }) := by
  simp only [commitLoad, Config.setAccessed, Bool.true_and] at h
  split at h
  · rename_i hd
    simp only [except_bind_ok, Except.ok.injEq] at h
    obtain ⟨t, h1, rfl⟩ := h
    obtain ⟨ps, h2, h3, rfl⟩ := linWrite_ok h1
    refine .inr ⟨by simpa only [Bool.not_eq_true'] using hd, ps, h2, h3, ?_⟩
    simp only [Nat.reduceDiv, toBytes_one]
  · rename_i hd
    cases h
    exact .inl ⟨by simpa only [Bool.not_eq_true', Bool.not_eq_false] using hd, rfl⟩

theorem readDescriptor_ok {s : State} {sel : BitVec 16} {d : BitVec 64} (h : readDescriptor s sel = .ok d) :
    indexInTable s sel = true ∧ linRead s 64 (entryAddress s sel) false = .ok d := by
  unfold readDescriptor at h
  split at h
  · exact ⟨‹_›, h⟩
  · exact nomatch h

/-- A load of SS that succeeds passed every check of the listing (R173). -/
theorem loadStackSegment_ok {s u : State} {sel : BitVec 16} (h : loadStackSegment s sel = .ok u) :
    selectorNull sel = false ∧ ∃ d, readDescriptor s sel = .ok d ∧ selectorRpl sel = s.cpl
      ∧ arWritableData (descriptorAr d) = true ∧ arDpl (descriptorAr d) = s.cpl ∧ arPresent (descriptorAr d) = true
      ∧ commitLoad s .ss sel d = .ok u := by
  unfold loadStackSegment at h
  split at h
  · exact nomatch h
  · rename_i hn
    refine ⟨by simpa using hn, ?_⟩
    obtain ⟨d, h1, h2⟩ := except_bind_ok.1 h
    refine ⟨d, h1, ?_⟩
    split at h2
    · exact nomatch h2
    · rename_i h3
      split at h2
      · exact nomatch h2
      · rename_i h4
        split at h2
        · exact nomatch h2
        · rename_i h5
          split at h2
          · exact nomatch h2
          · rename_i h6
            exact ⟨by simpa using h3, by simpa using h4, by simpa using h5, by simpa using h6, h2⟩

/-- A load of DS, ES, FS or GS that succeeds passed every check of the listing (R174). -/
theorem loadDataSegment_ok {s u : State} {g : SegDest} {sel : BitVec 16} (h : loadDataSegment s g sel = .ok u) :
    ∃ d, readDescriptor s sel = .ok d ∧ arDataOrReadableCode (descriptorAr d) = true
      ∧ ¬(arDataOrNonconforming (descriptorAr d) = true
        ∧ ¬(selectorRpl sel ≤ arDpl (descriptorAr d) ∧ s.cpl ≤ arDpl (descriptorAr d)))
      ∧ arPresent (descriptorAr d) = true ∧ commitLoad s g sel d = .ok u := by
  obtain ⟨d, h1, h2⟩ := except_bind_ok.1 h
  refine ⟨d, h1, ?_⟩
  split at h2
  · exact nomatch h2
  · rename_i h3
    split at h2
    · exact nomatch h2
    · rename_i h4
      split at h2
      · exact nomatch h2
      · rename_i h5
        exact ⟨by simpa using h3, h4, by simpa using h5, h2⟩

/-- Every load of a segment register that succeeds: outside Protected Mode, a null selector, SS, or one of the others (R172). -/
theorem loadSegment_ok {s u : State} {g : SegDest} {sel : BitVec 16} (h : loadSegment s g sel = .ok u) :
    (s.mode ≠ .prot ∧ u = loadRealSegment s g sel)
      ∨ (s.mode = .prot ∧ g ≠ .ss ∧ selectorNull sel = true ∧ u = loadNullSegment s g sel)
      ∨ (s.mode = .prot ∧ g = .ss ∧ loadStackSegment s sel = .ok u)
      ∨ (s.mode = .prot ∧ g ≠ .ss ∧ selectorNull sel = false ∧ loadDataSegment s g sel = .ok u) := by
  unfold loadSegment at h
  cases hm : s.mode with
  | real => rw [hm] at h; cases h; exact .inl ⟨by simp, rfl⟩
  | v86 => rw [hm] at h; cases h; exact .inl ⟨by simp, rfl⟩
  | prot =>
    simp only [hm] at h
    split at h
    · rename_i hg; exact .inr (.inr (.inl ⟨rfl, hg, h⟩))
    · rename_i hg
      split at h
      · rename_i hn; cases h; exact .inr (.inl ⟨rfl, hg, hn, rfl⟩)
      · rename_i hn; exact .inr (.inr (.inr ⟨rfl, hg, by simpa using hn, h⟩))

/-- A load of a segment register that succeeds changes that register, and memory at most in the byte of an Accessed bit. -/
theorem loadSegment_frame {s u : State} {g : SegDest} {sel : BitVec 16} (h : loadSegment s g sel = .ok u) :
    ∃ ps bs x, accessedAt s sel = .ok ps ∧ ps.any s.code.contains = false ∧ (ps = [] → bs = [])
      ∧ u = { s with segs := s.segs.set g x, mem := Memory.writeBytes s.mem ps bs } := by
  have commit : ∀ d, s.mode = .prot → selectorNull sel = false → readDescriptor s sel = .ok d → commitLoad s g sel d = .ok u →
      ∃ ps bs x, accessedAt s sel = .ok ps ∧ ps.any s.code.contains = false ∧ (ps = [] → bs = [])
        ∧ u = { s with segs := s.segs.set g x, mem := Memory.writeBytes s.mem ps bs } := by
    intro d hm hn hd hc
    rcases commitLoad_ok hc with ⟨h1, rfl⟩ | ⟨h1, ps, h2, h3, rfl⟩
    · refine ⟨[], [], _, ?_, rfl, fun _ => rfl, rfl⟩
      simp [accessedAt, hm, hn, hd, h1]
    · refine ⟨ps, _, _, ?_, h3, fun e => ?_, rfl⟩
      · simp only [accessedAt, hm, hn, and_self, if_true, hd, except_ok_bind, h1, Bool.false_eq_true, if_false, h2]
      · have := translateRun_length h2
        simp [e] at this
  rcases loadSegment_ok h with ⟨h1, rfl⟩ | ⟨h1, h2, h3, rfl⟩ | ⟨h1, rfl, h3⟩ | ⟨h1, h2, h3, h4⟩
  · exact ⟨[], [], _, by simp [accessedAt, h1], rfl, fun _ => rfl, rfl⟩
  · exact ⟨[], [], _, by simp [accessedAt, h3], rfl, fun _ => rfl, rfl⟩
  · obtain ⟨h4, d, h5, _, _, _, _, h6⟩ := loadStackSegment_ok h3
    exact commit d h1 h4 h5 h6
  · obtain ⟨d, h5, _, _, _, h6⟩ := loadDataSegment_ok h4
    exact commit d h1 h3 h5 h6

/-! ### Stores to an `r/m` operand -/

/-- What a write of an `r/m8` operand can do. -/
theorem writeRm8_ok {a : Attr} {s u : State} {v : BitVec 8} {o : Rm Reg8} (h : writeRm8 a s v o = .ok u) :
    (∃ r, o = .reg r ∧ u = s.setReg8 r v)
      ∨ ∃ m ps, o = .mem m ∧ rmStoreAt s a o 1 = .ok ps ∧ ps.any s.code.contains = false
        ∧ u = { s with mem := Memory.writeBytes s.mem ps (toBytes 1 v.toNat) } := by
  cases o with
  | reg r => cases h; exact .inl ⟨r, rfl, rfl⟩
  | mem m =>
    obtain ⟨_, ps, h1, h2, h3⟩ := segWrite_ok h
    exact .inr ⟨m, ps, rfl, h1, h2, h3⟩

/-- What a write of an `r/m16` operand can do. -/
theorem writeRm16_ok {a : Attr} {s u : State} {v : BitVec 16} {o : Rm Reg} (h : writeRm16 a s v o = .ok u) :
    (∃ r, o = .reg r ∧ u = s.setReg16 r v)
      ∨ ∃ m ps, o = .mem m ∧ rmStoreAt s a o 2 = .ok ps ∧ ps.any s.code.contains = false
        ∧ u = { s with mem := Memory.writeBytes s.mem ps (toBytes 2 v.toNat) } := by
  cases o with
  | reg r => cases h; exact .inl ⟨r, rfl, rfl⟩
  | mem m =>
    obtain ⟨_, ps, h1, h2, h3⟩ := segWrite_ok h
    exact .inr ⟨m, ps, rfl, h1, h2, h3⟩

/-- What a write of an `r/m32` operand can do. -/
theorem writeRm32_ok {a : Attr} {s u : State} {v : BitVec 32} {o : Rm Reg} (h : writeRm32 a s v o = .ok u) :
    (∃ r, o = .reg r ∧ u = s.setReg r v)
      ∨ ∃ m ps, o = .mem m ∧ rmStoreAt s a o 4 = .ok ps ∧ ps.any s.code.contains = false
        ∧ u = { s with mem := Memory.writeBytes s.mem ps (toBytes 4 v.toNat) } := by
  cases o with
  | reg r => cases h; exact .inl ⟨r, rfl, rfl⟩
  | mem m =>
    obtain ⟨_, ps, h1, h2, h3⟩ := segWrite_ok h
    exact .inr ⟨m, ps, rfl, h1, h2, h3⟩

/-! ### One inversion lemma per meaning -/

theorem movRm8R8_next {a : Attr} {dst : Rm Reg8} {src : Reg8} {s t : State} (h : exec (.movRm8R8 a dst src) s = .next t) :
    ∃ u, writeRm8 a s (s.regs.get8 src) dst = .ok u ∧ t = u.advance s.defaultSize (Instr.length s.defaultSize (.movRm8R8 a dst src)) false := by
  exact retireWith_eq_next.1 h


theorem movRm16R16_next {a : Attr} {dst : Rm Reg} {src : Reg} {s t : State} (h : exec (.movRm16R16 a dst src) s = .next t) :
    ∃ u, writeRm16 a s (s.regs.get16 src) dst = .ok u ∧ t = u.advance s.defaultSize (Instr.length s.defaultSize (.movRm16R16 a dst src)) false := by
  exact retireWith_eq_next.1 h


theorem movRm32R32_next {a : Attr} {dst : Rm Reg} {src : Reg} {s t : State} (h : exec (.movRm32R32 a dst src) s = .next t) :
    ∃ u, writeRm32 a s (s.regs.get src) dst = .ok u ∧ t = u.advance s.defaultSize (Instr.length s.defaultSize (.movRm32R32 a dst src)) false := by
  exact retireWith_eq_next.1 h


theorem movR8Rm8_next {a : Attr} {dst : Reg8} {src : Rm Reg8} {s t : State} (h : exec (.movR8Rm8 a dst src) s = .next t) :
    ∃ v, readRm8 a s src = .ok v ∧ t = (s.setReg8 dst v).advance s.defaultSize (Instr.length s.defaultSize (.movR8Rm8 a dst src)) false := by
  obtain ⟨u, h1, rfl⟩ := retireWith_eq_next.1 h
  simp only [except_bind_ok, Except.ok.injEq] at h1
  obtain ⟨v, h2, rfl⟩ := h1
  exact ⟨v, h2, rfl⟩


theorem movR16Rm16_next {a : Attr} {dst : Reg} {src : Rm Reg} {s t : State} (h : exec (.movR16Rm16 a dst src) s = .next t) :
    ∃ v, readRm16 a s src = .ok v ∧ t = (s.setReg16 dst v).advance s.defaultSize (Instr.length s.defaultSize (.movR16Rm16 a dst src)) false := by
  obtain ⟨u, h1, rfl⟩ := retireWith_eq_next.1 h
  simp only [except_bind_ok, Except.ok.injEq] at h1
  obtain ⟨v, h2, rfl⟩ := h1
  exact ⟨v, h2, rfl⟩


theorem movR32Rm32_next {a : Attr} {dst : Reg} {src : Rm Reg} {s t : State} (h : exec (.movR32Rm32 a dst src) s = .next t) :
    ∃ v, readRm32 a s src = .ok v ∧ t = (s.setReg dst v).advance s.defaultSize (Instr.length s.defaultSize (.movR32Rm32 a dst src)) false := by
  obtain ⟨u, h1, rfl⟩ := retireWith_eq_next.1 h
  simp only [except_bind_ok, Except.ok.injEq] at h1
  obtain ⟨v, h2, rfl⟩ := h1
  exact ⟨v, h2, rfl⟩


theorem movRm16Sreg_next {a : Attr} {dst : Rm Reg} {src : SegReg} {s t : State} (h : exec (.movRm16Sreg a dst src) s = .next t) :
    ∃ u, t = u.advance s.defaultSize (Instr.length s.defaultSize (.movRm16Sreg a dst src)) false
      ∧ ((∃ r, dst = .reg r ∧ a.opsize = .w32 ∧ u = setRegSelector s r (s.segs.get src).sel)
        ∨ (((∃ m, dst = .mem m) ∨ a.opsize = .w16) ∧ writeRm16 a s (s.segs.get src).sel dst = .ok u)) := by
  obtain ⟨u, h1, rfl⟩ := retireWith_eq_next.1 h
  refine ⟨u, rfl, ?_⟩
  split at h1
  · rename_i r hz
    cases h1
    exact .inl ⟨r, rfl, hz, rfl⟩
  · rename_i r hz
    exact .inr ⟨.inr hz, h1⟩
  · rename_i m
    exact .inr ⟨.inl ⟨m, rfl⟩, h1⟩


theorem movSregRm16_next {a : Attr} {dst : SegDest} {src : Rm Reg} {s t : State} (h : exec (.movSregRm16 a dst src) s = .next t) :
    ∃ sel u, readRm16 a s src = .ok sel ∧ loadSegment s dst sel = .ok u ∧ t = u.advance s.defaultSize (Instr.length s.defaultSize (.movSregRm16 a dst src)) (dst == .ss) := by
  obtain ⟨u, h1, rfl⟩ := retireWith_eq_next.1 h
  simp only [except_bind_ok] at h1
  obtain ⟨sel, h2, h3⟩ := h1
  exact ⟨sel, u, h2, h3, rfl⟩


theorem movAlMoffs8_next {a : Attr} {off : Word} {s t : State} (h : exec (.movAlMoffs8 a off) s = .next t) :
    ∃ v, segRead s 8 (moffsSegment a) off = .ok v ∧ t = (s.setReg8 .al v).advance s.defaultSize (Instr.length s.defaultSize (.movAlMoffs8 a off)) false := by
  obtain ⟨u, h1, rfl⟩ := retireWith_eq_next.1 h
  simp only [except_bind_ok, Except.ok.injEq] at h1
  obtain ⟨v, h2, rfl⟩ := h1
  exact ⟨v, h2, rfl⟩


theorem movAxMoffs16_next {a : Attr} {off : Word} {s t : State} (h : exec (.movAxMoffs16 a off) s = .next t) :
    ∃ v, segRead s 16 (moffsSegment a) off = .ok v ∧ t = (s.setReg16 .eax v).advance s.defaultSize (Instr.length s.defaultSize (.movAxMoffs16 a off)) false := by
  obtain ⟨u, h1, rfl⟩ := retireWith_eq_next.1 h
  simp only [except_bind_ok, Except.ok.injEq] at h1
  obtain ⟨v, h2, rfl⟩ := h1
  exact ⟨v, h2, rfl⟩


theorem movEaxMoffs32_next {a : Attr} {off : Word} {s t : State} (h : exec (.movEaxMoffs32 a off) s = .next t) :
    ∃ v, segRead s 32 (moffsSegment a) off = .ok v ∧ t = (s.setReg .eax v).advance s.defaultSize (Instr.length s.defaultSize (.movEaxMoffs32 a off)) false := by
  obtain ⟨u, h1, rfl⟩ := retireWith_eq_next.1 h
  simp only [except_bind_ok, Except.ok.injEq] at h1
  obtain ⟨v, h2, rfl⟩ := h1
  exact ⟨v, h2, rfl⟩


theorem movMoffs8Al_next {a : Attr} {off : Word} {s t : State} (h : exec (.movMoffs8Al a off) s = .next t) :
    ∃ u, segWrite s 8 (moffsSegment a) off (s.regs.get8 .al) = .ok u ∧ t = u.advance s.defaultSize (Instr.length s.defaultSize (.movMoffs8Al a off)) false := by
  exact retireWith_eq_next.1 h


theorem movMoffs16Ax_next {a : Attr} {off : Word} {s t : State} (h : exec (.movMoffs16Ax a off) s = .next t) :
    ∃ u, segWrite s 16 (moffsSegment a) off (s.regs.get16 .eax) = .ok u ∧ t = u.advance s.defaultSize (Instr.length s.defaultSize (.movMoffs16Ax a off)) false := by
  exact retireWith_eq_next.1 h


theorem movMoffs32Eax_next {a : Attr} {off : Word} {s t : State} (h : exec (.movMoffs32Eax a off) s = .next t) :
    ∃ u, segWrite s 32 (moffsSegment a) off (s.regs.get .eax) = .ok u ∧ t = u.advance s.defaultSize (Instr.length s.defaultSize (.movMoffs32Eax a off)) false := by
  exact retireWith_eq_next.1 h


theorem movReg8Imm8_next {a : Attr} {dst : Reg8} {imm : BitVec 8} {s t : State} (h : exec (.movReg8Imm8 a dst imm) s = .next t) :
    t = (s.setReg8 dst imm).advance s.defaultSize (Instr.length s.defaultSize (.movReg8Imm8 a dst imm)) false := by
  exact (Host.Outcome.next.inj h).symm


theorem movReg16Imm16_next {a : Attr} {dst : Reg} {imm : BitVec 16} {s t : State} (h : exec (.movReg16Imm16 a dst imm) s = .next t) :
    t = (s.setReg16 dst imm).advance s.defaultSize (Instr.length s.defaultSize (.movReg16Imm16 a dst imm)) false := by
  exact (Host.Outcome.next.inj h).symm


theorem movReg32Imm32_next {a : Attr} {dst : Reg} {imm : BitVec 32} {s t : State} (h : exec (.movReg32Imm32 a dst imm) s = .next t) :
    t = (s.setReg dst imm).advance s.defaultSize (Instr.length s.defaultSize (.movReg32Imm32 a dst imm)) false := by
  exact (Host.Outcome.next.inj h).symm


theorem movRm8Imm8_next {a : Attr} {dst : Rm Reg8} {imm : BitVec 8} {s t : State} (h : exec (.movRm8Imm8 a dst imm) s = .next t) :
    ∃ u, writeRm8 a s imm dst = .ok u ∧ t = u.advance s.defaultSize (Instr.length s.defaultSize (.movRm8Imm8 a dst imm)) false := by
  exact retireWith_eq_next.1 h


theorem movRm16Imm16_next {a : Attr} {dst : Rm Reg} {imm : BitVec 16} {s t : State} (h : exec (.movRm16Imm16 a dst imm) s = .next t) :
    ∃ u, writeRm16 a s imm dst = .ok u ∧ t = u.advance s.defaultSize (Instr.length s.defaultSize (.movRm16Imm16 a dst imm)) false := by
  exact retireWith_eq_next.1 h


theorem movRm32Imm32_next {a : Attr} {dst : Rm Reg} {imm : BitVec 32} {s t : State} (h : exec (.movRm32Imm32 a dst imm) s = .next t) :
    ∃ u, writeRm32 a s imm dst = .ok u ∧ t = u.advance s.defaultSize (Instr.length s.defaultSize (.movRm32Imm32 a dst imm)) false := by
  exact retireWith_eq_next.1 h


theorem movR32Cr_next {a : Attr} {dst : Reg} {src : CtrlReg} {s t : State} (h : exec (.movR32Cr a dst src) s = .next t) :
    privCheck s = .ok ()
      ∧ t = (undefFlags6 (s.setRegDrawn dst
          (withReserved (ctrlDefined src) (s.ctrl src) (Config.anyWord s.draws)))).advance s.defaultSize (Instr.length s.defaultSize (.movR32Cr a dst src)) false := by
  obtain ⟨u, h1, rfl⟩ := retireWith_eq_next.1 h
  simp only [except_bind_ok, Except.ok.injEq] at h1
  obtain ⟨_, h2, rfl⟩ := h1
  exact ⟨h2, rfl⟩


theorem movCrR32_next {a : Attr} {dst : CtrlReg} {src : Reg} {s t : State} (h : exec (.movCrR32 a dst src) s = .next t) :
    privCheck s = .ok () ∧ t = (undefFlags6 (s.setCtrl dst (s.regs.get src))).advance s.defaultSize (Instr.length s.defaultSize (.movCrR32 a dst src)) false := by
  obtain ⟨u, h1, rfl⟩ := retireWith_eq_next.1 h
  simp only [except_bind_ok, Except.ok.injEq] at h1
  obtain ⟨_, h2, rfl⟩ := h1
  exact ⟨h2, rfl⟩


theorem movR32Dr03_next {a : Attr} {dst : Reg} {src : BreakReg} {s t : State} (h : exec (.movR32Dr03 a dst src) s = .next t) :
    privCheck s = .ok () ∧ t = (undefFlags6 (s.setReg dst (s.breakAddr src))).advance s.defaultSize (Instr.length s.defaultSize (.movR32Dr03 a dst src)) false := by
  obtain ⟨u, h1, rfl⟩ := retireWith_eq_next.1 h
  simp only [except_bind_ok, Except.ok.injEq] at h1
  obtain ⟨_, h2, rfl⟩ := h1
  exact ⟨h2, rfl⟩


theorem movR32Dr67_next {a : Attr} {dst : Reg} {src : DebugReg} {s t : State} (h : exec (.movR32Dr67 a dst src) s = .next t) :
    privCheck s = .ok ()
      ∧ t = (undefFlags6 (s.setRegDrawn dst
          (withReserved (debugDefined src) (s.debug src) (Config.anyWord s.draws)))).advance s.defaultSize (Instr.length s.defaultSize (.movR32Dr67 a dst src)) false := by
  obtain ⟨u, h1, rfl⟩ := retireWith_eq_next.1 h
  simp only [except_bind_ok, Except.ok.injEq] at h1
  obtain ⟨_, h2, rfl⟩ := h1
  exact ⟨h2, rfl⟩


theorem movDr03R32_next {a : Attr} {dst : BreakReg} {src : Reg} {s t : State} (h : exec (.movDr03R32 a dst src) s = .next t) :
    privCheck s = .ok () ∧ t = (undefFlags6 (s.setBreakAddr dst (s.regs.get src))).advance s.defaultSize (Instr.length s.defaultSize (.movDr03R32 a dst src)) false := by
  obtain ⟨u, h1, rfl⟩ := retireWith_eq_next.1 h
  simp only [except_bind_ok, Except.ok.injEq] at h1
  obtain ⟨_, h2, rfl⟩ := h1
  exact ⟨h2, rfl⟩


theorem movDr67R32_next {a : Attr} {dst : DebugReg} {src : Reg} {s t : State} (h : exec (.movDr67R32 a dst src) s = .next t) :
    privCheck s = .ok () ∧ armsBreakpoint dst (s.regs.get src) = false
      ∧ t = (undefFlags6 (s.setDebug dst (s.regs.get src))).advance s.defaultSize (Instr.length s.defaultSize (.movDr67R32 a dst src)) false := by
  obtain ⟨u, h1, rfl⟩ := retireWith_eq_next.1 h
  simp only [except_bind_ok] at h1
  obtain ⟨_, h2, h3⟩ := h1
  split at h3
  · exact nomatch h3
  · rename_i hc
    cases h3
    exact ⟨h2, by simpa only [Bool.not_eq_true] using hc, rfl⟩


theorem movR32Tr_next {a : Attr} {dst : Reg} {src : TestReg} {s t : State} (h : exec (.movR32Tr a dst src) s = .next t) :
    privCheck s = .ok () ∧ t = (undefFlags6 (s.setRegDrawn dst (testRead s src))).advance s.defaultSize (Instr.length s.defaultSize (.movR32Tr a dst src)) false := by
  obtain ⟨u, h1, rfl⟩ := retireWith_eq_next.1 h
  simp only [except_bind_ok, Except.ok.injEq] at h1
  obtain ⟨_, h2, rfl⟩ := h1
  exact ⟨h2, rfl⟩


theorem movTrR32_next {a : Attr} {dst : TestReg} {src : Reg} {s t : State} (h : exec (.movTrR32 a dst src) s = .next t) :
    privCheck s = .ok () ∧ (dst == .tr6 && s.pg) = false
      ∧ t = (undefFlags6 (s.setTest dst (s.regs.get src))).advance s.defaultSize (Instr.length s.defaultSize (.movTrR32 a dst src)) false := by
  obtain ⟨u, h1, rfl⟩ := retireWith_eq_next.1 h
  simp only [except_bind_ok] at h1
  obtain ⟨_, h2, h3⟩ := h1
  split at h3
  · exact nomatch h3
  · rename_i hc
    cases h3
    exact ⟨h2, by simpa only [Bool.not_eq_true] using hc, rfl⟩


theorem movs8_next {a : Attr} {s t : State} (h : exec (.movs8 a) s = .next t) :
    ∃ u, movsStep a 8 s = .ok u ∧ t = u.advance s.defaultSize (Instr.length s.defaultSize (.movs8 a)) false := by
  exact retireWith_eq_next.1 h


theorem movs16_next {a : Attr} {s t : State} (h : exec (.movs16 a) s = .next t) :
    ∃ u, movsStep a 16 s = .ok u ∧ t = u.advance s.defaultSize (Instr.length s.defaultSize (.movs16 a)) false := by
  exact retireWith_eq_next.1 h


theorem movs32_next {a : Attr} {s t : State} (h : exec (.movs32 a) s = .next t) :
    ∃ u, movsStep a 32 s = .ok u ∧ t = u.advance s.defaultSize (Instr.length s.defaultSize (.movs32 a)) false := by
  exact retireWith_eq_next.1 h


theorem repMovs8_next {a : Attr} {s t : State} (h : exec (.repMovs8 a) s = .next t) :
    (indexRead a.adsize s.regs .ecx = 0#32 ∧ t = s.advance s.defaultSize (Instr.length s.defaultSize (.repMovs8 a)) false)
      ∨ (indexRead a.adsize s.regs .ecx ≠ 0#32 ∧ ∃ u, movsStep a 8 s = .ok u
        ∧ ((indexRead a.adsize (countDown a.adsize u.regs) .ecx = 0#32
            ∧ t = ({ u with regs := countDown a.adsize u.regs } : State).advance s.defaultSize (Instr.length s.defaultSize (.repMovs8 a)) false)
          ∨ (indexRead a.adsize (countDown a.adsize u.regs) .ecx ≠ 0#32
            ∧ t = { u with regs := countDown a.adsize u.regs }))) := by
  exact repStep_next h


theorem repMovs16_next {a : Attr} {s t : State} (h : exec (.repMovs16 a) s = .next t) :
    (indexRead a.adsize s.regs .ecx = 0#32 ∧ t = s.advance s.defaultSize (Instr.length s.defaultSize (.repMovs16 a)) false)
      ∨ (indexRead a.adsize s.regs .ecx ≠ 0#32 ∧ ∃ u, movsStep a 16 s = .ok u
        ∧ ((indexRead a.adsize (countDown a.adsize u.regs) .ecx = 0#32
            ∧ t = ({ u with regs := countDown a.adsize u.regs } : State).advance s.defaultSize (Instr.length s.defaultSize (.repMovs16 a)) false)
          ∨ (indexRead a.adsize (countDown a.adsize u.regs) .ecx ≠ 0#32
            ∧ t = { u with regs := countDown a.adsize u.regs }))) := by
  exact repStep_next h


theorem repMovs32_next {a : Attr} {s t : State} (h : exec (.repMovs32 a) s = .next t) :
    (indexRead a.adsize s.regs .ecx = 0#32 ∧ t = s.advance s.defaultSize (Instr.length s.defaultSize (.repMovs32 a)) false)
      ∨ (indexRead a.adsize s.regs .ecx ≠ 0#32 ∧ ∃ u, movsStep a 32 s = .ok u
        ∧ ((indexRead a.adsize (countDown a.adsize u.regs) .ecx = 0#32
            ∧ t = ({ u with regs := countDown a.adsize u.regs } : State).advance s.defaultSize (Instr.length s.defaultSize (.repMovs32 a)) false)
          ∨ (indexRead a.adsize (countDown a.adsize u.regs) .ecx ≠ 0#32
            ∧ t = { u with regs := countDown a.adsize u.regs }))) := by
  exact repStep_next h


theorem movsxR16Rm8_next {a : Attr} {dst : Reg} {src : Rm Reg8} {s t : State} (h : exec (.movsxR16Rm8 a dst src) s = .next t) :
    ∃ v, readRm8 a s src = .ok v ∧ t = (s.setReg16 dst (v.signExtend 16)).advance s.defaultSize (Instr.length s.defaultSize (.movsxR16Rm8 a dst src)) false := by
  obtain ⟨u, h1, rfl⟩ := retireWith_eq_next.1 h
  simp only [except_bind_ok, Except.ok.injEq] at h1
  obtain ⟨v, h2, rfl⟩ := h1
  exact ⟨v, h2, rfl⟩


theorem movsxR32Rm8_next {a : Attr} {dst : Reg} {src : Rm Reg8} {s t : State} (h : exec (.movsxR32Rm8 a dst src) s = .next t) :
    ∃ v, readRm8 a s src = .ok v ∧ t = (s.setReg dst (v.signExtend 32)).advance s.defaultSize (Instr.length s.defaultSize (.movsxR32Rm8 a dst src)) false := by
  obtain ⟨u, h1, rfl⟩ := retireWith_eq_next.1 h
  simp only [except_bind_ok, Except.ok.injEq] at h1
  obtain ⟨v, h2, rfl⟩ := h1
  exact ⟨v, h2, rfl⟩


theorem movsxR32Rm16_next {a : Attr} {dst : Reg} {src : Rm Reg} {s t : State} (h : exec (.movsxR32Rm16 a dst src) s = .next t) :
    ∃ v, readRm16 a s src = .ok v ∧ t = (s.setReg dst (v.signExtend 32)).advance s.defaultSize (Instr.length s.defaultSize (.movsxR32Rm16 a dst src)) false := by
  obtain ⟨u, h1, rfl⟩ := retireWith_eq_next.1 h
  simp only [except_bind_ok, Except.ok.injEq] at h1
  obtain ⟨v, h2, rfl⟩ := h1
  exact ⟨v, h2, rfl⟩


theorem movzxR16Rm8_next {a : Attr} {dst : Reg} {src : Rm Reg8} {s t : State} (h : exec (.movzxR16Rm8 a dst src) s = .next t) :
    ∃ v, readRm8 a s src = .ok v ∧ t = (s.setReg16 dst (v.setWidth 16)).advance s.defaultSize (Instr.length s.defaultSize (.movzxR16Rm8 a dst src)) false := by
  obtain ⟨u, h1, rfl⟩ := retireWith_eq_next.1 h
  simp only [except_bind_ok, Except.ok.injEq] at h1
  obtain ⟨v, h2, rfl⟩ := h1
  exact ⟨v, h2, rfl⟩


theorem movzxR32Rm8_next {a : Attr} {dst : Reg} {src : Rm Reg8} {s t : State} (h : exec (.movzxR32Rm8 a dst src) s = .next t) :
    ∃ v, readRm8 a s src = .ok v ∧ t = (s.setReg dst (v.setWidth 32)).advance s.defaultSize (Instr.length s.defaultSize (.movzxR32Rm8 a dst src)) false := by
  obtain ⟨u, h1, rfl⟩ := retireWith_eq_next.1 h
  simp only [except_bind_ok, Except.ok.injEq] at h1
  obtain ⟨v, h2, rfl⟩ := h1
  exact ⟨v, h2, rfl⟩


theorem movzxR32Rm16_next {a : Attr} {dst : Reg} {src : Rm Reg} {s t : State} (h : exec (.movzxR32Rm16 a dst src) s = .next t) :
    ∃ v, readRm16 a s src = .ok v ∧ t = (s.setReg dst (v.setWidth 32)).advance s.defaultSize (Instr.length s.defaultSize (.movzxR32Rm16 a dst src)) false := by
  obtain ⟨u, h1, rfl⟩ := retireWith_eq_next.1 h
  simp only [except_bind_ok, Except.ok.injEq] at h1
  obtain ⟨v, h2, rfl⟩ := h1
  exact ⟨v, h2, rfl⟩


theorem mulRm8_next {a : Attr} {src : Rm Reg8} {s t : State} (h : exec (.mulRm8 a src) s = .next t) :
    ∃ v, readRm8 a s src = .ok v ∧ t = (mulByte s v).advance s.defaultSize (Instr.length s.defaultSize (.mulRm8 a src)) false := by
  obtain ⟨u, h1, rfl⟩ := retireWith_eq_next.1 h
  simp only [except_bind_ok, Except.ok.injEq] at h1
  obtain ⟨v, h2, rfl⟩ := h1
  exact ⟨v, h2, rfl⟩


theorem mulRm16_next {a : Attr} {src : Rm Reg} {s t : State} (h : exec (.mulRm16 a src) s = .next t) :
    ∃ v, readRm16 a s src = .ok v ∧ t = (mulHalf s v).advance s.defaultSize (Instr.length s.defaultSize (.mulRm16 a src)) false := by
  obtain ⟨u, h1, rfl⟩ := retireWith_eq_next.1 h
  simp only [except_bind_ok, Except.ok.injEq] at h1
  obtain ⟨v, h2, rfl⟩ := h1
  exact ⟨v, h2, rfl⟩


theorem mulRm32_next {a : Attr} {src : Rm Reg} {s t : State} (h : exec (.mulRm32 a src) s = .next t) :
    ∃ v, readRm32 a s src = .ok v ∧ t = (mulWord s v).advance s.defaultSize (Instr.length s.defaultSize (.mulRm32 a src)) false := by
  obtain ⟨u, h1, rfl⟩ := retireWith_eq_next.1 h
  simp only [except_bind_ok, Except.ok.injEq] at h1
  obtain ⟨v, h2, rfl⟩ := h1
  exact ⟨v, h2, rfl⟩


end Sys2Proof.Machine
end

