-- ==== Sys2Proof/Laws/Fetch.lean ====
section
/-!
SUPPORT. What fetching can do: one byte, and the bytes a step hands to its decoder (20_memory.md R83, R24, R79; 30_encoding.md
R116, R122).
-/

namespace Sys2Proof.Machine

/-- Byte `k` of the instruction is fetched exactly where it is legal, placed, program text, and has that value. -/
theorem fetchByte_ok_iff (s : State) (k : Nat) (b : Byte) :
    fetchByte s k = .ok b ↔ s.accessLegal .cs .fetch (s.pc.toNat + k) 1
      ∧ ∃ p, s.mapsTo false s.user (s.segs.cs.base + (s.pc + BitVec.ofNat 32 k)) p ∧ s.code.contains p = true
        ∧ Memory.read s.mem p.toNat = some b := by
  have byte : ∀ p, (if s.code.contains p then givenByte s.mem p else .error (.refuse .fetchOutsideCode)) = .ok b
      ↔ s.code.contains p = true ∧ Memory.read s.mem p.toNat = some b := by
    intro p
    unfold givenByte
    cases s.code.contains p <;> cases Memory.read s.mem p.toNat <;> simp
  simp only [fetchByte, except_bind_ok, translate_ok_iff, byte]
  constructor
  · rintro ⟨_, h1, p, h2, h3⟩; exact ⟨(checkAccess_ok_iff ..).1 h1, p, h2, h3⟩
  · rintro ⟨h1, p, h2, h3⟩; exact ⟨(), (checkAccess_ok_iff ..).2 h1, p, h2, h3⟩

/-- The bytes from byte `k` on: each is fetched, and what stops the next one is the stop of its fetch, or the length limit. -/
theorem fetchFrom_spec (s : State) (n k : Nat) :
    (∀ j (h : j < (fetchFrom s n k).1.length), fetchByte s (k + j) = .ok (fetchFrom s n k).1[j])
      ∧ (((fetchFrom s n k).1.length = n ∧ (fetchFrom s n k).2 = tooLong)
        ∨ ((fetchFrom s n k).1.length < n ∧ fetchByte s (k + (fetchFrom s n k).1.length) = .error (fetchFrom s n k).2)) := by
  induction n generalizing k with
  | zero => exact ⟨fun j h => absurd h (Nat.not_lt_zero j), .inl ⟨rfl, rfl⟩⟩
  | succ n ih =>
    cases hb : fetchByte s k with
    | error e =>
      have hf : fetchFrom s (n + 1) k = ([], e) := by simp only [fetchFrom, hb]
      rw [hf]
      exact ⟨fun j h => absurd h (Nat.not_lt_zero j), .inr ⟨Nat.succ_pos n, hb⟩⟩
    | ok b =>
      have hf : fetchFrom s (n + 1) k = (b :: (fetchFrom s n (k + 1)).1, (fetchFrom s n (k + 1)).2) := by simp only [fetchFrom, hb]
      rw [hf]
      obtain ⟨h1, h2⟩ := ih (k + 1)
      refine ⟨fun j h => ?_, ?_⟩
      · cases j with
        | zero => exact hb
        | succ j =>
          have h' : j < (fetchFrom s n (k + 1)).1.length := by simpa using h
          rw [show k + (j + 1) = k + 1 + j by omega]
          exact h1 j h'
      · have e : k + ((fetchFrom s n (k + 1)).1.length + 1) = k + 1 + (fetchFrom s n (k + 1)).1.length := by omega
        simp only [List.length_cons, e]
        rcases h2 with ⟨h2, h3⟩ | ⟨h2, h3⟩
        · exact .inl ⟨by omega, h3⟩
        · exact .inr ⟨by omega, h3⟩

/-- The bytes a step hands to its decoder can all be fetched, and are at most 15. -/
theorem fetches_fetchWindow (s : State) : s.fetches (fetchWindow s).1 ∧ (fetchWindow s).1.length ≤ 15 := by
  obtain ⟨h1, h2⟩ := fetchFrom_spec s maxLength 0
  refine ⟨fun k hk => ?_, ?_⟩
  · have h := h1 k hk
    rw [Nat.zero_add, fetchByte_ok_iff] at h
    obtain ⟨h3, p, h4, h5, h6⟩ := h
    exact ⟨h3, p, h4, h5, by rw [h6]; exact List.getElem?_eq_getElem hk⟩
  · rcases h2 with ⟨h2, _⟩ | ⟨h2, _⟩
    · exact Nat.le_of_eq h2
    · exact Nat.le_of_lt h2

theorem fetchByte_of_fetches {s : State} {bs : List Byte} (h : s.fetches bs) {k : Nat} (hk : k < bs.length) :
    fetchByte s k = .ok bs[k] := by
  obtain ⟨h1, p, h2, h3, h4⟩ := h k hk
  exact (fetchByte_ok_iff ..).2 ⟨h1, p, h2, h3, by rw [← h4]; exact List.getElem?_eq_getElem hk⟩

/-- Bytes that can be fetched begin the window. -/
theorem fetchWindow_of_fetches {s : State} {bs : List Byte} (hl : bs.length ≤ 15) (h : s.fetches bs) :
    fetchWindow s = (bs ++ (fetchFrom s (15 - bs.length) bs.length).1, (fetchFrom s (15 - bs.length) bs.length).2) := by
  have go : ∀ (cs : List Byte) (n k : Nat), cs.length ≤ n → (∀ j (hj : j < cs.length), fetchByte s (k + j) = .ok cs[j]) →
      fetchFrom s n k
        = (cs ++ (fetchFrom s (n - cs.length) (k + cs.length)).1, (fetchFrom s (n - cs.length) (k + cs.length)).2) := by
    intro cs
    induction cs with
    | nil => intro n k _ _; rfl
    | cons b t ih =>
      intro n k hn hf
      obtain ⟨m, rfl⟩ : ∃ m, n = m + 1 := ⟨n - 1, by simp at hn; omega⟩
      have h0 := hf 0 (by simp)
      simp only [List.getElem_cons_zero, Nat.add_zero] at h0
      have := ih m (k + 1) (by simpa using hn) fun j hj => by
        have := hf (j + 1) (by simpa using hj)
        simp only [List.getElem_cons_succ] at this
        rw [← this]; congr 1; omega
      simp only [fetchFrom, h0]
      rw [this, show m + 1 - (b :: t).length = m - t.length by simp, show k + (b :: t).length = k + 1 + t.length by simp; omega]
      rfl
  have := go bs 15 0 hl fun j hj => by rw [Nat.zero_add]; exact fetchByte_of_fetches h hj
  simpa [fetchWindow, maxLength] using this

/-- Where the byte after bytes that can be fetched cannot be, the window ends there with that byte's stop. -/
theorem fetchWindow_of_stop {s : State} {bs : List Byte} {e : Stop} (hl : bs.length < 15) (h : s.fetches bs)
    (he : fetchByte s bs.length = .error e) : fetchWindow s = (bs, e) := by
  obtain ⟨m, hm⟩ : ∃ m, 15 - bs.length = m + 1 := ⟨14 - bs.length, by omega⟩
  rw [fetchWindow_of_fetches (Nat.le_of_lt hl) h, hm]
  simp only [fetchFrom, he, List.append_nil]

end Sys2Proof.Machine
end

