-- ==== Sys2Proof/Laws/PerInstr.lean ====
section
/-!
SUPPORT. The statement made of each instruction, per constructor: its encoding has the length R116 counts.
-/

namespace Sys2Proof.Laws.EncodeLength

open Sys2Proof

/-- The bytes the encoder writes for an instruction are as many as its length, which `pc` advances by (R116, R123). -/
def Statement (i : Instr) : Prop := ∀ d : Size, (encode d i).length = i.length d

theorem movRm8R8 (a : Attr) (dst : Rm Reg8) (src : Reg8) : Statement (.movRm8R8 a dst src) :=
  encode_length_of_body (by
    simp only [Instr.body, Instr.bodyLength, List.length_cons, encodeRm_length]; omega)

theorem movRm16R16 (a : Attr) (dst : Rm Reg) (src : Reg) : Statement (.movRm16R16 a dst src) :=
  encode_length_of_body (by
    simp only [Instr.body, Instr.bodyLength, List.length_cons, encodeRm_length]; omega)

theorem movRm32R32 (a : Attr) (dst : Rm Reg) (src : Reg) : Statement (.movRm32R32 a dst src) :=
  encode_length_of_body (by
    simp only [Instr.body, Instr.bodyLength, List.length_cons, encodeRm_length]; omega)

theorem movR8Rm8 (a : Attr) (dst : Reg8) (src : Rm Reg8) : Statement (.movR8Rm8 a dst src) :=
  encode_length_of_body (by
    simp only [Instr.body, Instr.bodyLength, List.length_cons, encodeRm_length]; omega)

theorem movR16Rm16 (a : Attr) (dst : Reg) (src : Rm Reg) : Statement (.movR16Rm16 a dst src) :=
  encode_length_of_body (by
    simp only [Instr.body, Instr.bodyLength, List.length_cons, encodeRm_length]; omega)

theorem movR32Rm32 (a : Attr) (dst : Reg) (src : Rm Reg) : Statement (.movR32Rm32 a dst src) :=
  encode_length_of_body (by
    simp only [Instr.body, Instr.bodyLength, List.length_cons, encodeRm_length]; omega)

theorem movRm16Sreg (a : Attr) (dst : Rm Reg) (src : SegReg) : Statement (.movRm16Sreg a dst src) :=
  encode_length_of_body (by
    simp only [Instr.body, Instr.bodyLength, List.length_cons, encodeRm_length]; omega)

theorem movSregRm16 (a : Attr) (dst : SegDest) (src : Rm Reg) : Statement (.movSregRm16 a dst src) :=
  encode_length_of_body (by
    simp only [Instr.body, Instr.bodyLength, List.length_cons, encodeRm_length]; omega)

theorem movAlMoffs8 (a : Attr) (off : Word) : Statement (.movAlMoffs8 a off) :=
  encode_length_of_body (by
    simp only [Instr.body, Instr.bodyLength, List.length_cons, offsetBytes_length]; omega)

theorem movAxMoffs16 (a : Attr) (off : Word) : Statement (.movAxMoffs16 a off) :=
  encode_length_of_body (by
    simp only [Instr.body, Instr.bodyLength, List.length_cons, offsetBytes_length]; omega)

theorem movEaxMoffs32 (a : Attr) (off : Word) : Statement (.movEaxMoffs32 a off) :=
  encode_length_of_body (by
    simp only [Instr.body, Instr.bodyLength, List.length_cons, offsetBytes_length]; omega)

theorem movMoffs8Al (a : Attr) (off : Word) : Statement (.movMoffs8Al a off) :=
  encode_length_of_body (by
    simp only [Instr.body, Instr.bodyLength, List.length_cons, offsetBytes_length]; omega)

theorem movMoffs16Ax (a : Attr) (off : Word) : Statement (.movMoffs16Ax a off) :=
  encode_length_of_body (by
    simp only [Instr.body, Instr.bodyLength, List.length_cons, offsetBytes_length]; omega)

theorem movMoffs32Eax (a : Attr) (off : Word) : Statement (.movMoffs32Eax a off) :=
  encode_length_of_body (by
    simp only [Instr.body, Instr.bodyLength, List.length_cons, offsetBytes_length]; omega)

theorem movReg8Imm8 (a : Attr) (dst : Reg8) (imm : BitVec 8) : Statement (.movReg8Imm8 a dst imm) :=
  encode_length_of_body rfl

theorem movReg16Imm16 (a : Attr) (dst : Reg) (imm : BitVec 16) : Statement (.movReg16Imm16 a dst imm) :=
  encode_length_of_body rfl

theorem movReg32Imm32 (a : Attr) (dst : Reg) (imm : BitVec 32) : Statement (.movReg32Imm32 a dst imm) :=
  encode_length_of_body rfl

theorem movRm8Imm8 (a : Attr) (dst : Rm Reg8) (imm : BitVec 8) : Statement (.movRm8Imm8 a dst imm) :=
  encode_length_of_body (by
    simp only [Instr.body, Instr.bodyLength, List.length_cons, List.length_append, encodeRm_length, List.length_nil]; omega)

theorem movRm16Imm16 (a : Attr) (dst : Rm Reg) (imm : BitVec 16) : Statement (.movRm16Imm16 a dst imm) :=
  encode_length_of_body (by
    simp only [Instr.body, Instr.bodyLength, List.length_cons, List.length_append, encodeRm_length, halfBytes, List.length_nil]; omega)

theorem movRm32Imm32 (a : Attr) (dst : Rm Reg) (imm : BitVec 32) : Statement (.movRm32Imm32 a dst imm) :=
  encode_length_of_body (by
    simp only [Instr.body, Instr.bodyLength, List.length_cons, List.length_append, encodeRm_length, wordBytes, List.length_nil]; omega)

theorem movR32Cr (a : Attr) (dst : Reg) (src : CtrlReg) : Statement (.movR32Cr a dst src) :=
  encode_length_of_body rfl

theorem movCrR32 (a : Attr) (dst : CtrlReg) (src : Reg) : Statement (.movCrR32 a dst src) :=
  encode_length_of_body rfl

theorem movR32Dr03 (a : Attr) (dst : Reg) (src : BreakReg) : Statement (.movR32Dr03 a dst src) :=
  encode_length_of_body rfl

theorem movR32Dr67 (a : Attr) (dst : Reg) (src : DebugReg) : Statement (.movR32Dr67 a dst src) :=
  encode_length_of_body rfl

theorem movDr03R32 (a : Attr) (dst : BreakReg) (src : Reg) : Statement (.movDr03R32 a dst src) :=
  encode_length_of_body rfl

theorem movDr67R32 (a : Attr) (dst : DebugReg) (src : Reg) : Statement (.movDr67R32 a dst src) :=
  encode_length_of_body rfl

theorem movR32Tr (a : Attr) (dst : Reg) (src : TestReg) : Statement (.movR32Tr a dst src) :=
  encode_length_of_body rfl

theorem movTrR32 (a : Attr) (dst : TestReg) (src : Reg) : Statement (.movTrR32 a dst src) :=
  encode_length_of_body rfl

theorem movs8 (a : Attr) : Statement (.movs8 a) :=
  encode_length_of_body rfl

theorem movs16 (a : Attr) : Statement (.movs16 a) :=
  encode_length_of_body rfl

theorem movs32 (a : Attr) : Statement (.movs32 a) :=
  encode_length_of_body rfl

theorem repMovs8 (a : Attr) : Statement (.repMovs8 a) :=
  encode_length_of_body rfl

theorem repMovs16 (a : Attr) : Statement (.repMovs16 a) :=
  encode_length_of_body rfl

theorem repMovs32 (a : Attr) : Statement (.repMovs32 a) :=
  encode_length_of_body rfl

theorem movsxR16Rm8 (a : Attr) (dst : Reg) (src : Rm Reg8) : Statement (.movsxR16Rm8 a dst src) :=
  encode_length_of_body (by
    simp only [Instr.body, Instr.bodyLength, List.length_cons, encodeRm_length]; omega)

theorem movsxR32Rm8 (a : Attr) (dst : Reg) (src : Rm Reg8) : Statement (.movsxR32Rm8 a dst src) :=
  encode_length_of_body (by
    simp only [Instr.body, Instr.bodyLength, List.length_cons, encodeRm_length]; omega)

theorem movsxR32Rm16 (a : Attr) (dst : Reg) (src : Rm Reg) : Statement (.movsxR32Rm16 a dst src) :=
  encode_length_of_body (by
    simp only [Instr.body, Instr.bodyLength, List.length_cons, encodeRm_length]; omega)

theorem movzxR16Rm8 (a : Attr) (dst : Reg) (src : Rm Reg8) : Statement (.movzxR16Rm8 a dst src) :=
  encode_length_of_body (by
    simp only [Instr.body, Instr.bodyLength, List.length_cons, encodeRm_length]; omega)

theorem movzxR32Rm8 (a : Attr) (dst : Reg) (src : Rm Reg8) : Statement (.movzxR32Rm8 a dst src) :=
  encode_length_of_body (by
    simp only [Instr.body, Instr.bodyLength, List.length_cons, encodeRm_length]; omega)

theorem movzxR32Rm16 (a : Attr) (dst : Reg) (src : Rm Reg) : Statement (.movzxR32Rm16 a dst src) :=
  encode_length_of_body (by
    simp only [Instr.body, Instr.bodyLength, List.length_cons, encodeRm_length]; omega)

theorem mulRm8 (a : Attr) (src : Rm Reg8) : Statement (.mulRm8 a src) :=
  encode_length_of_body (by
    simp only [Instr.body, Instr.bodyLength, List.length_cons, encodeRm_length]; omega)

theorem mulRm16 (a : Attr) (src : Rm Reg) : Statement (.mulRm16 a src) :=
  encode_length_of_body (by
    simp only [Instr.body, Instr.bodyLength, List.length_cons, encodeRm_length]; omega)

theorem mulRm32 (a : Attr) (src : Rm Reg) : Statement (.mulRm32 a src) :=
  encode_length_of_body (by
    simp only [Instr.body, Instr.bodyLength, List.length_cons, encodeRm_length]; omega)

end Sys2Proof.Laws.EncodeLength
end

