-- ==== Sys2Proof/Laws/Shape.lean ====
section
/-!
SUPPORT. What an instruction that answers a next state can change, over all instructions at once, so that the statements over
all of them need no case per constructor: the parts of the state, the bytes of memory, pc and the latch.
-/

namespace Sys2Proof.Machine

/-! ### The shared writes -/

theorem movsStep_shape {a : Attr} {w : Nat} {s u : State} (h : movsStep a w s = .ok u) :
    ∃ m r, u = { s with mem := m, regs := r } := by
  obtain ⟨v, ps, _, _, _, rfl⟩ := movsStep_ok h
  exact ⟨_, _, rfl⟩

theorem writeRm8_shape {a : Attr} {s u : State} {v : BitVec 8} {o : Rm Reg8} (h : writeRm8 a s v o = .ok u) :
    ∃ m r, u = { s with mem := m, regs := r } := by
  rcases writeRm8_ok h with ⟨r, _, rfl⟩ | ⟨m, ps, _, _, _, rfl⟩ <;> exact ⟨_, _, rfl⟩

theorem writeRm16_shape {a : Attr} {s u : State} {v : BitVec 16} {o : Rm Reg} (h : writeRm16 a s v o = .ok u) :
    ∃ m r, u = { s with mem := m, regs := r } := by
  rcases writeRm16_ok h with ⟨r, _, rfl⟩ | ⟨m, ps, _, _, _, rfl⟩ <;> exact ⟨_, _, rfl⟩

theorem writeRm32_shape {a : Attr} {s u : State} {v : BitVec 32} {o : Rm Reg} (h : writeRm32 a s v o = .ok u) :
    ∃ m r, u = { s with mem := m, regs := r } := by
  rcases writeRm32_ok h with ⟨r, _, rfl⟩ | ⟨m, ps, _, _, _, rfl⟩ <;> exact ⟨_, _, rfl⟩

theorem segWrite_shape {w : Nat} {s u : State} {g : SegReg} {off : Word} {v : BitVec w} (h : segWrite s w g off v = .ok u) :
    ∃ m, u = { s with mem := m } := by
  obtain ⟨_, ps, _, _, rfl⟩ := segWrite_ok h
  exact ⟨_, rfl⟩

theorem loadSegment_shape {g : SegDest} {s u : State} {sel : BitVec 16} (h : loadSegment s g sel = .ok u) :
    ∃ m x, u = { s with mem := m, segs := s.segs.set g x } := by
  obtain ⟨_, _, x, _, _, _, rfl⟩ := loadSegment_frame h
  exact ⟨_, x, rfl⟩

/-! ### The parts of the state -/

/-- What a next state can differ in: memory, general registers, draws, pc and the latch for every instruction that is no load
of a segment register, no special move and no MUL; and those with the part that is theirs for each of these. -/
def Shape (i : Instr) (s t : State) : Prop :=
  (∃ m r d p h, isSpecial i = false ∧ isMul i = false ∧ (∀ a g o, i ≠ .movSregRm16 a g o)
      ∧ t = { s with mem := m, regs := r, draws := d, pc := p, inhibit := h })
    ∨ (∃ m a g o x p h, i = .movSregRm16 a g o ∧ t = { s with mem := m, segs := s.segs.set g x, pc := p, inhibit := h })
    ∨ (isMul i = true ∧ ∃ r d p c h, t = { s with
        regs := r
        draws := d
        pc := p
        inhibit := h
        flags := { s.flags with
          cf := c
          of := c
          sf := Config.anyBit s.draws
          zf := Config.anyBit (s.draws + 1)
          af := Config.anyBit (s.draws + 2)
          pf := Config.anyBit (s.draws + 3) } })
    ∨ (isSpecial i = true ∧ privCheck s = .ok () ∧ ∃ u p h, t = State.advance (undefFlags6 u) s.defaultSize p h
      ∧ ((∃ r d, u = { s with regs := r, draws := d })
        ∨ (∃ a c r, i = .movCrR32 a c r ∧ u = s.setCtrl c (s.regs.get r))
        ∨ (∃ a c r, i = .movDr03R32 a c r ∧ u = s.setBreakAddr c (s.regs.get r))
        ∨ (∃ a c r, i = .movDr67R32 a c r ∧ armsBreakpoint c (s.regs.get r) = false ∧ u = s.setDebug c (s.regs.get r))
        ∨ ∃ a c r, i = .movTrR32 a c r ∧ u = s.setTest c (s.regs.get r)))

theorem plain_shape {i : Instr} {s : State} {m : Memory} {r : Regs} {d : Nat} {p : Word} {h : Bool} (h1 : isSpecial i = false)
    (h2 : isMul i = false) (h3 : ∀ a g o, i ≠ .movSregRm16 a g o) :
    Shape i s { s with mem := m, regs := r, draws := d, pc := p, inhibit := h } := .inl ⟨m, r, d, p, h, h1, h2, h3, rfl⟩

theorem exec_shape {i : Instr} {s t : State} (h : exec i s = .next t) : Shape i s t := by
  cases i with
  | movRm8R8 a o r =>
    obtain ⟨u, h1, rfl⟩ := movRm8R8_next h
    obtain ⟨m, r, rfl⟩ := writeRm8_shape h1
    exact plain_shape rfl rfl (by simp)
  | movRm16R16 a o r =>
    obtain ⟨u, h1, rfl⟩ := movRm16R16_next h
    obtain ⟨m, r, rfl⟩ := writeRm16_shape h1
    exact plain_shape rfl rfl (by simp)
  | movRm32R32 a o r =>
    obtain ⟨u, h1, rfl⟩ := movRm32R32_next h
    obtain ⟨m, r, rfl⟩ := writeRm32_shape h1
    exact plain_shape rfl rfl (by simp)
  | movR8Rm8 a o r =>
    obtain ⟨u, h1, rfl⟩ := movR8Rm8_next h
    exact plain_shape rfl rfl (by simp)
  | movR16Rm16 a o r =>
    obtain ⟨u, h1, rfl⟩ := movR16Rm16_next h
    exact plain_shape rfl rfl (by simp)
  | movR32Rm32 a o r =>
    obtain ⟨u, h1, rfl⟩ := movR32Rm32_next h
    exact plain_shape rfl rfl (by simp)
  | movRm16Sreg a o g =>
    obtain ⟨u, rfl, h1⟩ := movRm16Sreg_next h
    rcases h1 with ⟨r, _, _, rfl⟩ | ⟨_, h1⟩
    · exact plain_shape rfl rfl (by simp)
    · obtain ⟨m, r, rfl⟩ := writeRm16_shape h1
      exact plain_shape rfl rfl (by simp)
  | movSregRm16 a g o =>
    obtain ⟨sel, u, _, h1, rfl⟩ := movSregRm16_next h
    obtain ⟨m, x, rfl⟩ := loadSegment_shape h1
    exact .inr (.inl ⟨_, _, _, _, _, _, _, rfl, rfl⟩)
  | movAlMoffs8 a o =>
    obtain ⟨u, h1, rfl⟩ := movAlMoffs8_next h
    exact plain_shape rfl rfl (by simp)
  | movAxMoffs16 a o =>
    obtain ⟨u, h1, rfl⟩ := movAxMoffs16_next h
    exact plain_shape rfl rfl (by simp)
  | movEaxMoffs32 a o =>
    obtain ⟨u, h1, rfl⟩ := movEaxMoffs32_next h
    exact plain_shape rfl rfl (by simp)
  | movMoffs8Al a o =>
    obtain ⟨u, h1, rfl⟩ := movMoffs8Al_next h
    obtain ⟨m, rfl⟩ := segWrite_shape h1
    exact plain_shape rfl rfl (by simp)
  | movMoffs16Ax a o =>
    obtain ⟨u, h1, rfl⟩ := movMoffs16Ax_next h
    obtain ⟨m, rfl⟩ := segWrite_shape h1
    exact plain_shape rfl rfl (by simp)
  | movMoffs32Eax a o =>
    obtain ⟨u, h1, rfl⟩ := movMoffs32Eax_next h
    obtain ⟨m, rfl⟩ := segWrite_shape h1
    exact plain_shape rfl rfl (by simp)
  | movReg8Imm8 a o r =>
    have e := movReg8Imm8_next h
    subst e
    exact plain_shape rfl rfl (by simp)
  | movReg16Imm16 a o r =>
    have e := movReg16Imm16_next h
    subst e
    exact plain_shape rfl rfl (by simp)
  | movReg32Imm32 a o r =>
    have e := movReg32Imm32_next h
    subst e
    exact plain_shape rfl rfl (by simp)
  | movRm8Imm8 a o r =>
    obtain ⟨u, h1, rfl⟩ := movRm8Imm8_next h
    obtain ⟨m, r, rfl⟩ := writeRm8_shape h1
    exact plain_shape rfl rfl (by simp)
  | movRm16Imm16 a o r =>
    obtain ⟨u, h1, rfl⟩ := movRm16Imm16_next h
    obtain ⟨m, r, rfl⟩ := writeRm16_shape h1
    exact plain_shape rfl rfl (by simp)
  | movRm32Imm32 a o r =>
    obtain ⟨u, h1, rfl⟩ := movRm32Imm32_next h
    obtain ⟨m, r, rfl⟩ := writeRm32_shape h1
    exact plain_shape rfl rfl (by simp)
  | movR32Cr a d c =>
    obtain ⟨h1, rfl⟩ := movR32Cr_next h
    exact .inr (.inr (.inr ⟨rfl, h1, _, _, _, rfl, .inl ⟨_, _, rfl⟩⟩))
  | movCrR32 a d c =>
    obtain ⟨h1, rfl⟩ := movCrR32_next h
    exact .inr (.inr (.inr ⟨rfl, h1, _, _, _, rfl, .inr (.inl ⟨_, _, _, rfl, rfl⟩)⟩))
  | movR32Dr03 a d c =>
    obtain ⟨h1, rfl⟩ := movR32Dr03_next h
    exact .inr (.inr (.inr ⟨rfl, h1, _, _, _, rfl, .inl ⟨_, _, rfl⟩⟩))
  | movR32Dr67 a d c =>
    obtain ⟨h1, rfl⟩ := movR32Dr67_next h
    exact .inr (.inr (.inr ⟨rfl, h1, _, _, _, rfl, .inl ⟨_, _, rfl⟩⟩))
  | movDr03R32 a d c =>
    obtain ⟨h1, rfl⟩ := movDr03R32_next h
    exact .inr (.inr (.inr ⟨rfl, h1, _, _, _, rfl, .inr (.inr (.inl ⟨_, _, _, rfl, rfl⟩))⟩))
  | movDr67R32 a d c =>
    obtain ⟨h1, h2, rfl⟩ := movDr67R32_next h
    exact .inr (.inr (.inr ⟨rfl, h1, _, _, _, rfl, .inr (.inr (.inr (.inl ⟨_, _, _, rfl, h2, rfl⟩)))⟩))
  | movR32Tr a d c =>
    obtain ⟨h1, rfl⟩ := movR32Tr_next h
    exact .inr (.inr (.inr ⟨rfl, h1, _, _, _, rfl, .inl ⟨_, _, rfl⟩⟩))
  | movTrR32 a d c =>
    obtain ⟨h1, _, rfl⟩ := movTrR32_next h
    exact .inr (.inr (.inr ⟨rfl, h1, _, _, _, rfl, .inr (.inr (.inr (.inr ⟨_, _, _, rfl, rfl⟩)))⟩))
  | movs8 a =>
    obtain ⟨u, h1, rfl⟩ := movs8_next h
    obtain ⟨m, r, rfl⟩ := movsStep_shape h1
    exact plain_shape rfl rfl (by simp)
  | movs16 a =>
    obtain ⟨u, h1, rfl⟩ := movs16_next h
    obtain ⟨m, r, rfl⟩ := movsStep_shape h1
    exact plain_shape rfl rfl (by simp)
  | movs32 a =>
    obtain ⟨u, h1, rfl⟩ := movs32_next h
    obtain ⟨m, r, rfl⟩ := movsStep_shape h1
    exact plain_shape rfl rfl (by simp)
  | repMovs8 a =>
    rcases repMovs8_next h with ⟨_, rfl⟩ | ⟨_, u, h1, ⟨_, rfl⟩ | ⟨_, rfl⟩⟩
    · exact plain_shape rfl rfl (by simp)
    · obtain ⟨m, r, rfl⟩ := movsStep_shape h1
      exact plain_shape rfl rfl (by simp)
    · obtain ⟨m, r, rfl⟩ := movsStep_shape h1
      exact plain_shape rfl rfl (by simp)
  | repMovs16 a =>
    rcases repMovs16_next h with ⟨_, rfl⟩ | ⟨_, u, h1, ⟨_, rfl⟩ | ⟨_, rfl⟩⟩
    · exact plain_shape rfl rfl (by simp)
    · obtain ⟨m, r, rfl⟩ := movsStep_shape h1
      exact plain_shape rfl rfl (by simp)
    · obtain ⟨m, r, rfl⟩ := movsStep_shape h1
      exact plain_shape rfl rfl (by simp)
  | repMovs32 a =>
    rcases repMovs32_next h with ⟨_, rfl⟩ | ⟨_, u, h1, ⟨_, rfl⟩ | ⟨_, rfl⟩⟩
    · exact plain_shape rfl rfl (by simp)
    · obtain ⟨m, r, rfl⟩ := movsStep_shape h1
      exact plain_shape rfl rfl (by simp)
    · obtain ⟨m, r, rfl⟩ := movsStep_shape h1
      exact plain_shape rfl rfl (by simp)
  | movsxR16Rm8 a o r =>
    obtain ⟨u, h1, rfl⟩ := movsxR16Rm8_next h
    exact plain_shape rfl rfl (by simp)
  | movsxR32Rm8 a o r =>
    obtain ⟨u, h1, rfl⟩ := movsxR32Rm8_next h
    exact plain_shape rfl rfl (by simp)
  | movsxR32Rm16 a o r =>
    obtain ⟨u, h1, rfl⟩ := movsxR32Rm16_next h
    exact plain_shape rfl rfl (by simp)
  | movzxR16Rm8 a o r =>
    obtain ⟨u, h1, rfl⟩ := movzxR16Rm8_next h
    exact plain_shape rfl rfl (by simp)
  | movzxR32Rm8 a o r =>
    obtain ⟨u, h1, rfl⟩ := movzxR32Rm8_next h
    exact plain_shape rfl rfl (by simp)
  | movzxR32Rm16 a o r =>
    obtain ⟨u, h1, rfl⟩ := movzxR32Rm16_next h
    exact plain_shape rfl rfl (by simp)
  | mulRm8 a o =>
    obtain ⟨u, h1, rfl⟩ := mulRm8_next h
    exact .inr (.inr (.inl ⟨rfl, _, _, _, _, _, rfl⟩))
  | mulRm16 a o =>
    obtain ⟨u, h1, rfl⟩ := mulRm16_next h
    exact .inr (.inr (.inl ⟨rfl, _, _, _, _, _, rfl⟩))
  | mulRm32 a o =>
    obtain ⟨u, h1, rfl⟩ := mulRm32_next h
    exact .inr (.inr (.inl ⟨rfl, _, _, _, _, _, rfl⟩))

/-! ### The bytes of memory -/

/-- Memory is `m` after a store to the bytes `storesTo` gives, none of them code. -/
def Stored (i : Instr) (s : State) (m : Memory) : Prop :=
  ∃ ps bs, storesTo i s = .ok ps ∧ ps.any s.code.contains = false ∧ (ps = [] → bs = []) ∧ m = Memory.writeBytes s.mem ps bs

theorem stored_none {i : Instr} {s : State} {m : Memory} (h : storesTo i s = .ok []) (e : m = s.mem) : Stored i s m :=
  ⟨[], [], h, rfl, fun _ => rfl, by subst e; rfl⟩

theorem translateRun_ne_nil {s : State} {w u : Bool} {lin : Word} {n : Nat} {ps : List Word} (hn : n ≠ 0)
    (h : translateRun s w u lin n = .ok ps) : ps ≠ [] := by
  have := translateRun_length h
  rintro rfl
  exact hn this.symm

theorem writeRm8_stored {i : Instr} {a : Attr} {s u : State} {v : BitVec 8} {o : Rm Reg8} {m : Memory}
    (hs : storesTo i s = rmStoreAt s a o 1) (h : writeRm8 a s v o = .ok u) (e : m = u.mem) : Stored i s m := by
  subst e
  rcases writeRm8_ok h with ⟨r, rfl, rfl⟩ | ⟨m, ps, rfl, h1, h2, rfl⟩
  · exact stored_none hs rfl
  · exact ⟨ps, _, hs.trans h1, h2, fun e => absurd e (translateRun_ne_nil (by decide) h1), rfl⟩

theorem writeRm16_stored {i : Instr} {a : Attr} {s u : State} {v : BitVec 16} {o : Rm Reg} {m : Memory}
    (hs : storesTo i s = rmStoreAt s a o 2) (h : writeRm16 a s v o = .ok u) (e : m = u.mem) : Stored i s m := by
  subst e
  rcases writeRm16_ok h with ⟨r, rfl, rfl⟩ | ⟨m, ps, rfl, h1, h2, rfl⟩
  · exact stored_none hs rfl
  · exact ⟨ps, _, hs.trans h1, h2, fun e => absurd e (translateRun_ne_nil (by decide) h1), rfl⟩

theorem writeRm32_stored {i : Instr} {a : Attr} {s u : State} {v : BitVec 32} {o : Rm Reg} {m : Memory}
    (hs : storesTo i s = rmStoreAt s a o 4) (h : writeRm32 a s v o = .ok u) (e : m = u.mem) : Stored i s m := by
  subst e
  rcases writeRm32_ok h with ⟨r, rfl, rfl⟩ | ⟨m, ps, rfl, h1, h2, rfl⟩
  · exact stored_none hs rfl
  · exact ⟨ps, _, hs.trans h1, h2, fun e => absurd e (translateRun_ne_nil (by decide) h1), rfl⟩

theorem segWrite_stored {i : Instr} {w : Nat} {s u : State} {v : BitVec w} {g : SegReg} {off : Word} {m : Memory}
    (hs : storesTo i s = s.storeAt g off (w / 8)) (h : segWrite s w g off v = .ok u) (hn : w / 8 ≠ 0) (e : m = u.mem) :
    Stored i s m := by
  subst e
  obtain ⟨_, ps, h1, h2, rfl⟩ := segWrite_ok h
  exact ⟨ps, _, hs.trans h1, h2, fun e => absurd e (translateRun_ne_nil hn h1), rfl⟩

theorem movsStep_stored {i : Instr} {a : Attr} {w : Nat} {s u : State} {m : Memory}
    (hs : storesTo i s = s.storeAt .es (indexRead a.adsize s.regs .edi) (w / 8)) (h : movsStep a w s = .ok u) (hn : w / 8 ≠ 0)
    (e : m = u.mem) : Stored i s m := by
  subst e
  obtain ⟨v, ps, _, h1, h2, rfl⟩ := movsStep_ok h
  exact ⟨ps, _, hs.trans h1, h2, fun e => absurd e (translateRun_ne_nil hn h1), rfl⟩

theorem exec_stored {i : Instr} {s t : State} (h : exec i s = .next t) : Stored i s t.mem := by
  cases i with
  | movRm8R8 a o r =>
    obtain ⟨u, h1, rfl⟩ := movRm8R8_next h
    exact writeRm8_stored rfl h1 rfl
  | movRm16R16 a o r =>
    obtain ⟨u, h1, rfl⟩ := movRm16R16_next h
    exact writeRm16_stored rfl h1 rfl
  | movRm32R32 a o r =>
    obtain ⟨u, h1, rfl⟩ := movRm32R32_next h
    exact writeRm32_stored rfl h1 rfl
  | movR8Rm8 a o r =>
    obtain ⟨u, h1, rfl⟩ := movR8Rm8_next h
    exact stored_none rfl rfl
  | movR16Rm16 a o r =>
    obtain ⟨u, h1, rfl⟩ := movR16Rm16_next h
    exact stored_none rfl rfl
  | movR32Rm32 a o r =>
    obtain ⟨u, h1, rfl⟩ := movR32Rm32_next h
    exact stored_none rfl rfl
  | movRm16Sreg a o g =>
    obtain ⟨u, rfl, h1⟩ := movRm16Sreg_next h
    rcases h1 with ⟨r, rfl, _, rfl⟩ | ⟨_, h1⟩
    · exact stored_none rfl rfl
    · exact writeRm16_stored rfl h1 rfl
  | movSregRm16 a g o =>
    obtain ⟨sel, u, h0, h1, rfl⟩ := movSregRm16_next h
    obtain ⟨ps, bs, x, h2, h3, h4, rfl⟩ := loadSegment_frame h1
    exact ⟨ps, bs, by simp [storesTo, h0, h2], h3, h4, rfl⟩
  | movAlMoffs8 a o =>
    obtain ⟨u, h1, rfl⟩ := movAlMoffs8_next h
    exact stored_none rfl rfl
  | movAxMoffs16 a o =>
    obtain ⟨u, h1, rfl⟩ := movAxMoffs16_next h
    exact stored_none rfl rfl
  | movEaxMoffs32 a o =>
    obtain ⟨u, h1, rfl⟩ := movEaxMoffs32_next h
    exact stored_none rfl rfl
  | movMoffs8Al a o =>
    obtain ⟨u, h1, rfl⟩ := movMoffs8Al_next h
    exact segWrite_stored rfl h1 (by decide) rfl
  | movMoffs16Ax a o =>
    obtain ⟨u, h1, rfl⟩ := movMoffs16Ax_next h
    exact segWrite_stored rfl h1 (by decide) rfl
  | movMoffs32Eax a o =>
    obtain ⟨u, h1, rfl⟩ := movMoffs32Eax_next h
    exact segWrite_stored rfl h1 (by decide) rfl
  | movReg8Imm8 a o r =>
    have e := movReg8Imm8_next h
    subst e
    exact stored_none rfl rfl
  | movReg16Imm16 a o r =>
    have e := movReg16Imm16_next h
    subst e
    exact stored_none rfl rfl
  | movReg32Imm32 a o r =>
    have e := movReg32Imm32_next h
    subst e
    exact stored_none rfl rfl
  | movRm8Imm8 a o r =>
    obtain ⟨u, h1, rfl⟩ := movRm8Imm8_next h
    exact writeRm8_stored rfl h1 rfl
  | movRm16Imm16 a o r =>
    obtain ⟨u, h1, rfl⟩ := movRm16Imm16_next h
    exact writeRm16_stored rfl h1 rfl
  | movRm32Imm32 a o r =>
    obtain ⟨u, h1, rfl⟩ := movRm32Imm32_next h
    exact writeRm32_stored rfl h1 rfl
  | movR32Cr a d c =>
    obtain ⟨h1, rfl⟩ := movR32Cr_next h
    exact stored_none rfl rfl
  | movCrR32 a d c =>
    obtain ⟨h1, rfl⟩ := movCrR32_next h
    exact stored_none rfl (by cases d <;> rfl)
  | movR32Dr03 a d c =>
    obtain ⟨h1, rfl⟩ := movR32Dr03_next h
    exact stored_none rfl rfl
  | movR32Dr67 a d c =>
    obtain ⟨h1, rfl⟩ := movR32Dr67_next h
    exact stored_none rfl rfl
  | movDr03R32 a d c =>
    obtain ⟨h1, rfl⟩ := movDr03R32_next h
    exact stored_none rfl (by cases d <;> rfl)
  | movDr67R32 a d c =>
    obtain ⟨h1, h2, rfl⟩ := movDr67R32_next h
    exact stored_none rfl (by cases d <;> rfl)
  | movR32Tr a d c =>
    obtain ⟨h1, rfl⟩ := movR32Tr_next h
    exact stored_none rfl rfl
  | movTrR32 a d c =>
    obtain ⟨h1, _, rfl⟩ := movTrR32_next h
    exact stored_none rfl (by cases d <;> rfl)
  | movs8 a =>
    obtain ⟨u, h1, rfl⟩ := movs8_next h
    exact movsStep_stored rfl h1 (by decide) rfl
  | movs16 a =>
    obtain ⟨u, h1, rfl⟩ := movs16_next h
    exact movsStep_stored rfl h1 (by decide) rfl
  | movs32 a =>
    obtain ⟨u, h1, rfl⟩ := movs32_next h
    exact movsStep_stored rfl h1 (by decide) rfl
  | repMovs8 a =>
    rcases repMovs8_next h with ⟨h0, rfl⟩ | ⟨h0, u, h1, ⟨_, rfl⟩ | ⟨_, rfl⟩⟩
    · exact stored_none (by simp [storesTo, h0]) rfl
    all_goals exact movsStep_stored (by simp [storesTo, h0]) h1 (by decide) rfl
  | repMovs16 a =>
    rcases repMovs16_next h with ⟨h0, rfl⟩ | ⟨h0, u, h1, ⟨_, rfl⟩ | ⟨_, rfl⟩⟩
    · exact stored_none (by simp [storesTo, h0]) rfl
    all_goals exact movsStep_stored (by simp [storesTo, h0]) h1 (by decide) rfl
  | repMovs32 a =>
    rcases repMovs32_next h with ⟨h0, rfl⟩ | ⟨h0, u, h1, ⟨_, rfl⟩ | ⟨_, rfl⟩⟩
    · exact stored_none (by simp [storesTo, h0]) rfl
    all_goals exact movsStep_stored (by simp [storesTo, h0]) h1 (by decide) rfl
  | movsxR16Rm8 a o r =>
    obtain ⟨u, h1, rfl⟩ := movsxR16Rm8_next h
    exact stored_none rfl rfl
  | movsxR32Rm8 a o r =>
    obtain ⟨u, h1, rfl⟩ := movsxR32Rm8_next h
    exact stored_none rfl rfl
  | movsxR32Rm16 a o r =>
    obtain ⟨u, h1, rfl⟩ := movsxR32Rm16_next h
    exact stored_none rfl rfl
  | movzxR16Rm8 a o r =>
    obtain ⟨u, h1, rfl⟩ := movzxR16Rm8_next h
    exact stored_none rfl rfl
  | movzxR32Rm8 a o r =>
    obtain ⟨u, h1, rfl⟩ := movzxR32Rm8_next h
    exact stored_none rfl rfl
  | movzxR32Rm16 a o r =>
    obtain ⟨u, h1, rfl⟩ := movzxR32Rm16_next h
    exact stored_none rfl rfl
  | mulRm8 a o =>
    obtain ⟨u, h1, rfl⟩ := mulRm8_next h
    exact stored_none rfl rfl
  | mulRm16 a o =>
    obtain ⟨u, h1, rfl⟩ := mulRm16_next h
    exact stored_none rfl rfl
  | mulRm32 a o =>
    obtain ⟨u, h1, rfl⟩ := mulRm32_next h
    exact stored_none rfl rfl

/-! ### The canonical form of memory (R61) -/

theorem wf_reset : Memory.wf State.reset.mem = true := rfl

theorem wf_linWrite {w : Nat} {s t : State} {lin : Word} {u : Bool} {v : BitVec w} (hw : Memory.wf s.mem = true)
    (h : linWrite s w lin u v = .ok t) : Memory.wf t.mem = true := by
  obtain ⟨ps, _, _, rfl⟩ := linWrite_ok h
  exact Memory.wf_writeBytes _ _ hw

theorem wf_storeFetched (s : State) (k : Nat) (bs : List Byte) {m : Memory} (hw : Memory.wf m = true) :
    Memory.wf (storeFetched s k bs m) = true := by
  induction bs generalizing k m with
  | nil => exact hw
  | cons b r ih => exact ih (k + 1) (Memory.wf_write b hw (fetchPhysical s k).isLt)

/-! ### pc and the latch -/

/-- The latch after an instruction that completes: 1 for a MOV into SS (R177), 0 for every other (R37). -/
def latchAfter : Instr → Bool
  | .movSregRm16 _ .ss _ => true
  | _ => false

theorem exec_pc {i : Instr} {s t : State} (h : exec i s = .next t) (hr : i.isRep = false) :
    t.pc = nextPc s.defaultSize s.pc (i.length s.defaultSize) ∧ t.inhibit = latchAfter i := by
  cases i with
  | movRm8R8 a o r =>
    obtain ⟨u, h1, rfl⟩ := movRm8R8_next h
    obtain ⟨m, r, rfl⟩ := writeRm8_shape h1
    exact ⟨rfl, rfl⟩
  | movRm16R16 a o r =>
    obtain ⟨u, h1, rfl⟩ := movRm16R16_next h
    obtain ⟨m, r, rfl⟩ := writeRm16_shape h1
    exact ⟨rfl, rfl⟩
  | movRm32R32 a o r =>
    obtain ⟨u, h1, rfl⟩ := movRm32R32_next h
    obtain ⟨m, r, rfl⟩ := writeRm32_shape h1
    exact ⟨rfl, rfl⟩
  | movR8Rm8 a o r =>
    obtain ⟨u, h1, rfl⟩ := movR8Rm8_next h
    exact ⟨rfl, rfl⟩
  | movR16Rm16 a o r =>
    obtain ⟨u, h1, rfl⟩ := movR16Rm16_next h
    exact ⟨rfl, rfl⟩
  | movR32Rm32 a o r =>
    obtain ⟨u, h1, rfl⟩ := movR32Rm32_next h
    exact ⟨rfl, rfl⟩
  | movRm16Sreg a o g =>
    obtain ⟨u, rfl, h1⟩ := movRm16Sreg_next h
    rcases h1 with ⟨r, rfl, _, rfl⟩ | ⟨_, h1⟩
    · exact ⟨rfl, rfl⟩
    · obtain ⟨m, r, rfl⟩ := writeRm16_shape h1
      exact ⟨rfl, rfl⟩
  | movSregRm16 a g o =>
    obtain ⟨sel, u, h0, h1, rfl⟩ := movSregRm16_next h
    obtain ⟨ps, bs, x, h2, h3, h4, rfl⟩ := loadSegment_frame h1
    cases g <;> exact ⟨rfl, rfl⟩
  | movAlMoffs8 a o =>
    obtain ⟨u, h1, rfl⟩ := movAlMoffs8_next h
    exact ⟨rfl, rfl⟩
  | movAxMoffs16 a o =>
    obtain ⟨u, h1, rfl⟩ := movAxMoffs16_next h
    exact ⟨rfl, rfl⟩
  | movEaxMoffs32 a o =>
    obtain ⟨u, h1, rfl⟩ := movEaxMoffs32_next h
    exact ⟨rfl, rfl⟩
  | movMoffs8Al a o =>
    obtain ⟨u, h1, rfl⟩ := movMoffs8Al_next h
    obtain ⟨m, rfl⟩ := segWrite_shape h1
    exact ⟨rfl, rfl⟩
  | movMoffs16Ax a o =>
    obtain ⟨u, h1, rfl⟩ := movMoffs16Ax_next h
    obtain ⟨m, rfl⟩ := segWrite_shape h1
    exact ⟨rfl, rfl⟩
  | movMoffs32Eax a o =>
    obtain ⟨u, h1, rfl⟩ := movMoffs32Eax_next h
    obtain ⟨m, rfl⟩ := segWrite_shape h1
    exact ⟨rfl, rfl⟩
  | movReg8Imm8 a o r =>
    have e := movReg8Imm8_next h
    subst e
    exact ⟨rfl, rfl⟩
  | movReg16Imm16 a o r =>
    have e := movReg16Imm16_next h
    subst e
    exact ⟨rfl, rfl⟩
  | movReg32Imm32 a o r =>
    have e := movReg32Imm32_next h
    subst e
    exact ⟨rfl, rfl⟩
  | movRm8Imm8 a o r =>
    obtain ⟨u, h1, rfl⟩ := movRm8Imm8_next h
    obtain ⟨m, r, rfl⟩ := writeRm8_shape h1
    exact ⟨rfl, rfl⟩
  | movRm16Imm16 a o r =>
    obtain ⟨u, h1, rfl⟩ := movRm16Imm16_next h
    obtain ⟨m, r, rfl⟩ := writeRm16_shape h1
    exact ⟨rfl, rfl⟩
  | movRm32Imm32 a o r =>
    obtain ⟨u, h1, rfl⟩ := movRm32Imm32_next h
    obtain ⟨m, r, rfl⟩ := writeRm32_shape h1
    exact ⟨rfl, rfl⟩
  | movR32Cr a d c =>
    obtain ⟨h1, rfl⟩ := movR32Cr_next h
    exact ⟨rfl, rfl⟩
  | movCrR32 a d c =>
    obtain ⟨h1, rfl⟩ := movCrR32_next h
    cases d <;> exact ⟨rfl, rfl⟩
  | movR32Dr03 a d c =>
    obtain ⟨h1, rfl⟩ := movR32Dr03_next h
    exact ⟨rfl, rfl⟩
  | movR32Dr67 a d c =>
    obtain ⟨h1, rfl⟩ := movR32Dr67_next h
    exact ⟨rfl, rfl⟩
  | movDr03R32 a d c =>
    obtain ⟨h1, rfl⟩ := movDr03R32_next h
    cases d <;> exact ⟨rfl, rfl⟩
  | movDr67R32 a d c =>
    obtain ⟨h1, h2, rfl⟩ := movDr67R32_next h
    cases d <;> exact ⟨rfl, rfl⟩
  | movR32Tr a d c =>
    obtain ⟨h1, rfl⟩ := movR32Tr_next h
    exact ⟨rfl, rfl⟩
  | movTrR32 a d c =>
    obtain ⟨h1, _, rfl⟩ := movTrR32_next h
    cases d <;> exact ⟨rfl, rfl⟩
  | movs8 a =>
    obtain ⟨u, h1, rfl⟩ := movs8_next h
    obtain ⟨m, r, rfl⟩ := movsStep_shape h1
    exact ⟨rfl, rfl⟩
  | movs16 a =>
    obtain ⟨u, h1, rfl⟩ := movs16_next h
    obtain ⟨m, r, rfl⟩ := movsStep_shape h1
    exact ⟨rfl, rfl⟩
  | movs32 a =>
    obtain ⟨u, h1, rfl⟩ := movs32_next h
    obtain ⟨m, r, rfl⟩ := movsStep_shape h1
    exact ⟨rfl, rfl⟩
  | repMovs8 a => exact nomatch hr
  | repMovs16 a => exact nomatch hr
  | repMovs32 a => exact nomatch hr
  | movsxR16Rm8 a o r =>
    obtain ⟨u, h1, rfl⟩ := movsxR16Rm8_next h
    exact ⟨rfl, rfl⟩
  | movsxR32Rm8 a o r =>
    obtain ⟨u, h1, rfl⟩ := movsxR32Rm8_next h
    exact ⟨rfl, rfl⟩
  | movsxR32Rm16 a o r =>
    obtain ⟨u, h1, rfl⟩ := movsxR32Rm16_next h
    exact ⟨rfl, rfl⟩
  | movzxR16Rm8 a o r =>
    obtain ⟨u, h1, rfl⟩ := movzxR16Rm8_next h
    exact ⟨rfl, rfl⟩
  | movzxR32Rm8 a o r =>
    obtain ⟨u, h1, rfl⟩ := movzxR32Rm8_next h
    exact ⟨rfl, rfl⟩
  | movzxR32Rm16 a o r =>
    obtain ⟨u, h1, rfl⟩ := movzxR32Rm16_next h
    exact ⟨rfl, rfl⟩
  | mulRm8 a o =>
    obtain ⟨u, h1, rfl⟩ := mulRm8_next h
    exact ⟨rfl, rfl⟩
  | mulRm16 a o =>
    obtain ⟨u, h1, rfl⟩ := mulRm16_next h
    exact ⟨rfl, rfl⟩
  | mulRm32 a o =>
    obtain ⟨u, h1, rfl⟩ := mulRm32_next h
    exact ⟨rfl, rfl⟩

/-- A step that answers a next state ran an instruction that does. -/
theorem step_next {s t : State} (h : step s = .next t) : ∃ i, exec i s = .next t := by
  unfold step at h
  split at h
  · exact ⟨_, h⟩
  · exact nomatch h
  · revert h
    cases (fetchWindow s).2 <;> exact fun h => nomatch h

end Sys2Proof.Machine
end

