-- ==== Sys2Proof/Laws/Stops.lean ====
section
/-!
SUPPORT. Everything that can stop an instruction: one inversion lemma for the faults and the refusals of all instructions
(20_memory.md R65 to R71, 60_exceptions.md R300 to R302), as `exec_shape` is one for the next states.
-/

namespace Sys2Proof.Machine

/-- The stops of an instruction begun in `s`: the range check of Real Address Mode and of Virtual 8086 Mode, the exceptions of
Protected Mode, a missing page, a byte that has no value, and the three refusals an instruction can end in. -/
inductive MayStop (s : State) : Stop → Prop
  | real (g : SegReg) (h : s.mode = .real) : MayStop s (.fault (.exception (realLimitVector g) none none))
  | v86 (h : s.mode = .v86) : MayStop s (.fault (.exception 13#8 (some 0#16) none))
  | prot (v : BitVec 8) (c : BitVec 16) (h : s.mode = .prot) (hv : v = 11#8 ∨ v = 12#8 ∨ v = 13#8) :
    MayStop s (.fault (.exception v (some c) none))
  | page (v w u : Bool) (l : Word) (h : s.misses v w u l) : MayStop s (missStop v w u l)
  | unwritten (p : Word) (h : Memory.read s.mem p.toNat = none) : MayStop s (.fault (.unwritten p))
  | refuse (r : Refusal) (h : r = .storeToCode ∨ r = .breakpointEnable ∨ r = .tlbCommandWithPaging) : MayStop s (.refuse r)

/-- Every stop of a part of an instruction begun in `s` is one of them. -/
def StopsOf {α : Type} (s : State) (x : Except Stop α) : Prop := ∀ e, x = .error e → MayStop s e

theorem stops_ok {α : Type} {s : State} {a : α} : StopsOf s (.ok a) := fun _ h => nomatch h

theorem stops_bind {α β : Type} {s : State} {x : Except Stop α} {f : α → Except Stop β} (h : StopsOf s x)
    (hf : ∀ a, StopsOf s (f a)) : StopsOf s (x >>= f) := by
  intro e he
  rcases except_bind_error.1 he with h1 | ⟨a, _, h2⟩
  · exact h e h1
  · exact hf a e h2

theorem stops_ite {α : Type} {s : State} {c : Prop} [Decidable c] {x y : Except Stop α} (h1 : StopsOf s x) (h2 : StopsOf s y) :
    StopsOf s (if c then x else y) := by
  split <;> assumption

/-! ### The shared operations -/

theorem stops_gp {α : Type} {s : State} {c : BitVec 16} (h : s.mode = .prot) : StopsOf s (raise (α := α) (.gp c)) := by
  intro e he; cases he; exact .prot _ _ h (.inr (.inr rfl))

theorem stops_ss {α : Type} {s : State} {c : BitVec 16} (h : s.mode = .prot) : StopsOf s (raise (α := α) (.ss c)) := by
  intro e he; cases he; exact .prot _ _ h (.inr (.inl rfl))

theorem stops_np {α : Type} {s : State} {c : BitVec 16} (h : s.mode = .prot) : StopsOf s (raise (α := α) (.np c)) := by
  intro e he; cases he; exact .prot _ _ h (.inl rfl)

theorem stops_v86 {α : Type} {s : State} (h : s.mode = .v86) : StopsOf s (raise (α := α) (.gp 0#16)) := by
  intro e he; cases he; exact .v86 h

theorem stops_real {α : Type} {s : State} {g : SegReg} (h : s.mode = .real) :
    StopsOf s (raise (α := α) (.interrupt (realLimitVector g))) := by
  intro e he; cases he; exact .real g h

theorem stops_checkAccess {s : State} {g : SegReg} {k : Access} {off n : Nat} : StopsOf s (checkAccess s g k off n) := by
  unfold checkAccess
  cases hm : s.mode with
  | real => exact stops_ite stops_ok (stops_real hm)
  | v86 => exact stops_ite stops_ok (stops_v86 hm)
  | prot => exact stops_ite (stops_gp hm) (stops_ite (stops_gp hm) (stops_ite stops_ok (stops_ite (stops_ss hm) (stops_gp hm))))

theorem stops_linRead {s : State} {w : Nat} {lin : Word} {u : Bool} : StopsOf s (linRead s w lin u) := by
  intro e he
  rcases linRead_error he with ⟨v, k, _, h, rfl⟩ | ⟨_, p, _, _, _, h, rfl⟩
  · exact .page _ _ _ _ h.2
  · exact .unwritten p h

theorem stops_linWrite {s : State} {w : Nat} {lin : Word} {u : Bool} {v : BitVec w} : StopsOf s (linWrite s w lin u v) := by
  intro e he
  rcases linWrite_error he with ⟨v, k, _, h, rfl⟩ | rfl
  · exact .page _ _ _ _ h.2
  · exact .refuse _ (.inl rfl)

theorem stops_segRead {s : State} {w : Nat} {g : SegReg} {off : Word} : StopsOf s (segRead s w g off) :=
  stops_bind stops_checkAccess fun _ => stops_linRead

theorem stops_segWrite {s : State} {w : Nat} {g : SegReg} {off : Word} {v : BitVec w} : StopsOf s (segWrite s w g off v) :=
  stops_bind stops_checkAccess fun _ => stops_linWrite

theorem stops_readRm8 {a : Attr} {s : State} {o : Rm Reg8} : StopsOf s (readRm8 a s o) := by
  cases o; exact stops_ok; exact stops_segRead

theorem stops_readRm16 {a : Attr} {s : State} {o : Rm Reg} : StopsOf s (readRm16 a s o) := by
  cases o; exact stops_ok; exact stops_segRead

theorem stops_readRm32 {a : Attr} {s : State} {o : Rm Reg} : StopsOf s (readRm32 a s o) := by
  cases o; exact stops_ok; exact stops_segRead

theorem stops_writeRm8 {a : Attr} {s : State} {v : BitVec 8} {o : Rm Reg8} : StopsOf s (writeRm8 a s v o) := by
  cases o; exact stops_ok; exact stops_segWrite

theorem stops_writeRm16 {a : Attr} {s : State} {v : BitVec 16} {o : Rm Reg} : StopsOf s (writeRm16 a s v o) := by
  cases o; exact stops_ok; exact stops_segWrite

theorem stops_writeRm32 {a : Attr} {s : State} {v : BitVec 32} {o : Rm Reg} : StopsOf s (writeRm32 a s v o) := by
  cases o; exact stops_ok; exact stops_segWrite

theorem stops_privCheck {s : State} : StopsOf s (privCheck s) := by
  unfold privCheck
  cases hm : s.mode with
  | real => exact stops_ok
  | v86 => exact stops_v86 hm
  | prot => exact stops_ite (stops_gp hm) stops_ok

theorem stops_readDescriptor {s : State} {sel : BitVec 16} (h : s.mode = .prot) : StopsOf s (readDescriptor s sel) :=
  stops_ite stops_linRead (stops_gp h)

theorem stops_commitLoad {s : State} {g : SegDest} {sel : BitVec 16} {d : BitVec 64} : StopsOf s (commitLoad s g sel d) :=
  stops_ite (stops_bind stops_linWrite fun _ => stops_ok) stops_ok

theorem stops_loadSegment {s : State} {g : SegDest} {sel : BitVec 16} : StopsOf s (loadSegment s g sel) := by
  unfold loadSegment
  cases hm : s.mode with
  | real => exact stops_ok
  | v86 => exact stops_ok
  | prot =>
    refine stops_ite ?_ (stops_ite stops_ok ?_)
    · exact stops_ite (stops_gp hm) (stops_bind (stops_readDescriptor hm) fun d => stops_ite (stops_gp hm)
        (stops_ite (stops_gp hm) (stops_ite (stops_gp hm) (stops_ite (stops_ss hm) stops_commitLoad))))
    · exact stops_bind (stops_readDescriptor hm) fun d => stops_ite (stops_gp hm)
        (stops_ite (stops_gp hm) (stops_ite (stops_np hm) stops_commitLoad))

theorem stops_movsStep {s : State} {a : Attr} {w : Nat} : StopsOf s (movsStep a w s) :=
  stops_bind stops_segRead fun _ => stops_bind stops_segWrite fun _ => stops_ok

theorem stops_special {s : State} {r : Except Stop State} (h : StopsOf s r) : StopsOf s (privCheck s >>= fun _ => r) :=
  stops_bind stops_privCheck fun _ => h

/-! ### The instructions -/

/-- An outcome that is a stop is one of them. -/
def OutcomeStops (s : State) (o : Host.Outcome State Fault Refusal) : Prop := ∀ e : Stop, o = e.outcome → MayStop s e

theorem outcomeStops_retire {h : Bool} {i : Instr} {s : State} {r : Except Stop State} (hr : StopsOf s r) :
    OutcomeStops s (retireWith h i s r) := by
  intro e he
  cases e with
  | fault f => exact hr _ (retireWith_eq_fault.1 he)
  | refuse f => exact hr _ (retireWith_eq_refused.1 he)

theorem outcomeStops_rep {i : Instr} {a : Attr} {w : Nat} {s : State} : OutcomeStops s (repStep i a w s) := by
  unfold repStep
  split
  · exact outcomeStops_retire stops_ok
  · split
    · rename_i e h
      intro e' he
      have : e = e' := by cases e <;> cases e' <;> cases he <;> rfl
      exact this ▸ stops_movsStep e h
    · split
      · exact outcomeStops_retire stops_ok
      · intro e he; cases e <;> exact nomatch he

/-- Where an instruction stops, it stops in one of these ways. -/
theorem exec_stops (i : Instr) (s : State) : OutcomeStops s (exec i s) := by
  cases i with
  | movRm8R8 a o r => exact outcomeStops_retire stops_writeRm8
  | movRm16R16 a o r => exact outcomeStops_retire stops_writeRm16
  | movRm32R32 a o r => exact outcomeStops_retire stops_writeRm32
  | movR8Rm8 a o r => exact outcomeStops_retire (stops_bind stops_readRm8 fun _ => stops_ok)
  | movR16Rm16 a o r => exact outcomeStops_retire (stops_bind stops_readRm16 fun _ => stops_ok)
  | movR32Rm32 a o r => exact outcomeStops_retire (stops_bind stops_readRm32 fun _ => stops_ok)
  | movRm16Sreg a o g =>
    refine outcomeStops_retire ?_
    obtain ⟨z, _, _⟩ := a
    cases o <;> cases z <;> first | exact stops_ok | exact stops_writeRm16
  | movSregRm16 a g o => exact outcomeStops_retire (stops_bind stops_readRm16 fun _ => stops_loadSegment)
  | movAlMoffs8 a o => exact outcomeStops_retire (stops_bind stops_segRead fun _ => stops_ok)
  | movAxMoffs16 a o => exact outcomeStops_retire (stops_bind stops_segRead fun _ => stops_ok)
  | movEaxMoffs32 a o => exact outcomeStops_retire (stops_bind stops_segRead fun _ => stops_ok)
  | movMoffs8Al a o => exact outcomeStops_retire stops_segWrite
  | movMoffs16Ax a o => exact outcomeStops_retire stops_segWrite
  | movMoffs32Eax a o => exact outcomeStops_retire stops_segWrite
  | movReg8Imm8 a o r => exact outcomeStops_retire stops_ok
  | movReg16Imm16 a o r => exact outcomeStops_retire stops_ok
  | movReg32Imm32 a o r => exact outcomeStops_retire stops_ok
  | movRm8Imm8 a o r => exact outcomeStops_retire stops_writeRm8
  | movRm16Imm16 a o r => exact outcomeStops_retire stops_writeRm16
  | movRm32Imm32 a o r => exact outcomeStops_retire stops_writeRm32
  | movR32Cr a d c => exact outcomeStops_retire (stops_special stops_ok)
  | movCrR32 a d c => exact outcomeStops_retire (stops_special stops_ok)
  | movR32Dr03 a d c => exact outcomeStops_retire (stops_special stops_ok)
  | movR32Dr67 a d c => exact outcomeStops_retire (stops_special stops_ok)
  | movDr03R32 a d c => exact outcomeStops_retire (stops_special stops_ok)
  | movDr67R32 a d c => exact outcomeStops_retire (stops_special (stops_ite (fun e he => by cases he; exact .refuse _ (.inr (.inl rfl))) stops_ok))
  | movR32Tr a d c => exact outcomeStops_retire (stops_special stops_ok)
  | movTrR32 a d c => exact outcomeStops_retire (stops_special (stops_ite (fun e he => by cases he; exact .refuse _ (.inr (.inr rfl))) stops_ok))
  | movs8 a => exact outcomeStops_retire stops_movsStep
  | movs16 a => exact outcomeStops_retire stops_movsStep
  | movs32 a => exact outcomeStops_retire stops_movsStep
  | repMovs8 a => exact outcomeStops_rep
  | repMovs16 a => exact outcomeStops_rep
  | repMovs32 a => exact outcomeStops_rep
  | movsxR16Rm8 a o r => exact outcomeStops_retire (stops_bind stops_readRm8 fun _ => stops_ok)
  | movsxR32Rm8 a o r => exact outcomeStops_retire (stops_bind stops_readRm8 fun _ => stops_ok)
  | movsxR32Rm16 a o r => exact outcomeStops_retire (stops_bind stops_readRm16 fun _ => stops_ok)
  | movzxR16Rm8 a o r => exact outcomeStops_retire (stops_bind stops_readRm8 fun _ => stops_ok)
  | movzxR32Rm8 a o r => exact outcomeStops_retire (stops_bind stops_readRm8 fun _ => stops_ok)
  | movzxR32Rm16 a o r => exact outcomeStops_retire (stops_bind stops_readRm16 fun _ => stops_ok)
  | mulRm8 a o => exact outcomeStops_retire (stops_bind stops_readRm8 fun _ => stops_ok)
  | mulRm16 a o => exact outcomeStops_retire (stops_bind stops_readRm16 fun _ => stops_ok)
  | mulRm32 a o => exact outcomeStops_retire (stops_bind stops_readRm32 fun _ => stops_ok)

/-- A page fault that an instruction raises is of a page that is missing. -/
theorem exec_pageFault {i : Instr} {s : State} {v w u : Bool} {l : Word} (h : exec i s = pageFault v w u l) :
    s.misses v w u l := by
  have hs := exec_stops i s (missStop v w u l) (by rw [h, missStop_outcome])
  generalize he : missStop v w u l = e at hs
  cases hs with
  | page v' w' u' l' hm => obtain ⟨rfl, rfl, rfl, rfl⟩ := missStop_inj he; exact hm
  | real g hm => simp [missStop] at he
  | v86 hm => simp [missStop] at he
  | prot x c hm hv => simp [missStop] at he
  | unwritten p hm => exact nomatch he
  | refuse r hr => exact nomatch he

end Sys2Proof.Machine
end

