-- ==== Sys2Proof/Laws/Values.lean ====
section
/-!
SUPPORT. What the shared operations compute, in numbers: register views (10_state.md R20 to R22), index and count registers
(42_movs.md R230, R236), products (45_mul.md R280), selectors and descriptors (10_state.md R29 to R31), the privilege check and
the reserved bits (41_mov_special.md R201, R34), and pc (R24).
-/

namespace Sys2Proof.Machine

/-! ### Register views and pc -/

@[simp] theorem Regs.get16_set16_same (x : Regs) (r : Reg) (v : BitVec 16) : (x.set16 r v).get16 r = v := by
  simp only [Regs.get16, Regs.set16, Regs.get_set_same]
  apply BitVec.eq_of_toNat_eq
  have := v.isLt
  rw [BitVec.extractLsb'_toNat, BitVec.toNat_append, ← Nat.shiftLeft_add_eq_or_of_lt v.isLt, Nat.shiftLeft_eq]
  omega

/-- AH is the high half of AX (R21). -/
theorem Regs.get8_ah (x : Regs) : x.get8 .ah = (x.get16 .eax).extractLsb' 8 8 := by
  apply BitVec.eq_of_toNat_eq
  simp [Regs.get8, isHighByte, byteHome, Regs.get16, BitVec.extractLsb'_toNat, Nat.shiftRight_eq_div_pow]

theorem nextPc_toNat (d : Size) (pc : Word) (n : Nat) :
    (nextPc d pc n).toNat = (pc.toNat + n) % (if d = .w16 then 65536 else 4294967296) := by
  cases d
  · simp [nextPc]; omega
  · simp [nextPc]

/-! ### Index and count registers -/

theorem indexRead_eq (z : Size) (x : Regs) (r : Reg) : indexRead z x r = BitVec.ofNat 32 (sizedValue z x r) := by
  cases z <;> simp [indexRead, sizedValue]

theorem sizedValue_lt (z : Size) (x : Regs) (r : Reg) :
    sizedValue z x r < (if z = .w16 then 65536 else 4294967296) := by
  cases z
  · exact (x.get16 r).isLt
  · exact (x.get r).isLt

theorem indexRead_toNat (z : Size) (x : Regs) (r : Reg) : (indexRead z x r).toNat = sizedValue z x r := by
  have := sizedValue_lt z x r
  rw [indexRead_eq, BitVec.toNat_ofNat]
  cases z <;> simp at this <;> omega

theorem indexRead_eq_zero (z : Size) (x : Regs) (r : Reg) : indexRead z x r = 0#32 ↔ sizedValue z x r = 0 := by
  rw [← indexRead_toNat]
  exact ⟨fun h => by rw [h]; rfl, fun h => BitVec.eq_of_toNat_eq h⟩

theorem indexWrite_add (z : Size) (x y : Regs) (r q : Reg) (d : Int) :
    indexWrite z y q (indexRead z x r + BitVec.ofInt 32 d) = sizedSet z y q (sizedValue z x r + d) := by
  cases z
  · simp only [indexWrite, indexRead, sizedSet, sizedValue]
    congr 1
    apply BitVec.eq_of_toNat_eq
    have := (x.get16 r).isLt
    simp only [BitVec.extractLsb'_toNat, BitVec.toNat_add, BitVec.toNat_setWidth, BitVec.toNat_ofInt]
    omega
  · simp only [indexWrite, indexRead, sizedSet, sizedValue]
    congr 1
    rw [BitVec.ofInt_add]; simp

theorem advanceIndexes_eq (s : State) (z : Size) (w : Nat) :
    advanceIndexes z (stringDelta s w) s.regs = movedIndexes s z (w / 8) := by
  have : stringDelta s w = BitVec.ofInt 32 (moveDelta s (w / 8)) := by
    unfold stringDelta moveDelta
    cases s.flags.df <;> simp only [if_true, if_false, Bool.false_eq_true, BitVec.ofInt_neg, BitVec.ofInt_natCast]
  simp only [advanceIndexes, movedIndexes, this, indexWrite_add]

theorem countDown_eq (z : Size) (x : Regs) : countDown z x = sizedSet z x .ecx (sizedValue z x .ecx - 1) := by
  have : indexRead z x .ecx - 1#32 = indexRead z x .ecx + BitVec.ofInt 32 (-1) := by
    rw [BitVec.sub_eq_add_neg]; rfl
  unfold countDown
  rw [this, indexWrite_add]; rfl

theorem sizedValue_sizedSet (z : Size) (x : Regs) (r : Reg) (v : Int) :
    (sizedValue z (sizedSet z x r v) r : Int) = v % (if z = .w16 then 65536 else 4294967296) := by
  cases z
  · simp only [sizedValue, sizedSet, Regs.get16_set16_same, BitVec.toNat_ofInt, if_true]; omega
  · simp only [sizedValue, sizedSet, Regs.get_set_same, BitVec.toNat_ofInt]; simp; omega

theorem sizedValue_sizedSet_of_ne (z : Size) (x : Regs) (r q : Reg) (v : Int) (h : q ≠ r) :
    sizedValue z (sizedSet z x r v) q = sizedValue z x q := by
  cases z
  · simp only [sizedValue, sizedSet, Regs.get16, Regs.get_set16_of_ne _ _ _ _ h]
  · simp only [sizedValue, sizedSet, Regs.get_set_of_ne _ _ _ _ h]

/-! ### Products -/

theorem product_toNat {n : Nat} (x y : BitVec n) : (product x y).toNat = x.toNat * y.toNat := by
  unfold product
  have hx := x.isLt
  have hy := y.isLt
  have h1 : 2 ^ n ≤ 2 ^ (2 * n) := Nat.pow_le_pow_right (by omega) (by omega)
  have h2 : x.toNat * y.toNat < 2 ^ (2 * n) := by
    rw [Nat.two_mul, Nat.pow_add]; exact Nat.mul_lt_mul'' hx hy
  rw [BitVec.toNat_mul, BitVec.toNat_setWidth, BitVec.toNat_setWidth, Nat.mod_eq_of_lt (Nat.lt_of_lt_of_le hx h1),
    Nat.mod_eq_of_lt (Nat.lt_of_lt_of_le hy h1), Nat.mod_eq_of_lt h2]

theorem productLow_toNat {n : Nat} (x y : BitVec n) : (productLow (product x y)).toNat = x.toNat * y.toNat % 2 ^ n := by
  simp [productLow, BitVec.extractLsb'_toNat, product_toNat]

theorem productHigh_toNat {n : Nat} (x y : BitVec n) : (productHigh (product x y)).toNat = x.toNat * y.toNat / 2 ^ n := by
  have h : x.toNat * y.toNat / 2 ^ n < 2 ^ n := by
    rw [Nat.div_lt_iff_lt_mul (Nat.two_pow_pos n)]; exact Nat.mul_lt_mul'' x.isLt y.isLt
  simp [productHigh, BitVec.extractLsb'_toNat, product_toNat, Nat.shiftRight_eq_div_pow, Nat.mod_eq_of_lt h]

/-! ### Selectors, descriptors -/

theorem selectorNull_eq (sel : BitVec 16) : selectorNull sel = decide (sel.toNat ≤ 3) := by
  unfold selectorNull
  rw [Bool.eq_iff_iff]; simp only [beq_iff_eq, decide_eq_true_eq]
  constructor
  · intro h
    have := congrArg BitVec.toNat h
    simp [BitVec.extractLsb'_toNat, Nat.shiftRight_eq_div_pow] at this; omega
  · intro h
    apply BitVec.eq_of_toNat_eq
    simp [BitVec.extractLsb'_toNat, Nat.shiftRight_eq_div_pow]; omega

theorem selectorIndex_eq (sel : BitVec 16) : selectorIndex sel = sel.toNat / 8 := by
  simp [selectorIndex, BitVec.extractLsb'_toNat, Nat.shiftRight_eq_div_pow]; omega

theorem ofNat_fromBytes_eight (b0 b1 b2 b3 b4 b5 b6 b7 : Byte) :
    BitVec.ofNat 64 (fromBytes [b0, b1, b2, b3, b4, b5, b6, b7]) = b7 ++ b6 ++ b5 ++ b4 ++ b3 ++ b2 ++ b1 ++ b0 := by
  apply BitVec.eq_of_toNat_eq
  simp only [fromBytes, BitVec.toNat_ofNat, BitVec.toNat_append]
  have := b0.isLt; have := b1.isLt; have := b2.isLt; have := b3.isLt
  have := b4.isLt; have := b5.isLt; have := b6.isLt; have := b7.isLt
  repeat rw [← Nat.shiftLeft_add_eq_or_of_lt (by omega)]
  simp only [Nat.shiftLeft_eq]
  omega

/-- The index is in its table as R32 and R81 say. -/
theorem indexInTable_iff (s : State) (sel : BitVec 16) : indexInTable s sel = true ↔ s.inTable sel := by
  simp only [indexInTable, State.inTable, selectorTi, selectorIndex_eq]
  cases sel.getLsbD 2 <;> simp

/-- The address of a table entry, in numbers (R32). -/
theorem entryAddress_eq (s : State) (sel : BitVec 16) : entryAddress s sel = s.entryAt sel := by
  simp only [entryAddress, State.entryAt, tableBase, selectorTi, selectorIndex_eq]
  rfl

/-- What stops the read of a descriptor: the table's limit, a missing page, or a byte that has no value (R81, R41). -/
theorem readDescriptor_error {s : State} {sel : BitVec 16} {e : Stop} (h : readDescriptor s sel = .error e) :
    (¬s.inTable sel ∧ raise (α := Unit) (.gp (selectorCode sel)) = .error e)
      ∨ (s.inTable sel ∧ linRead s 64 (s.entryAt sel) false = .error e) := by
  rw [← indexInTable_iff, ← entryAddress_eq]
  unfold readDescriptor at h
  split at h
  · rename_i hi; exact .inr ⟨hi, h⟩
  · rename_i hi; cases h; exact .inl ⟨hi, rfl⟩

/-- A descriptor is read exactly where it can be (R81). -/
theorem readDescriptor_ok_iff (s : State) (sel : BitVec 16) (d : BitVec 64) :
    readDescriptor s sel = .ok d ↔ s.descriptorIs sel d := by
  constructor
  · intro h
    obtain ⟨h1, h2⟩ := readDescriptor_ok h
    obtain ⟨ps, bs, h3, h4, rfl⟩ := linRead_ok h2
    obtain ⟨h5, h6⟩ := (translateRun_ok_iff ..).1 h3
    rw [indexInTable_iff] at h1
    rw [entryAddress_eq] at h5
    have hl : bs.length = 8 := by rw [← List.length_map (f := some), ← h4, List.length_map, h6]
    match ps, bs, h5, h6, h4, hl with
    | [p0, p1, p2, p3, p4, p5, p6, p7], [b0, b1, b2, b3, b4, b5, b6, b7], h5, _, h4, _ =>
      exact ⟨h1, _, _, _, _, _, _, _, _, b0, b1, b2, b3, b4, b5, b6, b7, h5, h4, ofNat_fromBytes_eight ..⟩
  · rintro ⟨h1, p0, p1, p2, p3, p4, p5, p6, p7, b0, b1, b2, b3, b4, b5, b6, b7, h2, h3, rfl⟩
    rw [← ofNat_fromBytes_eight]
    simp only [readDescriptor, (indexInTable_iff ..).2 h1, if_true, entryAddress_eq]
    exact linRead_of_holds h2 rfl h3

/-- Where the Accessed bit is set or can be written, the load is made (R81, D22). -/
theorem commitLoad_of_accessedSet {s : State} {g : SegDest} {sel : BitVec 16} {d : BitVec 64} {m : Memory}
    (h : s.accessedSet sel d m) : commitLoad s g sel d = .ok { s with mem := m, segs := s.segs.set g (loadedSegment sel d) } := by
  unfold State.accessedSet at h
  simp only [commitLoad, Config.setAccessed, Bool.true_and, entryAddress_eq]
  split at h
  · rename_i hd
    subst h
    simp only [hd, Bool.not_true, Bool.false_eq_true, if_false]; rfl
  · rename_i hd
    obtain ⟨p, h1, h2, rfl⟩ := h
    have h3 := translateRun_of_placed h1
    simp only [List.length_cons, List.length_nil] at h3
    simp only [hd, Bool.not_false, if_true, linWrite, Nat.reduceDiv, h3, except_ok_bind, List.any_cons, List.any_nil, h2,
      Bool.or_self, Bool.false_eq_true, if_false, toBytes_one, Memory.writeBytes]; rfl

/-- The bits of a descriptor's AR byte (R31). -/
theorem descriptorAr_bits (d : BitVec 64) :
    arCodeOrData (descriptorAr d) = d.getLsbD 44 ∧ arCode (descriptorAr d) = d.getLsbD 43
      ∧ arExpandDownOrConforming (descriptorAr d) = d.getLsbD 42 ∧ arWritableOrReadable (descriptorAr d) = d.getLsbD 41
      ∧ arPresent (descriptorAr d) = d.getLsbD 47 ∧ arDpl (descriptorAr d) = d.extractLsb' 45 2 := by
  simp only [arCodeOrData, arCode, arExpandDownOrConforming, arWritableOrReadable, arPresent, arDpl, descriptorAr]
  refine ⟨by simp, by simp, by simp, by simp, by simp, ?_⟩
  apply BitVec.eq_of_toNat_eq
  simp [BitVec.extractLsb'_toNat, Nat.shiftRight_eq_div_pow]; omega

/-! ### Special registers -/

/-- The privilege check passes exactly where the instruction may execute (R201). -/
theorem privCheck_ok_iff (s : State) : privCheck s = .ok () ↔ s.privileged := by
  unfold privCheck State.privileged
  cases hm : s.mode <;> simp [raise]

/-- In the defined positions a read gives the cell, whatever the draw (R34, U6). -/
theorem withReserved_and (defined cell draw : Word) : withReserved defined cell draw &&& defined = cell &&& defined := by
  unfold withReserved
  ext i hi
  simp
  cases defined[i] <;> simp

end Sys2Proof.Machine
end

