-- ==== Sys2Proof/Tests/Slice0.lean ====
section
/-!
SUPPORT. The model's own tests: ill-formed terms that `Instr.wellFormed` refuses, the decoding of every constructor from a word
written out from its encoding, single steps with the results of 95_test_vectors.md (derived there by hand from the rules), and
for every obligation with hypotheses a state and operands that meet them.
-/

namespace Sys2Proof.Tests

open Sys2Proof Sys2Proof.Machine

/-- 16-bit operand and address size, no override. -/
abbrev a16 : Attr := ⟨.w16, .w16, none⟩
/-- 32-bit operand and address size, no override. -/
abbrev a32 : Attr := ⟨.w32, .w32, none⟩
/-- 32-bit operands, 16-bit addresses. -/
abbrev a3216 : Attr := ⟨.w32, .w16, none⟩
/-- 16-bit operands, 32-bit addresses. -/
abbrev a1632 : Attr := ⟨.w16, .w32, none⟩

/-! ### WellFormed: each check refuses an ill-formed term -/

/-- The operand size of the row (R125). -/
theorem test_wf_opsize : Instr.wellFormed (.movRm16R16 a32 (.reg .eax) .ebx) = false := by decide
/-- The operand size of the row: MOVZX r32,r/m16 has none of 16 bits (R274). -/
theorem test_wf_opsize_word_source : Instr.wellFormed (.movzxR32Rm16 a16 .eax (.reg .ecx)) = false := by decide
/-- A 16-bit addressing form in an instruction with 32-bit addresses (R102). -/
theorem test_wf_address_size : Instr.wellFormed (.movR8Rm8 a32 .al (.mem (.based16 .bx .none))) = false := by decide
/-- A 32-bit addressing form in an instruction with 16-bit addresses (R102). -/
theorem test_wf_address_size_32 : Instr.wellFormed (.movR8Rm8 a16 .al (.mem (.direct32 0#32))) = false := by decide
/-- [BP] has no form without a displacement (R108). -/
theorem test_wf_bp : Instr.wellFormed (.mulRm8 a16 (.mem (.based16 .bp .none))) = false := by decide
/-- [EBP] has no form without a displacement (R109). -/
theorem test_wf_ebp : Instr.wellFormed (.mulRm32 a32 (.mem (.based32 .ebp .none))) = false := by decide
/-- ESP as a base needs a SIB byte (R109, R110). -/
theorem test_wf_esp_base : Instr.wellFormed (.mulRm32 a32 (.mem (.based32 .esp .none))) = false := by decide
/-- ESP is no index register (R110). -/
theorem test_wf_esp_index : Instr.wellFormed (.mulRm32 a32 (.mem (.scaled 1#2 (some .esp) .eax .none))) = false := by decide
/-- No index and a scale that is not 00 (R110, D27; T305). -/
theorem test_wf_scale : Instr.wellFormed (.movR32Rm32 a32 .eax (.mem (.scaled 1#2 none .eax .none))) = false := by decide
/-- The same with no base register (R110). -/
theorem test_wf_scale_no_base : Instr.wellFormed (.movR32Rm32 a32 .eax (.mem (.scaledNoBase 2#2 none 0#32))) = false := by decide
/-- A SIB base of EBP needs a displacement (R110). -/
theorem test_wf_sib_ebp : Instr.wellFormed (.movR32Rm32 a32 .eax (.mem (.scaled 0#2 (some .ecx) .ebp .none))) = false := by decide
/-- A 16-bit `moffs` offset has two bytes (R113). -/
theorem test_wf_moffs : Instr.wellFormed (.movAlMoffs8 a16 0x10000#32) = false := by decide
/-- A well-formed term of the longest instruction (T21). -/
theorem test_wf_accepts : Instr.wellFormed (.movRm32Imm32 ⟨.w32, .w32, some .cs⟩
    (.mem (.scaled 2#2 (some .ecx) .eax (.d32 0x11223344#32))) 0x12345678#32) = true := by decide

/-! ### Decoding: a word of every constructor, written out from the encoding tables of 30_encoding.md (R104 to R117) -/

/-- 88 /r: 11 011 000 (T30). -/
theorem test_decode_movRm8R8 : decode .w16 [0x88#8, 0b11011000#8] = .ok (.movRm8R8 a16 (.reg .al) .bl, 2) := by decide
/-- 89 /r: 11 011 000 (T1). -/
theorem test_decode_movRm16R16 : decode .w16 [0x89#8, 0b11011000#8] = .ok (.movRm16R16 a16 (.reg .eax) .ebx, 2) := by decide
/-- 89 /r: 00 011 000, [EAX] (T70). -/
theorem test_decode_movRm32R32 : decode .w32 [0x89#8, 0b00011000#8]
    = .ok (.movRm32R32 a32 (.mem (.based32 .eax .none)) .ebx, 2) := by decide
/-- 8A /r: 00 100 100, SIB 00 001 011 (T80). -/
theorem test_decode_movR8Rm8 : decode .w32 [0x8A#8, 0b00100100#8, 0b00001011#8]
    = .ok (.movR8Rm8 a32 .ah (.mem (.scaled 0#2 (some .ecx) .ebx .none)), 3) := by decide
/-- 8B /r: 01 000 110, disp8 (T9). -/
theorem test_decode_movR16Rm16 : decode .w16 [0x8B#8, 0b01000110#8, 0xFE#8]
    = .ok (.movR16Rm16 a16 .eax (.mem (.based16 .bp (.d8 0xFE#8))), 3) := by decide
/-- 8B /r: 01 011 100, SIB 10 111 110, disp8 (T13). -/
theorem test_decode_movR32Rm32 : decode .w32 [0x8B#8, 0b01011100#8, 0b10111110#8, 0x08#8]
    = .ok (.movR32Rm32 a32 .ebx (.mem (.scaled 2#2 (some .edi) .esi (.d8 0x08#8))), 4) := by decide
/-- 8C /r: 11 001 000 (T91). -/
theorem test_decode_movRm16Sreg : decode .w16 [0x8C#8, 0b11001000#8] = .ok (.movRm16Sreg a16 (.reg .eax) .cs, 2) := by decide
/-- 8E /r: 11 100 000 (T125's FS). -/
theorem test_decode_movSregRm16 : decode .w32 [0x8E#8, 0b11100000#8] = .ok (.movSregRm16 a32 .fs (.reg .eax), 2) := by decide
/-- A0 with a 4-byte offset and FS (T19). -/
theorem test_decode_movAlMoffs8 : decode .w32 [0x64#8, 0xA0#8, 0x78#8, 0x56#8, 0x34#8, 0x12#8]
    = .ok (.movAlMoffs8 ⟨.w32, .w32, some .fs⟩ 0x12345678#32, 6) := by decide
/-- A1 with a 2-byte offset (T5). -/
theorem test_decode_movAxMoffs16 : decode .w16 [0xA1#8, 0x00#8, 0x20#8] = .ok (.movAxMoffs16 a16 0x2000#32, 3) := by decide
/-- 66 A1: the offset still has 2 bytes (T6). -/
theorem test_decode_movEaxMoffs32 : decode .w16 [0x66#8, 0xA1#8, 0x00#8, 0x20#8]
    = .ok (.movEaxMoffs32 a3216 0x2000#32, 4) := by decide
/-- A2 (T47). -/
theorem test_decode_movMoffs8Al : decode .w16 [0xA2#8, 0x00#8, 0x20#8] = .ok (.movMoffs8Al a16 0x2000#32, 3) := by decide
/-- A3 (T48). -/
theorem test_decode_movMoffs16Ax : decode .w16 [0xA3#8, 0x00#8, 0x20#8] = .ok (.movMoffs16Ax a16 0x2000#32, 3) := by decide
/-- A3 (P3, step 10). -/
theorem test_decode_movMoffs32Eax : decode .w32 [0xA3#8, 0x10#8, 0x10#8, 0x00#8, 0x00#8]
    = .ok (.movMoffs32Eax a32 0x1010#32, 5) := by decide
/-- B0 + 100: AH (T55). -/
theorem test_decode_movReg8Imm8 : decode .w16 [0b10110100#8, 0x7F#8] = .ok (.movReg8Imm8 a16 .ah 0x7F#8, 2) := by decide
/-- B8 + 011: BX (T57). -/
theorem test_decode_movReg16Imm16 : decode .w16 [0b10111011#8, 0x34#8, 0x12#8]
    = .ok (.movReg16Imm16 a16 .ebx 0x1234#16, 3) := by decide
/-- B8 + 111: EDI (T60). -/
theorem test_decode_movReg32Imm32 : decode .w32 [0b10111111#8, 0x78#8, 0x56#8, 0x34#8, 0x12#8]
    = .ok (.movReg32Imm32 a32 .edi 0x12345678#32, 5) := by decide
/-- C6 /0: 00 000 110, disp16 before the immediate (T20). -/
theorem test_decode_movRm8Imm8 : decode .w16 [0xC6#8, 0b00000110#8, 0x00#8, 0x20#8, 0x55#8]
    = .ok (.movRm8Imm8 a16 (.mem (.direct16 0x2000#16)) 0x55#8, 5) := by decide
/-- C7 /0: 01 000 111, disp8 (T66). -/
theorem test_decode_movRm16Imm16 : decode .w16 [0xC7#8, 0b01000111#8, 0x02#8, 0x34#8, 0x12#8]
    = .ok (.movRm16Imm16 a16 (.mem (.based16 .bx (.d8 0x02#8))) 0x1234#16, 5) := by decide
/-- C7 /0 with three prefixes, SIB 10 001 000 and disp32: 14 bytes (T21). -/
theorem test_decode_movRm32Imm32 : decode .w16 [0x66#8, 0x67#8, 0x2E#8, 0xC7#8, 0b10000100#8, 0b10001000#8, 0x44#8, 0x33#8,
      0x22#8, 0x11#8, 0x78#8, 0x56#8, 0x34#8, 0x12#8]
    = .ok (.movRm32Imm32 ⟨.w32, .w32, some .cs⟩ (.mem (.scaled 2#2 (some .ecx) .eax (.d32 0x11223344#32))) 0x12345678#32, 14) :=
  by decide
/-- 0F 20 /r: 11 010 001 (T173). -/
theorem test_decode_movR32Cr : decode .w16 [0x0F#8, 0x20#8, 0b11010001#8] = .ok (.movR32Cr a16 .ecx .cr2, 3) := by decide
/-- 0F 22 /r: 11 011 000 (T183). -/
theorem test_decode_movCrR32 : decode .w32 [0x0F#8, 0x22#8, 0b11011000#8] = .ok (.movCrR32 a32 .cr3 .eax, 3) := by decide
/-- 0F 21 /r: 11 001 010 (T175). -/
theorem test_decode_movR32Dr03 : decode .w16 [0x0F#8, 0x21#8, 0b11001010#8] = .ok (.movR32Dr03 a16 .edx .dr1, 3) := by decide
/-- 0F 21 /r: 11 111 000 (T177). -/
theorem test_decode_movR32Dr67 : decode .w32 [0x0F#8, 0x21#8, 0b11111000#8] = .ok (.movR32Dr67 a32 .eax .dr7, 3) := by decide
/-- 0F 23 /r: 11 001 011 (T174). -/
theorem test_decode_movDr03R32 : decode .w16 [0x0F#8, 0x23#8, 0b11001011#8] = .ok (.movDr03R32 a16 .dr1 .ebx, 3) := by decide
/-- 0F 23 /r: 11 110 000 (T178). -/
theorem test_decode_movDr67R32 : decode .w32 [0x0F#8, 0x23#8, 0b11110000#8] = .ok (.movDr67R32 a32 .dr6 .eax, 3) := by decide
/-- 0F 24 /r: 11 110 000 (T182). -/
theorem test_decode_movR32Tr : decode .w32 [0x0F#8, 0x24#8, 0b11110000#8] = .ok (.movR32Tr a32 .eax .tr6, 3) := by decide
/-- 0F 26 /r: 11 111 001 (T181). -/
theorem test_decode_movTrR32 : decode .w32 [0x0F#8, 0x26#8, 0b11111001#8] = .ok (.movTrR32 a32 .tr7 .ecx, 3) := by decide
/-- A4 with the ES override (T208). -/
theorem test_decode_movs8 : decode .w16 [0x26#8, 0xA4#8] = .ok (.movs8 ⟨.w16, .w16, some .es⟩, 2) := by decide
/-- A5 (T202). -/
theorem test_decode_movs16 : decode .w16 [0xA5#8] = .ok (.movs16 a16, 1) := by decide
/-- A5 with 32-bit operands (T203). -/
theorem test_decode_movs32 : decode .w16 [0x66#8, 0xA5#8] = .ok (.movs32 a3216, 2) := by decide
/-- F3 A4 after 67 (T221). -/
theorem test_decode_repMovs8 : decode .w32 [0x67#8, 0xF3#8, 0xA4#8] = .ok (.repMovs8 ⟨.w32, .w16, none⟩, 3) := by decide
/-- F3 66 A5 and 66 F3 A5: the prefixes in any order (T23). -/
theorem test_decode_repMovs16 : decode .w32 [0xF3#8, 0x66#8, 0xA5#8] = .ok (.repMovs16 a1632, 3)
    ∧ decode .w32 [0x66#8, 0xF3#8, 0xA5#8] = .ok (.repMovs16 a1632, 3) := by decide
/-- F3 A5 with 32-bit operands (T220). -/
theorem test_decode_repMovs32 : decode .w32 [0xF3#8, 0xA5#8] = .ok (.repMovs32 a32, 2) := by decide
/-- 0F BE /r: 11 000 100, AH (T232). -/
theorem test_decode_movsxR16Rm8 : decode .w16 [0x0F#8, 0xBE#8, 0b11000100#8]
    = .ok (.movsxR16Rm8 a16 .eax (.reg .ah), 3) := by decide
/-- 66 0F BE /r: 00 000 100, [SI] (T250). -/
theorem test_decode_movsxR32Rm8 : decode .w16 [0x66#8, 0x0F#8, 0xBE#8, 0b00000100#8]
    = .ok (.movsxR32Rm8 a3216 .eax (.mem (.based16 .si .none)), 4) := by decide
/-- 0F BF /r: 11 000 001 (T242). -/
theorem test_decode_movsxR32Rm16 : decode .w32 [0x0F#8, 0xBF#8, 0b11000001#8]
    = .ok (.movsxR32Rm16 a32 .eax (.reg .ecx), 3) := by decide
/-- 0F B6 /r: 00 000 110, disp16 (T251). -/
theorem test_decode_movzxR16Rm8 : decode .w16 [0x0F#8, 0xB6#8, 0b00000110#8, 0xFF#8, 0xFF#8]
    = .ok (.movzxR16Rm8 a16 .eax (.mem (.direct16 0xFFFF#16)), 5) := by decide
/-- 0F B6 /r: 11 000 011 (T239). -/
theorem test_decode_movzxR32Rm8 : decode .w32 [0x0F#8, 0xB6#8, 0b11000011#8]
    = .ok (.movzxR32Rm8 a32 .eax (.reg .bl), 3) := by decide
/-- 0F B7 /r: 11 000 001 (T245). -/
theorem test_decode_movzxR32Rm16 : decode .w32 [0x0F#8, 0xB7#8, 0b11000001#8]
    = .ok (.movzxR32Rm16 a32 .eax (.reg .ecx), 3) := by decide
/-- F6 /4: 00 100 101, disp32 (T290). -/
theorem test_decode_mulRm8 : decode .w32 [0xF6#8, 0b00100101#8, 0x00#8, 0x10#8, 0x00#8, 0x00#8]
    = .ok (.mulRm8 a32 (.mem (.direct32 0x1000#32)), 6) := by decide
/-- F7 /4: 11 100 011 (T271). -/
theorem test_decode_mulRm16 : decode .w16 [0xF7#8, 0b11100011#8] = .ok (.mulRm16 a16 (.reg .ebx), 2) := by decide
/-- F7 /4: 00 100 000, [EAX] (T289). -/
theorem test_decode_mulRm32 : decode .w32 [0xF7#8, 0b00100000#8] = .ok (.mulRm32 a32 (.mem (.based32 .eax .none)), 2) := by decide

/-- SIB with mod 00 and base 101: no base register (T14, T15). -/
theorem test_decode_sib_no_base : decode .w32 [0x8B#8, 0x04#8, 0x8D#8, 0x00#8, 0x10#8, 0x00#8, 0x00#8]
      = .ok (.movR32Rm32 a32 .eax (.mem (.scaledNoBase 2#2 (some .ecx) 0x1000#32)), 7)
    ∧ decode .w32 [0x8B#8, 0x04#8, 0x25#8, 0x00#8, 0x10#8, 0x00#8, 0x00#8]
      = .ok (.movR32Rm32 a32 .eax (.mem (.scaledNoBase 0#2 none 0x1000#32)), 7) := by decide
/-- The refusals of T300 to T306. -/
theorem test_decode_refusals : decode .w32 [0x8D#8, 0x07#8] = .error (.refuse .opcodeOutside)
    ∧ decode .w32 [0xC6#8, 0xC8#8, 0x12#8] = .error (.refuse .reservedDigit)
    ∧ decode .w32 [0xF0#8, 0x88#8, 0x18#8] = .error (.refuse .lock)
    ∧ decode .w32 [0xF3#8, 0x88#8, 0xD8#8] = .error (.refuse .misplacedRep)
    ∧ decode .w32 [0x66#8, 0x66#8, 0x89#8, 0xD8#8] = .error (.refuse .repeatedKind)
    ∧ decode .w32 [0x8B#8, 0x04#8, 0x60#8] = .error (.refuse .scaledNoIndex)
    ∧ decode .w32 [0x90#8] = .error (.refuse .opcodeOutside) := by decide
/-- After F3h the opcode is looked up before the REP byte is refused (R119, steps (3) and (4) of R122). -/
theorem test_decode_rep_refusals : decode .w32 [0xF3#8, 0x90#8] = .error (.refuse .opcodeOutside)
    ∧ decode .w32 [0xF3#8, 0x0F#8, 0xA2#8] = .error (.refuse .opcodeOutside)
    ∧ decode .w32 [0xF3#8, 0xF6#8, 0xC3#8] = .error (.refuse .opcodeOutside)
    ∧ decode .w32 [0xF3#8, 0xF6#8, 0xE3#8] = .error (.refuse .misplacedRep)
    ∧ decode .w32 [0x2E#8, 0xF3#8, 0xB0#8] = .error (.refuse .misplacedRep)
    ∧ decode .w32 [0xF3#8, 0x88#8] = .error .more
    ∧ decode .w32 [0xF3#8, 0xF2#8, 0xA4#8] = .error (.refuse .repne)
    ∧ decode .w16 [0x0F#8, 0xBF#8] = .error .more
    ∧ decode .w16 [0x0F#8, 0xBF#8, 0xC3#8] = .error (.refuse .wordSourceWordSize) := by decide
/-- The bytes before the opcode in any order (R101): 67 2E 66 89 /r, and 2E 66 before an opcode outside section 17.3.M. -/
theorem test_decode_any_order : decode .w16 [0x67#8, 0x2E#8, 0x66#8, 0x89#8, 0x18#8]
      = .ok (.movRm32R32 ⟨.w32, .w32, some .cs⟩ (.mem (.based32 .eax .none)) .ebx, 5)
    ∧ decode .w16 [0x2E#8, 0x66#8, 0x90#8] = .error (.refuse .opcodeOutside) := by decide
/-- A word of opcode_table.json, the first byte lowest: 0F B6 /r with the ModRM byte C3h (log 4). -/
theorem test_decodeTableWord : decodeTableWord 24 0xC3B60F = some (.movzxR16Rm8 a16 .eax (.reg .bl)) := by decide

/-! ### The base states of 95_test_vectors.md -/

/-- A valid segment register. -/
def segOf (sel : BitVec 16) (base limit : Word) (ar : Byte) (big : Bool) : Segment := ⟨sel, true, base, limit, ar, big⟩

/-- REG0. -/
def reg0 : Regs where
  eax := 0x11223344#32
  ecx := 0x99AABBCC#32
  edx := 0xDDEEFF00#32
  ebx := 0x55667788#32
  esp := 0x00001000#32
  ebp := 0x00002000#32
  esi := 0x00000100#32
  edi := 0x00000200#32

/-- A16 with REG0: Real Address Mode. -/
def A16 : State := { State.reset with
  regs := reg0
  pc := 0x0100#32
  segs := { es := segOf 0x3000#16 0x30000#32 0xFFFF#32 0x93#8 false, cs := segOf 0x1000#16 0x10000#32 0xFFFF#32 0x9B#8 false,
            ss := segOf 0x4000#16 0x40000#32 0xFFFF#32 0x93#8 false, ds := segOf 0x2000#16 0x20000#32 0xFFFF#32 0x93#8 false,
            fs := segOf 0x5000#16 0x50000#32 0xFFFF#32 0x93#8 false, gs := segOf 0x6000#16 0x60000#32 0xFFFF#32 0x93#8 false }
  cr0 := 0x00000010#32 }

/-- A flat 4-gigabyte segment. -/
def flat (sel : BitVec 16) (ar : Byte) : Segment := segOf sel 0#32 0xFFFFFFFF#32 ar true

/-- P32 with REG0: Protected Mode, flat, privilege level 0. -/
def P32 : State := { State.reset with
  regs := reg0
  pc := 0x0100#32
  segs := { es := flat 0x10#16 0x93#8, cs := flat 0x8#16 0x9B#8, ss := flat 0x10#16 0x93#8, ds := flat 0x10#16 0x93#8,
            fs := flat 0x10#16 0x93#8, gs := flat 0x10#16 0x93#8 }
  cr0 := 0x00000011#32 }

/-- `A16` in Virtual 8086 Mode. -/
def V86 : State := { A16 with cr0 := 0x00000011#32, flags := { A16.flags with vm := true } }

/-- Bytes placed from an address up. -/
def withBytes (m : Memory) : Nat → List Byte → Memory
  | _, [] => m
  | a, b :: r => withBytes (Memory.write m a b) (a + 1) r

/-- A state with bytes placed from an address up. -/
def put (s : State) (a : Nat) (bs : List Byte) : State := { s with mem := withBytes s.mem a bs }

/-- PG: P32 with a global table of four entries, the AR byte of entry 2 being `ar2`, and AX = `sel`. -/
def PG (ar2 : Byte) (sel : BitVec 16) : State :=
  (put { P32 with gdtr := { base := 0x2000#32, limit := 0x27#16 }, regs := P32.regs.set16 .eax sel } 0x2008
    [0xFF#8, 0xFF#8, 0x00#8, 0x00#8, 0x00#8, 0x9B#8, 0xCF#8, 0x00#8, 0xFF#8, 0xFF#8, 0x00#8, 0x00#8, 0x01#8, ar2, 0x40#8, 0x00#8,
     0xFF#8, 0xFF#8, 0x00#8, 0x00#8, 0x00#8, 0xF3#8, 0xCF#8, 0x00#8, 0x00#8, 0x00#8, 0x00#8, 0x00#8, 0x00#8, 0x82#8, 0x00#8, 0x00#8])

/-- A state with bytes placed from an address up and named as program text (log 13). -/
def text (s : State) (a : Nat) (bs : List Byte) : State := { put s a bs with code := ⟨a, a + bs.length⟩ :: s.code }

/-- One step with these bytes at the program counter. -/
def ran (s : State) (bs : List Byte) : Host.Outcome State Fault Refusal :=
  step (text s (s.segs.cs.base + s.pc).toNat bs)

/-- What a next state shows, where the outcome is one. -/
def shows {α : Type} (o : Host.Outcome State Fault Refusal) (f : State → α) : Option α :=
  match o with
  | .next t => some (f t)
  | .fault _ | .refused _ => none

/-- The fault of an outcome. -/
def faultOf (o : Host.Outcome State Fault Refusal) : Option Fault :=
  match o with
  | .fault e => some e
  | .next _ | .refused _ => none

/-- The refusal of an outcome. -/
def refusalOf (o : Host.Outcome State Fault Refusal) : Option Refusal :=
  match o with
  | .refused r => some r
  | .next _ | .fault _ => none

/-! ### Single steps: the vectors of 95_test_vectors.md -/

/-- MOV AH,AL keeps the other bytes (T31). -/
theorem test_movRm8R8 : shows (ran A16 [0x88#8, 0xC4#8]) (fun t => (t.regs.eax, t.pc))
    = some (0x11224444#32, 0x102#32) := by decide
/-- MOV AX,BX keeps bits 31:16 (T33). -/
theorem test_movRm16R16 : shows (ran A16 [0x89#8, 0xD8#8]) (fun t => (t.regs.eax, t.pc))
    = some (0x11227788#32, 0x102#32) := by decide
/-- MOV [EAX],EBX, little-endian (T70). -/
theorem test_movRm32R32 : shows (ran P32 [0x89#8, 0x18#8])
    (fun t => (Memory.read t.mem 0x11223344, Memory.read t.mem 0x11223347, t.pc))
    = some (some 0x88#8, some 0x55#8, 0x102#32) := by decide
/-- MOV AH,[EBX+ECX] (T80). -/
theorem test_movR8Rm8 : shows (ran (put ((P32.setReg .ecx 0x10#32).setReg .ebx 0x5000#32) 0x5010 [0xE7#8]) [0x8A#8, 0x24#8, 0x0B#8])
    (fun t => (t.regs.eax, t.pc))
    = some (0x1122E744#32, 0x103#32) := by decide
/-- MOV AX,[BP-2] through SS (T37). -/
theorem test_movR16Rm16 : shows (ran (put A16 0x41FFE [0x34#8, 0x12#8]) [0x8B#8, 0x46#8, 0xFE#8]) (fun t => (t.regs.eax, t.pc))
    = some (0x11221234#32, 0x103#32) := by decide
/-- MOV EBX,[ESI+EDI*4+8] (T71). -/
theorem test_movR32Rm32 : shows (ran (put P32 0x908 [0x04#8, 0x03#8, 0x02#8, 0x01#8]) [0x8B#8, 0x5C#8, 0xBE#8, 0x08#8])
    (fun t => (t.regs.ebx, t.pc))
    = some (0x01020304#32, 0x104#32) := by decide
/-- MOV [ESI+2],DS writes 2 bytes whatever the operand size (T95, with pc away from the bytes stored: R79, log 13). -/
theorem test_movRm16Sreg : shows (ran (put { P32 with pc := 0x400#32 } 0x104 [0xAA#8]) [0x8C#8, 0x5E#8, 0x02#8])
    (fun t => (Memory.read t.mem 0x102, Memory.read t.mem 0x103, t.pc))
    = some (some 0x10#8, some 0x00#8, 0x403#32) := by decide
/-- MOV SS,AX in Real Address Mode sets the latch (T102). -/
theorem test_movSregRm16 : shows (ran (A16.setReg .eax 0x1122FFFF#32) [0x8E#8, 0xD0#8])
    (fun t => (t.segs.ss.sel, t.segs.ss.base, t.inhibit, t.pc))
    = some (0xFFFF#16, 0xFFFF0#32, true, 0x102#32) := by decide
/-- MOV DS,AX reads the descriptor and writes its Accessed bit (T111). -/
theorem test_movSregRm16_protected : shows (ran (PG 0x92#8 0x10#16) [0x8E#8, 0xD8#8])
    (fun t => (t.segs.ds, Memory.read t.mem 0x2015, t.inhibit))
    = some (segOf 0x10#16 0x10000#32 0xFFFF#32 0x92#8 true, some 0x93#8, false) := by decide
/-- MOV AL,[2000h] (T46). -/
theorem test_movAlMoffs8 : shows (ran (put A16 0x22000 [0x0D#8, 0x0C#8]) [0xA0#8, 0x00#8, 0x20#8]) (fun t => (t.regs.eax, t.pc))
    = some (0x1122330D#32, 0x103#32) := by decide
/-- MOV AX,[2000h] (T45). -/
theorem test_movAxMoffs16 : shows (ran (put A16 0x22000 [0x0D#8, 0x0C#8, 0x0B#8]) [0xA1#8, 0x00#8, 0x20#8])
    (fun t => (t.regs.eax, t.pc))
    = some (0x11220C0D#32, 0x103#32) := by decide
/-- MOV EAX,[2000h] (T44). -/
theorem test_movEaxMoffs32 : shows (ran (put A16 0x22000 [0x0D#8, 0x0C#8, 0x0B#8, 0x0A#8]) [0x66#8, 0xA1#8, 0x00#8, 0x20#8])
    (fun t => (t.regs.eax, t.pc))
    = some (0x0A0B0C0D#32, 0x104#32) := by decide
/-- MOV [FFFFh],AL: the last offset is legal (T50). -/
theorem test_movMoffs8Al : shows (ran A16 [0xA2#8, 0xFF#8, 0xFF#8]) (fun t => (Memory.read t.mem 0x2FFFF, t.pc))
    = some (some 0x44#8, 0x103#32) := by decide
/-- MOV [2000h],AX (T48). -/
theorem test_movMoffs16Ax : shows (ran A16 [0xA3#8, 0x00#8, 0x20#8])
    (fun t => (Memory.read t.mem 0x22000, Memory.read t.mem 0x22001, t.pc))
    = some (some 0x44#8, some 0x33#8, 0x103#32) := by decide
/-- MOV [2000h],EAX (T49). -/
theorem test_movMoffs32Eax : shows (ran A16 [0x66#8, 0xA3#8, 0x00#8, 0x20#8])
    (fun t => (Memory.read t.mem 0x22000, Memory.read t.mem 0x22003, t.pc))
    = some (some 0x44#8, some 0x11#8, 0x104#32) := by decide
/-- MOV AH,7Fh (T55). -/
theorem test_movReg8Imm8 : shows (ran A16 [0xB4#8, 0x7F#8]) (fun t => (t.regs.eax, t.pc))
    = some (0x11227F44#32, 0x102#32) := by decide
/-- MOV BX,1234h (T57). -/
theorem test_movReg16Imm16 : shows (ran A16 [0xBB#8, 0x34#8, 0x12#8]) (fun t => (t.regs.ebx, t.pc))
    = some (0x55661234#32, 0x103#32) := by decide
/-- MOV EDI,12345678h (T60). -/
theorem test_movReg32Imm32 : shows (ran P32 [0xBF#8, 0x78#8, 0x56#8, 0x34#8, 0x12#8]) (fun t => (t.regs.edi, t.pc))
    = some (0x12345678#32, 0x105#32) := by decide
/-- MOV byte [2000h],55h (T65). -/
theorem test_movRm8Imm8 : shows (ran A16 [0xC6#8, 0x06#8, 0x00#8, 0x20#8, 0x55#8]) (fun t => (Memory.read t.mem 0x22000, t.pc))
    = some (some 0x55#8, 0x105#32) := by decide
/-- MOV word [BX+2],1234h (T66). -/
theorem test_movRm16Imm16 : shows (ran A16 [0xC7#8, 0x47#8, 0x02#8, 0x34#8, 0x12#8])
    (fun t => (Memory.read t.mem 0x2778A, Memory.read t.mem 0x2778B, t.pc))
    = some (some 0x34#8, some 0x12#8, 0x105#32) := by decide
/-- MOV dword [EAX],12345678h (T67). -/
theorem test_movRm32Imm32 : shows (ran (P32.setReg .eax 0x4000#32) [0xC7#8, 0x00#8, 0x78#8, 0x56#8, 0x34#8, 0x12#8])
    (fun t => (Memory.read t.mem 0x4000, Memory.read t.mem 0x4003, t.pc))
    = some (some 0x78#8, some 0x12#8, 0x106#32) := by decide
/-- MOV EAX,CR3 writes all 32 bits in 16-bit code; bits 31:12 are defined (R34, R200, R203). -/
theorem test_movR32Cr : shows (ran { A16 with cr3 := 0x12345000#32, flags := { A16.flags with df := true } } [0x0F#8, 0x20#8, 0xD8#8])
    (fun t => (t.flags.df, t.pc))
    = some (true, 0x103#32) := by decide
/-- MOV CR2,EBX (T172). -/
theorem test_movCrR32 : shows (ran A16 [0x0F#8, 0x22#8, 0xD3#8]) (fun t => (t.cr2, t.pc))
    = some (0x55667788#32, 0x103#32) := by decide
/-- MOV CR0,EAX with PE = 0: Real Address Mode from the next instruction on (T185). -/
theorem test_movCrR32_mode : shows (ran (P32.setReg .eax 0x10#32) [0x0F#8, 0x22#8, 0xC0#8])
    (fun t => (t.mode, t.segs.cs.limit, t.pc))
    = some (.real, 0xFFFFFFFF#32, 0x103#32) := by decide
/-- MOV EDX,DR1 (T175). -/
theorem test_movR32Dr03 : shows (ran { A16 with dr1 := 0x55667788#32 } [0x0F#8, 0x21#8, 0xCA#8]) (fun t => (t.regs.edx, t.pc))
    = some (0x55667788#32, 0x103#32) := by decide
/-- MOV EAX,DR7 leaves DF and the other registers (T177). -/
theorem test_movR32Dr67 : shows (ran { P32 with flags := { P32.flags with df := true } } [0x0F#8, 0x21#8, 0xF8#8])
    (fun t => (t.regs.ebx, t.flags.df, t.pc))
    = some (0x55667788#32, true, 0x103#32) := by decide
/-- MOV DR1,EBX (T174). -/
theorem test_movDr03R32 : shows (ran A16 [0x0F#8, 0x23#8, 0xCB#8]) (fun t => (t.dr1, t.pc))
    = some (0x55667788#32, 0x103#32) := by decide
/-- MOV DR7,EAX with bits 7:0 clear (T179). -/
theorem test_movDr67R32 : shows (ran (P32.setReg .eax 0x400#32) [0x0F#8, 0x23#8, 0xF8#8]) (fun t => (t.dr7, t.pc))
    = some (0x400#32, 0x103#32) := by decide
/-- MOV EAX,TR6 leaves TR6 (R209). -/
theorem test_movR32Tr : shows (ran { P32 with tr6 := 0x1000#32 } [0x0F#8, 0x24#8, 0xF0#8]) (fun t => (t.tr6, t.pc))
    = some (0x1000#32, 0x103#32) := by decide
/-- MOV TR7,ECX (T181). -/
theorem test_movTrR32 : shows (ran (P32.setReg .ecx 0x200000#32) [0x0F#8, 0x26#8, 0xF9#8]) (fun t => (t.tr7, t.tlbTested, t.pc))
    = some (0x200000#32, false, 0x103#32) := by decide
/-- MOVSB wraps SI and keeps bits 31:16 (T205). -/
theorem test_movs8 : shows (ran (put (A16.setReg .esi 0xABCDFFFF#32) 0x2FFFF [0x5A#8]) [0xA4#8])
    (fun t => (Memory.read t.mem 0x30200, t.regs.esi, t.regs.edi, t.pc))
    = some (some 0x5A#8, 0xABCD0000#32, 0x201#32, 0x101#32) := by decide
/-- MOVSW (T202). -/
theorem test_movs16 : shows (ran (put A16 0x20100 [0x41#8, 0x42#8]) [0xA5#8])
    (fun t => (Memory.read t.mem 0x30201, t.regs.esi, t.regs.edi, t.pc))
    = some (some 0x42#8, 0x102#32, 0x202#32, 0x101#32) := by decide
/-- MOVSD with DF = 1 (T211). -/
theorem test_movs32 : shows (ran (put (({ P32 with flags := { P32.flags with df := true } }.setReg .esi 0x1010#32).setReg .edi 0x2010#32) 0x1010
    [0xEF#8, 0xBE#8, 0xAD#8, 0xDE#8]) [0xA5#8]) (fun t => (Memory.read t.mem 0x2013, t.regs.esi, t.regs.edi, t.pc))
    = some (some 0xDE#8, 0x100C#32, 0x200C#32, 0x101#32) := by decide
/-- REP MOVSB, the first of three iterations (T214). -/
theorem test_repMovs8 : shows (ran (put (A16.setReg .ecx 0x99AA0003#32) 0x20100 [0x41#8]) [0xF3#8, 0xA4#8])
    (fun t => (Memory.read t.mem 0x30200, t.regs.esi, t.regs.ecx, t.pc))
    = some (some 0x41#8, 0x101#32, 0x99AA0002#32, 0x100#32) := by decide
/-- REP MOVSW, the last iteration (R236). -/
theorem test_repMovs16 : shows (ran (put (A16.setReg .ecx 0x99AA0001#32) 0x20100 [0x41#8, 0x42#8]) [0xF3#8, 0xA5#8])
    (fun t => (Memory.read t.mem 0x30201, t.regs.edi, t.regs.ecx, t.pc))
    = some (some 0x42#8, 0x202#32, 0x99AA0000#32, 0x102#32) := by decide
/-- REP MOVSD counts with ECX (T220). -/
theorem test_repMovs32 : shows (ran (put (((P32.setReg .ecx 0x2#32).setReg .esi 0x1000#32).setReg .edi 0x2000#32) 0x1000
      [0x41#8, 0x42#8, 0x43#8, 0x44#8]) [0xF3#8, 0xA5#8])
    (fun t => (Memory.read t.mem 0x2003, t.regs.esi, t.regs.edi, t.regs.ecx, t.pc))
    = some (some 0x44#8, 0x1004#32, 0x2004#32, 0x1#32, 0x100#32) := by decide
/-- MOVSX AX,AH reads the old AH (T232). -/
theorem test_movsxR16Rm8 : shows (ran (A16.setReg .eax 0x1122F044#32) [0x0F#8, 0xBE#8, 0xC4#8]) (fun t => (t.regs.eax, t.pc))
    = some (0x1122FFF0#32, 0x103#32) := by decide
/-- MOVSX EAX,byte [SI] (T250). -/
theorem test_movsxR32Rm8 : shows (ran (put A16 0x20100 [0xF0#8]) [0x66#8, 0x0F#8, 0xBE#8, 0x04#8]) (fun t => (t.regs.eax, t.pc))
    = some (0xFFFFFFF0#32, 0x104#32) := by decide
/-- MOVSX EAX,CX (T242). -/
theorem test_movsxR32Rm16 : shows (ran (P32.setReg .ecx 0x99AA8000#32) [0x0F#8, 0xBF#8, 0xC1#8]) (fun t => (t.regs.eax, t.pc))
    = some (0xFFFF8000#32, 0x103#32) := by decide
/-- MOVZX AX,byte [FFFFh] (T251). -/
theorem test_movzxR16Rm8 : shows (ran (put A16 0x2FFFF [0x9C#8]) [0x0F#8, 0xB6#8, 0x06#8, 0xFF#8, 0xFF#8])
    (fun t => (t.regs.eax, t.pc))
    = some (0x1122009C#32, 0x105#32) := by decide
/-- MOVZX EAX,BL (T239). -/
theorem test_movzxR32Rm8 : shows (ran (P32.setReg .ebx 0x55667780#32) [0x0F#8, 0xB6#8, 0xC3#8]) (fun t => (t.regs.eax, t.pc))
    = some (0x80#32, 0x103#32) := by decide
/-- MOVZX EAX,CX (T245). -/
theorem test_movzxR32Rm16 : shows (ran (P32.setReg .ecx 0x99AA8000#32) [0x0F#8, 0xB7#8, 0xC1#8]) (fun t => (t.regs.eax, t.pc))
    = some (0x8000#32, 0x103#32) := by decide
/-- MUL AH (T268). -/
theorem test_mulRm8 : shows (ran A16 [0xF6#8, 0xE4#8]) (fun t => (t.regs.eax, t.regs.edx, t.flags.cf, t.flags.of))
    = some (0x11220D8C#32, 0xDDEEFF00#32, true, true) := by decide
/-- MUL BX with a product of 16 bits: DX is written, CF and OF are 0 (T274). -/
theorem test_mulRm16 : shows (ran ((A16.setReg .eax 0xFF#32).setReg .ebx 0x101#32) [0xF7#8, 0xE3#8])
    (fun t => (t.regs.eax, t.regs.edx, t.flags.cf, t.flags.of))
    = some (0xFFFF#32, 0xDDEE0000#32, false, false) := by decide
/-- MUL EDX: the old EDX is the factor (T288). -/
theorem test_mulRm32 : shows (ran P32 [0xF7#8, 0xE2#8]) (fun t => (t.regs.eax, t.regs.edx, t.flags.cf, t.flags.of))
    = some (0x6E48BC00#32, 0x0EDA851E#32, true, true) := by decide
/-- A word at offset FFFFh: Interrupt 13, no error code (T51). -/
theorem test_limit_real : faultOf (ran A16 [0xA3#8, 0xFF#8, 0xFF#8])
    = some (.exception 13#8 none none) := by decide
/-- The same in Virtual 8086 Mode: #GP(0) (T163). -/
theorem test_limit_v86 : faultOf (ran V86 [0xA3#8, 0xFF#8, 0xFF#8])
    = some (.exception 13#8 (some 0#16) none) := by decide
/-- A load through a segment that is not valid (T157). -/
theorem test_null_segment : faultOf (ran { P32 with segs := { P32.segs with fs := { P32.segs.fs with valid := false } } } [0x64#8, 0xA0#8, 0#8, 0#8, 0#8, 0#8])
    = some (.exception 13#8 (some 0#16) none) := by decide
/-- MOV DS of a descriptor with P = 0: #NP (T120). -/
theorem test_not_present : faultOf (ran (PG 0x13#8 0x10#16) [0x8E#8, 0xD8#8])
    = some (.exception 11#8 (some 0x10#16) none) := by decide
/-- MOV SS of it: #SS (T134). -/
theorem test_stack_not_present : faultOf (ran (PG 0x13#8 0x10#16) [0x8E#8, 0xD0#8])
    = some (.exception 12#8 (some 0x10#16) none) := by decide
/-- MOV EAX,DR7 at privilege level 1 (T187). -/
theorem test_privilege : faultOf (ran { P32 with segs := { P32.segs with cs := { P32.segs.cs with sel := 0x9#16 } } } [0x0F#8, 0x21#8, 0xF8#8])
    = some (.exception 13#8 (some 0#16) none) := by decide
/-- MOV DR7,EAX with L0 set (T180). -/
theorem test_dr7_enable : refusalOf (ran (P32.setReg .eax 1#32) [0x0F#8, 0x23#8, 0xF8#8])
    = some (.breakpointEnable) := by decide
/-- A store into the text of the running program (T81). -/
theorem test_store_to_code : refusalOf (ran P32 [0xC6#8, 0x05#8, 0x00#8, 0x01#8, 0x00#8, 0x00#8, 0x5A#8])
    = some (.storeToCode) := by decide
/-- A load of a byte that the launch does not give (R41, U13). -/
theorem test_unwritten : faultOf (ran A16 [0xA0#8, 0x00#8, 0x20#8]) = some (.unwritten 0x22000#32) := by decide
/-- Nothing is fetched outside the program's code region (log 13): from reset, with nothing placed, the fetch is refused. -/
theorem test_fetch_outside : refusalOf (step State.reset) = some (.fetchOutsideCode)
    ∧ refusalOf (step (put A16 0x10100 [0x89#8, 0xD8#8])) = some (.fetchOutsideCode) := by decide
/-- The placing of a table word: MOV AX,BX is the first instruction after reset (log 4). -/
theorem test_withFetchWord : shows (step (State.reset.withFetchWord 16 0xD889)) (fun t => t.pc) = some (0xFFF2#32) := by decide

/-! ### Witnesses: for each obligation with hypotheses, states and operands that meet them, clause by clause -/

theorem next_of_shows {α : Type} {o : Host.Outcome State Fault Refusal} {f : State → α} {v : α} (h : shows o f = some v) :
    ∃ t, o = .next t ∧ f t = v := by
  cases o with
  | next t => exact ⟨t, rfl, Option.some.inj h⟩
  | fault e => exact nomatch h
  | refused r => exact nomatch h

theorem fetched {s : State} {bs : List Byte} (hp : s.paging = false)
    (h : ∀ k, k < bs.length → checkAccess s .cs .fetch (s.pc.toNat + k) 1 = .ok ()
      ∧ s.code.contains (s.segs.cs.base + (s.pc + BitVec.ofNat 32 k)) = true
      ∧ bs[k]? = Memory.read s.mem (s.segs.cs.base + (s.pc + BitVec.ofNat 32 k)).toNat) : s.fetches bs := fun k hk =>
  ⟨(checkAccess_ok_iff ..).1 (h k hk).1, _, mapsTo_of_not_paging hp .., (h k hk).2⟩

theorem not_legal {s : State} {g : SegReg} {k : Access} {off n : Nat} {e : Stop} (h : checkAccess s g k off n = .error e) :
    ¬s.accessLegal g k off n := by
  intro hl
  rw [(checkAccess_ok_iff ..).2 hl] at h
  exact nomatch h

theorem raises_of {s : State} {g : SegReg} {k : Access} {off n : Nat} {e : Stop} (h : checkAccess s g k off n = .error e) :
    ∃ x, s.accessRaises g k off n x := (checkAccess_error h).imp fun _ hx => hx.1

/-- The outcome is a next state. -/
def completes (o : Host.Outcome State Fault Refusal) : Bool := (shows o fun _ => ()).isSome

theorem next_of {o : Host.Outcome State Fault Refusal} (h : completes o = true) : ∃ t, o = .next t := by
  cases o with
  | next t => exact ⟨t, rfl⟩
  | fault e => exact nomatch h
  | refused r => exact nomatch h

/-- Two instructions, one after the other. -/
def andThen (s : State) (i j : Instr) : Host.Outcome State Fault Refusal :=
  match exec i s with
  | .next t => exec j t
  | .fault e => .fault e
  | .refused r => .refused r

theorem two_of {s : State} {i j : Instr} (h : completes (andThen s i j) = true) :
    ∃ t u, exec i s = .next t ∧ exec j t = .next u := by
  unfold andThen at h
  cases hi : exec i s with
  | next t => rw [hi] at h; exact (next_of h).elim fun u hu => ⟨t, u, rfl, hu⟩
  | fault e => rw [hi] at h; exact nomatch h
  | refused r => rw [hi] at h; exact nomatch h

theorem fault_of {o : Host.Outcome State Fault Refusal} {e : Fault} (h : faultOf o = some e) : o = .fault e := by
  cases o with
  | next t => exact nomatch h
  | fault x => exact congrArg _ (Option.some.inj h)
  | refused r => exact nomatch h

/-- The bytes from a linear address on have values. -/
def given (m : Memory) (lin : Word) : Nat → Bool
  | 0 => true
  | n + 1 => (Memory.read m lin.toNat).isSome && given m (lin + 1#32) n

theorem placed_of_given {s : State} (hp : s.paging = false) (w u : Bool) {lin : Word} {n : Nat} (h : given s.mem lin n = true) :
    ∃ ps bs, ps.length = n ∧ s.placed w u lin ps ∧ s.holds ps bs := by
  induction n generalizing lin with
  | zero => exact ⟨[], [], rfl, trivial, rfl⟩
  | succ n ih =>
    simp only [given, Bool.and_eq_true, Option.isSome_iff_exists] at h
    obtain ⟨⟨b, h1⟩, h2⟩ := h
    obtain ⟨ps, bs, h3, h4, h5⟩ := ih h2
    exact ⟨lin :: ps, b :: bs, congrArg (· + 1) h3, ⟨mapsTo_of_not_paging hp .., h4⟩, congrArg₂ List.cons h1 h5⟩

theorem canRead_of {s : State} {g : SegReg} {off : Word} {n : Nat} (hp : s.paging = false)
    (hl : checkAccess s g .read off.toNat n = .ok ()) (hb : given s.mem (s.linear g off) n = true) : s.canRead g off n :=
  ⟨(checkAccess_ok_iff ..).1 hl, placed_of_given hp _ _ hb⟩

theorem holds_length {s : State} {ps : List Word} {bs : List Byte} (h : s.holds ps bs) : bs.length = ps.length := by
  rw [← List.length_map (f := some), ← show ps.map (fun p => Memory.read s.mem p.toNat) = bs.map some from h, List.length_map]

theorem reads8_of {s : State} {g : SegReg} {off : Word} (hp : s.paging = false)
    (hl : checkAccess s g .read off.toNat 1 = .ok ()) (hb : given s.mem (s.linear g off) 1 = true) : ∃ v, s.reads8 g off v := by
  obtain ⟨h1, ps, bs, h2, h3, h4⟩ := canRead_of hp hl hb
  match ps, bs, h2, holds_length h4, h3, h4 with
  | [p0], [b0], _, _, h3, h4 => exact ⟨_, h1, p0, h3, h4⟩

theorem reads16_of {s : State} {g : SegReg} {off : Word} (hp : s.paging = false)
    (hl : checkAccess s g .read off.toNat 2 = .ok ()) (hb : given s.mem (s.linear g off) 2 = true) : ∃ v, s.reads16 g off v := by
  obtain ⟨h1, ps, bs, h2, h3, h4⟩ := canRead_of hp hl hb
  match ps, bs, h2, holds_length h4, h3, h4 with
  | [p0, p1], [b0, b1], _, _, h3, h4 => exact ⟨_, h1, p0, p1, b0, b1, h3, h4, rfl⟩

theorem reads32_of {s : State} {g : SegReg} {off : Word} (hp : s.paging = false)
    (hl : checkAccess s g .read off.toNat 4 = .ok ()) (hb : given s.mem (s.linear g off) 4 = true) : ∃ v, s.reads32 g off v := by
  obtain ⟨h1, ps, bs, h2, h3, h4⟩ := canRead_of hp hl hb
  match ps, bs, h2, holds_length h4, h3, h4 with
  | [p0, p1, p2, p3], [b0, b1, b2, b3], _, _, h3, h4 => exact ⟨_, h1, p0, p1, p2, p3, b0, b1, b2, b3, h3, h4, rfl⟩

theorem stores8_of {s : State} {g : SegReg} {off : Word} (v : BitVec 8) (hp : s.paging = false) (hc : s.code = [])
    (hl : checkAccess s g .write off.toNat 1 = .ok ()) : ∃ m, s.stores8 g off v m :=
  ⟨_, (checkAccess_ok_iff ..).1 hl, s.linear g off, ⟨mapsTo_of_not_paging hp .., trivial⟩, by simp [hc, ProgramText.contains], rfl⟩

theorem stores16_of {s : State} {g : SegReg} {off : Word} (v : BitVec 16) (hp : s.paging = false) (hc : s.code = [])
    (hl : checkAccess s g .write off.toNat 2 = .ok ()) : ∃ m, s.stores16 g off v m :=
  ⟨_, (checkAccess_ok_iff ..).1 hl, s.linear g off, s.linear g off + 1#32,
    ⟨mapsTo_of_not_paging hp .., mapsTo_of_not_paging hp .., trivial⟩, by simp [hc, ProgramText.contains],
    by simp [hc, ProgramText.contains], rfl⟩

theorem stores32_of {s : State} {g : SegReg} {off : Word} (v : BitVec 32) (hp : s.paging = false) (hc : s.code = [])
    (hl : checkAccess s g .write off.toNat 4 = .ok ()) : ∃ m, s.stores32 g off v m :=
  ⟨_, (checkAccess_ok_iff ..).1 hl, s.linear g off, s.linear g off + 1#32, s.linear g off + 1#32 + 1#32,
    s.linear g off + 1#32 + 1#32 + 1#32, ⟨mapsTo_of_not_paging hp .., mapsTo_of_not_paging hp .., mapsTo_of_not_paging hp ..,
    mapsTo_of_not_paging hp .., trivial⟩, by simp [hc, ProgramText.contains], by simp [hc, ProgramText.contains],
    by simp [hc, ProgramText.contains], by simp [hc, ProgramText.contains], rfl⟩

theorem descriptorIs_of {s : State} {sel : BitVec 16} {d : BitVec 64} (h : readDescriptor s sel = .ok d) : s.descriptorIs sel d :=
  (readDescriptor_ok_iff ..).1 h

/-- A16 with bytes at DS:100h to DS:105h and at the end of the segment. -/
def A16d : State := put (put A16 0x2FFFC [0x11#8, 0x22#8, 0x33#8, 0x44#8]) 0x20100 [0x41#8, 0x42#8, 0x43#8, 0x44#8, 0x45#8, 0x46#8]

/-- P32 with bytes at 100h to 103h and at the end of the address space. -/
def P32d : State := put (put P32 0xFFFFFFFC [0x11#8, 0x22#8, 0x33#8, 0x44#8]) 0x100 [0x41#8, 0x42#8, 0x43#8, 0x44#8]

/-! #### Encoding -/

theorem witness_DecodeInvertsEncode : Instr.wellFormed (.movMoffs8Al a16 0xFFFF#32) = true
    ∧ Instr.wellFormed (.movRm32Imm32 a32 (.mem (.scaled 0#2 none .esp (.d8 0x80#8))) 0xFFFFFFFF#32) = true
    ∧ Instr.wellFormed (.repMovs32 ⟨.w32, .w32, some .gs⟩) = true
    ∧ [0x65#8, 0xF3#8, 0x67#8, 0x66#8].Perm
        (encodePrefixes .w16 (Instr.attr (.repMovs32 ⟨.w32, .w32, some .gs⟩)) (Instr.isRep (.repMovs32 ⟨.w32, .w32, some .gs⟩))) := by
  decide
theorem witness_DecodedInstructionIsWellFormed : decode .w16 [0xA5#8] = .ok (.movs16 a16, 1) := test_decode_movs16
theorem witness_DecoderNeedsAtMostFourteenBytes : 14 ≤ (List.replicate 14 0x66#8).length := by decide
theorem witness_DecoderIgnoresLaterBytes : decode .w16 [0xA5#8] = .ok (.movs16 a16, 1)
    ∧ decode .w16 [0x66#8, 0x66#8] = .error (.refuse .repeatedKind) := by decide
theorem witness_OpcodesOutsideAreRefused :
    ([0xF3#8, 0x2E#8, 0x66#8].Perm (encodePrefixes .w16 ⟨.w32, .w16, some .cs⟩ true)
      ∧ [0x2E#8, 0x66#8].Perm (encodePrefixes .w16 ⟨.w32, .w16, some .cs⟩ false))
    ∧ (∀ b ∈ [0x87#8, 0x8D#8, 0x9F#8, 0xA6#8, 0xAF#8, 0xC0#8, 0xFF#8], prefixByte b = none
      ∧ b ∉ [0x88#8, 0x89#8, 0x8A#8, 0x8B#8, 0x8C#8, 0x8E#8, 0xC6#8, 0xC7#8, 0xF6#8, 0xF7#8, 0x0F#8]
      ∧ ¬(0xA0 ≤ b.toNat ∧ b.toNat ≤ 0xA5) ∧ ¬(0xB0 ≤ b.toNat ∧ b.toNat ≤ 0xBF))
    ∧ (∀ c ∈ [0x1F#8, 0x25#8, 0x27#8, 0xB5#8, 0xC0#8],
      c ∉ [0x20#8, 0x21#8, 0x22#8, 0x23#8, 0x24#8, 0x26#8, 0xB6#8, 0xB7#8, 0xBE#8, 0xBF#8])
    ∧ regField 0xD8#8 ≠ 4#3 ∧ regField 0xE8#8 ≠ 4#3 := by decide
theorem witness_FormlessEncodingsAreRefused :
    ([0xF3#8, 0x26#8].Perm (encodePrefixes .w32 ⟨.w32, .w32, some .es⟩ true)
      ∧ [0x26#8, 0x67#8, 0x66#8].Perm (encodePrefixes .w16 ⟨.w32, .w32, some .es⟩ false) ∧ [].Perm (encodePrefixes .w16 a16 false))
    ∧ a16.opsize ≠ .w32 ∧ a16.adsize ≠ .w32 ∧ (⟨.w16, .w16, some .es⟩ : Attr).seg.isSome = true
    ∧ regField 0xE3#8 = 4#3 ∧ (∀ c ∈ [0xA0#8, 0xA3#8], 0xA0 ≤ c.toNat ∧ c.toNat ≤ 0xA3)
    ∧ (∀ c ∈ [0xB0#8, 0xBF#8], 0xB0 ≤ c.toNat ∧ c.toNat ≤ 0xBF)
    ∧ regField 0xC8#8 = 1#3 ∧ regField 0xF0#8 = 6#3 ∧ regField 0xF8#8 = 7#3 ∧ regField 0xC8#8 ≠ 0#3 ∧ modField 0x80#8 ≠ 3#2
    ∧ (modField 0xC8#8 = 3#2 ∧ regField 0xC8#8 ∉ [0#3, 2#3, 3#3]) ∧ (modField 0xE0#8 = 3#2 ∧ regField 0xE0#8 ∈ [4#3, 5#3])
    ∧ (modField 0xE8#8 = 3#2 ∧ regField 0xE8#8 ∉ [6#3, 7#3])
    ∧ (a32.adsize = .w32 ∧ a1632.opsize = .w16 ∧ modField 0x04#8 ≠ 3#2 ∧ rmField 0x04#8 = 4#3 ∧ regField 0x60#8 = 4#3
      ∧ modField 0x60#8 ≠ 0#2 ∧ regField 0x04#8 = 0#3 ∧ regField 0x24#8 = 4#3) := by decide

/-! #### Steps, fetching, invariants -/

/-- A16 with MOV AX,BX at the program counter. -/
def A16mov : State := text A16 0x10100 [0x89#8, 0xD8#8]

theorem witness_StepRunsDecodedInstruction : decode A16mov.defaultSize [0x89#8, 0xD8#8] = .ok (.movRm16R16 a16 (.reg .eax) .ebx, 2)
    ∧ A16mov.fetches [0x89#8, 0xD8#8] := ⟨by decide, fetched rfl (by decide)⟩

/-- A16 with LOCK at the program counter. -/
def A16lock : State := text A16 0x10100 [0xF0#8]
/-- A16 with the first byte of MOV AX,BX as its whole text. -/
def A16part : State := text A16 0x10100 [0x89#8]
/-- The same with a second byte of text that has no value. -/
def A16gap : State := { A16part with code := [⟨0x10100, 0x10102⟩] }

theorem witness_StepRefusesByName : (decode A16lock.defaultSize [0xF0#8] = .error (.refuse .lock) ∧ A16lock.fetches [0xF0#8])
    ∧ (decode A16part.defaultSize [0x89#8] = .error .more ∧ A16part.fetches [0x89#8]
      ∧ A16part.accessLegal .cs .fetch (A16part.pc.toNat + 1) 1
      ∧ A16part.mapsTo false A16part.user (A16part.segs.cs.base + (A16part.pc + BitVec.ofNat 32 1)) 0x10101#32
      ∧ A16part.code.contains 0x10101#32 = false) :=
  ⟨⟨by decide, fetched rfl (by decide)⟩, by decide, fetched rfl (by decide), (checkAccess_ok_iff ..).1 rfl,
    mapsTo_of_not_paging rfl .., by decide⟩

/-- The first byte of MOV AX,BX at the last offset of a Real Address Mode segment. -/
def A16end : State := text { A16 with pc := 0xFFFF#32 } 0x1FFFF [0x89#8]
/-- The same at the last offset of a Protected Mode segment. -/
def P32end : State :=
  text { P32 with pc := 0xFFF#32, segs := { P32.segs with cs := segOf 0x8#16 0#32 0xFFF#32 0x9B#8 true } } 0xFFF [0x89#8]

theorem witness_FetchPastLimitFaults :
    (decode A16end.defaultSize [0x89#8] = .error .more ∧ A16end.fetches [0x89#8]
      ∧ ¬A16end.accessLegal .cs .fetch (A16end.pc.toNat + 1) 1 ∧ A16end.mode = .real)
    ∧ (decode P32end.defaultSize [0x89#8] = .error .more ∧ P32end.fetches [0x89#8]
      ∧ ¬P32end.accessLegal .cs .fetch (P32end.pc.toNat + 1) 1 ∧ P32end.mode = .prot)
    ∧ (decode A16gap.defaultSize [0x89#8] = .error .more ∧ A16gap.fetches [0x89#8]
      ∧ A16gap.accessLegal .cs .fetch (A16gap.pc.toNat + 1) 1
      ∧ A16gap.mapsTo false A16gap.user (A16gap.segs.cs.base + (A16gap.pc + BitVec.ofNat 32 1)) 0x10101#32
      ∧ A16gap.code.contains 0x10101#32 = true ∧ Memory.read A16gap.mem (0x10101#32).toNat = none) :=
  ⟨⟨by decide, fetched rfl (by decide), not_legal (e := .fault _) rfl, by decide⟩,
    ⟨by decide, fetched rfl (by decide), not_legal (e := .fault _) rfl, by decide⟩,
    by decide, fetched rfl (by decide), (checkAccess_ok_iff ..).1 rfl, mapsTo_of_not_paging rfl .., by decide, by decide⟩

theorem witness_EveryStepKeepsInv : A16mov.inv ∧ ∃ t, step A16mov = .next t :=
  ⟨⟨by decide, by decide, by decide, by decide, by decide, by decide, by decide⟩,
    (next_of_shows (v := 0x102#32) (f := fun t => t.pc) (by decide)).imp fun _ h => h.1⟩

theorem witness_CodeBytesNeverChange : (∃ t, step A16mov = .next t) ∧ A16mov.code.contains 0x10100#32 = true
    ∧ A16mov.code.contains 0x10101#32 = true :=
  ⟨(next_of_shows (v := 0x102#32) (f := fun t => t.pc) (by decide)).imp fun _ h => h.1, by decide, by decide⟩

/-! #### MOV -/

theorem witness_MovStoresRegister : (∃ t, A16.rmSet8 a16 (.reg .ah) (A16.regs.get8 .al) t)
    ∧ (∃ t, A16.rmSet16 a16 (.reg .esp) (A16.regs.get16 .eax) t) ∧ (∃ t, P32.rmSet32 a32 (.reg .esp) (P32.regs.get .eax) t)
    ∧ (∃ t, A16.rmSet8 a16 (.mem (.direct16 0xFFFF#16)) (A16.regs.get8 .al) t)
    ∧ (∃ t, A16.rmSet16 a16 (.mem (.direct16 0xFFFE#16)) (A16.regs.get16 .eax) t)
    ∧ (∃ t, P32.rmSet32 a32 (.mem (.direct32 0xFFFFFFFC#32)) (P32.regs.get .eax) t) :=
  ⟨⟨_, rfl⟩, ⟨_, rfl⟩, ⟨_, rfl⟩, (stores8_of (s := A16) (g := .ds) (off := 0xFFFF#32) _ rfl rfl rfl).elim fun m h => ⟨_, m, h, rfl⟩,
    (stores16_of (s := A16) (g := .ds) (off := 0xFFFE#32) _ rfl rfl rfl).elim fun m h => ⟨_, m, h, rfl⟩,
    (stores32_of (s := P32) (g := .ds) (off := 0xFFFFFFFC#32) _ rfl rfl rfl).elim fun m h => ⟨_, m, h, rfl⟩⟩

theorem witness_MovLoadsOperand : (∃ v, A16.rmIs8 a16 (.reg .ah) v) ∧ (∃ v, A16.rmIs16 a16 (.reg .esp) v)
    ∧ (∃ v, P32.rmIs32 a32 (.reg .esp) v) ∧ (∃ v, A16d.rmIs8 a16 (.mem (.direct16 0xFFFF#16)) v)
    ∧ (∃ v, A16d.rmIs16 a16 (.mem (.direct16 0xFFFE#16)) v) ∧ (∃ v, P32d.rmIs32 a32 (.mem (.direct32 0xFFFFFFFC#32)) v) :=
  ⟨⟨_, rfl⟩, ⟨_, rfl⟩, ⟨_, rfl⟩, reads8_of (s := A16d) (g := .ds) (off := 0xFFFF#32) rfl rfl rfl,
    reads16_of (s := A16d) (g := .ds) (off := 0xFFFE#32) rfl rfl rfl, reads32_of (s := P32d) (g := .ds) (off := 0xFFFFFFFC#32) rfl rfl rfl⟩

theorem witness_MoffsLoadsAccumulator : (∃ v, A16d.reads8 (a16.seg.getD .ds) 0xFFFF#32 v)
    ∧ (∃ v, A16d.reads16 (a16.seg.getD .ds) 0xFFFE#32 v) ∧ (∃ v, P32d.reads32 (a32.seg.getD .ds) 0xFFFFFFFC#32 v) :=
  ⟨reads8_of rfl rfl rfl, reads16_of rfl rfl rfl, reads32_of rfl rfl rfl⟩

theorem witness_MoffsStoresAccumulator : (∃ m, A16.stores8 (a16.seg.getD .ds) 0xFFFF#32 (A16.regs.get8 .al) m)
    ∧ (∃ m, A16.stores16 (a16.seg.getD .ds) 0xFFFE#32 (A16.regs.get16 .eax) m)
    ∧ (∃ m, P32.stores32 (a32.seg.getD .ds) 0xFFFFFFFC#32 (P32.regs.get .eax) m) :=
  ⟨stores8_of _ rfl rfl rfl, stores16_of _ rfl rfl rfl, stores32_of _ rfl rfl rfl⟩

theorem witness_MovImmediateToOperand : (∃ t, A16.rmSet8 a16 (.reg .ah) 0x80#8 t)
    ∧ (∃ t, A16.rmSet16 a16 (.reg .esp) 0x8000#16 t) ∧ (∃ t, P32.rmSet32 a32 (.reg .esp) 0x80000000#32 t)
    ∧ (∃ t, A16.rmSet8 a16 (.mem (.direct16 0xFFFF#16)) 0x80#8 t)
    ∧ (∃ t, A16.rmSet16 a16 (.mem (.direct16 0xFFFE#16)) 0x8000#16 t)
    ∧ (∃ t, P32.rmSet32 a32 (.mem (.direct32 0xFFFFFFFC#32)) 0x80000000#32 t) :=
  ⟨⟨_, rfl⟩, ⟨_, rfl⟩, ⟨_, rfl⟩, (stores8_of (s := A16) (g := .ds) (off := 0xFFFF#32) _ rfl rfl rfl).elim fun m h => ⟨_, m, h, rfl⟩,
    (stores16_of (s := A16) (g := .ds) (off := 0xFFFE#32) _ rfl rfl rfl).elim fun m h => ⟨_, m, h, rfl⟩,
    (stores32_of (s := P32) (g := .ds) (off := 0xFFFFFFFC#32) _ rfl rfl rfl).elim fun m h => ⟨_, m, h, rfl⟩⟩

theorem witness_MovFromSegmentRegister :
    (∃ m, A16.stores16 (operandSegment a16 (.direct16 0xFFFE#16)) (effectiveAddress A16.regs (.direct16 0xFFFE#16))
      (A16.segs.get .cs).sel m) ∧ a16.opsize = .w16 ∧ a32.opsize = .w32 :=
  ⟨stores16_of _ rfl rfl rfl, rfl, rfl⟩

theorem witness_SegmentLoadOutsideProtectedMode : (A16.mode ≠ .prot ∧ A16.rmIs16 a16 (.reg .eax) 0x3344#16)
    ∧ (V86.mode ≠ .prot ∧ V86.rmIs16 a16 (.reg .eax) 0x3344#16)
    ∧ ∃ v, A16d.rmIs16 a16 (.mem (.direct16 0xFFFE#16)) v :=
  ⟨⟨by decide, rfl⟩, ⟨by decide, rfl⟩, reads16_of (s := A16d) (g := .ds) (off := 0xFFFE#32) rfl rfl rfl⟩

theorem witness_NullSelectorLoads : (PG 0x93#8 0#16).mode = .prot ∧ (PG 0x93#8 0#16).rmIs16 a32 (.reg .eax) 0#16
    ∧ (PG 0x93#8 3#16).rmIs16 a32 (.reg .eax) 3#16 ∧ (3#16).toNat ≤ 3 ∧ SegDest.gs ≠ .ss :=
  ⟨by decide, by show _ = _; decide, by show _ = _; decide, by decide, by decide⟩

/-- LDTR valid, with a table of one entry. -/
def PL : State := { PG 0x93#8 0xC#16 with ldtr := { sel := 0x20#16, valid := true, base := 0x3000#32, limit := 7#32 } }

theorem witness_SelectorOutsideTableFaults :
    ((PG 0x93#8 0x28#16).mode = .prot ∧ (PG 0x93#8 0x28#16).rmIs16 a32 (.reg .eax) 0x28#16 ∧ 3 < (0x28#16).toNat
      ∧ (0x28#16).getLsbD 2 = false ∧ (PG 0x93#8 0x28#16).gdtr.limit.toNat < 8 * ((0x28#16).toNat / 8) + 7)
    ∧ ((PG 0x93#8 4#16).rmIs16 a32 (.reg .eax) 4#16 ∧ 3 < (4#16).toNat ∧ (4#16).getLsbD 2 = true
      ∧ (PG 0x93#8 4#16).ldtr.valid = false)
    ∧ (PL.mode = .prot ∧ PL.rmIs16 a32 (.reg .eax) 0xC#16 ∧ (0xC#16).getLsbD 2 = true
      ∧ PL.ldtr.limit.toNat < 8 * ((0xC#16).toNat / 8) + 7) :=
  ⟨⟨by decide, by show _ = _; decide, by decide, by decide, by decide⟩, ⟨by show _ = _; decide, by decide, by decide, by decide⟩,
    ⟨by decide, by show _ = _; decide, by decide, by decide⟩⟩

/-- The hypotheses of a load of selector `sel` from AX, the descriptor being `d`. -/
def loads (s : State) (sel : BitVec 16) (d : BitVec 64) : Prop :=
  s.mode = .prot ∧ s.rmIs16 a32 (.reg .eax) sel ∧ 3 < sel.toNat ∧ s.descriptorIs sel d

theorem loads_of {s : State} {sel : BitVec 16} {d : BitVec 64} (hm : s.mode = .prot) (hv : sel = s.regs.get16 .eax)
    (hn : 3 < sel.toNat) (hd : readDescriptor s sel = .ok d) : loads s sel d := ⟨hm, hv, hn, descriptorIs_of hd⟩

/-- The same at privilege level 3. -/
def PG3 (ar2 : Byte) (sel : BitVec 16) : State :=
  { PG ar2 sel with segs := { (PG ar2 sel).segs with cs := flat 0xB#16 0x9B#8 } }

/-- Each branch of the listing: RPL, type, DPL, present, and the load with the Accessed bit 1 and with it 0. -/
theorem witness_StackSegmentLoad :
    (loads (PG 0x93#8 0x13#16) 0x13#16 0x004093010000FFFF#64 ∧ (0x13#16).extractLsb' 0 2 ≠ (PG 0x93#8 0x13#16).cpl)
    ∧ (loads (PG 0x91#8 0x10#16) 0x10#16 0x004091010000FFFF#64 ∧ (0x004091010000FFFF#64).getLsbD 41 = false)
    ∧ (loads (PG 0x93#8 0x18#16) 0x18#16 0x00CFF3000000FFFF#64
      ∧ (0x00CFF3000000FFFF#64).extractLsb' 45 2 ≠ (PG 0x93#8 0x18#16).cpl)
    ∧ (loads (PG 0x13#8 0x10#16) 0x10#16 0x004013010000FFFF#64 ∧ (0x004013010000FFFF#64).getLsbD 47 = false)
    ∧ (loads (PG 0x93#8 0x10#16) 0x10#16 0x004093010000FFFF#64
      ∧ (PG 0x93#8 0x10#16).accessedSet 0x10#16 0x004093010000FFFF#64 (PG 0x93#8 0x10#16).mem)
    ∧ (loads (PG 0x92#8 0x10#16) 0x10#16 0x004092010000FFFF#64
      ∧ ∃ m, (PG 0x92#8 0x10#16).accessedSet 0x10#16 0x004092010000FFFF#64 m) :=
  ⟨⟨loads_of (by decide) (by decide) (by decide) (by decide), by decide⟩,
    ⟨loads_of (by decide) (by decide) (by decide) (by decide), by decide⟩,
    ⟨loads_of (by decide) (by decide) (by decide) (by decide), by decide⟩,
    ⟨loads_of (by decide) (by decide) (by decide) (by decide), by decide⟩,
    ⟨loads_of (by decide) (by decide) (by decide) (by decide), rfl⟩,
    ⟨loads_of (by decide) (by decide) (by decide) (by decide),
      ⟨_, _, ⟨mapsTo_of_not_paging rfl .., trivial⟩, by decide, rfl⟩⟩⟩

/-- Each branch of the listing: type, privilege, present, a conforming code segment, and the loads. -/
theorem witness_DataSegmentLoad : SegDest.ds ≠ .ss
    ∧ (loads (PG 0x99#8 0x10#16) 0x10#16 0x004099010000FFFF#64 ∧ (0x004099010000FFFF#64).getLsbD 43 = true
      ∧ (0x004099010000FFFF#64).getLsbD 41 = false)
    ∧ (loads (PG 0x93#8 0x13#16) 0x13#16 0x004093010000FFFF#64
      ∧ ¬((0x13#16).extractLsb' 0 2).toNat ≤ ((0x004093010000FFFF#64).extractLsb' 45 2).toNat)
    ∧ (loads (PG 0x13#8 0x10#16) 0x10#16 0x004013010000FFFF#64 ∧ (0x004013010000FFFF#64).getLsbD 47 = false)
    ∧ (loads (PG3 0x9E#8 0x13#16) 0x13#16 0x00409E010000FFFF#64
      ∧ ∃ m, (PG3 0x9E#8 0x13#16).accessedSet 0x13#16 0x00409E010000FFFF#64 m)
    ∧ (loads (PG 0x93#8 0x10#16) 0x10#16 0x004093010000FFFF#64
      ∧ (PG 0x93#8 0x10#16).accessedSet 0x10#16 0x004093010000FFFF#64 (PG 0x93#8 0x10#16).mem) :=
  ⟨by decide, ⟨loads_of (by decide) (by decide) (by decide) (by decide), by decide, by decide⟩,
    ⟨loads_of (by decide) (by decide) (by decide) (by decide), by decide⟩,
    ⟨loads_of (by decide) (by decide) (by decide) (by decide), by decide⟩,
    ⟨loads_of (by decide) (by decide) (by decide) (by decide),
      ⟨_, _, ⟨mapsTo_of_not_paging rfl .., trivial⟩, by decide, rfl⟩⟩,
    ⟨loads_of (by decide) (by decide) (by decide) (by decide), rfl⟩⟩

/-! #### The latch and the special registers -/

theorem witness_LatchAfterInstruction : (∃ t, exec (.movSregRm16 a16 .ss (.reg .eax)) A16 = .next t)
    ∧ (∃ t, exec (.movSregRm16 a32 .ss (.reg .eax)) (PG 0x93#8 0x10#16) = .next t)
    ∧ (∃ t, exec (.movSregRm16 a16 .ds (.reg .eax)) A16 = .next t)
    ∧ (∃ t, exec (.repMovs8 a16) (A16d.setReg .ecx 1#32) = .next t ∧ sizedValue .w16 t.regs .ecx = 0)
    ∧ (∃ t, exec (.repMovs8 a16) (A16d.setReg .ecx 2#32) = .next t ∧ sizedValue .w16 t.regs .ecx ≠ 0) :=
  ⟨next_of (by decide), next_of (by decide), next_of (by decide), next_of_shows (v := 0) (by decide),
    (next_of_shows (f := fun t => sizedValue .w16 t.regs .ecx) (v := 1) (by decide)).imp fun _ h => ⟨h.1, by rw [h.2]; decide⟩⟩

/-- P32 at privilege level 1. -/
def P32one : State := { P32 with segs := { P32.segs with cs := flat 0x9#16 0x9B#8 } }

theorem witness_SpecialMovesNeedPrivilege : isSpecial (.movR32Tr a32 .eax .tr7) = true ∧ V86.mode = .v86
    ∧ P32one.mode = .prot ∧ P32one.cpl ≠ 0#2 ∧ exec (.movR32Tr a32 .eax .tr7) P32one = .fault (.exception 13#8 (some 0#16) none) :=
  ⟨by decide, by decide, by decide, by decide, fault_of (by decide)⟩

theorem witness_MovFromSpecialRegister : A16.privileged ∧ P32.privileged ∧ A16.tlbTested = false :=
  ⟨.inl (by decide), .inr ⟨by decide, by decide⟩, rfl⟩

theorem witness_MovToSpecialRegister : A16.privileged ∧ P32.privileged ∧ P32.pg = false
    ∧ ((P32.setReg .eax 0xFFFFFF00#32).regs.get .eax).toNat % 256 = 0 :=
  ⟨.inl (by decide), .inr ⟨by decide, by decide⟩, by decide, by decide⟩

/-- P32 with paging on. -/
def P32paged : State := { P32 with cr0 := 0x80000011#32 }

theorem witness_RefusedSpecialWrites : (P32.setReg .eax 1#32).privileged
    ∧ ((P32.setReg .eax 1#32).regs.get .eax).toNat % 256 ≠ 0 ∧ P32paged.privileged ∧ P32paged.pg = true :=
  ⟨.inr ⟨by decide, by decide⟩, by decide, .inr ⟨by decide, by decide⟩, by decide⟩

theorem witness_SpecialRegisterReadsBack :
    (∃ t u, exec (.movCrR32 a32 .cr3 .eax) P32 = .next t ∧ exec (.movR32Cr a32 .ebx .cr3) t = .next u)
    ∧ (∃ t u, exec (.movCrR32 a16 .cr0 .edx) A16 = .next t ∧ exec (.movR32Cr a32 .ebx .cr0) t = .next u)
    ∧ (∃ t u, exec (.movDr03R32 a32 .dr3 .eax) P32 = .next t ∧ exec (.movR32Dr03 a32 .eax .dr3) t = .next u)
    ∧ (∃ t u, exec (.movDr67R32 a32 .dr7 .edx) P32 = .next t ∧ exec (.movR32Dr67 a32 .eax .dr7) t = .next u)
    ∧ (P32.tlbTested = false
      ∧ ∃ t u, exec (.movTrR32 a32 .tr7 .eax) P32 = .next t ∧ exec (.movR32Tr a32 .eax .tr7) t = .next u) :=
  ⟨two_of (by decide), two_of (by decide), two_of (by decide), two_of (by decide), rfl, two_of (by decide)⟩

theorem witness_OnlyMovCr0ChangesMode : (∃ t, exec (.movReg8Imm8 a32 .al 0#8) P32 = .next t)
    ∧ (∃ t, exec (.movCrR32 a32 .cr0 .edx) P32 = .next t ∧ t.mode = .real)
    ∧ (∃ t, exec (.movCrR32 a32 .cr0 .ebx) (P32.setReg .ebx 0x11#32) = .next t ∧ t.mode = P32.mode)
    ∧ (∃ t, exec (.movCrR32 a32 .cr0 .ebx) (P32.setReg .ebx 0x80000001#32) = .next t ∧ t.paging = true)
    ∧ (∃ t, exec (.movCrR32 a32 .cr0 .ebx) (P32.setReg .ebx 0x80000000#32) = .next t ∧ t.paging = false) :=
  ⟨next_of (by decide), next_of_shows (by decide), next_of_shows (by decide), next_of_shows (by decide), next_of_shows (by decide)⟩

theorem witness_UnprivilegedCodeKeepsSpecialRegisters : ¬V86.privileged ∧ (∃ t, exec (.movReg8Imm8 a16 .al 0#8) V86 = .next t)
    ∧ ¬P32one.privileged ∧ ∃ t, exec (.mulRm8 a32 (.reg .bl)) P32one = .next t :=
  ⟨by simp only [State.privileged]; decide, next_of (by decide), by simp only [State.privileged]; decide, next_of (by decide)⟩

/-! #### MOVS -/

/-- A16 with both indexes at the last offset at which an element of `w` bytes lies in the segment. -/
def A16last (w : BitVec 32) : State := (A16d.setReg .esi (0x10000#32 - w)).setReg .edi (0x10000#32 - w)

theorem witness_MovsMovesOneElement :
    (∃ v m, (A16last 1#32).reads8 (a16.seg.getD .ds) (BitVec.ofNat 32 (sizedValue a16.adsize (A16last 1#32).regs .esi)) v
      ∧ (A16last 1#32).stores8 .es (BitVec.ofNat 32 (sizedValue a16.adsize (A16last 1#32).regs .edi)) v m)
    ∧ (∃ v m, (A16last 2#32).reads16 (a16.seg.getD .ds) (BitVec.ofNat 32 (sizedValue a16.adsize (A16last 2#32).regs .esi)) v
      ∧ (A16last 2#32).stores16 .es (BitVec.ofNat 32 (sizedValue a16.adsize (A16last 2#32).regs .edi)) v m)
    ∧ (∃ v m, P32d.reads32 (a32.seg.getD .ds) (BitVec.ofNat 32 (sizedValue a32.adsize P32d.regs .esi)) v
      ∧ P32d.stores32 .es (BitVec.ofNat 32 (sizedValue a32.adsize P32d.regs .edi)) v m) :=
  ⟨(reads8_of rfl rfl rfl).elim fun v h => ⟨v, (stores8_of v rfl rfl rfl).imp fun _ hm => ⟨h, hm⟩⟩,
    (reads16_of rfl rfl rfl).elim fun v h => ⟨v, (stores16_of v rfl rfl rfl).imp fun _ hm => ⟨h, hm⟩⟩,
    (reads32_of rfl rfl rfl).elim fun v h => ⟨v, (stores32_of v rfl rfl rfl).imp fun _ hm => ⟨h, hm⟩⟩⟩

/-- P32 with a count in ECX. -/
def P32count (n : BitVec 32) : State := P32d.setReg .ecx n

/-- An element of each width can be moved. -/
def movable (s : State) : Prop :=
  (∃ v m, s.reads8 (a32.seg.getD .ds) (BitVec.ofNat 32 (sizedValue a32.adsize s.regs .esi)) v
    ∧ s.stores8 .es (BitVec.ofNat 32 (sizedValue a32.adsize s.regs .edi)) v m)
  ∧ (∃ v m, s.reads16 (a32.seg.getD .ds) (BitVec.ofNat 32 (sizedValue a32.adsize s.regs .esi)) v
    ∧ s.stores16 .es (BitVec.ofNat 32 (sizedValue a32.adsize s.regs .edi)) v m)
  ∧ (∃ v m, s.reads32 (a32.seg.getD .ds) (BitVec.ofNat 32 (sizedValue a32.adsize s.regs .esi)) v
    ∧ s.stores32 .es (BitVec.ofNat 32 (sizedValue a32.adsize s.regs .edi)) v m)

theorem movable_of {s : State} (hp : s.paging = false) (hc : s.code = [])
    (h : ∀ w ∈ [1, 2, 4],
      checkAccess s .ds .read (BitVec.ofNat 32 (sizedValue a32.adsize s.regs .esi)).toNat w = .ok ()
        ∧ given s.mem (s.linear .ds (BitVec.ofNat 32 (sizedValue a32.adsize s.regs .esi))) w = true
        ∧ checkAccess s .es .write (BitVec.ofNat 32 (sizedValue a32.adsize s.regs .edi)).toNat w = .ok ()) : movable s :=
  ⟨(reads8_of hp (h 1 (by decide)).1 (h 1 (by decide)).2.1).elim fun v hv =>
      ⟨v, (stores8_of v hp hc (h 1 (by decide)).2.2).imp fun _ hm => ⟨hv, hm⟩⟩,
    (reads16_of hp (h 2 (by decide)).1 (h 2 (by decide)).2.1).elim fun v hv =>
      ⟨v, (stores16_of v hp hc (h 2 (by decide)).2.2).imp fun _ hm => ⟨hv, hm⟩⟩,
    (reads32_of hp (h 4 (by decide)).1 (h 4 (by decide)).2.1).elim fun v hv =>
      ⟨v, (stores32_of v hp hc (h 4 (by decide)).2.2).imp fun _ hm => ⟨hv, hm⟩⟩⟩

/-- The last iteration and one that is not the last: the count is 1, and the most there is. -/
theorem witness_RepMovsMovesOneElement : sizedValue a32.adsize (P32count 1#32).regs .ecx = 1
    ∧ sizedValue a32.adsize (P32count 0xFFFFFFFF#32).regs .ecx ≠ 0 ∧ sizedValue a32.adsize (P32count 0xFFFFFFFF#32).regs .ecx ≠ 1
    ∧ movable (P32count 1#32) ∧ movable (P32count 0xFFFFFFFF#32) :=
  ⟨by decide, by decide, by decide, movable_of rfl rfl (by decide), movable_of rfl rfl (by decide)⟩

theorem witness_RepMovsWithCountZero : sizedValue .w16 (A16.setReg .ecx 0x99AA0000#32).regs .ecx = 0 := by decide

theorem some_of_isSome {α β : Type} {o : Option α} {f : α → β} {v : β} (h : o.map f = some v) : ∃ t, o = some t := by
  cases o with
  | none => exact nomatch h
  | some t => exact ⟨t, rfl⟩

theorem witness_RepMovsBlockProgress : 3 ≤ sizedValue .w16 (A16d.setReg .ecx 3#32).regs .ecx
    ∧ (∃ t, execTimes (.repMovs8 a16) 1 (A16d.setReg .ecx 3#32) = some t)
    ∧ ∃ t, execTimes (.repMovs16 a16) 3 (A16d.setReg .ecx 3#32) = some t :=
  ⟨by decide, some_of_isSome (f := fun t => t.pc) (v := 0x100#32) (by decide),
    some_of_isSome (f := fun t => t.pc) (v := 0x102#32) (by decide)⟩

/-! #### MOVSX, MOVZX, MUL -/

theorem witness_MovsxExtendsSigned : A16.rmIs8 a16 (.reg .al) 0x44#8 ∧ (∃ v, A16d.rmIs8 a16 (.mem (.direct16 0xFFFF#16)) v)
    ∧ P32.rmIs16 a32 (.reg .edx) 0xFF00#16 ∧ ∃ v, P32d.rmIs16 a32 (.mem (.direct32 0xFFFFFFFE#32)) v :=
  ⟨by show _ = _; decide, reads8_of (s := A16d) (g := .ds) (off := 0xFFFF#32) rfl rfl rfl, by show _ = _; decide,
    reads16_of (s := P32d) (g := .ds) (off := 0xFFFFFFFE#32) rfl rfl rfl⟩

theorem witness_MovzxExtendsUnsigned : A16.rmIs8 a16 (.reg .ah) 0x33#8 ∧ (∃ v, A16d.rmIs8 a16 (.mem (.direct16 0xFFFF#16)) v)
    ∧ P32.rmIs16 a32 (.reg .edx) 0xFF00#16 ∧ ∃ v, P32d.rmIs16 a32 (.mem (.direct32 0xFFFFFFFE#32)) v :=
  ⟨by show _ = _; decide, reads8_of (s := A16d) (g := .ds) (off := 0xFFFF#32) rfl rfl rfl, by show _ = _; decide,
    reads16_of (s := P32d) (g := .ds) (off := 0xFFFFFFFE#32) rfl rfl rfl⟩

theorem witness_MulGivesExactProduct : A16.rmIs8 a16 (.reg .ah) 0x33#8 ∧ A16.rmIs16 a16 (.reg .edx) 0xFF00#16
    ∧ P32.rmIs32 a32 (.reg .edx) 0xDDEEFF00#32 ∧ (∃ v, A16d.rmIs8 a16 (.mem (.direct16 0xFFFF#16)) v)
    ∧ (∃ v, A16d.rmIs16 a16 (.mem (.direct16 0xFFFE#16)) v) ∧ ∃ v, P32d.rmIs32 a32 (.mem (.direct32 0xFFFFFFFC#32)) v :=
  ⟨by show _ = _; decide, by show _ = _; decide, by show _ = _; decide, reads8_of (s := A16d) (g := .ds) (off := 0xFFFF#32) rfl rfl rfl,
    reads16_of (s := A16d) (g := .ds) (off := 0xFFFE#32) rfl rfl rfl, reads32_of (s := P32d) (g := .ds) (off := 0xFFFFFFFC#32) rfl rfl rfl⟩

theorem witness_MulFlagsFromHighHalf : (∃ t, exec (.mulRm8 a16 (.reg .bl)) A16 = .next t)
    ∧ (∃ t, exec (.mulRm16 a16 (.reg .ebx)) A16 = .next t) ∧ (∃ t, exec (.mulRm32 a32 (.reg .ebx)) P32 = .next t)
    ∧ (∃ e, readRm8 a1632 A16 (.mem (.direct32 0x10000#32)) = .error e)
    ∧ (∃ e, readRm16 a16 A16 (.mem (.direct16 0xFFFF#16)) = .error e)
    ∧ (∃ e, readRm32 a3216 A16 (.mem (.direct16 0xFFFD#16)) = .error e) :=
  ⟨next_of (by decide), next_of (by decide), next_of (by decide), ⟨_, rfl⟩, ⟨_, rfl⟩, ⟨_, rfl⟩⟩

/-! #### Exceptions -/

/-- P32d with FS not valid and ES read-only. -/
def P32seg : State :=
  { P32d with segs := { P32d.segs with fs := { P32d.segs.fs with valid := false }, es := segOf 0x20#16 0#32 0xFFF#32 0x91#8 true } }

/-- P32d with GS an expand-down segment from 1000h to FFFFh. -/
def P32down : State := { P32d with segs := { P32d.segs with gs := segOf 0x28#16 0#32 0xFFF#32 0x97#8 false } }

/-- A limit in each mode, a valid bit, a limit through SS, both ends of an expand-down segment, a byte that has no value. -/
theorem witness_IllegalReadRaises : readsFrom (.movAxMoffs16 a16 0xFFFF#32) A16 = some (.ds, 0xFFFF#32, 2)
    ∧ (∃ x, A16.accessRaises .ds .read 0xFFFF 2 x) ∧ (∃ x, V86.accessRaises .ds .read 0xFFFF 2 x)
    ∧ readsFrom (.movAlMoffs8 ⟨.w32, .w32, some .fs⟩ 0#32) P32seg = some (.fs, 0#32, 1)
    ∧ (∃ x, P32seg.accessRaises .fs .read 0 1 x)
    ∧ readsFrom (.mulRm32 a32 (.mem (.based32 .ebp (.d8 0xFF#8)))) (P32.setReg .ebp 0xFFFFFFFE#32) = some (.ss, 0xFFFFFFFD#32, 4)
    ∧ (∃ x, (P32.setReg .ebp 0xFFFFFFFE#32).accessRaises .ss .read 0xFFFFFFFD 4 x)
    ∧ readsFrom (.movAxMoffs16 ⟨.w16, .w32, some .gs⟩ 0xFFFF#32) P32down = some (.gs, 0xFFFF#32, 2)
    ∧ (∃ x, P32down.accessRaises .gs .read 0xFFFF 2 x) ∧ (∃ x, P32down.accessRaises .gs .read 0xFFF 2 x)
    ∧ (readsFrom (.movEaxMoffs32 a32 0x102#32) P32d = some (.ds, 0x102#32, 4) ∧ P32d.accessLegal .ds .read 0x102 4
      ∧ P32d.placed false P32d.user (P32d.linear .ds 0x102#32) ([0x102#32, 0x103#32] ++ 0x104#32 :: [0x105#32])
      ∧ (∀ q ∈ [0x102#32, 0x103#32], Memory.read P32d.mem q.toNat ≠ none) ∧ Memory.read P32d.mem (0x104#32).toNat = none) :=
  ⟨rfl, raises_of (e := .fault _) rfl, raises_of (e := .fault _) rfl, rfl, raises_of (e := .fault _) rfl, by decide,
    raises_of (e := .fault _) rfl, rfl, raises_of (e := .fault _) rfl,
    raises_of (e := .fault (.exception 13#8 (some 0#16) none)) (by decide), rfl,
    (checkAccess_ok_iff ..).1 rfl, ⟨mapsTo_of_not_paging rfl .., mapsTo_of_not_paging rfl .., mapsTo_of_not_paging rfl ..,
      mapsTo_of_not_paging rfl .., trivial⟩, by
      intro q hq; simp only [List.mem_cons, List.not_mem_nil, or_false] at hq; rcases hq with rfl | rfl <;> decide, by decide⟩

/-- The exception each of those accesses raises, from R65 to R69. -/
theorem test_illegal_reads : faultOf (exec (.movAlMoffs8 ⟨.w32, .w32, some .fs⟩ 0#32) P32seg) = some (.exception 13#8 (some 0#16) none)
    ∧ faultOf (exec (.mulRm32 a32 (.mem (.based32 .ebp (.d8 0xFF#8)))) (P32.setReg .ebp 0xFFFFFFFE#32))
      = some (.exception 12#8 (some 0#16) none)
    ∧ faultOf (exec (.movAxMoffs16 ⟨.w16, .w32, some .gs⟩ 0xFFFF#32) P32down) = some (.exception 13#8 (some 0#16) none)
    ∧ faultOf (exec (.movEaxMoffs32 a32 0x102#32) P32d) = some (.unwritten 0x104#32) := by decide

/-- P32 with paging on, at privilege level 3. -/
def P32paged3 : State := { P32paged with segs := { P32paged.segs with cs := flat 0xB#16 0x9B#8, ss := flat 0x13#16 0xF3#8 } }

theorem witness_IllegalWriteRaises : writesOnly (.movMoffs16Ax a16 0xFFFF#32) A16 = some (.ds, 0xFFFF#32, 2)
    ∧ (∃ x, A16.accessRaises .ds .write 0xFFFF 2 x) ∧ (∃ x, V86.accessRaises .ds .write 0xFFFF 2 x)
    ∧ writesOnly (.movRm8Imm8 ⟨.w32, .w32, some .es⟩ (.mem (.direct32 0#32)) 1#8) P32seg = some (.es, 0#32, 1)
    ∧ (∃ x, P32seg.accessRaises .es .write 0 1 x)
    ∧ (writesOnly (.movMoffs32Eax a32 0xFFFFFFFC#32) P32paged3 = some (.ds, 0xFFFFFFFC#32, 4)
      ∧ P32paged3.accessLegal .ds .write 0xFFFFFFFC 4 ∧ P32paged3.paging = true ∧ P32paged3.user = true ∧ 3 < 4) :=
  ⟨rfl, raises_of (e := .fault _) rfl, raises_of (e := .fault _) rfl, by decide, raises_of (e := .fault _) rfl, rfl,
    (checkAccess_ok_iff ..).1 rfl, by decide, by decide, by decide⟩

theorem witness_MovsIllegalDestinationRaises :
    (∀ n ∈ [1, 2, 4], P32seg.canRead (a32.seg.getD .ds) (BitVec.ofNat 32 (sizedValue a32.adsize P32seg.regs .esi)) n
      ∧ ∃ x, P32seg.accessRaises .es .write (sizedValue a32.adsize P32seg.regs .edi) n x)
    ∧ sizedValue a32.adsize P32seg.regs .ecx ≠ 0
    ∧ (∀ n ∈ [1, 2, 4], P32paged3.accessLegal .es .write (sizedValue a32.adsize P32paged3.regs .edi) n)
    ∧ sizedValue a32.adsize P32paged3.regs .ecx ≠ 0 :=
  ⟨fun n hn => ⟨canRead_of rfl (by revert n; decide) (by revert n; decide), by
      simp only [List.mem_cons, List.not_mem_nil, or_false] at hn
      rcases hn with rfl | rfl | rfl <;> exact raises_of (e := .fault _) rfl⟩,
    by decide, fun n hn => (checkAccess_ok_iff ..).1 (by revert n; decide), by decide⟩

/-- The table of `PG` with paging on, at privilege level 3. -/
def PGpaged : State := { PG3 0x92#8 0x13#16 with cr0 := 0x80000011#32 }

theorem witness_PageFaultOnRead :
    (readsFrom (.movEaxMoffs32 a32 0xFFFFFFFC#32) P32paged = some (.ds, 0xFFFFFFFC#32, 4)
      ∧ P32paged.accessLegal .ds .read (0xFFFFFFFC#32).toNat 4 ∧ P32paged.paging = true ∧ 3 < 4)
    ∧ (PGpaged.mode = .prot ∧ PGpaged.paging = true ∧ PGpaged.user = true ∧ PGpaged.rmIs16 a32 (.reg .eax) 0x13#16
      ∧ 3 < (0x13#16).toNat ∧ PGpaged.inTable 0x13#16 ∧ 7 < 8)
    ∧ (decode P32paged.defaultSize [] = .error .more ∧ P32paged.fetches [] ∧ P32paged.accessLegal .cs .fetch (P32paged.pc.toNat + 0) 1) :=
  ⟨⟨rfl, (checkAccess_ok_iff ..).1 rfl, by decide, by decide⟩,
    ⟨by decide, by decide, by decide, by show _ = _; decide, by decide, (indexInTable_iff ..).1 (by decide), by decide⟩,
    by decide, fun _ h => absurd h (Nat.not_lt_zero _), (checkAccess_ok_iff ..).1 rfl⟩

theorem witness_ExceptionsByMode :
    (exec (.movAxMoffs16 a16 0xFFFF#32) A16 = .fault (.exception 13#8 none none) ∧ A16.mode = .real)
    ∧ (exec (.movAxMoffs16 a16 0xFFFF#32) V86 = .fault (.exception 13#8 (some 0#16) none) ∧ V86.mode = .v86)
    ∧ (exec (.movSregRm16 a32 .ds (.reg .eax)) (PG 0x13#8 0x10#16) = .fault (.exception 11#8 (some 0x10#16) none)
      ∧ (PG 0x13#8 0x10#16).mode = .prot) :=
  ⟨⟨fault_of (by decide), by decide⟩, ⟨fault_of (by decide), by decide⟩, ⟨fault_of (by decide), by decide⟩⟩

theorem witness_RegisterFormsNeverStop : (Instr.mulRm32 a32 (.reg .ebx)).mem? = none ∧ (Instr.mulRm32 a32 (.reg .ebx)).moffs? = none
    ∧ isSpecial (.mulRm32 a32 (.reg .ebx)) = false
    ∧ (∀ a, Instr.mulRm32 a32 (.reg .ebx) ≠ .movs8 a ∧ Instr.mulRm32 a32 (.reg .ebx) ≠ .movs16 a
      ∧ Instr.mulRm32 a32 (.reg .ebx) ≠ .movs32 a) ∧ (Instr.mulRm32 a32 (.reg .ebx)).isRep = false
    ∧ ∀ a g o, Instr.mulRm32 a32 (.reg .ebx) ≠ .movSregRm16 a g o :=
  ⟨rfl, rfl, rfl, fun _ => ⟨nofun, nofun, nofun⟩, rfl, fun _ _ _ => nofun⟩

/-- A16 with the last byte of a store at DS:[2000h] in the code region. -/
def A16region : State := { A16 with code := [⟨0x22003, 0x22004⟩] }

theorem witness_StoreToCodeNeverCompletes :
    storesTo (.movMoffs32Eax a3216 0x2000#32) A16region = .ok [0x22000#32, 0x22001#32, 0x22002#32, 0x22003#32]
    ∧ A16region.code.contains 0x22003#32 = true := by decide

/-! #### Frames and memory -/

theorem witness_MemoryOutsideStoreUnchanged : (∃ t, exec (.movs32 a32) P32d = .next t)
    ∧ (∃ t, exec (.repMovs32 a32) (P32count 0#32) = .next t) ∧ (∃ t, exec (.movSregRm16 a32 .ss (.reg .eax)) (PG 0x92#8 0x10#16) = .next t)
    ∧ ∃ t, exec (.movR32Rm32 a32 .eax (.mem (.direct32 0x100#32))) P32d = .next t :=
  ⟨next_of (by decide), next_of (by decide), next_of (by decide), next_of (by decide)⟩

theorem witness_OtherRegistersUnchanged : (∃ t, exec (.mulRm16 a16 (.reg .ebx)) A16 = .next t)
    ∧ writesReg (.mulRm16 a16 (.reg .ebx)) .ebx = false ∧ (∃ t, exec (.repMovs8 a32) P32d = .next t)
    ∧ writesReg (.repMovs8 a32) .eax = false ∧ (∃ t, exec (.movR32Cr a32 .esp .cr0) P32 = .next t)
    ∧ writesReg (.movR32Cr a32 .esp .cr0) .eax = false :=
  ⟨next_of (by decide), rfl, next_of (by decide), rfl, next_of (by decide), rfl⟩

/-- Each way a narrow register is written: `r/m` and reg destinations, immediates, a selector, AX of A1, MUL, MOVS, REP MOVS;
and a high byte, a low byte, AL of A0. -/
theorem witness_NarrowWritesKeepOtherBits :
    (∀ i ∈ [(.movRm16R16 a16 (.reg .eax) .ebx : Instr), .movR16Rm16 a16 .eax (.reg .ebx), .movReg16Imm16 a16 .esp 0xFFFF#16,
        .movRm16Imm16 a16 (.reg .edi) 0xFFFF#16, .movsxR16Rm8 a16 .eax (.reg .ah), .movzxR16Rm8 a16 .eax (.reg .ah),
        .movRm16Sreg a16 (.reg .eax) .cs, .movAxMoffs16 a16 0x100#32, .mulRm8 a16 (.reg .bl), .mulRm16 a16 (.reg .ebx), .movs16 a16,
        .repMovs8 a16], completes (exec i A16d) = true ∧ wordDestinations i ≠ [])
    ∧ (∀ i ∈ [(.movRm8R8 a16 (.reg .ah) .bl : Instr), .movR8Rm8 a16 .ah (.reg .al), .movReg8Imm8 a16 .al 0xFF#8,
        .movRm8Imm8 a16 (.reg .bh) 1#8, .movAlMoffs8 a16 0x100#32], completes (exec i A16d) = true ∧ byteDestinations i ≠ [])
    ∧ isHighByte .ah = true ∧ isHighByte .al = false := by decide

theorem witness_OtherSegmentsUnchanged : (∃ t, exec (.movSregRm16 a16 .ds (.reg .eax)) A16 = .next t) ∧ SegReg.cs ≠ SegDest.ds.toSegReg
    ∧ ∃ t, exec (.movRm16Sreg a16 (.reg .eax) .cs) A16 = .next t :=
  ⟨next_of (by decide), by decide, next_of (by decide)⟩

theorem witness_OtherSystemStateUnchanged : (∃ t, exec (.movCrR32 a32 .cr2 .eax) P32 = .next t)
    ∧ (∀ a r, Instr.movCrR32 a32 .cr2 .eax ≠ .movCrR32 a .cr3 r) ∧ (∃ t, exec (.movTrR32 a32 .tr6 .eax) P32 = .next t)
    ∧ ∀ a r, Instr.movTrR32 a32 .tr6 .eax ≠ .movTrR32 a .tr7 r :=
  ⟨next_of (by decide), fun _ _ => nofun, next_of (by decide), fun _ _ => nofun⟩

theorem witness_FlagsWritten : (∃ t, exec (.movs8 a32) P32d = .next t) ∧ isSpecial (.movs8 a32) = false ∧ isMul (.movs8 a32) = false
    ∧ (∃ t, exec (.movR32Dr67 a32 .eax .dr6) P32 = .next t) ∧ isSpecial (.movR32Dr67 a32 .eax .dr6) = true
    ∧ (∃ t, exec (.mulRm8 a32 (.reg .ah)) P32 = .next t) ∧ isMul (.mulRm8 a32 (.reg .ah)) = true :=
  ⟨next_of (by decide), rfl, rfl, next_of (by decide), rfl, next_of (by decide), rfl⟩

/-- The counter wraps modulo 2^16 in 16-bit code and modulo 2^32 in 32-bit code. -/
theorem witness_ProgramCounterAdvances :
    (∃ t, exec (.movRm16R16 a16 (.reg .eax) .ebx) { A16 with pc := 0xFFFE#32 } = .next t ∧ t.pc = 0#32)
    ∧ (∃ t, exec (.movRm32R32 a32 (.reg .eax) .ebx) { P32 with pc := 0xFFFE#32 } = .next t ∧ t.pc = 0x10000#32)
    ∧ ∃ t, exec (.repMovs8 a32) (P32count 2#32) = .next t ∧ t.pc = P32.pc :=
  ⟨next_of_shows (by decide), next_of_shows (by decide), next_of_shows (by decide)⟩

theorem witness_StoredDoublewordReadsBack : A16.paging = false
    ∧ (∃ t u, exec (.movMoffs32Eax a3216 0xFFFC#32) A16 = .next t ∧ exec (.movEaxMoffs32 a3216 0xFFFC#32) t = .next u)
    ∧ (∃ t u, exec (.movMoffs32Eax a3216 0xFFFC#32) A16 = .next t ∧ exec (.movAxMoffs16 a16 (0xFFFC#32 + BitVec.ofNat 32 2)) t = .next u)
    ∧ (∃ t u, exec (.movMoffs32Eax a3216 0xFFFC#32) A16 = .next t ∧ exec (.movAlMoffs8 a16 (0xFFFC#32 + BitVec.ofNat 32 3)) t = .next u)
    ∧ moffsSegment a3216 = moffsSegment a16 :=
  ⟨by decide, two_of (by decide), two_of (by decide), two_of (by decide), rfl⟩

end Sys2Proof.Tests
end

section
/-!
The decoder reads from the front: what it answers rests on the bytes it has read, never on those behind them
(30_encoding.md R116, R122). One closure lemma per way the readers are put together, then one line per reader of the decoder.
-/

namespace Sys2Proof

open Machine (except_bind_ok except_bind_error except_ok_bind)

/-- A reader that splits its input into the bytes it reads and the rest, where no byte of the rest has a part in the value
or in a refusal. (`more`, the want of a byte, is the one answer that later bytes may change.) -/
structure FrontReader {α : Type} (p : List Byte → Except DecodeStop (α × List Byte)) : Prop where
  ok {bs : List Byte} {v : α} {r : List Byte} : p bs = .ok (v, r) →
    ∃ used, bs = used ++ r ∧ ∀ t, p (used ++ t) = .ok (v, t)
  refused {bs : List Byte} {e : DecodeRefusal} : p bs = .error (.refuse e) → ∀ t, p (bs ++ t) = .error (.refuse e)

namespace FrontReader

/-! ### How readers are put together -/

protected theorem pure {α : Type} (v : α) : FrontReader fun bs => .ok (v, bs) where
  ok h := by cases h; exact ⟨[], rfl, fun _ => rfl⟩
  refused h := nomatch h

theorem refuse {α : Type} (e : DecodeRefusal) : FrontReader (α := α) fun _ => .error (.refuse e) where
  ok h := nomatch h
  refused h _ := h

protected theorem bind {α β : Type} {p : List Byte → Except DecodeStop (α × List Byte)}
    {f : α × List Byte → Except DecodeStop (β × List Byte)} (hp : FrontReader p) (hf : ∀ v, FrontReader fun r => f (v, r)) :
    FrontReader fun bs => p bs >>= f where
  ok {bs v r} h := by
    obtain ⟨⟨x, m⟩, h1, h2⟩ := except_bind_ok.1 h
    obtain ⟨u1, rfl, g1⟩ := hp.ok h1
    obtain ⟨u2, rfl, g2⟩ := (hf x).ok h2
    exact ⟨u1 ++ u2, (List.append_assoc ..).symm, fun t =>
      except_bind_ok.2 ⟨(x, u2 ++ t), by rw [List.append_assoc, g1], g2 t⟩⟩
  refused {bs e} h t := by
    rcases except_bind_error.1 h with h1 | ⟨⟨x, m⟩, h1, h2⟩
    · exact except_bind_error.2 (.inl (hp.refused h1 t))
    · obtain ⟨u, rfl, g⟩ := hp.ok h1
      exact except_bind_error.2 (.inr ⟨(x, m ++ t), by rw [List.append_assoc, g], (hf x).refused h2 t⟩)

theorem ite {α : Type} {c : Prop} [Decidable c] {p q : List Byte → Except DecodeStop (α × List Byte)} (hp : FrontReader p)
    (hq : FrontReader q) : FrontReader fun bs => if c then p bs else q bs := by
  by_cases h : c
  · simpa only [if_pos h] using hp
  · simpa only [if_neg h] using hq

/-- A choice by the operand size, in which no byte still to be read has a part. -/
theorem bySize {α : Type} {z : Size} {p q : List Byte → Except DecodeStop (α × List Byte)} (hp : FrontReader p)
    (hq : FrontReader q) : FrontReader fun bs => match z with | .w16 => p bs | .w32 => q bs := by
  cases z with
  | w16 => exact hp
  | w32 => exact hq

end FrontReader

/-! ### Bytes, displacements, operands -/

theorem frontReader_readByte : FrontReader readByte where
  ok {bs _ _} h := by
    match bs, h with
    | b :: _, rfl => exact ⟨[b], rfl, fun _ => rfl⟩
  refused {bs _} h := by cases bs <;> exact nomatch h

theorem frontReader_readHalf : FrontReader readHalf where
  ok {bs _ _} h := by
    match bs, h with
    | b0 :: b1 :: _, rfl => exact ⟨[b0, b1], rfl, fun _ => rfl⟩
  refused {bs _} h := by rcases bs with _ | ⟨_, _ | ⟨_, _⟩⟩ <;> exact nomatch h

theorem frontReader_readWord : FrontReader readWord where
  ok {bs _ _} h := by
    match bs, h with
    | b0 :: b1 :: b2 :: b3 :: _, rfl => exact ⟨[b0, b1, b2, b3], rfl, fun _ => rfl⟩
  refused {bs _} h := by
    rcases bs with _ | ⟨_, _ | ⟨_, _ | ⟨_, _ | ⟨_, _⟩⟩⟩⟩ <;> exact nomatch h

theorem frontReader_readDisp16 (md : BitVec 2) : FrontReader (readDisp16 md) :=
  .ite (.pure _) (.ite (frontReader_readByte.bind fun _ => .pure _) (frontReader_readHalf.bind fun _ => .pure _))

theorem frontReader_readDisp32 (md : BitVec 2) : FrontReader (readDisp32 md) :=
  .ite (.pure _) (.ite (frontReader_readByte.bind fun _ => .pure _) (frontReader_readWord.bind fun _ => .pure _))

theorem frontReader_readMem16 (md : BitVec 2) (rm : BitVec 3) : FrontReader (readMem16 md rm) :=
  .ite (frontReader_readHalf.bind fun _ => .pure _) ((frontReader_readDisp16 md).bind fun _ => .pure _)

theorem frontReader_readSib (md : BitVec 2) : FrontReader (readSib md) :=
  frontReader_readByte.bind fun _ => .ite (.refuse _)
    (.ite (frontReader_readWord.bind fun _ => .pure _) ((frontReader_readDisp32 md).bind fun _ => .pure _))

theorem frontReader_readMem32 (md : BitVec 2) (rm : BitVec 3) : FrontReader (readMem32 md rm) :=
  .ite (frontReader_readSib md)
    (.ite (frontReader_readWord.bind fun _ => .pure _) ((frontReader_readDisp32 md).bind fun _ => .pure _))

theorem frontReader_readRm {R : Type} (ofNum : BitVec 3 → R) (adsize : Size) (b : Byte) :
    FrontReader (readRm ofNum adsize b) := by
  cases adsize with
  | w16 => exact .ite (.pure _) ((frontReader_readMem16 ..).bind fun _ => .pure _)
  | w32 => exact .ite (.pure _) ((frontReader_readMem32 ..).bind fun _ => .pure _)

theorem frontReader_readOffset (adsize : Size) : FrontReader (readOffset adsize) := by
  cases adsize with
  | w16 => exact frontReader_readHalf.bind fun _ => .pure _
  | w32 => exact frontReader_readWord

/-! ### Formats -/

theorem frontReader_decodeRegRm {R : Type} (ofNum : BitVec 3 → R) (a : Attr) (make : BitVec 3 → Rm R → Instr) :
    FrontReader (decodeRegRm ofNum a make) :=
  frontReader_readByte.bind fun _ => (frontReader_readRm ..).bind fun _ => .pure _

theorem frontReader_decodeDigitRm {R : Type} (ofNum : BitVec 3 → R) (a : Attr) (digit : BitVec 3) (no : DecodeRefusal)
    (make : Rm R → Instr) : FrontReader (decodeDigitRm ofNum a digit no make) :=
  frontReader_readByte.bind fun _ => .ite ((frontReader_readRm ..).bind fun _ => .pure _) (.refuse _)

theorem frontReader_decodeFromSreg (a : Attr) : FrontReader (decodeFromSreg a) := by
  refine frontReader_readByte.bind fun b => ?_
  dsimp only
  cases SegReg.ofNum (regField b) with
  | none => exact .refuse _
  | some g => exact (frontReader_readRm ..).bind fun o => .pure (Instr.movRm16Sreg a o g)

/-- A segment register that MOV does not load is refused by name. -/
theorem segDest_ofNum_error {n : BitVec 3} {e : DecodeStop} (h : SegDest.ofNum n = .error e) : ∃ r, e = .refuse r := by
  unfold SegDest.ofNum at h
  split at h <;> cases h <;> exact ⟨_, rfl⟩

theorem frontReader_decodeToSreg (a : Attr) : FrontReader (decodeToSreg a) := by
  refine frontReader_readByte.bind fun b => ?_
  dsimp only
  cases h : SegDest.ofNum (regField b) with
  | error e =>
    obtain ⟨r, rfl⟩ := segDest_ofNum_error h
    exact .refuse r
  | ok g => exact (frontReader_readRm ..).bind fun o => .pure (Instr.movSregRm16 a g o)

theorem frontReader_decodeRmImm {R : Type} (ofNum : BitVec 3 → R) (a : Attr)
    {make : Rm R → List Byte → Except DecodeStop (Instr × List Byte)} (hm : ∀ o, FrontReader (make o)) :
    FrontReader (decodeRmImm ofNum a make) :=
  frontReader_readByte.bind fun _ => .ite ((frontReader_readRm ..).bind hm) (.refuse _)

theorem frontReader_decodeNoRow (no : DecodeRefusal) : FrontReader (decodeNoRow no) :=
  frontReader_readByte.bind fun _ => .refuse _

theorem frontReader_decodeSpecial (make : BitVec 3 → Reg → Option Instr) : FrontReader (decodeSpecial make) :=
  frontReader_readByte.bind fun b => .ite
    (by
      cases make (regField b) (Reg.ofNum (rmField b)) with
      | none => exact .refuse _
      | some i => exact .pure i)
    (.refuse _)

/-! ### The opcode maps -/

theorem frontReader_decodeTwoByte (a : Attr) : FrontReader (decodeTwoByte a) :=
  frontReader_readByte.bind fun _ =>
    .ite (frontReader_decodeSpecial _) <| .ite (frontReader_decodeSpecial _) <| .ite (frontReader_decodeSpecial _) <|
    .ite (frontReader_decodeSpecial _) <| .ite (frontReader_decodeSpecial _) <| .ite (frontReader_decodeSpecial _) <|
    .ite (.bySize (frontReader_decodeRegRm ..) (frontReader_decodeRegRm ..)) <|
    .ite (.bySize (frontReader_decodeNoRow _) (frontReader_decodeRegRm ..)) <|
    .ite (.bySize (frontReader_decodeRegRm ..) (frontReader_decodeRegRm ..)) <|
    .ite (.bySize (frontReader_decodeNoRow _) (frontReader_decodeRegRm ..)) <|
    .refuse _

theorem frontReader_decodeOpcode (a : Attr) : FrontReader (decodeOpcode a) :=
  frontReader_readByte.bind fun _ =>
    -- MOV between an `r/m` operand and a register
    .ite (frontReader_decodeRegRm ..) <|
    .ite (.bySize (frontReader_decodeRegRm ..) (frontReader_decodeRegRm ..)) <|
    .ite (frontReader_decodeRegRm ..) <|
    .ite (.bySize (frontReader_decodeRegRm ..) (frontReader_decodeRegRm ..)) <|
    .ite (frontReader_decodeFromSreg a) <|
    .ite (frontReader_decodeToSreg a) <|
    -- `moffs`
    .ite ((frontReader_readOffset _).bind fun _ => .pure _) <|
    .ite ((frontReader_readOffset _).bind fun _ => .bySize (.pure _) (.pure _)) <|
    .ite ((frontReader_readOffset _).bind fun _ => .pure _) <|
    .ite ((frontReader_readOffset _).bind fun _ => .bySize (.pure _) (.pure _)) <|
    -- MOVS
    .ite (.pure _) <|
    .ite (.bySize (.pure _) (.pure _)) <|
    -- immediates
    .ite (frontReader_readByte.bind fun _ => .pure _) <|
    .ite (.bySize (frontReader_readHalf.bind fun _ => .pure _) (frontReader_readWord.bind fun _ => .pure _)) <|
    .ite (frontReader_decodeRmImm _ a fun _ => frontReader_readByte.bind fun _ => .pure _) <|
    .ite (.bySize (frontReader_decodeRmImm _ a fun _ => frontReader_readHalf.bind fun _ => .pure _)
      (frontReader_decodeRmImm _ a fun _ => frontReader_readWord.bind fun _ => .pure _)) <|
    -- MUL
    .ite (frontReader_decodeDigitRm ..) <|
    .ite (.bySize (frontReader_decodeDigitRm ..) (frontReader_decodeDigitRm ..)) <|
    .ite (frontReader_decodeTwoByte a) <|
    .refuse _

theorem frontReader_decodeRepRefused (op : Byte) : FrontReader (decodeRepRefused op) :=
  .ite (frontReader_decodeNoRow _) <|
  .ite (.refuse _) <|
  .ite (frontReader_readByte.bind fun _ => .refuse _) <|
  .ite (frontReader_readByte.bind fun _ => .ite (frontReader_decodeNoRow _) (.refuse _)) <|
  .refuse _

theorem frontReader_decodeRep (a : Attr) : FrontReader (decodeRep a) :=
  frontReader_readByte.bind fun _ =>
    .ite (.ite (.pure _) (.refuse _)) <|
    .ite (.ite (.bySize (.pure _) (.pure _)) (.refuse _)) <|
    frontReader_decodeRepRefused _

/-! ### The whole decoder -/

/-- The opcode maps, by whether F3h stands before the opcode. -/
def decodeBody (d : Size) (p : Prefixes) (bs : List Byte) : Except DecodeStop (Instr × List Byte) :=
  if p.rep then decodeRep (p.attr d) bs else decodeOpcode (p.attr d) bs

/-- The steps of R122 from where `p` has been read (R101). -/
def decodeFrom (d : Size) (p : Prefixes) (bs : List Byte) : Except DecodeStop (Instr × List Byte) :=
  readPrefixes p bs >>= fun x => decodeBody d x.1 x.2

/-- The decoder is that reader from the instruction's first byte on, and counts what it read. -/
theorem decode_eq (d : Size) (bs : List Byte) :
    decode d bs = decodeFrom d {} bs >>= fun x => .ok (x.1, bs.length - x.2.length) := by
  unfold decode decodeFrom
  cases readPrefixes {} bs with
  | error e => rfl
  | ok x =>
    obtain ⟨⟨_, _, _, rep⟩, r⟩ := x
    cases rep <;> rfl

theorem decodeFrom_opcode (d : Size) (p : Prefixes) {b : Byte} (hb : prefixByte b = none) (r : List Byte) :
    decodeFrom d p (b :: r) = decodeBody d p (b :: r) := by
  simp only [decodeFrom, readPrefixes, hb, except_ok_bind]

theorem decodeFrom_prefixByte (d : Size) (p : Prefixes) {b : Byte} {k : PrefixByte} (hb : prefixByte b = some k) (r : List Byte) :
    decodeFrom d p (b :: r) = p.add k >>= fun q => decodeFrom d q r := by
  simp only [decodeFrom, readPrefixes, hb]
  cases p.add k <;> rfl

theorem decodeBody_nil (d : Size) (p : Prefixes) : decodeBody d p [] = .error .more := by
  unfold decodeBody
  split <;> rfl

theorem frontReader_decodeBody (d : Size) (p : Prefixes) : FrontReader (decodeBody d p) :=
  .ite (frontReader_decodeRep _) (frontReader_decodeOpcode _)

/-- `readPrefixes` looks at one byte that it does not read: it is read all the same, as the opcode. -/
theorem frontReader_decodeFrom (d : Size) (p : Prefixes) : FrontReader (decodeFrom d p) where
  ok {bs i r} h := by
    induction bs generalizing p with
    | nil => exact nomatch h
    | cons b l ih =>
      cases hb : prefixByte b with
      | none =>
        rw [decodeFrom_opcode d p hb] at h
        obtain ⟨used, hl, hu⟩ := (frontReader_decodeBody d p).ok h
        cases used with
        | nil => exact nomatch (decodeBody_nil d p).symm.trans (hu [])
        | cons c u =>
          obtain ⟨rfl, rfl⟩ := List.cons.inj hl
          exact ⟨b :: u, rfl, fun t => (decodeFrom_opcode d p hb _).trans (hu t)⟩
      | some k =>
        rw [decodeFrom_prefixByte d p hb] at h
        obtain ⟨q, hk, h⟩ := except_bind_ok.1 h
        obtain ⟨u, rfl, hu⟩ := ih q h
        exact ⟨b :: u, rfl, fun t => (decodeFrom_prefixByte d p hb _).trans (except_bind_ok.2 ⟨q, hk, hu t⟩)⟩
  refused {bs e} h t := by
    induction bs generalizing p with
    | nil => exact nomatch h
    | cons b l ih =>
      cases hb : prefixByte b with
      | none =>
        rw [decodeFrom_opcode d p hb] at h
        exact (decodeFrom_opcode d p hb _).trans ((frontReader_decodeBody d p).refused h t)
      | some k =>
        rw [decodeFrom_prefixByte d p hb] at h
        refine (decodeFrom_prefixByte d p hb _).trans (except_bind_error.2 ?_)
        rcases except_bind_error.1 h with hk | ⟨q, hk, h⟩
        · exact .inl hk
        · exact .inr ⟨q, hk, ih q h⟩

/-- An instruction is decoded from its first `n` bytes, whatever stands behind them (R116, R122). -/
theorem decode_ok {d : Size} {bs : List Byte} {i : Instr} {n : Nat} (h : decode d bs = .ok (i, n)) :
    ∃ used rest, bs = used ++ rest ∧ used.length = n ∧ ∀ t, decode d (used ++ t) = .ok (i, n) := by
  rw [decode_eq] at h
  obtain ⟨⟨j, rest⟩, hj, h⟩ := except_bind_ok.1 h
  obtain ⟨used, rfl, hu⟩ := (frontReader_decodeFrom d {}).ok hj
  obtain ⟨rfl, rfl⟩ := Prod.mk.inj (Except.ok.inj h)
  refine ⟨used, rest, rfl, by simp, fun t => ?_⟩
  rw [decode_eq, hu t]
  simp

/-- Bytes behind an instruction change nothing (R116, R122). -/
theorem decode_append {d : Size} {bs : List Byte} {i : Instr} {n : Nat} (h : decode d bs = .ok (i, n)) (t : List Byte) :
    decode d (bs ++ t) = .ok (i, n) := by
  obtain ⟨used, rest, rfl, -, hu⟩ := decode_ok h
  rw [List.append_assoc]
  exact hu (rest ++ t)

/-- Bytes behind the one that a refusal is decided at change nothing (R122). -/
theorem decode_append_of_refused {d : Size} {bs : List Byte} {e : DecodeRefusal} (h : decode d bs = .error (.refuse e))
    (t : List Byte) : decode d (bs ++ t) = .error (.refuse e) := by
  rw [decode_eq] at h ⊢
  rcases except_bind_error.1 h with h | ⟨_, _, h⟩
  · exact except_bind_error.2 (.inl ((frontReader_decodeFrom d {}).refused h t))
  · exact nomatch h

end Sys2Proof
end

section
/-!
What a step keeps: it runs the instruction its bytes decode to, those bytes are program text, and no store reaches program
text (00_scope.md R5, R7; 20_memory.md R79; log 13).
-/

namespace Sys2Proof.Machine

/-! ### What a step runs (R7, R122) -/

/-- A step answers a next state only by running what the bytes at the program counter decode to. -/
theorem step_next_decoded {s t : State} (h : step s = .next t) :
    ∃ i n, decode s.defaultSize (fetchWindow s).1 = .ok (i, n) ∧ exec i s = .next t := by
  unfold step at h
  split at h
  case h_1 i n hdec => exact ⟨i, n, hdec, h⟩
  case h_2 => exact nomatch h
  case h_3 => cases hs : (fetchWindow s).2 <;> rw [hs] at h <;> exact nomatch h

theorem fetches_of_append {s : State} {bs rest : List Byte} (h : s.fetches (bs ++ rest)) : s.fetches bs := by
  intro k hk
  have hk' := h k (by rw [List.length_append]; omega)
  rwa [List.getElem?_append_left hk] at hk'

/-- Settles O8: the bytes begin the window the step decodes, and the bytes behind them change nothing. -/
theorem stepRunsDecodedInstruction : Obligations.StepRunsDecodedInstruction := by
  unfold Obligations.StepRunsDecodedInstruction
  intro s bs i n hdec hlen hf
  have hwin : decode s.defaultSize (fetchWindow s).1 = .ok (i, n) := by
    rw [fetchWindow_of_fetches hlen hf]
    exact decode_append hdec _
  unfold step
  rw [hwin]

/-! ### The code region (R79, log 13) -/

/-- No instruction changes which bytes are program text. -/
theorem exec_code {i : Instr} {s t : State} (h : exec i s = .next t) : t.code = s.code := by
  rcases exec_shape h with ⟨m, r, d, p, h, _, _, _, rfl⟩ | ⟨m, a, g, o, x, p, h, _, rfl⟩ | ⟨_, r, d, p, c, h, rfl⟩
    | ⟨_, _, u, p, h, rfl, hu⟩
  · rfl
  · rfl
  · rfl
  · rw [State.advance_code, undefFlags6_code]
    rcases hu with ⟨r, d, rfl⟩ | ⟨a, c, r, _, rfl⟩ | ⟨a, c, r, _, rfl⟩ | ⟨a, c, r, _, _, rfl⟩ | ⟨a, c, r, _, rfl⟩
    · rfl
    · exact State.setCtrl_code ..
    · exact State.setBreakAddr_code ..
    · exact State.setDebug_code ..
    · exact State.setTest_code ..

/-- An instruction stores to no byte of program text. -/
theorem exec_read_code {i : Instr} {s t : State} (h : exec i s = .next t) {p : Word} (hp : s.code.contains p = true) :
    Memory.read t.mem p.toNat = Memory.read s.mem p.toNat := by
  obtain ⟨ps, bs, _, hps, _, hm⟩ := exec_stored h
  rw [hm]
  refine Memory.read_writeBytes_of_notMem _ _ _ _ fun q hq e => ?_
  rw [BitVec.eq_of_toNat_eq e] at hq
  exact List.any_eq_false.1 hps p hq hp

/-- Settles O14: what a step ran was fetched, byte by byte, from program text, and it stores to none of it. -/
theorem codeBytesNeverChange : Obligations.CodeBytesNeverChange := by
  unfold Obligations.CodeBytesNeverChange
  intro s t h
  obtain ⟨i, n, hdec, hexec⟩ := step_next_decoded h
  obtain ⟨used, rest, hwin, hlen, hused⟩ := decode_ok hdec
  have hfetch : s.fetches used := fetches_of_append (hwin ▸ (fetches_fetchWindow s).1)
  refine ⟨exec_code hexec, fun p hp => exec_read_code hexec hp, i, n, used, ?_, hlen, hfetch, hexec⟩
  simpa using hused []

end Sys2Proof.Machine
end

section
/-!
What an instruction leaves of the segment registers, the system and special registers, the flags and the mode
(10_state.md R25 to R39; 41_mov_special.md R200 to R212).
-/

namespace Sys2Proof.Machine

/-! ### A special-register write changes one register -/

@[simp] theorem State.setCtrl_breakAddr (s : State) (c : CtrlReg) (v : Word) (k : BreakReg) :
    (s.setCtrl c v).breakAddr k = s.breakAddr k := by cases c <;> rfl
@[simp] theorem State.setCtrl_debug (s : State) (c : CtrlReg) (v : Word) (k : DebugReg) :
    (s.setCtrl c v).debug k = s.debug k := by cases c <;> rfl
@[simp] theorem State.setCtrl_test (s : State) (c : CtrlReg) (v : Word) (k : TestReg) :
    (s.setCtrl c v).test k = s.test k := by cases c <;> rfl
@[simp] theorem State.setBreakAddr_ctrl (s : State) (c : BreakReg) (v : Word) (k : CtrlReg) :
    (s.setBreakAddr c v).ctrl k = s.ctrl k := by cases c <;> rfl
@[simp] theorem State.setBreakAddr_debug (s : State) (c : BreakReg) (v : Word) (k : DebugReg) :
    (s.setBreakAddr c v).debug k = s.debug k := by cases c <;> rfl
@[simp] theorem State.setBreakAddr_test (s : State) (c : BreakReg) (v : Word) (k : TestReg) :
    (s.setBreakAddr c v).test k = s.test k := by cases c <;> rfl
@[simp] theorem State.setDebug_ctrl (s : State) (c : DebugReg) (v : Word) (k : CtrlReg) :
    (s.setDebug c v).ctrl k = s.ctrl k := by cases c <;> rfl
@[simp] theorem State.setDebug_breakAddr (s : State) (c : DebugReg) (v : Word) (k : BreakReg) :
    (s.setDebug c v).breakAddr k = s.breakAddr k := by cases c <;> rfl
@[simp] theorem State.setDebug_test (s : State) (c : DebugReg) (v : Word) (k : TestReg) :
    (s.setDebug c v).test k = s.test k := by cases c <;> rfl
@[simp] theorem State.setTest_ctrl (s : State) (c : TestReg) (v : Word) (k : CtrlReg) :
    (s.setTest c v).ctrl k = s.ctrl k := by cases c <;> rfl
@[simp] theorem State.setTest_breakAddr (s : State) (c : TestReg) (v : Word) (k : BreakReg) :
    (s.setTest c v).breakAddr k = s.breakAddr k := by cases c <;> rfl
@[simp] theorem State.setTest_debug (s : State) (c : TestReg) (v : Word) (k : DebugReg) :
    (s.setTest c v).debug k = s.debug k := by cases c <;> rfl

/-- `u` is what the body of `i` can make of `s` besides flags, memory and segment registers: the last part of `Shape`, where
at most one special register is written, and only by the move into it. -/
def SpecialWrite (i : Instr) (s u : State) : Prop :=
  (∃ r d, u = { s with regs := r, draws := d })
    ∨ (∃ a c r, i = .movCrR32 a c r ∧ u = s.setCtrl c (s.regs.get r))
    ∨ (∃ a c r, i = .movDr03R32 a c r ∧ u = s.setBreakAddr c (s.regs.get r))
    ∨ (∃ a c r, i = .movDr67R32 a c r ∧ armsBreakpoint c (s.regs.get r) = false ∧ u = s.setDebug c (s.regs.get r))
    ∨ ∃ a c r, i = .movTrR32 a c r ∧ u = s.setTest c (s.regs.get r)

section
variable {i : Instr} {s t u : State}

theorem SpecialWrite.flags (h : SpecialWrite i s u) : u.flags = s.flags := by
  rcases h with ⟨_, _, rfl⟩ | ⟨_, _, _, _, rfl⟩ | ⟨_, _, _, _, rfl⟩ | ⟨_, _, _, _, _, rfl⟩ | ⟨_, _, _, _, rfl⟩ <;> simp

theorem SpecialWrite.segs (h : SpecialWrite i s u) : u.segs = s.segs := by
  rcases h with ⟨_, _, rfl⟩ | ⟨_, _, _, _, rfl⟩ | ⟨_, _, _, _, rfl⟩ | ⟨_, _, _, _, _, rfl⟩ | ⟨_, _, _, _, rfl⟩ <;> simp

theorem SpecialWrite.tables (h : SpecialWrite i s u) :
    u.gdtr = s.gdtr ∧ u.ldtr = s.ldtr ∧ u.idtr = s.idtr ∧ u.task = s.task := by
  rcases h with ⟨_, _, rfl⟩ | ⟨_, _, _, _, rfl⟩ | ⟨_, _, _, _, rfl⟩ | ⟨_, _, _, _, _, rfl⟩ | ⟨_, _, _, _, rfl⟩ <;> simp

theorem SpecialWrite.ctrl (h : SpecialWrite i s u) (c : CtrlReg) (hc : ∀ a r, i ≠ .movCrR32 a c r) : u.ctrl c = s.ctrl c := by
  rcases h with ⟨_, _, rfl⟩ | ⟨a, k, r, hi, rfl⟩ | ⟨_, _, _, _, rfl⟩ | ⟨_, _, _, _, _, rfl⟩ | ⟨_, _, _, _, rfl⟩
  · rfl
  · exact State.setCtrl_ctrl_of_ne _ _ _ _ fun e => hc a r (e ▸ hi)
  · exact State.setBreakAddr_ctrl ..
  · exact State.setDebug_ctrl ..
  · exact State.setTest_ctrl ..

theorem SpecialWrite.breakAddr (h : SpecialWrite i s u) (c : BreakReg) (hc : ∀ a r, i ≠ .movDr03R32 a c r) :
    u.breakAddr c = s.breakAddr c := by
  rcases h with ⟨_, _, rfl⟩ | ⟨_, _, _, _, rfl⟩ | ⟨a, k, r, hi, rfl⟩ | ⟨_, _, _, _, _, rfl⟩ | ⟨_, _, _, _, rfl⟩
  · rfl
  · exact State.setCtrl_breakAddr ..
  · exact State.setBreakAddr_breakAddr_of_ne _ _ _ _ fun e => hc a r (e ▸ hi)
  · exact State.setDebug_breakAddr ..
  · exact State.setTest_breakAddr ..

theorem SpecialWrite.debug (h : SpecialWrite i s u) (c : DebugReg) (hc : ∀ a r, i ≠ .movDr67R32 a c r) :
    u.debug c = s.debug c := by
  rcases h with ⟨_, _, rfl⟩ | ⟨_, _, _, _, rfl⟩ | ⟨_, _, _, _, rfl⟩ | ⟨a, k, r, hi, _, rfl⟩ | ⟨_, _, _, _, rfl⟩
  · rfl
  · exact State.setCtrl_debug ..
  · exact State.setBreakAddr_debug ..
  · exact State.setDebug_debug_of_ne _ _ _ _ fun e => hc a r (e ▸ hi)
  · exact State.setTest_debug ..

theorem SpecialWrite.test (h : SpecialWrite i s u) (c : TestReg) (hc : ∀ a r, i ≠ .movTrR32 a c r) : u.test c = s.test c := by
  rcases h with ⟨_, _, rfl⟩ | ⟨_, _, _, _, rfl⟩ | ⟨_, _, _, _, rfl⟩ | ⟨_, _, _, _, _, rfl⟩ | ⟨a, k, r, hi, rfl⟩
  · rfl
  · exact State.setCtrl_test ..
  · exact State.setBreakAddr_test ..
  · exact State.setDebug_test ..
  · exact State.setTest_test_of_ne _ _ _ _ fun e => hc a r (e ▸ hi)

/-- In its table, special and task registers, the next state is that of a special-register write. -/
theorem exec_specialWrite (h : exec i s = .next t) : ∃ u, SpecialWrite i s u ∧ ∃ r p f g l m d,
    t = { u with regs := r, pc := p, flags := f, segs := g, inhibit := l, mem := m, draws := d } := by
  rcases exec_shape h with ⟨_, _, _, _, _, _, _, _, rfl⟩ | ⟨_, _, _, _, _, _, _, _, rfl⟩ | ⟨_, _, _, _, _, _, rfl⟩
    | ⟨_, _, u, _, _, rfl, hu⟩
  · exact ⟨s, .inl ⟨_, _, rfl⟩, _, _, _, _, _, _, _, rfl⟩
  · exact ⟨s, .inl ⟨_, _, rfl⟩, _, _, _, _, _, _, _, rfl⟩
  · exact ⟨s, .inl ⟨_, _, rfl⟩, _, _, _, _, _, _, _, rfl⟩
  · exact ⟨u, hu, _, _, _, _, _, _, _, rfl⟩

/-! ### Segment registers (R28, R159, R178) -/

/-- The segment registers stay, or one of them is loaded by the move into it. -/
theorem exec_segs (h : exec i s = .next t) :
    t.segs = s.segs ∨ ∃ a g o x, i = .movSregRm16 a g o ∧ t.segs = s.segs.set g x := by
  rcases exec_shape h with ⟨_, _, _, _, _, _, _, _, rfl⟩ | ⟨_, a, g, o, x, _, _, hi, rfl⟩ | ⟨_, _, _, _, _, _, rfl⟩
    | ⟨_, _, u, _, _, rfl, hu⟩
  · exact .inl rfl
  · exact .inr ⟨a, g, o, x, hi, rfl⟩
  · exact .inl rfl
  · exact .inl (SpecialWrite.segs (u := u) hu)

theorem exec_cs (h : exec i s = .next t) : t.segs.cs = s.segs.cs := by
  rcases exec_segs h with e | ⟨_, _, _, _, _, e⟩
  · rw [e]
  · rw [e, Segments.set_cs]

/-! ### Flags (R27, R202, R284) -/

theorem not_isSpecial_of_isMul (h : isMul i = true) : isSpecial i = false := by
  cases i with
  | mulRm8 a o | mulRm16 a o | mulRm32 a o => rfl
  | _ => exact absurd h Bool.false_ne_true

/-- The flags after an instruction: kept; for MUL two computed and four drawn; for a special move six drawn. -/
theorem exec_flags (h : exec i s = .next t) :
    (isSpecial i = false ∧ isMul i = false ∧ t.flags = s.flags)
      ∨ (isSpecial i = false ∧ isMul i = true ∧ ∃ k c, t.flags = { s.flags with
          cf := c, of := c, sf := Config.anyBit k, zf := Config.anyBit (k + 1), af := Config.anyBit (k + 2)
          pf := Config.anyBit (k + 3) })
      ∨ (isSpecial i = true ∧ isMul i = false ∧ ∃ k, t.flags = { s.flags with
          of := Config.anyBit k, sf := Config.anyBit (k + 1), zf := Config.anyBit (k + 2), af := Config.anyBit (k + 3)
          pf := Config.anyBit (k + 4), cf := Config.anyBit (k + 5) }) := by
  rcases exec_shape h with ⟨_, _, _, _, _, hs, hm, _, rfl⟩ | ⟨_, _, _, _, _, _, _, rfl, rfl⟩ | ⟨hm, _, _, _, c, _, rfl⟩
    | ⟨hs, _, u, _, _, rfl, hu⟩
  · exact .inl ⟨hs, hm, rfl⟩
  · exact .inl ⟨rfl, rfl, rfl⟩
  · exact .inr (.inl ⟨not_isSpecial_of_isMul hm, hm, s.draws, c, rfl⟩)
  · refine .inr (.inr ⟨hs, Bool.eq_false_iff.2 fun hm => by simp [not_isSpecial_of_isMul hm] at hs, u.draws, ?_⟩)
    rw [← SpecialWrite.flags hu]
    rfl

theorem exec_vm (h : exec i s = .next t) : t.flags.vm = s.flags.vm := by
  rcases exec_flags h with ⟨_, _, e⟩ | ⟨_, _, _, _, e⟩ | ⟨_, _, _, e⟩ <;> rw [e]

/-! ### Mode, privilege, default size, paging (R33, R38, R70, R102) -/

/-- The mode is a function of CR0 and VM. -/
theorem State.mode_congr (hc : t.cr0 = s.cr0) (hv : t.flags.vm = s.flags.vm) : t.mode = s.mode := by
  unfold State.mode State.pe
  rw [hc, hv]

/-- CPL is a function of the mode and CS. -/
theorem State.cpl_congr (hm : t.mode = s.mode) (hs : t.segs.cs = s.segs.cs) : t.cpl = s.cpl := by
  simp only [State.cpl, hm, hs]

theorem State.defaultSize_congr (hm : t.mode = s.mode) (hs : t.segs.cs = s.segs.cs) : t.defaultSize = s.defaultSize := by
  simp only [State.defaultSize, hm, hs]

theorem State.paging_congr (hm : t.mode = s.mode) (hc : t.cr0 = s.cr0) : t.paging = s.paging := by
  simp only [State.paging, State.pg, hm, hc]

end

/-! ### The statements -/

/-- Settles O54: the one case of `exec_segs` that writes a segment register writes its destination. -/
theorem otherSegmentsUnchanged : Obligations.OtherSegmentsUnchanged := by
  unfold Obligations.OtherSegmentsUnchanged
  intro i s t g h hg
  rcases exec_segs h with e | ⟨a, d, o, x, hi, e⟩
  · rw [e]
  · rw [e, Segments.get_set_of_ne _ _ _ _ (hg a d o hi)]

/-- Settles O55: the next state has the cells of a special-register write. -/
theorem otherSystemStateUnchanged : Obligations.OtherSystemStateUnchanged := by
  unfold Obligations.OtherSystemStateUnchanged
  intro i s t h
  have hcode := exec_code h
  obtain ⟨u, hu, _, _, _, _, _, _, _, rfl⟩ := exec_specialWrite h
  obtain ⟨hgdtr, hldtr, hidtr, htask⟩ := hu.tables
  exact ⟨hgdtr, hldtr, hidtr, htask, hcode, hu.ctrl, hu.breakAddr, hu.debug, hu.test⟩

/-- Settles O56: the three cases of `exec_flags`. -/
theorem flagsWritten : Obligations.FlagsWritten := by
  unfold Obligations.FlagsWritten
  intro i s t h
  rcases exec_flags h with ⟨hs, hm, e⟩ | ⟨hs, hm, k, c, e⟩ | ⟨hs, hm, k, e⟩
  · simp [hs, hm, e]
  · simp only [hs, hm, Bool.false_eq_true, Bool.true_eq_false, false_implies, implies_true, true_implies, true_and]
    exact ⟨k, c, e⟩
  · simp only [hs, hm, Bool.false_eq_true, Bool.true_eq_false, false_implies, true_implies, true_and, and_true]
    exact ⟨k, e⟩

/-- Settles O34: mode, paging, CPL and default size are functions of CR0, VM and CS, of which an instruction writes CR0 alone,
and only by the move into it. -/
theorem onlyMovCr0ChangesMode : Obligations.OnlyMovCr0ChangesMode := by
  unfold Obligations.OnlyMovCr0ChangesMode
  intro i s t h
  have hvm := exec_vm h
  have hcs := exec_cs h
  refine ⟨fun hi => ?_, ?_⟩
  · obtain ⟨_, _, _, _, _, hctrl, _⟩ := otherSystemStateUnchanged i s t h
    have hcr0 : t.cr0 = s.cr0 := hctrl .cr0 hi
    have hmode := State.mode_congr hcr0 hvm
    exact ⟨hmode, State.paging_congr hmode hcr0, State.cpl_congr hmode hcs, State.defaultSize_congr hmode hcs⟩
  · rintro a src rfl
    have hcr0 : t.cr0 = s.regs.get src := by rw [(movCrR32_next h).2]; rfl
    refine ⟨?_, ?_, fun hmode => State.cpl_congr hmode hcs⟩
    · simp only [State.mode, State.pe, hcr0, hvm]
      cases (s.regs.get src).getLsbD 0 <;> rfl
    · simp only [State.paging, State.pg, hcr0]

end Sys2Proof.Machine
end

section
/-!
The general registers an instruction leaves, bit by bit: a write of a register view changes only its bits, and an instruction
writes only its destinations (10_state.md R20 to R23).
-/

namespace Sys2Proof.Machine

/-! ### Bits of a register after a write of a view (R22) -/

/-- Above the low part of a concatenation stand the bits of the high one. -/
theorem getLsbD_append_of_le {m n k : Nat} (hi : BitVec m) (lo : BitVec n) (h : n ≤ k) :
    (hi ++ lo).getLsbD k = hi.getLsbD (k - n) := by
  rw [BitVec.getLsbD_append, if_neg (Nat.not_lt.2 h)]

/-- The bits of a value from bit `n` to its top, taken out and counted from 0. -/
theorem getLsbD_extract_top {w m n k : Nat} (x : BitVec w) (hw : w ≤ n + m) (h : n ≤ k) :
    (x.extractLsb' n m).getLsbD (k - n) = x.getLsbD k := by
  rw [BitVec.getLsbD_extractLsb', Nat.add_sub_cancel' h]
  by_cases hk : k - n < m
  · simp [hk]
  · simp [BitVec.getLsbD_of_ge x k (by omega)]

/-- Bit `k` lies outside the byte that an 8-bit register names in its 32-bit register (R21). -/
def outsideByte (d : Reg8) (k : Nat) : Prop := if isHighByte d = true then k < 8 ∨ 16 ≤ k else 8 ≤ k

section
variable {x : Regs} {r : Reg} {k : Nat}

theorem Regs.set_keeps {d : Reg} {v : Word} (h : d ≠ r) : ((x.set d v).get r).getLsbD k = (x.get r).getLsbD k := by
  rw [Regs.get_set_of_ne _ _ _ _ h.symm]

theorem Regs.set16_keeps {d : Reg} {v : BitVec 16} (h : d ≠ r ∨ 16 ≤ k) :
    ((x.set16 d v).get r).getLsbD k = (x.get r).getLsbD k := by
  rcases eq_or_ne d r with rfl | hd
  · have hk : 16 ≤ k := h.resolve_left (· rfl)
    rw [Regs.set16, Regs.get_set_same, getLsbD_append_of_le _ _ hk, getLsbD_extract_top _ (by decide) hk]
  · rw [Regs.get_set16_of_ne _ _ _ _ hd.symm]

theorem Regs.set8_keeps {d : Reg8} {v : BitVec 8} (h : byteHome d ≠ r ∨ outsideByte d k) :
    ((x.set8 d v).get r).getLsbD k = (x.get r).getLsbD k := by
  rcases eq_or_ne (byteHome d) r with rfl | hd
  · have hk : outsideByte d k := h.resolve_left (· rfl)
    unfold outsideByte at hk
    unfold Regs.set8
    split at hk
    · rename_i hh
      rw [if_pos hh, Regs.get_set_same]
      rcases hk with hk | hk
      · rw [BitVec.getLsbD_append, if_pos hk, BitVec.getLsbD_extractLsb', Nat.zero_add, decide_eq_true hk, Bool.true_and]
      · rw [getLsbD_append_of_le _ _ (by omega), getLsbD_append_of_le _ _ (by omega), Nat.sub_sub,
          getLsbD_extract_top _ (by decide) hk]
    · rename_i hh
      rw [if_neg hh, Regs.get_set_same, getLsbD_append_of_le _ _ hk, getLsbD_extract_top _ (by decide) hk]
  · rw [Regs.get_set8_of_ne _ _ _ _ hd.symm]

theorem indexWrite_keeps {z : Size} {d : Reg} {v : Word} (h : d ≠ r ∨ (z = .w16 ∧ 16 ≤ k)) :
    ((indexWrite z x d v).get r).getLsbD k = (x.get r).getLsbD k := by
  cases z with
  | w16 => exact Regs.set16_keeps (h.imp_right And.right)
  | w32 => exact Regs.set_keeps (h.resolve_right fun hz => nomatch hz.1)

theorem advanceIndexes_keeps {z : Size} {delta : Word} (hsi : Reg.esi ≠ r ∨ (z = .w16 ∧ 16 ≤ k))
    (hdi : Reg.edi ≠ r ∨ (z = .w16 ∧ 16 ≤ k)) :
    ((advanceIndexes z delta x).get r).getLsbD k = (x.get r).getLsbD k := by
  rw [advanceIndexes, indexWrite_keeps hdi, indexWrite_keeps hsi]

theorem countDown_keeps {z : Size} (h : Reg.ecx ≠ r ∨ (z = .w16 ∧ 16 ≤ k)) :
    ((countDown z x).get r).getLsbD k = (x.get r).getLsbD k := indexWrite_keeps h

end

/-! ### The bits an instruction keeps (R22, R23) -/

/-- Bit `k` of `r` is none that `i` may write: `r` is no destination, or it is a word destination and `k` lies above the word, or
it holds a byte destination and `k` lies outside the byte. -/
def KeepsBit (i : Instr) (r : Reg) (k : Nat) : Prop :=
  writesReg i r = false ∨ (r ∈ wordDestinations i ∧ 16 ≤ k) ∨ ∃ d ∈ byteDestinations i, byteHome d = r ∧ outsideByte d k

section
variable {i : Instr} {s t u : State} {r : Reg} {k : Nat}

/-- A kept bit is not in a 32-bit destination. -/
theorem KeepsBit.full {d : Reg} (hk : KeepsBit i r k) (hd : writesReg i d = true) (hw : wordDestinations i = [])
    (hb : byteDestinations i = []) : d ≠ r := by
  rintro rfl
  simp [KeepsBit, hd, hw, hb] at hk

/-- A kept bit is not in the low half of a destination of 16 bits. -/
theorem KeepsBit.word {d : Reg} (hk : KeepsBit i r k) (hd : writesReg i d = true) (hb : byteDestinations i = []) :
    d ≠ r ∨ 16 ≤ k := by
  rcases hk with hk | ⟨_, hk⟩ | ⟨_, hm, _⟩
  · exact .inl fun e => by rw [← e, hd] at hk; exact nomatch hk
  · exact .inr hk
  · exact absurd hm (by simp [hb])

/-- A kept bit is not in the byte of a destination of 8 bits. -/
theorem KeepsBit.byte {d : Reg8} (hk : KeepsBit i r k) (hd : writesReg i (byteHome d) = true) (hw : wordDestinations i = [])
    (hb : byteDestinations i = [d]) : byteHome d ≠ r ∨ outsideByte d k := by
  rcases hk with hk | ⟨hm, _⟩ | ⟨d', hm, _, ho⟩
  · exact .inl fun e => by rw [← e, hd] at hk; exact nomatch hk
  · exact absurd hm (by simp [hw])
  · rw [hb, List.mem_singleton] at hm
    exact .inr (hm ▸ ho)

/-- A kept bit is not in the part of an index or count register that the address size names. -/
theorem KeepsBit.sized {d : Reg} {z : Size} {ds : List Reg} (hk : KeepsBit i r k) (hd : writesReg i d = true)
    (hw : wordDestinations i = if z = .w16 then ds else []) (hb : byteDestinations i = []) :
    d ≠ r ∨ (z = .w16 ∧ 16 ≤ k) := by
  by_cases hz : z = .w16
  · exact (hk.word hd hb).imp_right fun h => ⟨hz, h⟩
  · exact .inl (hk.full hd (by rw [hw, if_neg hz]) hb)

/-! ### What the shared writes keep -/

theorem writeRm8_keeps {a : Attr} {v : BitVec 8} {o : Rm Reg8} (h : writeRm8 a s v o = .ok u)
    (hk : ∀ d, o = .reg d → byteHome d ≠ r ∨ outsideByte d k) : (u.regs.get r).getLsbD k = (s.regs.get r).getLsbD k := by
  rcases writeRm8_ok h with ⟨d, ho, rfl⟩ | ⟨_, _, _, _, _, rfl⟩
  · exact Regs.set8_keeps (hk d ho)
  · rfl

theorem writeRm16_keeps {a : Attr} {v : BitVec 16} {o : Rm Reg} (h : writeRm16 a s v o = .ok u)
    (hk : ∀ d, o = .reg d → d ≠ r ∨ 16 ≤ k) : (u.regs.get r).getLsbD k = (s.regs.get r).getLsbD k := by
  rcases writeRm16_ok h with ⟨d, ho, rfl⟩ | ⟨_, _, _, _, _, rfl⟩
  · exact Regs.set16_keeps (hk d ho)
  · rfl

theorem writeRm32_keeps {a : Attr} {v : BitVec 32} {o : Rm Reg} (h : writeRm32 a s v o = .ok u)
    (hk : ∀ d, o = .reg d → d ≠ r) : (u.regs.get r).getLsbD k = (s.regs.get r).getLsbD k := by
  rcases writeRm32_ok h with ⟨d, ho, rfl⟩ | ⟨_, _, _, _, _, rfl⟩
  · exact Regs.set_keeps (hk d ho)
  · rfl

theorem segWrite_regs {w : Nat} {g : SegReg} {off : Word} {v : BitVec w} (h : segWrite s w g off v = .ok u) :
    u.regs = s.regs := by
  obtain ⟨_, rfl⟩ := segWrite_shape h
  rfl

theorem movsStep_keeps {a : Attr} {w : Nat} (h : movsStep a w s = .ok u) (hsi : Reg.esi ≠ r ∨ (a.adsize = .w16 ∧ 16 ≤ k))
    (hdi : Reg.edi ≠ r ∨ (a.adsize = .w16 ∧ 16 ≤ k)) : (u.regs.get r).getLsbD k = (s.regs.get r).getLsbD k := by
  obtain ⟨_, _, _, _, _, rfl⟩ := movsStep_ok h
  exact advanceIndexes_keeps hsi hdi

theorem repStep_keeps {a : Attr} {w : Nat} (h : repStep i a w s = .next t) (hsi : Reg.esi ≠ r ∨ (a.adsize = .w16 ∧ 16 ≤ k))
    (hdi : Reg.edi ≠ r ∨ (a.adsize = .w16 ∧ 16 ≤ k)) (hcx : Reg.ecx ≠ r ∨ (a.adsize = .w16 ∧ 16 ≤ k)) :
    (t.regs.get r).getLsbD k = (s.regs.get r).getLsbD k := by
  rcases repStep_next h with ⟨_, rfl⟩ | ⟨_, u, hu, ⟨_, rfl⟩ | ⟨_, rfl⟩⟩
  · rfl
  · exact (countDown_keeps hcx).trans (movsStep_keeps hu hsi hdi)
  · exact (countDown_keeps hcx).trans (movsStep_keeps hu hsi hdi)

/-! ### What every instruction keeps -/

/-- An instruction keeps every bit of the general registers that lies in none of its destinations. -/
theorem exec_keepsBit (h : exec i s = .next t) (hk : KeepsBit i r k) :
    (t.regs.get r).getLsbD k = (s.regs.get r).getLsbD k := by
  cases i with
  | movRm8R8 a o d =>
    obtain ⟨u, hu, rfl⟩ := movRm8R8_next h
    exact writeRm8_keeps (u := u) hu (by rintro d rfl; exact hk.byte (beq_self_eq_true _) rfl rfl)
  | movRm16R16 a o d =>
    obtain ⟨u, hu, rfl⟩ := movRm16R16_next h
    exact writeRm16_keeps (u := u) hu (by rintro d rfl; exact hk.word (beq_self_eq_true _) rfl)
  | movRm32R32 a o d =>
    obtain ⟨u, hu, rfl⟩ := movRm32R32_next h
    exact writeRm32_keeps (u := u) hu (by rintro d rfl; exact hk.full (beq_self_eq_true _) rfl rfl)
  | movR8Rm8 a d o =>
    obtain ⟨_, _, rfl⟩ := movR8Rm8_next h
    exact Regs.set8_keeps (hk.byte (beq_self_eq_true _) rfl rfl)
  | movR16Rm16 a d o =>
    obtain ⟨_, _, rfl⟩ := movR16Rm16_next h
    exact Regs.set16_keeps (hk.word (beq_self_eq_true _) rfl)
  | movR32Rm32 a d o =>
    obtain ⟨_, _, rfl⟩ := movR32Rm32_next h
    exact Regs.set_keeps (hk.full (beq_self_eq_true _) rfl rfl)
  | movRm16Sreg a o g =>
    obtain ⟨u, rfl, ⟨d, rfl, hz, rfl⟩ | ⟨_, hu⟩⟩ := movRm16Sreg_next h
    · exact Regs.set_keeps (hk.full (beq_self_eq_true _) (by simp [wordDestinations, hz]) rfl)
    · exact writeRm16_keeps (u := u) hu (by rintro d rfl; exact hk.word (beq_self_eq_true _) rfl)
  | movSregRm16 a g o =>
    obtain ⟨_, u, _, hu, rfl⟩ := movSregRm16_next h
    obtain ⟨_, _, rfl⟩ := loadSegment_shape hu
    rfl
  | movAlMoffs8 a o =>
    obtain ⟨_, _, rfl⟩ := movAlMoffs8_next h
    exact Regs.set8_keeps (hk.byte rfl rfl rfl)
  | movAxMoffs16 a o =>
    obtain ⟨_, _, rfl⟩ := movAxMoffs16_next h
    exact Regs.set16_keeps (hk.word rfl rfl)
  | movEaxMoffs32 a o =>
    obtain ⟨_, _, rfl⟩ := movEaxMoffs32_next h
    exact Regs.set_keeps (hk.full rfl rfl rfl)
  | movMoffs8Al a o =>
    obtain ⟨u, hu, rfl⟩ := movMoffs8Al_next h
    rw [State.advance_regs, segWrite_regs hu]
  | movMoffs16Ax a o =>
    obtain ⟨u, hu, rfl⟩ := movMoffs16Ax_next h
    rw [State.advance_regs, segWrite_regs hu]
  | movMoffs32Eax a o =>
    obtain ⟨u, hu, rfl⟩ := movMoffs32Eax_next h
    rw [State.advance_regs, segWrite_regs hu]
  | movReg8Imm8 a d v =>
    obtain rfl := movReg8Imm8_next h
    exact Regs.set8_keeps (hk.byte (beq_self_eq_true _) rfl rfl)
  | movReg16Imm16 a d v =>
    obtain rfl := movReg16Imm16_next h
    exact Regs.set16_keeps (hk.word (beq_self_eq_true _) rfl)
  | movReg32Imm32 a d v =>
    obtain rfl := movReg32Imm32_next h
    exact Regs.set_keeps (hk.full (beq_self_eq_true _) rfl rfl)
  | movRm8Imm8 a o v =>
    obtain ⟨u, hu, rfl⟩ := movRm8Imm8_next h
    exact writeRm8_keeps (u := u) hu (by rintro d rfl; exact hk.byte (beq_self_eq_true _) rfl rfl)
  | movRm16Imm16 a o v =>
    obtain ⟨u, hu, rfl⟩ := movRm16Imm16_next h
    exact writeRm16_keeps (u := u) hu (by rintro d rfl; exact hk.word (beq_self_eq_true _) rfl)
  | movRm32Imm32 a o v =>
    obtain ⟨u, hu, rfl⟩ := movRm32Imm32_next h
    exact writeRm32_keeps (u := u) hu (by rintro d rfl; exact hk.full (beq_self_eq_true _) rfl rfl)
  | movR32Cr a d c =>
    obtain ⟨_, rfl⟩ := movR32Cr_next h
    exact Regs.set_keeps (hk.full (beq_self_eq_true _) rfl rfl)
  | movCrR32 a c d =>
    obtain ⟨_, rfl⟩ := movCrR32_next h
    rw [State.advance_regs, undefFlags6_regs, State.setCtrl_regs]
  | movR32Dr03 a d c =>
    obtain ⟨_, rfl⟩ := movR32Dr03_next h
    exact Regs.set_keeps (hk.full (beq_self_eq_true _) rfl rfl)
  | movR32Dr67 a d c =>
    obtain ⟨_, rfl⟩ := movR32Dr67_next h
    exact Regs.set_keeps (hk.full (beq_self_eq_true _) rfl rfl)
  | movDr03R32 a c d =>
    obtain ⟨_, rfl⟩ := movDr03R32_next h
    rw [State.advance_regs, undefFlags6_regs, State.setBreakAddr_regs]
  | movDr67R32 a c d =>
    obtain ⟨_, _, rfl⟩ := movDr67R32_next h
    rw [State.advance_regs, undefFlags6_regs, State.setDebug_regs]
  | movR32Tr a d c =>
    obtain ⟨_, rfl⟩ := movR32Tr_next h
    exact Regs.set_keeps (hk.full (beq_self_eq_true _) rfl rfl)
  | movTrR32 a c d =>
    obtain ⟨_, _, rfl⟩ := movTrR32_next h
    rw [State.advance_regs, undefFlags6_regs, State.setTest_regs]
  | movs8 a =>
    obtain ⟨u, hu, rfl⟩ := movs8_next h
    exact movsStep_keeps (u := u) hu (hk.sized rfl rfl rfl) (hk.sized rfl rfl rfl)
  | movs16 a =>
    obtain ⟨u, hu, rfl⟩ := movs16_next h
    exact movsStep_keeps (u := u) hu (hk.sized rfl rfl rfl) (hk.sized rfl rfl rfl)
  | movs32 a =>
    obtain ⟨u, hu, rfl⟩ := movs32_next h
    exact movsStep_keeps (u := u) hu (hk.sized rfl rfl rfl) (hk.sized rfl rfl rfl)
  | repMovs8 a => exact repStep_keeps h (hk.sized rfl rfl rfl) (hk.sized rfl rfl rfl) (hk.sized rfl rfl rfl)
  | repMovs16 a => exact repStep_keeps h (hk.sized rfl rfl rfl) (hk.sized rfl rfl rfl) (hk.sized rfl rfl rfl)
  | repMovs32 a => exact repStep_keeps h (hk.sized rfl rfl rfl) (hk.sized rfl rfl rfl) (hk.sized rfl rfl rfl)
  | movsxR16Rm8 a d o =>
    obtain ⟨_, _, rfl⟩ := movsxR16Rm8_next h
    exact Regs.set16_keeps (hk.word (beq_self_eq_true _) rfl)
  | movsxR32Rm8 a d o =>
    obtain ⟨_, _, rfl⟩ := movsxR32Rm8_next h
    exact Regs.set_keeps (hk.full (beq_self_eq_true _) rfl rfl)
  | movsxR32Rm16 a d o =>
    obtain ⟨_, _, rfl⟩ := movsxR32Rm16_next h
    exact Regs.set_keeps (hk.full (beq_self_eq_true _) rfl rfl)
  | movzxR16Rm8 a d o =>
    obtain ⟨_, _, rfl⟩ := movzxR16Rm8_next h
    exact Regs.set16_keeps (hk.word (beq_self_eq_true _) rfl)
  | movzxR32Rm8 a d o =>
    obtain ⟨_, _, rfl⟩ := movzxR32Rm8_next h
    exact Regs.set_keeps (hk.full (beq_self_eq_true _) rfl rfl)
  | movzxR32Rm16 a d o =>
    obtain ⟨_, _, rfl⟩ := movzxR32Rm16_next h
    exact Regs.set_keeps (hk.full (beq_self_eq_true _) rfl rfl)
  | mulRm8 a o =>
    obtain ⟨_, _, rfl⟩ := mulRm8_next h
    exact Regs.set16_keeps (hk.word rfl rfl)
  | mulRm16 a o =>
    obtain ⟨_, _, rfl⟩ := mulRm16_next h
    exact (Regs.set16_keeps (hk.word rfl rfl)).trans (Regs.set16_keeps (hk.word rfl rfl))
  | mulRm32 a o =>
    obtain ⟨_, _, rfl⟩ := mulRm32_next h
    exact (Regs.set_keeps (hk.full rfl rfl rfl)).trans (Regs.set_keeps (hk.full rfl rfl rfl))

end

/-! ### The statements -/

/-- Settles O52: every bit of a register that is no destination is kept. -/
theorem otherRegistersUnchanged : Obligations.OtherRegistersUnchanged := by
  unfold Obligations.OtherRegistersUnchanged
  intro i s t r h hr
  exact BitVec.eq_of_getLsbD_eq fun k _ => exec_keepsBit h (.inl hr)

/-- Settles O53: the bits outside a word or byte destination are among those `KeepsBit` names. -/
theorem narrowWritesKeepOtherBits : Obligations.NarrowWritesKeepOtherBits := by
  unfold Obligations.NarrowWritesKeepOtherBits
  intro i s t h
  exact ⟨fun d hd k hk => exec_keepsBit h (.inr (.inl ⟨hd, hk⟩)),
    fun d hd k hk => exec_keepsBit h (.inr (.inr ⟨d, hd, rfl, hk⟩))⟩

end Sys2Proof.Machine
end

section
/-!
The program counter and the interrupt-inhibit latch after an instruction (10_state.md R24, R37; 40_mov.md R177; 42_movs.md R236).
-/

namespace Sys2Proof.Machine

section
variable {i : Instr} {s t : State}

/-- Only a load of SS leaves the latch set (R37, R177). -/
theorem latchAfter_eq_false (hi : ∀ a src, i ≠ .movSregRm16 a .ss src) : latchAfter i = false := by
  unfold latchAfter
  split
  · exact absurd rfl (hi _ _)
  · rfl

/-- An iteration of REP MOVS completes the instruction where it leaves a count of 0; otherwise it leaves pc and the latch
(R236; log 16). -/
theorem repStep_pc {a : Attr} {w : Nat} (h : repStep i a w s = .next t) :
    (sizedValue a.adsize t.regs .ecx = 0 ∧ t.pc = nextPc s.defaultSize s.pc (i.length s.defaultSize) ∧ t.inhibit = false)
      ∨ (sizedValue a.adsize t.regs .ecx ≠ 0 ∧ t.pc = s.pc ∧ t.inhibit = s.inhibit) := by
  rw [Ne, ← indexRead_eq_zero]
  rcases repStep_next h with ⟨hc, rfl⟩ | ⟨_, u, hu, ⟨hc, rfl⟩ | ⟨hc, rfl⟩⟩
  · exact .inl ⟨hc, rfl, rfl⟩
  · obtain ⟨_, _, rfl⟩ := movsStep_shape hu
    exact .inl ⟨hc, rfl, rfl⟩
  · obtain ⟨_, _, rfl⟩ := movsStep_shape hu
    exact .inr ⟨hc, rfl, rfl⟩

/-- A REP MOVS is one of three, each a `repStep` with its own attributes. -/
theorem exec_of_isRep (hr : i.isRep = true) : ∃ w, exec i s = repStep i i.attr w s := by
  cases i with
  | repMovs8 a => exact ⟨8, rfl⟩
  | repMovs16 a => exact ⟨16, rfl⟩
  | repMovs32 a => exact ⟨32, rfl⟩
  | _ => exact absurd hr Bool.false_ne_true

theorem exec_rep_pc (h : exec i s = .next t) (hr : i.isRep = true) :
    (sizedValue i.attr.adsize t.regs .ecx = 0 ∧ t.pc = nextPc s.defaultSize s.pc (i.length s.defaultSize) ∧ t.inhibit = false)
      ∨ (sizedValue i.attr.adsize t.regs .ecx ≠ 0 ∧ t.pc = s.pc ∧ t.inhibit = s.inhibit) := by
  obtain ⟨w, hw⟩ := exec_of_isRep (s := s) hr
  exact repStep_pc (hw.symm.trans h)

end

/-- Settles O28: `exec_pc` for the instructions that complete in one step, `exec_rep_pc` for REP MOVS. -/
theorem latchAfterInstruction : Obligations.LatchAfterInstruction := by
  unfold Obligations.LatchAfterInstruction
  intro i s t h
  refine ⟨?_, fun hi hr => ?_, fun hr hc => ?_, fun hr hc => ?_⟩
  · rintro a src rfl
    exact (exec_pc h rfl).2
  · rw [(exec_pc h hr).2, latchAfter_eq_false hi]
  · rcases exec_rep_pc h hr with ⟨_, _, hl⟩ | ⟨hn, _, _⟩
    · exact hl
    · exact absurd hc hn
  · rcases exec_rep_pc h hr with ⟨hz, _, _⟩ | ⟨_, hp, hl⟩
    · exact absurd hz hc
    · exact ⟨hl, hp⟩

/-- Settles O58: pc after the instructions that complete in one step, and after an iteration of REP MOVS. -/
theorem programCounterAdvances : Obligations.ProgramCounterAdvances := by
  unfold Obligations.ProgramCounterAdvances
  intro i s t h
  cases hr : i.isRep with
  | false =>
    rw [(exec_pc h hr).1, nextPc_toNat]
    simp
  | true =>
    rcases exec_rep_pc h hr with ⟨hc, hp, _⟩ | ⟨hc, hp, _⟩
    · rw [hp, nextPc_toNat]
      simp [hc]
    · rw [hp]
      simp [hc]

end Sys2Proof.Machine
end

section
/-!
Reading a special register back after a write (10_state.md R34 to R36; 41_mov_special.md R203 to R212).
-/

namespace Sys2Proof.Machine

section
variable {a : Attr} {d r : Reg} {s t : State}

/-! ### What a write leaves in its cell (R204, R207, R208, R210) -/

theorem movCrR32_cell {c : CtrlReg} (h : exec (.movCrR32 a c r) s = .next t) : t.ctrl c = s.regs.get r := by
  obtain ⟨_, rfl⟩ := movCrR32_next h
  exact State.setCtrl_ctrl ..

theorem movDr03R32_cell {k : BreakReg} (h : exec (.movDr03R32 a k r) s = .next t) : t.breakAddr k = s.regs.get r := by
  obtain ⟨_, rfl⟩ := movDr03R32_next h
  exact State.setBreakAddr_breakAddr ..

theorem movDr67R32_cell {k : DebugReg} (h : exec (.movDr67R32 a k r) s = .next t) : t.debug k = s.regs.get r := by
  obtain ⟨_, _, rfl⟩ := movDr67R32_next h
  exact State.setDebug_debug ..

/-- A write of TR7 leaves reads determined where they were: only a write of TR6 makes them draws (R212; log 9). -/
theorem movTr7R32_cell (h : exec (.movTrR32 a .tr7 r) s = .next t) :
    t.test .tr7 = s.regs.get r ∧ t.tlbTested = s.tlbTested := by
  obtain ⟨_, _, rfl⟩ := movTrR32_next h
  exact ⟨rfl, rfl⟩

/-! ### What a read gives in the defined positions (R203, R205, R206, R209) -/

theorem movR32Cr_defined {c : CtrlReg} (h : exec (.movR32Cr a d c) s = .next t) :
    t.regs.get d &&& ctrlDefined c = s.ctrl c &&& ctrlDefined c := by
  obtain ⟨_, rfl⟩ := movR32Cr_next h
  rw [State.advance_regs, undefFlags6_regs, State.setRegDrawn_regs, Regs.get_set_same, withReserved_and]

theorem movR32Dr03_reads {k : BreakReg} (h : exec (.movR32Dr03 a d k) s = .next t) : t.regs.get d = s.breakAddr k := by
  obtain ⟨_, rfl⟩ := movR32Dr03_next h
  exact Regs.get_set_same ..

theorem movR32Dr67_defined {k : DebugReg} (h : exec (.movR32Dr67 a d k) s = .next t) :
    t.regs.get d &&& debugDefined k = s.debug k &&& debugDefined k := by
  obtain ⟨_, rfl⟩ := movR32Dr67_next h
  rw [State.advance_regs, undefFlags6_regs, State.setRegDrawn_regs, Regs.get_set_same, withReserved_and]

theorem movR32Tr_defined {k : TestReg} (h : exec (.movR32Tr a d k) s = .next t) (hs : s.tlbTested = false) :
    t.regs.get d &&& testDefined k = s.test k &&& testDefined k := by
  obtain ⟨_, rfl⟩ := movR32Tr_next h
  have hread : testRead s k = withReserved (testDefined k) (s.test k) (Config.anyWord s.draws) := by
    rw [testRead, hs, if_neg Bool.false_ne_true]
  rw [State.advance_regs, undefFlags6_regs, State.setRegDrawn_regs, Regs.get_set_same, hread, withReserved_and]

end

/-- Settles O33: the read gives the cell in the defined positions, and the cell is what the write left. -/
theorem specialRegisterReadsBack : Obligations.SpecialRegisterReadsBack := by
  unfold Obligations.SpecialRegisterReadsBack
  intro a b src dst s t u
  refine ⟨fun c hw hr => ?_, fun k hw hr => ?_, fun k hw hr => ?_, fun hs hw hr => ?_⟩
  · rw [movR32Cr_defined hr, movCrR32_cell hw]
  · rw [movR32Dr03_reads hr, movDr03R32_cell hw]
  · rw [movR32Dr67_defined hr, movDr67R32_cell hw]
  · obtain ⟨hcell, htested⟩ := movTr7R32_cell hw
    rw [movR32Tr_defined hr (htested.trans hs), hcell]

end Sys2Proof.Machine
end

section
/-!
No instruction reads the six status flags or the interrupt-inhibit latch (10_state.md R27, R37): what an instruction does is
the same when they are blanked out beforehand, and so the same in any two states that differ in them alone.
-/

namespace Sys2Proof.Machine

/-- The state with other values of OF, SF, ZF, AF, PF, CF and the latch. -/
abbrev State.withStatus (s : State) (o f z x p c h : Bool) : State :=
  { s with flags := { s.flags with of := o, sf := f, zf := z, af := x, pf := p, cf := c }, inhibit := h }

/-- The state with the six status flags and the latch blanked out. -/
def State.blank (s : State) : State := s.withStatus false false false false false false false

/-- States that are the same when blanked differ in the status flags and the latch alone. -/
theorem State.eq_withStatus_of_blank_eq {t u : State} (h : t.blank = u.blank) :
    u = t.withStatus u.flags.of u.flags.sf u.flags.zf u.flags.af u.flags.pf u.flags.cf u.inhibit :=
  (congrArg (·.withStatus u.flags.of u.flags.sf u.flags.zf u.flags.af u.flags.pf u.flags.cf u.inhibit) h).symm

theorem regs_of_blank_eq {t u : State} (h : t.blank = u.blank) : t.regs = u.regs := by
  change t.blank.regs = u.blank.regs
  rw [h]

theorem advance_blank_congr {t u : State} {d : Size} {n : Nat} {l : Bool} (h : t.blank = u.blank) :
    (t.advance d n l).blank = (u.advance d n l).blank := by
  change (t.blank.advance d n l).blank = (u.blank.advance d n l).blank
  rw [h]

/-! ### What is read is not blanked -/

section
variable (s : State)

@[simp] theorem blank_mode : s.blank.mode = s.mode := rfl

@[simp] theorem blank_checkAccess (g : SegReg) (k : Access) (off n : Nat) :
    checkAccess s.blank g k off n = checkAccess s g k off n := rfl

@[simp] theorem blank_translate (lin : Word) (w u : Bool) : translate s.blank lin w u = translate s lin w u := rfl

@[simp] theorem blank_translateRun (w u : Bool) (lin : Word) (n : Nat) :
    translateRun s.blank w u lin n = translateRun s w u lin n := by
  induction n generalizing lin with
  | zero => rfl
  | succ n ih => rw [translateRun, translateRun, ih, blank_translate]

@[simp] theorem blank_linRead (w : Nat) (lin : Word) (u : Bool) : linRead s.blank w lin u = linRead s w lin u := by
  rw [linRead, linRead, blank_translateRun]; rfl

@[simp] theorem blank_segRead (w : Nat) (g : SegReg) (off : Word) : segRead s.blank w g off = segRead s w g off := by
  rw [segRead, segRead, blank_checkAccess, blank_linRead]; rfl

@[simp] theorem blank_readRm8 (a : Attr) (o : Rm Reg8) : readRm8 a s.blank o = readRm8 a s o := by
  cases o with
  | reg r => rfl
  | mem m => exact blank_segRead ..

@[simp] theorem blank_readRm16 (a : Attr) (o : Rm Reg) : readRm16 a s.blank o = readRm16 a s o := by
  cases o with
  | reg r => rfl
  | mem m => exact blank_segRead ..

@[simp] theorem blank_readRm32 (a : Attr) (o : Rm Reg) : readRm32 a s.blank o = readRm32 a s o := by
  cases o with
  | reg r => rfl
  | mem m => exact blank_segRead ..

@[simp] theorem blank_readDescriptor (sel : BitVec 16) : readDescriptor s.blank sel = readDescriptor s sel := by
  rw [readDescriptor, readDescriptor, blank_linRead]; rfl

@[simp] theorem blank_privCheck : privCheck s.blank = privCheck s := rfl

end

/-! ### What is written is written alike -/

/-- Two parts of an instruction that stop alike, or give states that are the same when blanked. -/
def SameBlank (x y : Except Stop State) : Prop := x.map State.blank = y.map State.blank

theorem sameBlank_ok {t u : State} (h : t.blank = u.blank) : SameBlank (.ok t) (.ok u) := congrArg Except.ok h

theorem sameBlank_error {e : Stop} : SameBlank (.error e) (.error e) := rfl

theorem sameBlank_bind {α : Type} {x y : Except Stop α} {f g : α → Except Stop State} (hx : x = y)
    (hf : ∀ a, SameBlank (f a) (g a)) : SameBlank (x >>= f) (y >>= g) := by
  subst hx
  cases x with
  | error e => rfl
  | ok a => exact hf a

/-- Such parts either stop with the same stop or both succeed. -/
theorem SameBlank.error_or_ok {x y : Except Stop State} (h : SameBlank x y) :
    (∃ e, x = .error e ∧ y = .error e) ∨ ∃ t u, x = .ok t ∧ y = .ok u ∧ t.blank = u.blank := by
  cases x with
  | error e =>
    cases y with
    | error e' => cases h; exact .inl ⟨e, rfl, rfl⟩
    | ok u => exact nomatch h
  | ok t =>
    cases y with
    | error e => exact nomatch h
    | ok u => exact .inr ⟨t, u, rfl, rfl, Except.ok.inj h⟩

theorem sameBlank_bind_state {x y : Except Stop State} {f g : State → Except Stop State} (hx : SameBlank x y)
    (hf : ∀ t u, t.blank = u.blank → SameBlank (f t) (g u)) : SameBlank (x >>= f) (y >>= g) := by
  rcases hx.error_or_ok with ⟨e, rfl, rfl⟩ | ⟨t, u, rfl, rfl, ht⟩
  · rfl
  · exact hf t u ht

theorem sameBlank_ite {c : Prop} [Decidable c] {x y x' y' : Except Stop State} (h : SameBlank x y) (h' : SameBlank x' y') :
    SameBlank (if c then x else x') (if c then y else y') := by
  split <;> assumption

section
variable {s : State}

theorem sameBlank_linWrite {w : Nat} {lin : Word} {u : Bool} {v : BitVec w} :
    SameBlank (linWrite s.blank w lin u v) (linWrite s w lin u v) :=
  sameBlank_bind (blank_translateRun ..) fun _ => sameBlank_ite sameBlank_error (sameBlank_ok rfl)

theorem sameBlank_segWrite {w : Nat} {g : SegReg} {off : Word} {v : BitVec w} :
    SameBlank (segWrite s.blank w g off v) (segWrite s w g off v) :=
  sameBlank_bind (blank_checkAccess ..) fun _ => sameBlank_linWrite

theorem sameBlank_writeRm8 {a : Attr} {v : BitVec 8} {o : Rm Reg8} : SameBlank (writeRm8 a s.blank v o) (writeRm8 a s v o) := by
  cases o with
  | reg r => exact sameBlank_ok rfl
  | mem m => exact sameBlank_segWrite

theorem sameBlank_writeRm16 {a : Attr} {v : BitVec 16} {o : Rm Reg} :
    SameBlank (writeRm16 a s.blank v o) (writeRm16 a s v o) := by
  cases o with
  | reg r => exact sameBlank_ok rfl
  | mem m => exact sameBlank_segWrite

theorem sameBlank_writeRm32 {a : Attr} {v : BitVec 32} {o : Rm Reg} :
    SameBlank (writeRm32 a s.blank v o) (writeRm32 a s v o) := by
  cases o with
  | reg r => exact sameBlank_ok rfl
  | mem m => exact sameBlank_segWrite

theorem sameBlank_commitLoad {g : SegDest} {sel : BitVec 16} {d : BitVec 64} :
    SameBlank (commitLoad s.blank g sel d) (commitLoad s g sel d) :=
  sameBlank_ite
    (sameBlank_bind_state sameBlank_linWrite fun _ _ h =>
      sameBlank_ok (congrArg (fun x : State => { x with segs := x.segs.set g (loadedSegment sel d) }) h))
    (sameBlank_ok rfl)

theorem sameBlank_loadSegment {g : SegDest} {sel : BitVec 16} :
    SameBlank (loadSegment s.blank g sel) (loadSegment s g sel) := by
  unfold loadSegment
  rw [blank_mode]
  cases s.mode with
  | real => exact sameBlank_ok rfl
  | v86 => exact sameBlank_ok rfl
  | prot =>
    refine sameBlank_ite ?_ (sameBlank_ite (sameBlank_ok rfl) ?_)
    · exact sameBlank_ite sameBlank_error (sameBlank_bind (blank_readDescriptor ..) fun _ => sameBlank_ite sameBlank_error
        (sameBlank_ite sameBlank_error (sameBlank_ite sameBlank_error (sameBlank_ite sameBlank_error sameBlank_commitLoad))))
    · exact sameBlank_bind (blank_readDescriptor ..) fun _ => sameBlank_ite sameBlank_error
        (sameBlank_ite sameBlank_error (sameBlank_ite sameBlank_error sameBlank_commitLoad))

theorem sameBlank_movsStep {a : Attr} {w : Nat} : SameBlank (movsStep a w s.blank) (movsStep a w s) :=
  sameBlank_bind (blank_segRead ..) fun _ => sameBlank_bind_state sameBlank_segWrite fun _ _ h =>
    sameBlank_ok (congrArg (fun x : State => { x with regs := advanceIndexes a.adsize (stringDelta s w) x.regs }) h)

theorem sameBlank_special {x y : Except Stop State} (h : SameBlank x y) :
    SameBlank (privCheck s.blank >>= fun _ => x) (privCheck s >>= fun _ => y) :=
  sameBlank_bind (blank_privCheck s) fun _ => h

/-! ### Every instruction -/

/-- An outcome, its next state blanked. -/
def blankOutcome : Host.Outcome State Fault Refusal → Host.Outcome State Fault Refusal
  | .next t => .next t.blank
  | .fault f => .fault f
  | .refused r => .refused r

theorem retireWith_blank {l : Bool} {i : Instr} {x y : Except Stop State} (h : SameBlank x y) :
    blankOutcome (retireWith l i s.blank x) = blankOutcome (retireWith l i s y) := by
  rcases h.error_or_ok with ⟨e, rfl, rfl⟩ | ⟨t, u, rfl, rfl, ht⟩
  · rfl
  · exact congrArg Host.Outcome.next (advance_blank_congr ht)

theorem blankOutcome_ite {c : Prop} [Decidable c] {x y x' y' : Host.Outcome State Fault Refusal}
    (h : blankOutcome x = blankOutcome y) (h' : blankOutcome x' = blankOutcome y') :
    blankOutcome (if c then x else x') = blankOutcome (if c then y else y') := by
  split <;> assumption

theorem repStep_blank {i : Instr} {a : Attr} {w : Nat} :
    blankOutcome (repStep i a w s.blank) = blankOutcome (repStep i a w s) := by
  refine blankOutcome_ite (retireWith_blank (sameBlank_ok rfl)) ?_
  rcases (sameBlank_movsStep (s := s) (a := a) (w := w)).error_or_ok with ⟨e, hx, hy⟩ | ⟨t, u, hx, hy, ht⟩
  · rw [hx, hy]
  · have hcount : ({ t with regs := countDown a.adsize t.regs } : State).blank
        = ({ u with regs := countDown a.adsize u.regs } : State).blank :=
      congrArg (fun x : State => { x with regs := countDown a.adsize x.regs }) ht
    rw [regs_of_blank_eq ht] at hcount
    rw [hx, hy]
    simp only [regs_of_blank_eq ht]
    exact blankOutcome_ite (retireWith_blank (sameBlank_ok hcount)) (congrArg Host.Outcome.next hcount)

/-- The status flags and the latch have no part in what an instruction does but in their own next values. -/
theorem exec_blank (i : Instr) (s : State) : blankOutcome (exec i s.blank) = blankOutcome (exec i s) := by
  cases i with
  | movRm8R8 a o r => exact retireWith_blank sameBlank_writeRm8
  | movRm16R16 a o r => exact retireWith_blank sameBlank_writeRm16
  | movRm32R32 a o r => exact retireWith_blank sameBlank_writeRm32
  | movR8Rm8 a d o => exact retireWith_blank (sameBlank_bind (blank_readRm8 ..) fun _ => sameBlank_ok rfl)
  | movR16Rm16 a d o => exact retireWith_blank (sameBlank_bind (blank_readRm16 ..) fun _ => sameBlank_ok rfl)
  | movR32Rm32 a d o => exact retireWith_blank (sameBlank_bind (blank_readRm32 ..) fun _ => sameBlank_ok rfl)
  | movRm16Sreg a o g =>
    refine retireWith_blank ?_
    obtain ⟨z, _, _⟩ := a
    cases o with
    | mem m => exact sameBlank_writeRm16
    | reg r =>
      cases z with
      | w16 => exact sameBlank_writeRm16
      | w32 => exact sameBlank_ok rfl
  | movSregRm16 a g o => exact retireWith_blank (sameBlank_bind (blank_readRm16 ..) fun _ => sameBlank_loadSegment)
  | movAlMoffs8 a o => exact retireWith_blank (sameBlank_bind (blank_segRead ..) fun _ => sameBlank_ok rfl)
  | movAxMoffs16 a o => exact retireWith_blank (sameBlank_bind (blank_segRead ..) fun _ => sameBlank_ok rfl)
  | movEaxMoffs32 a o => exact retireWith_blank (sameBlank_bind (blank_segRead ..) fun _ => sameBlank_ok rfl)
  | movMoffs8Al a o => exact retireWith_blank sameBlank_segWrite
  | movMoffs16Ax a o => exact retireWith_blank sameBlank_segWrite
  | movMoffs32Eax a o => exact retireWith_blank sameBlank_segWrite
  | movReg8Imm8 a d v => exact retireWith_blank (sameBlank_ok rfl)
  | movReg16Imm16 a d v => exact retireWith_blank (sameBlank_ok rfl)
  | movReg32Imm32 a d v => exact retireWith_blank (sameBlank_ok rfl)
  | movRm8Imm8 a o v => exact retireWith_blank sameBlank_writeRm8
  | movRm16Imm16 a o v => exact retireWith_blank sameBlank_writeRm16
  | movRm32Imm32 a o v => exact retireWith_blank sameBlank_writeRm32
  | movR32Cr a d c => exact retireWith_blank (sameBlank_special (sameBlank_ok (by cases c <;> rfl)))
  | movCrR32 a c r => exact retireWith_blank (sameBlank_special (sameBlank_ok (by cases c <;> rfl)))
  | movR32Dr03 a d c => exact retireWith_blank (sameBlank_special (sameBlank_ok (by cases c <;> rfl)))
  | movR32Dr67 a d c => exact retireWith_blank (sameBlank_special (sameBlank_ok (by cases c <;> rfl)))
  | movDr03R32 a c r => exact retireWith_blank (sameBlank_special (sameBlank_ok (by cases c <;> rfl)))
  | movDr67R32 a c r =>
    exact retireWith_blank (sameBlank_special (sameBlank_ite sameBlank_error (sameBlank_ok (by cases c <;> rfl))))
  | movR32Tr a d c => exact retireWith_blank (sameBlank_special (sameBlank_ok (by cases c <;> rfl)))
  | movTrR32 a c r =>
    exact retireWith_blank (sameBlank_special (sameBlank_ite sameBlank_error (sameBlank_ok (by cases c <;> rfl))))
  | movs8 a => exact retireWith_blank sameBlank_movsStep
  | movs16 a => exact retireWith_blank sameBlank_movsStep
  | movs32 a => exact retireWith_blank sameBlank_movsStep
  | repMovs8 a => exact repStep_blank
  | repMovs16 a => exact repStep_blank
  | repMovs32 a => exact repStep_blank
  | movsxR16Rm8 a d o => exact retireWith_blank (sameBlank_bind (blank_readRm8 ..) fun _ => sameBlank_ok rfl)
  | movsxR32Rm8 a d o => exact retireWith_blank (sameBlank_bind (blank_readRm8 ..) fun _ => sameBlank_ok rfl)
  | movsxR32Rm16 a d o => exact retireWith_blank (sameBlank_bind (blank_readRm16 ..) fun _ => sameBlank_ok rfl)
  | movzxR16Rm8 a d o => exact retireWith_blank (sameBlank_bind (blank_readRm8 ..) fun _ => sameBlank_ok rfl)
  | movzxR32Rm8 a d o => exact retireWith_blank (sameBlank_bind (blank_readRm8 ..) fun _ => sameBlank_ok rfl)
  | movzxR32Rm16 a d o => exact retireWith_blank (sameBlank_bind (blank_readRm16 ..) fun _ => sameBlank_ok rfl)
  | mulRm8 a o => exact retireWith_blank (sameBlank_bind (blank_readRm8 ..) fun _ => sameBlank_ok rfl)
  | mulRm16 a o => exact retireWith_blank (sameBlank_bind (blank_readRm16 ..) fun _ => sameBlank_ok rfl)
  | mulRm32 a o => exact retireWith_blank (sameBlank_bind (blank_readRm32 ..) fun _ => sameBlank_ok rfl)

end

/-- Settles O57: the two states are the same when blanked, so their outcomes are. -/
theorem statusFlagsAndLatchAreNotRead : Obligations.StatusFlagsAndLatchAreNotRead := by
  unfold Obligations.StatusFlagsAndLatchAreNotRead
  intro i s o f z x p c h
  have hblank : blankOutcome (exec i s) = blankOutcome (exec i (s.withStatus o f z x p c h)) :=
    (exec_blank i s).symm.trans (exec_blank i (s.withStatus o f z x p c h))
  revert hblank
  generalize exec i (s.withStatus o f z x p c h) = b
  generalize exec i s = a
  intro hblank
  cases a with
  | next t =>
    cases b with
    | next u => exact ⟨_, _, _, _, _, _, _, State.eq_withStatus_of_blank_eq (Host.Outcome.next.inj hblank)⟩
    | fault e => exact nomatch hblank
    | refused r => exact nomatch hblank
  | fault e =>
    cases b with
    | next u => exact nomatch hblank
    | fault e' => exact Host.Outcome.fault.inj hblank
    | refused r => exact nomatch hblank
  | refused r =>
    cases b with
    | next u => exact nomatch hblank
    | fault e => exact nomatch hblank
    | refused r' => exact Host.Outcome.refused.inj hblank

end Sys2Proof.Machine
end

section
/-!
A step whose decoder needs a byte that cannot be fetched (20_memory.md R83; 10_state.md R24, R41).
-/

namespace Sys2Proof.Machine

/-- Where the decoder needs one byte more than can be fetched, the step ends as the fetch of that byte does. -/
theorem step_of_fetch_stop {s : State} {bs : List Byte} {e : Stop} (hdec : decode s.defaultSize bs = .error .more)
    (hlen : bs.length < 15) (hf : s.fetches bs) (he : fetchByte s bs.length = .error e) : step s = e.outcome := by
  unfold step
  rw [fetchWindow_of_stop hlen hf he, hdec]

/-- A fetch at an illegal offset raises Interrupt 13 in Real Address Mode and #GP(0) in the others (R83). -/
theorem fetch_raises {s : State} {off : Nat} {x : Exception} (h : s.accessRaises .cs .fetch off 1 x) :
    x = if s.mode = .real then .interrupt 13#8 else .gp 0#16 := by
  have hcs : SegReg.cs ≠ .ss := by decide
  unfold State.accessRaises at h
  cases hm : s.mode with
  | real =>
    rw [hm] at h
    obtain ⟨_, rfl⟩ := h
    rw [if_neg fun hc => hcs hc.1, if_pos rfl]
  | v86 =>
    rw [hm] at h
    exact h.2
  | prot =>
    rw [hm] at h
    rcases h with ⟨_, rfl⟩ | ⟨_, _, rfl⟩ | ⟨_, _, _, rfl⟩
    · rfl
    · rfl
    · rw [if_neg hcs]; rfl

/-- Program text without a value faults on its fetch (R41). -/
theorem fetchByte_unwritten {s : State} {k : Nat} {p : Word} (hl : s.accessLegal .cs .fetch (s.pc.toNat + k) 1)
    (hp : s.mapsTo false s.user (s.segs.cs.base + (s.pc + BitVec.ofNat 32 k)) p) (hc : s.code.contains p = true)
    (hv : Memory.read s.mem p.toNat = none) : fetchByte s k = .error (.fault (.unwritten p)) := by
  have ht : translate s (fetchLinear s k) false s.user = .ok p := (translate_ok_iff ..).2 hp
  have hg : givenByte s.mem p = .error (.fault (.unwritten p)) := by rw [givenByte, hv]
  rw [fetchByte, (checkAccess_ok_iff ..).2 hl, except_ok_bind, ht, except_ok_bind, if_pos hc, hg]

/-- Settles O10: the byte the decoder needs fails its checks, or has no value. -/
theorem fetchPastLimitFaults : Obligations.FetchPastLimitFaults := by
  unfold Obligations.FetchPastLimitFaults
  intro s bs hdec hlen hf
  refine ⟨fun hl => ?_, fun hl p hp hc hv => step_of_fetch_stop hdec hlen hf (fetchByte_unwritten hl hp hc hv)⟩
  obtain ⟨x, hx⟩ := (accessLegal_or_raises s .cs .fetch (s.pc.toNat + bs.length) 1).resolve_left hl
  have he : fetchByte s bs.length = raise x := by rw [fetchByte, checkAccess_of_raises hx]; rfl
  rw [step_of_fetch_stop hdec hlen hf he, fetch_raises hx]
  split <;> rfl

end Sys2Proof.Machine
end

section
/-!
The reset state (10_state.md R40) and the fields of a loaded segment (R31).
-/

namespace Sys2Proof.Machine

/-- At reset every segment register but CS is the writable data segment at base 0. -/
theorem reset_segs_get {g : SegReg} (hg : g ≠ .cs) : State.reset.segs.get g = dataSegmentAtReset := by
  cases g with
  | cs => exact absurd rfl hg
  | es | ss | ds | fs | gs => rfl

/-- Settles O11: the cells of `State.reset`, read off; Real Address Mode follows from CR0.PE = 0. -/
theorem resetIsTheFamilys : Obligations.ResetIsTheFamilys := by
  unfold Obligations.ResetIsTheFamilys
  have hdata : ∀ g, g ≠ SegReg.cs → (State.reset.segs.get g).sel = 0#16 ∧ (State.reset.segs.get g).base = 0#32
      ∧ (State.reset.segs.get g).limit = 0xFFFF#32 ∧ (State.reset.segs.get g).valid = true
      ∧ arWritableData (State.reset.segs.get g).ar = true := by
    intro g hg
    rw [reset_segs_get hg]
    decide
  exact ⟨by decide, by decide, by decide, by decide, rfl, by decide, rfl, by decide, rfl, rfl, rfl, by decide, hdata, rfl, rfl, rfl,
    rfl, rfl⟩

/-- Settles O12: memory is empty, SS is `dataSegmentAtReset`, DR7 and TF are 0. -/
theorem invHoldsAtReset : Obligations.InvHoldsAtReset := by
  unfold Obligations.InvHoldsAtReset State.inv
  exact ⟨wf_reset, rfl, by decide, by decide, by decide, by decide, rfl⟩

/-! ### The fields of a descriptor in numbers (R31) -/

/-- The value of two bit strings side by side. -/
theorem toNat_append_eq {m n : Nat} (hi : BitVec m) (lo : BitVec n) : (hi ++ lo).toNat = hi.toNat * 2 ^ n + lo.toNat := by
  rw [BitVec.toNat_append, ← Nat.shiftLeft_add_eq_or_of_lt lo.isLt, Nat.shiftLeft_eq]

/-- The value of a bit field. -/
theorem toNat_extract_eq {w : Nat} (x : BitVec w) (k n : Nat) : (x.extractLsb' k n).toNat = x.toNat / 2 ^ k % 2 ^ n := by
  rw [BitVec.extractLsb'_toNat, Nat.shiftRight_eq_div_pow]

theorem descriptorBase_toNat (d : BitVec 64) :
    (descriptorBase d).toNat = (d.toNat / 2 ^ 56) * 2 ^ 24 + d.toNat / 2 ^ 16 % 2 ^ 24 := by
  have htop : d.toNat / 2 ^ 56 < 2 ^ 8 := by have := d.isLt; omega
  rw [descriptorBase, toNat_append_eq, toNat_extract_eq, toNat_extract_eq, Nat.mod_eq_of_lt htop]

/-- The limit field: bits 51:48 above bits 15:0. -/
theorem limitField_toNat (d : BitVec 64) :
    (d.extractLsb' 48 4 ++ d.extractLsb' 0 16).toNat = d.toNat / 2 ^ 48 % 16 * 65536 + d.toNat % 65536 := by
  rw [toNat_append_eq, toNat_extract_eq, toNat_extract_eq, Nat.pow_zero, Nat.div_one]
  rfl

theorem descriptorLimit_toNat (d : BitVec 64) :
    (descriptorLimit d).toNat = (if d.getLsbD 55 = true then (d.toNat / 2 ^ 48 % 16 * 65536 + d.toNat % 65536) * 4096 + 4095
      else d.toNat / 2 ^ 48 % 16 * 65536 + d.toNat % 65536) := by
  unfold descriptorLimit
  split
  · rw [toNat_append_eq, limitField_toNat]
    rfl
  · rw [BitVec.toNat_setWidth_of_le (by decide), limitField_toNat]

/-- Settles O27: each field as a quotient and remainder of the descriptor. -/
theorem descriptorFieldsLoaded : Obligations.DescriptorFieldsLoaded := by
  unfold Obligations.DescriptorFieldsLoaded
  intro sel d
  exact ⟨rfl, rfl, descriptorBase_toNat d, descriptorLimit_toNat d, toNat_extract_eq d 40 8, rfl⟩

end Sys2Proof.Machine
end

section
/-!
What every step keeps of memory and of the registers the invariant names: the canonical form (20_memory.md R61), a valid and
writable SS (R68, R69), no breakpoint and TF = 0 (R320); and that a store changes its own bytes alone, none of them program
text (R61, R74, R79).
-/

namespace Sys2Proof.Machine

section
variable {i : Instr} {s t u : State}

/-! ### Stores (R61, R74, R79) -/

/-- An instruction keeps the canonical form of memory (R61). -/
theorem exec_wf (h : exec i s = .next t) (hs : Memory.wf s.mem = true) : Memory.wf t.mem = true := by
  obtain ⟨ps, bs, _, _, _, hm⟩ := exec_stored h
  rw [hm]
  exact Memory.wf_writeBytes ps bs hs

/-! ### SS (R68, R69) -/

/-- A segment through which a store can be made: valid, and a writable data segment (R68, R69). -/
def Segment.writable (x : Segment) : Prop := x.valid = true ∧ arWritableData x.ar = true

/-- A load of SS leaves it writable: in Protected Mode by the checks of R173, otherwise because its AR byte stays (R176). -/
theorem loadSegment_ss_writable {sel : BitVec 16} (h : loadSegment s .ss sel = .ok u) (hs : s.segs.ss.writable) :
    u.segs.ss.writable := by
  rcases loadSegment_ok h with ⟨_, rfl⟩ | ⟨_, hg, _⟩ | ⟨_, _, hstack⟩ | ⟨_, hg, _⟩
  · exact ⟨rfl, hs.2⟩
  · exact absurd rfl hg
  · obtain ⟨_, d, _, _, har, _, _, hcommit⟩ := loadStackSegment_ok hstack
    rcases commitLoad_ok hcommit with ⟨_, rfl⟩ | ⟨_, _, _, _, rfl⟩
    · exact ⟨rfl, har⟩
    · exact ⟨rfl, har⟩
  · exact absurd rfl hg

theorem eq_ss_of_toSegReg {g : SegDest} (h : g.toSegReg = .ss) : g = .ss := by
  cases g with
  | ss => rfl
  | es | ds | fs | gs => exact nomatch h

/-- An instruction keeps SS writable: none but a load of SS changes it. -/
theorem exec_ss_writable (h : exec i s = .next t) (hs : s.segs.ss.writable) : t.segs.ss.writable := by
  rcases exec_segs h with e | ⟨a, g, o, x, rfl, e⟩
  · rw [e]
    exact hs
  · by_cases hg : g = .ss
    · subst hg
      obtain ⟨sel, u, _, hload, rfl⟩ := movSregRm16_next h
      exact loadSegment_ss_writable (u := u) hload hs
    · have hss : t.segs.ss = s.segs.ss := by
        rw [e]
        exact Segments.get_set_of_ne s.segs g .ss x fun e => hg (eq_ss_of_toSegReg e.symm)
      rw [hss]
      exact hs

/-! ### Breakpoints and TF (R320) -/

/-- A write of DR7 that is not refused enables no breakpoint (R212). -/
theorem SpecialWrite.no_breakpoint (h : SpecialWrite i s u) (hs : s.dr7.extractLsb' 0 8 = 0#8) :
    u.dr7.extractLsb' 0 8 = 0#8 := by
  rcases h with ⟨_, _, rfl⟩ | ⟨_, _, _, _, rfl⟩ | ⟨_, _, _, _, rfl⟩ | ⟨_, c, r, _, harm, rfl⟩ | ⟨_, _, _, _, rfl⟩
  · exact hs
  · rw [State.setCtrl_dr7]; exact hs
  · rw [State.setBreakAddr_dr7]; exact hs
  · cases c with
    | dr6 => exact hs
    | dr7 =>
      have hv : (s.regs.get r).extractLsb' 0 8 = 0#8 := by simpa [armsBreakpoint] using harm
      exact hv
  · rw [State.setTest_dr7]; exact hs

theorem exec_no_breakpoint (h : exec i s = .next t) (hs : s.dr7.extractLsb' 0 8 = 0#8) : t.dr7.extractLsb' 0 8 = 0#8 := by
  obtain ⟨u, hu, _, _, _, _, _, _, _, rfl⟩ := exec_specialWrite h
  exact hu.no_breakpoint hs

theorem exec_tf (h : exec i s = .next t) : t.flags.tf = s.flags.tf := by
  rcases exec_flags h with ⟨_, _, e⟩ | ⟨_, _, _, _, e⟩ | ⟨_, _, _, e⟩ <;> rw [e]

/-! ### The invariant -/

theorem inv_iff (s : State) : s.inv ↔ Memory.wf s.mem = true ∧ s.segs.ss.writable ∧ s.dr7.extractLsb' 0 8 = 0#8
    ∧ s.flags.tf = false := by
  simp only [State.inv, Segment.writable, arWritableData, Bool.and_eq_true, Bool.not_eq_true', and_assoc]

theorem exec_inv (h : exec i s = .next t) (hs : s.inv) : t.inv := by
  obtain ⟨hwf, hss, hdr7, htf⟩ := (inv_iff s).1 hs
  exact (inv_iff t).2 ⟨exec_wf h hwf, exec_ss_writable h hss, exec_no_breakpoint h hdr7, (exec_tf h).trans htf⟩

end

/-! ### The statements -/

/-- Settles O50: where an instruction answers a next state, none of the bytes it stored to is program text. -/
theorem storeToCodeNeverCompletes : Obligations.StoreToCodeNeverCompletes := by
  unfold Obligations.StoreToCodeNeverCompletes
  rintro i s ps hps ⟨p, hp, hcode⟩ t h
  obtain ⟨qs, bs, hqs, hnone, _, _⟩ := exec_stored h
  obtain rfl : ps = qs := Except.ok.inj (hps.symm.trans hqs)
  exact List.any_eq_false.1 hnone p hp hcode

/-- Settles O51: memory after an instruction is a write of bytes at the addresses it stores to. -/
theorem memoryOutsideStoreUnchanged : Obligations.MemoryOutsideStoreUnchanged := by
  unfold Obligations.MemoryOutsideStoreUnchanged
  intro i s t h
  obtain ⟨ps, bs, hps, _, hnil, hm⟩ := exec_stored h
  refine ⟨ps, hps, fun hp => ?_, fun adr hadr => ?_⟩
  · rw [hm, hnil hp, hp]
    rfl
  · rw [hm]
    exact Memory.read_writeBytes_of_notMem _ _ _ _ hadr

/-- Settles O13: a step that answers a next state ran an instruction, and each keeps the four parts of the invariant. -/
theorem everyStepKeepsInv : Obligations.EveryStepKeepsInv := by
  unfold Obligations.EveryStepKeepsInv
  intro s t hs h
  obtain ⟨i, hi⟩ := step_next h
  exact exec_inv hi hs

end Sys2Proof.Machine
end

section
/-!
A step that is refused: an encoding refused by its name, or a fetch outside the program text (20_memory.md R79; 30_encoding.md
R118, R119, R122; log 13).
-/

namespace Sys2Proof.Machine

/-- A byte outside the program's code region is not fetched. -/
theorem fetchByte_outsideCode {s : State} {k : Nat} {p : Word} (hl : s.accessLegal .cs .fetch (s.pc.toNat + k) 1)
    (hp : s.mapsTo false s.user (s.segs.cs.base + (s.pc + BitVec.ofNat 32 k)) p) (hc : s.code.contains p = false) :
    fetchByte s k = .error (.refuse .fetchOutsideCode) := by
  have ht : translate s (fetchLinear s k) false s.user = .ok p := (translate_ok_iff ..).2 hp
  rw [fetchByte, (checkAccess_ok_iff ..).2 hl, except_ok_bind, ht, except_ok_bind, if_neg (by simp [hc])]

/-- Settles O9: the refused bytes begin the window the step decodes; the byte that is not program text ends it. -/
theorem stepRefusesByName : Obligations.StepRefusesByName := by
  unfold Obligations.StepRefusesByName
  intro s bs hlen hf
  refine ⟨fun r hdec => ?_, fun hdec hlt hl p hp hc => step_of_fetch_stop hdec hlt hf (fetchByte_outsideCode hl hp hc)⟩
  have hwin : decode s.defaultSize (fetchWindow s).1 = .error (.refuse r) := by
    rw [fetchWindow_of_fetches hlen hf]
    exact decode_append_of_refused hdec _
  unfold step
  rw [hwin]

end Sys2Proof.Machine
end

section
/-!
Effective addresses in numbers, and the segment of a memory operand (20_memory.md R64; 30_encoding.md R108 to R110).
-/

namespace Sys2Proof.Machine

theorem Regs.get16_eq (x : Regs) (r : Reg) : x.get16 r = BitVec.ofNat 16 (x.get r).toNat := rfl

/-- A 16-bit displacement is its number modulo 2^16, the byte signed (R108). -/
theorem disp16Value_eq (d : Disp16) : disp16Value d = BitVec.ofInt 16 (disp16Int d) := by
  cases d with
  | none => rfl
  | d8 d => rfl
  | d16 d => rw [disp16Int, BitVec.ofInt_natCast, BitVec.ofNat_toNat, BitVec.setWidth_eq]; rfl

/-- A 32-bit displacement is its number modulo 2^32, the byte signed (R109). -/
theorem disp32Value_eq (d : Disp32) : disp32Value d = BitVec.ofInt 32 (disp32Int d) := by
  cases d with
  | none => rfl
  | d8 d => rfl
  | d32 d => rw [disp32Int, BitVec.ofInt_natCast, BitVec.ofNat_toNat, BitVec.setWidth_eq]; rfl

/-- A scaled index is its number modulo 2^32 (R110). -/
theorem indexValue_eq (x : Regs) (z : BitVec 2) (r : Option Reg) : indexValue x z r = BitVec.ofNat 32 (scaledIndexNat x z r) := by
  cases r with
  | none => rfl
  | some r =>
    apply BitVec.eq_of_toNat_eq
    rw [indexValue, scaledIndexNat, BitVec.toNat_shiftLeft, BitVec.toNat_ofNat, Nat.shiftLeft_eq]

/-- A base register and a displacement, as a sum of numbers. -/
theorem add_ofInt_eq {w : Nat} (b : BitVec w) (d : Int) : b + BitVec.ofInt w d = BitVec.ofInt w (b.toNat + d) := by
  rw [BitVec.ofInt_add, BitVec.ofInt_natCast, BitVec.ofNat_toNat, BitVec.setWidth_eq]

theorem base16Segment_eq (b : Base16) : base16Segment b = if (b == .bpSi || b == .bpDi || b == .bp) = true then .ss else .ds := by
  cases b <;> rfl

theorem base32Segment_eq (b : Reg) : base32Segment b = if (b == .ebp || b == .esp) = true then .ss else .ds := by
  cases b <;> rfl

/-- The default segment is SS with a base of BP, EBP or ESP (R64). -/
theorem defaultSegment_eq (m : Mem) : defaultSegment m = if stackBased m = true then .ss else .ds := by
  cases m with
  | direct16 d | direct32 d | scaledNoBase z r d => rfl
  | based16 b d => exact base16Segment_eq b
  | based32 b d | scaled z r b d => exact base32Segment_eq b

/-- Settles O60: each part of the sum is its number modulo the address size. -/
theorem effectiveAddressSums : Obligations.EffectiveAddressSums := by
  unfold Obligations.EffectiveAddressSums
  intro x
  have direct16 : ∀ d, (effectiveAddress x (.direct16 d)).toNat = d.toNat := fun d =>
    BitVec.toNat_setWidth_of_le (by decide)
  have based16 : ∀ b d, effectiveAddress x (.based16 b d)
      = BitVec.setWidth 32 (BitVec.ofInt 16 ((base16Value x b).toNat + disp16Int d)) := fun b d => by
    rw [effectiveAddress, disp16Value_eq, add_ofInt_eq]
  have based32 : ∀ b d, effectiveAddress x (.based32 b d) = BitVec.ofInt 32 ((x.get b).toNat + disp32Int d) := fun b d => by
    rw [effectiveAddress, disp32Value_eq, add_ofInt_eq]
  have scaled : ∀ z r b d, effectiveAddress x (.scaled z r b d)
      = BitVec.ofInt 32 ((x.get b).toNat + scaledIndexNat x z r + disp32Int d) := fun z r b d => by
    rw [effectiveAddress, disp32Value_eq, indexValue_eq, BitVec.ofInt_add, BitVec.ofInt_add, BitVec.ofInt_natCast,
      BitVec.ofInt_natCast, BitVec.ofNat_toNat, BitVec.setWidth_eq]
  have scaledNoBase : ∀ z r d, effectiveAddress x (.scaledNoBase z r d) = BitVec.ofNat 32 (scaledIndexNat x z r + d.toNat) :=
    fun z r d => by rw [effectiveAddress, indexValue_eq, BitVec.ofNat_add, BitVec.ofNat_toNat, BitVec.setWidth_eq]
  refine ⟨direct16, based16, ?_, fun _ => rfl, based32, scaled, scaledNoBase, fun _ _ _ _ => ⟨rfl, rfl⟩,
    fun _ _ m => ⟨defaultSegment_eq m, rfl⟩⟩
  simp only [base16Value, Regs.get16_eq, ← BitVec.ofNat_add]
  exact ⟨rfl, rfl, rfl, rfl, rfl, rfl, rfl, rfl⟩

end Sys2Proof.Machine
end

section
/-!
What an illegal or missing operand does to an instruction that reads or writes it: the exception of the first cause, the first
byte without a value, the first missing page (20_memory.md R65 to R71, R81, R83; 10_state.md R41; 60_exceptions.md R301).
-/

namespace Sys2Proof.Machine

/-! ### Missing pages (R70, R71) -/

theorem Stop.outcome_eq_pageFault {e : Stop} {v w u : Bool} {lin : Word} (h : e.outcome = pageFault v w u lin) :
    e = missStop v w u lin := by
  rw [← missStop_outcome] at h
  cases e with
  | fault f => exact congrArg Stop.fault (Host.Outcome.fault.inj h)
  | refuse r => exact nomatch h

/-- Two bytes of one operand lie at different linear addresses. -/
theorem eq_of_offset_eq {lin : Word} {j k : Nat} (hj : j < 4294967296) (hk : k < 4294967296)
    (h : lin + BitVec.ofNat 32 j = lin + BitVec.ofNat 32 k) : j = k := by
  have h' := congrArg BitVec.toNat ((BitVec.add_right_inj lin).1 h)
  rwa [BitVec.toNat_ofNat, BitVec.toNat_ofNat, Nat.mod_eq_of_lt hj, Nat.mod_eq_of_lt hk] at h'

theorem not_misses_of_mapsTo {s : State} {v w u : Bool} {lin p : Word} (h : s.mapsTo w u lin p) : ¬s.misses v w u lin := by
  rintro ⟨hp, hm⟩
  rw [State.mapsTo, if_pos hp, hm] at h
  exact nomatch h

/-- No byte of an operand that is placed misses its page. -/
theorem not_misses_of_placed {s : State} {v w u : Bool} {lin : Word} {ps : List Word} (h : s.placed w u lin ps) {k : Nat}
    (hk : k < ps.length) : ¬s.misses v w u (lin + BitVec.ofNat 32 k) := by
  induction ps generalizing lin k with
  | nil => exact absurd hk (Nat.not_lt_zero k)
  | cons p ps ih =>
    obtain ⟨hp, hps⟩ := h
    cases k with
    | zero => simpa using not_misses_of_mapsTo hp
    | succ k =>
      rw [← succ_offset]
      exact ih hps (Nat.lt_of_succ_lt_succ hk)

/-- A read ends in the page fault of its byte `k` exactly where that is the first byte whose page is missing. -/
theorem linRead_eq_miss_iff {s : State} {w k : Nat} {lin : Word} {v u : Bool} (hk : k < w / 8) (hw : w / 8 ≤ 4294967296) :
    linRead s w lin u = .error (missStop v false u (lin + BitVec.ofNat 32 k)) ↔ s.firstMissing v false u lin k := by
  refine ⟨fun h => ?_, linRead_of_firstMissing hk⟩
  rcases linRead_error h with ⟨v', k', hk', hm, he⟩ | ⟨_, _, _, _, _, _, he⟩
  · obtain ⟨rfl, _, _, hlin⟩ := missStop_inj he
    rwa [eq_of_offset_eq (by omega) (by omega) hlin]
  · exact nomatch he

/-- A write ends in the page fault of its byte `k` exactly where that is the first byte whose page is missing. -/
theorem linWrite_eq_miss_iff {s : State} {w k : Nat} {lin : Word} {v u : Bool} {x : BitVec w} (hk : k < w / 8)
    (hw : w / 8 ≤ 4294967296) :
    linWrite s w lin u x = .error (missStop v true u (lin + BitVec.ofNat 32 k)) ↔ s.firstMissing v true u lin k := by
  refine ⟨fun h => ?_, linWrite_of_firstMissing hk⟩
  rcases linWrite_error h with ⟨v', k', hk', hm, he⟩ | he
  · obtain ⟨rfl, _, _, hlin⟩ := missStop_inj he
    rwa [eq_of_offset_eq (by omega) (by omega) hlin]
  · exact nomatch he

/-- What stops with the read of an operand page-faults for byte `k` of it exactly where that is its first missing byte: once
the operand is read, none of its pages is missing. -/
theorem pageFault_iff_of_linRead {s : State} {o : Host.Outcome State Fault Refusal} {w k : Nat} {lin : Word} {v u : Bool}
    (hstop : ∀ e, linRead s w lin u = .error e → o = e.outcome)
    (hmiss : ∀ l, o = pageFault v false u l → s.misses v false u l) (hk : k < w / 8) (hw : w / 8 ≤ 4294967296) :
    o = pageFault v false u (lin + BitVec.ofNat 32 k) ↔ s.firstMissing v false u lin k := by
  rw [← linRead_eq_miss_iff hk hw]
  constructor
  · intro h
    cases hr : linRead s w lin u with
    | error e => rw [Stop.outcome_eq_pageFault ((hstop e hr).symm.trans h)]
    | ok x =>
      obtain ⟨ps, _, hps, _, _⟩ := linRead_ok hr
      obtain ⟨hplaced, hlen⟩ := (translateRun_ok_iff ..).1 hps
      exact absurd (hmiss _ h) (not_misses_of_placed hplaced (hlen ▸ hk))
  · intro h
    rw [hstop _ h, missStop_outcome]

/-! ### Which operand an instruction reads or writes first -/

theorem retireWith_bind_error {α : Type} {l : Bool} {i : Instr} {s : State} {x : Except Stop α} {f : α → Except Stop State}
    {e : Stop} (h : x = .error e) : retireWith l i s (x >>= f) = e.outcome := by
  rw [h]
  rfl

theorem retireWith_eq_pageFault {l : Bool} {i : Instr} {s : State} {r : Except Stop State} {v w u : Bool} {lin : Word} :
    retireWith l i s r = pageFault v w u lin ↔ r = .error (missStop v w u lin) := by
  rw [← missStop_outcome]
  exact retireWith_eq_fault

/-- An iteration of REP MOVS with a count that is not 0 stops with the read of its element (R236, R237). -/
theorem repStep_of_read_error {i : Instr} {a : Attr} {w : Nat} {s : State} {e : Stop} (hc : sizedValue a.adsize s.regs .ecx ≠ 0)
    (h : segRead s w (stringSource a) (indexRead a.adsize s.regs .esi) = .error e) : repStep i a w s = e.outcome := by
  have hstep : movsStep a w s = .error e := by rw [movsStep, h, except_error_bind]
  rw [repStep, if_neg (mt (indexRead_eq_zero ..).1 hc), hstep]

/-- The operand that `readsFrom` names is the first thing the instruction reads: where that read stops, the instruction stops
with it. -/
theorem exec_of_readsFrom {i : Instr} {s : State} {g : SegReg} {off : Word} {n : Nat} (h : readsFrom i s = some (g, off, n)) :
    n ≤ 4 ∧ ∀ e, segRead s (8 * n) g off = .error e → exec i s = e.outcome := by
  cases i with
  | movR8Rm8 a d o | movsxR16Rm8 a d o | movsxR32Rm8 a d o | movzxR16Rm8 a d o | movzxR32Rm8 a d o | mulRm8 a o
  | movR16Rm16 a d o | movSregRm16 a d o | movsxR32Rm16 a d o | movzxR32Rm16 a d o | mulRm16 a o | movR32Rm32 a d o
  | mulRm32 a o =>
    cases o with
    | reg r => exact nomatch h
    | mem m =>
      cases h
      exact ⟨by decide, fun e he => retireWith_bind_error he⟩
  | movAlMoffs8 a off | movAxMoffs16 a off | movEaxMoffs32 a off | movs8 a | movs16 a | movs32 a =>
    cases h
    exact ⟨by decide, fun e he => retireWith_bind_error he⟩
  | repMovs8 a | repMovs16 a | repMovs32 a =>
    simp only [readsFrom] at h
    split at h
    · exact nomatch h
    · rename_i hc
      cases h
      exact ⟨by decide, fun e he => repStep_of_read_error hc he⟩
  | _ => exact nomatch h

/-- A MOV that `writesOnly` names is a checked write of that operand, and nothing else can stop it. -/
theorem exec_of_writesOnly {i : Instr} {s : State} {g : SegReg} {off : Word} {n : Nat} (h : writesOnly i s = some (g, off, n)) :
    n ≤ 4 ∧ ∃ v : BitVec (8 * n), exec i s = retire i s (segWrite s (8 * n) g off v) := by
  cases i with
  | movRm8R8 a o r | movRm8Imm8 a o r | movRm16R16 a o r | movRm16Sreg a o r | movRm16Imm16 a o r | movRm32R32 a o r
  | movRm32Imm32 a o r =>
    cases o with
    | reg r => exact nomatch h
    | mem m =>
      cases h
      exact ⟨by decide, _, rfl⟩
  | movMoffs8Al a off | movMoffs16Ax a off | movMoffs32Eax a off =>
    cases h
    exact ⟨by decide, _, rfl⟩
  | _ => exact nomatch h

theorem bits_div_eight (n : Nat) : 8 * n / 8 = n := Nat.mul_div_cancel_left n (by decide)

/-- A checked read of a legal operand whose pages are there faults at the first byte that has no value (R41; log 3). -/
theorem segRead_unwritten {s : State} {g : SegReg} {off : Word} {n : Nat} {ps qs : List Word} {p : Word}
    (hl : s.accessLegal g .read off.toNat n) (hn : (ps ++ p :: qs).length = n)
    (hplaced : s.placed false s.user (s.linear g off) (ps ++ p :: qs)) (hgiven : ∀ q ∈ ps, Memory.read s.mem q.toNat ≠ none)
    (hp : Memory.read s.mem p.toNat = none) : segRead s (8 * n) g off = .error (.fault (.unwritten p)) := by
  have hrun := (translateRun_ok_iff ..).2 ⟨hplaced, hn⟩
  have hbytes := (givenBytes_error_iff s.mem _ _).2 ⟨ps, p, qs, rfl, hgiven, hp, rfl⟩
  rw [segRead_of_legal (by rwa [bits_div_eight]), linRead, bits_div_eight, hrun, except_ok_bind, hbytes, except_error_bind]

/-! ### A fetch -/

theorem misses_of_mayStop {s : State} {v w u : Bool} {lin : Word} (h : MayStop s (missStop v w u lin)) :
    s.misses v w u lin := by
  generalize he : missStop v w u lin = e at h
  cases h with
  | page v' w' u' lin' hm =>
    obtain ⟨rfl, rfl, rfl, rfl⟩ := missStop_inj he
    exact hm
  | real g | v86 | prot x c => simp [missStop] at he
  | unwritten p | refuse r => exact nomatch he

/-- A fetch of one byte page-faults only where its page is missing. -/
theorem misses_of_fetchByte {s : State} {k : Nat} {v w u : Bool} {lin : Word}
    (h : fetchByte s k = .error (missStop v w u lin)) : s.misses v w u lin := by
  rcases except_bind_error.1 h with hcheck | ⟨_, _, h⟩
  · exact misses_of_mayStop (stops_checkAccess _ hcheck)
  rcases except_bind_error.1 h with htrans | ⟨p, _, h⟩
  · obtain ⟨v', hm, he⟩ := (translate_error_iff ..).1 htrans
    obtain ⟨rfl, rfl, rfl, rfl⟩ := missStop_inj he
    exact hm
  · unfold givenByte at h
    split at h
    · split at h <;> exact nomatch h
    · exact nomatch h

/-- A page fault that a step raises, in its fetch or its execution, is of a page that is missing. -/
theorem step_pageFault {s : State} {v w u : Bool} {lin : Word} (h : step s = pageFault v w u lin) : s.misses v w u lin := by
  unfold step at h
  split at h
  · exact exec_pageFault h
  · exact nomatch h
  · have hstop := Stop.outcome_eq_pageFault h
    obtain ⟨_, ⟨_, hlong⟩ | ⟨_, hfetch⟩⟩ := fetchFrom_spec s maxLength 0
    · exact nomatch hlong.symm.trans hstop
    · exact misses_of_fetchByte (hfetch.trans (congrArg _ hstop))

/-- A byte at a legal offset whose page is missing is not fetched. -/
theorem fetchByte_of_misses {s : State} {k : Nat} {v : Bool} (hl : s.accessLegal .cs .fetch (s.pc.toNat + k) 1)
    (h : s.misses v false s.user (fetchLinear s k)) : fetchByte s k = .error (missStop v false s.user (fetchLinear s k)) := by
  have ht := (translate_error_iff ..).2 ⟨v, h, rfl⟩
  rw [fetchByte, (checkAccess_ok_iff ..).2 hl, except_ok_bind, ht, except_error_bind]

/-! ### A load of a segment register (R81) -/

/-- In Protected Mode a load with a selector that is not null stops where the read of its descriptor does (R173, R174). -/
theorem loadSegment_of_readDescriptor_error {s : State} {g : SegDest} {sel : BitVec 16} {e : Stop} (hm : s.mode = .prot)
    (hn : selectorNull sel = false) (h : readDescriptor s sel = .error e) : loadSegment s g sel = .error e := by
  have hstack : loadStackSegment s sel = .error e := by
    rw [loadStackSegment, if_neg (by simp [hn]), h, except_error_bind]
  have hdata : loadDataSegment s g sel = .error e := by rw [loadDataSegment, h, except_error_bind]
  simp only [loadSegment, hm, hn, hstack, hdata, Bool.false_eq_true, if_false, ite_self]

/-- Such a MOV stops where the read of the table entry does. -/
theorem movSregRm16_of_entry_error {s : State} {a : Attr} {g : SegDest} {o : Rm Reg} {sel : BitVec 16} {e : Stop}
    (hm : s.mode = .prot) (ho : s.rmIs16 a o sel) (hn : 3 < sel.toNat) (ht : s.inTable sel)
    (h : linRead s 64 (s.entryAt sel) false = .error e) : exec (.movSregRm16 a g o) s = e.outcome := by
  have hnull : selectorNull sel = false := by rw [selectorNull_eq]; exact decide_eq_false (Nat.not_le.2 hn)
  have hread : readDescriptor s sel = .error e := by
    rw [readDescriptor, if_pos ((indexInTable_iff ..).2 ht), entryAddress_eq, h]
  have hbody : (readRm16 a s o >>= loadSegment s g) = .error e := by
    rw [readRm16_of_rmIs ho, except_ok_bind, loadSegment_of_readDescriptor_error hm hnull hread]
  exact congrArg (retireWith (g == .ss) (.movSregRm16 a g o) s) hbody

/-! ### The statements -/

/-- Settles O44: the operand is the first thing that is read, so its stop is the instruction's. -/
theorem illegalReadRaises : Obligations.IllegalReadRaises := by
  unfold Obligations.IllegalReadRaises
  intro i s g off n h
  obtain ⟨_, hstop⟩ := exec_of_readsFrom h
  refine ⟨fun x hx => ?_, fun ps p qs hl hn hplaced hgiven hp => hstop _ (segRead_unwritten hl hn hplaced hgiven hp)⟩
  exact hstop _ (segRead_of_raises (by rwa [bits_div_eight]))

/-- Settles O45: the MOV is a checked write, which stops at its first cause or at its first missing page. -/
theorem illegalWriteRaises : Obligations.IllegalWriteRaises := by
  unfold Obligations.IllegalWriteRaises
  intro i s g off n h
  obtain ⟨hn, x, hexec⟩ := exec_of_writesOnly h
  rw [hexec]
  refine ⟨fun y hy => ?_, fun hl v k hk => ?_⟩
  · rw [segWrite_of_raises (by rwa [bits_div_eight])]
    rfl
  · rw [retire, retireWith_eq_pageFault, segWrite_of_legal (by rwa [bits_div_eight]),
      linWrite_eq_miss_iff (by rwa [bits_div_eight]) (by rw [bits_div_eight]; omega)]

/-- Settles O47: each read comes before whatever else could page-fault at the same address. -/
theorem pageFaultOnRead : Obligations.PageFaultOnRead := by
  unfold Obligations.PageFaultOnRead
  intro s v
  refine ⟨fun i g off n k h hl hk => ?_, fun a dst src sel k hm hsrc hsel htab hk => ?_, fun bs hdec hlen hf hl => ?_⟩
  · obtain ⟨hn, hstop⟩ := exec_of_readsFrom h
    refine pageFault_iff_of_linRead (w := 8 * n) (fun e he => hstop e ?_) (fun _ => exec_pageFault)
      (by rwa [bits_div_eight]) (by rw [bits_div_eight]; omega)
    rwa [segRead_of_legal (by rwa [bits_div_eight])]
  · exact pageFault_iff_of_linRead (w := 64) (fun e he => movSregRm16_of_entry_error hm hsrc hsel htab he)
      (fun _ => exec_pageFault) hk (by decide)
  · refine ⟨step_pageFault, fun hmiss => ?_⟩
    rw [step_of_fetch_stop hdec hlen hf (fetchByte_of_misses hl hmiss), missStop_outcome]
    rfl

end Sys2Proof.Machine
end

section
/-!
What is read from the bytes of a store, in any part and at any alignment (20_memory.md R62, R72, R74, R82).
-/

namespace Sys2Proof.Machine

/-! ### Bytes (R61, R62) -/

/-- Byte `j` of a value, counted from the least significant (R62). -/
theorem getElem_toBytes {n v j : Nat} (h : j < (toBytes n v).length) : (toBytes n v)[j] = BitVec.ofNat 8 (v / 256 ^ j) := by
  induction n generalizing v j with
  | zero => exact absurd h (Nat.not_lt_zero j)
  | succ n ih =>
    cases j with
    | zero => simp [toBytes]
    | succ j => simp only [toBytes, List.getElem_cons_succ, ih, Nat.div_div_eq_div_mul, Nat.pow_succ']

/-- Bytes written at addresses that differ are read back, each at its own (R74). -/
theorem Memory.read_writeBytes_getElem {m : Memory} {ps : List Word} {bs : List Byte} {k : Nat} (hn : ps.Nodup)
    (hk : k < ps.length) (hb : k < bs.length) : Memory.read (Memory.writeBytes m ps bs) ps[k].toNat = some bs[k] := by
  induction ps generalizing m bs k with
  | nil => exact absurd hk (Nat.not_lt_zero k)
  | cons p ps ih =>
    obtain ⟨hp, hps⟩ := List.nodup_cons.1 hn
    cases bs with
    | nil => exact absurd hb (Nat.not_lt_zero k)
    | cons b bs =>
      cases k with
      | zero =>
        have hne : ∀ q ∈ ps, q.toNat ≠ p.toNat := fun q hq e => hp (BitVec.eq_of_toNat_eq e ▸ hq)
        exact (Memory.read_writeBytes_of_notMem _ _ _ _ hne).trans (Memory.read_write_same ..)
      | succ k => exact ih hps (Nat.lt_of_succ_lt_succ hk) (Nat.lt_of_succ_lt_succ hb)

/-- The linear addresses of `n` bytes from `lin` on, wrapping modulo 2^32 (R63). -/
def byteAddresses (lin : Word) (n : Nat) : List Word := (List.range n).map fun k => lin + BitVec.ofNat 32 k

theorem byteAddresses_nodup {lin : Word} {n : Nat} (hn : n ≤ 4294967296) : (byteAddresses lin n).Nodup := by
  have hlt : ∀ j ∈ List.range n, j < 4294967296 := fun j hj => Nat.lt_of_lt_of_le (List.mem_range.1 hj) hn
  exact List.Nodup.map_on (fun j hj k hk h => eq_of_offset_eq (hlt j hj) (hlt k hk) h) List.nodup_range

/-- Byte `k` of a value stored from `lin` on, without paging, is read at `lin + k`. -/
theorem read_stored_byte {m : Memory} {lin : Word} {n v k : Nat} (hn : n ≤ 4294967296) (hk : k < n) :
    Memory.read (Memory.writeBytes m (byteAddresses lin n) (toBytes n v)) (lin + BitVec.ofNat 32 k).toNat
      = some (BitVec.ofNat 8 (v / 256 ^ k)) := by
  have hps : k < (byteAddresses lin n).length := by simpa [byteAddresses] using hk
  have hbs : k < (toBytes n v).length := by simpa using hk
  have hread := Memory.read_writeBytes_getElem (m := m) (byteAddresses_nodup (lin := lin) hn) hps hbs
  rw [getElem_toBytes] at hread
  simpa [byteAddresses] using hread

/-! ### A read inside a store (R62, R72) -/

/-- The bytes of a value from byte `k` on are the bits from `8 * k` on (R62). -/
theorem ofNat_bytes_eq_extract {w w' : Nat} (v : BitVec w') (k : Nat) (hw : 8 * (w / 8) = w) :
    BitVec.ofNat w (v.toNat / 256 ^ k % 256 ^ (w / 8)) = v.extractLsb' (8 * k) w := by
  have hpow : ∀ j, 256 ^ j = 2 ^ (8 * j) := fun j => (Nat.pow_mul 2 8 j).symm
  apply BitVec.eq_of_toNat_eq
  rw [BitVec.toNat_ofNat, toNat_extract_eq, hpow, hpow, hw, Nat.mod_mod]

/-- Without paging, a read inside the bytes of a store gives those bits of the value stored, whatever the alignment. -/
theorem linRead_of_stored {t : State} {m : Memory} {lin : Word} {w w' k : Nat} {v : BitVec w'} {u : Bool}
    (hp : t.paging = false) (hm : t.mem = Memory.writeBytes m (byteAddresses lin (w' / 8)) (toBytes (w' / 8) v.toNat))
    (hw : 8 * (w / 8) = w) (hk : k + w / 8 ≤ w' / 8) (hn : w' / 8 ≤ 4294967296) :
    linRead t w (lin + BitVec.ofNat 32 k) u = .ok (v.extractLsb' (8 * k) w) := by
  have hrun := translateRun_of_not_paging hp false u (lin + BitVec.ofNat 32 k) (w / 8)
  obtain ⟨hplaced, hlen⟩ := (translateRun_ok_iff ..).1 hrun
  have hbyte : ∀ j, j < w / 8 →
      Memory.read t.mem (lin + BitVec.ofNat 32 k + BitVec.ofNat 32 j).toNat
        = some (BitVec.ofNat 8 (v.toNat / 256 ^ k / 256 ^ j)) := fun j hj => by
    rw [BitVec.add_assoc, ← BitVec.ofNat_add, hm, read_stored_byte hn (by omega), Nat.div_div_eq_div_mul, Nat.pow_add]
  have hholds : t.holds ((List.range (w / 8)).map fun j => lin + BitVec.ofNat 32 k + BitVec.ofNat 32 j)
      (toBytes (w / 8) (v.toNat / 256 ^ k)) := by
    refine List.ext_getElem (by simp) fun j hj _ => ?_
    simp only [List.getElem_map, List.getElem_range, getElem_toBytes]
    exact hbyte j (by simpa using hj)
  rw [linRead_of_holds hplaced hlen hholds, fromBytes_toBytes, ofNat_bytes_eq_extract v k hw]

theorem State.linear_add (s : State) (g : SegReg) (off d : Word) : s.linear g (off + d) = s.linear g off + d :=
  (BitVec.add_assoc ..).symm

/-- A checked read inside the bytes of a checked store through the same segment gives those bits of the value stored. -/
theorem segRead_of_segWrite {s t : State} {w w' k : Nat} {g : SegReg} {off : Word} {v : BitVec w'} {x : BitVec w}
    {d : Size} {n : Nat} {l : Bool} (hp : s.paging = false) (hwrite : segWrite s w' g off v = .ok t)
    (hread : segRead (t.advance d n l) w g (off + BitVec.ofNat 32 k) = .ok x) (hw : 8 * (w / 8) = w)
    (hk : k + w / 8 ≤ w' / 8) (hn : w' / 8 ≤ 4294967296) : x = v.extractLsb' (8 * k) w := by
  obtain ⟨_, ps, hps, _, rfl⟩ := segWrite_ok hwrite
  obtain rfl : byteAddresses (s.linear g off) (w' / 8) = ps :=
    Except.ok.inj ((translateRun_of_not_paging hp true s.user (s.linear g off) (w' / 8)).symm.trans hps)
  obtain ⟨_, hlin⟩ := segRead_ok hread
  rw [State.linear_add] at hlin
  exact Except.ok.inj (hlin.symm.trans (linRead_of_stored (lin := s.linear g off) hp rfl hw hk hn))

@[simp] theorem Regs.get8_set8_al (x : Regs) (v : BitVec 8) : (x.set8 .al v).get8 .al = v := by
  have hget : (x.set8 .al v).get8 .al = (((x.get .eax).extractLsb' 8 24) ++ v).extractLsb' 0 8 := rfl
  apply BitVec.eq_of_toNat_eq
  rw [hget, toNat_extract_eq, toNat_append_eq]
  omega

/-- Settles O59: the doubleword, its words and its bytes are reads inside the bytes of the store. -/
theorem storedDoublewordReadsBack : Obligations.StoredDoublewordReadsBack := by
  unfold Obligations.StoredDoublewordReadsBack
  intro a b off s t u hp hseg hstore
  obtain ⟨t', hwrite, rfl⟩ := movMoffs32Eax_next hstore
  rw [hseg] at hwrite
  refine ⟨fun h => ?_, fun k hk h => ?_, fun k hk h => ?_⟩
  · obtain ⟨x, hread, rfl⟩ := movEaxMoffs32_next h
    rw [← BitVec.add_zero off] at hread
    have hx := segRead_of_segWrite (k := 0) hp hwrite hread rfl (by decide) (by decide)
    rw [BitVec.extractLsb'_eq_self] at hx
    exact hx
  · obtain ⟨x, hread, rfl⟩ := movAxMoffs16_next h
    have hx := segRead_of_segWrite hp hwrite hread rfl (by omega) (by decide)
    rw [State.advance_regs, State.setReg16_regs, Regs.get16_set16_same, hx]
    rfl
  · obtain ⟨x, hread, rfl⟩ := movAlMoffs8_next h
    have hx := segRead_of_segWrite hp hwrite hread rfl (by omega) (by decide)
    rw [State.advance_regs, State.setReg8_regs, Regs.get8_set8_al, hx]
    rfl

end Sys2Proof.Machine
end

section
/-!
The decoder gives back what the encoder wrote (30_encoding.md R100 to R117, R122): well-formedness as three statements about the
term, then one lemma per format, then the opcode maps, then the prefix bytes in any order.
-/

namespace Sys2Proof

open Machine (except_ok_bind)

/-! ### Well-formed terms -/

/-- A memory operand is a form of the tables, of address size `z` (R108 to R110). -/
def Rm.inSize {R : Type} (z : Size) (o : Rm R) : Prop := ∀ m, o.mem? = some m → m.wellFormed = true ∧ m.addrSize = z

theorem Instr.wellFormed_iff (i : Instr) : i.wellFormed = true ↔
    (∀ z, i.rowOpsize = some z → i.attr.opsize = z)
      ∧ (∀ m, i.mem? = some m → m.wellFormed = true ∧ m.addrSize = i.attr.adsize)
      ∧ ∀ off, i.moffs? = some off → i.attr.adsize = .w32 ∨ off.toNat < 65536 := by
  have hsize : i.opsizeOk = true ↔ ∀ z, i.rowOpsize = some z → i.attr.opsize = z := by
    unfold Instr.opsizeOk
    cases i.rowOpsize <;> simp
  have hmem : i.memOk = true ↔ ∀ m, i.mem? = some m → m.wellFormed = true ∧ m.addrSize = i.attr.adsize := by
    unfold Instr.memOk
    cases i.mem? <;> simp
  have hoff : i.moffsOk = true ↔ ∀ off, i.moffs? = some off → i.attr.adsize = .w32 ∨ off.toNat < 65536 := by
    unfold Instr.moffsOk
    cases i.moffs? <;> simp
  rw [Instr.wellFormed, Bool.and_eq_true, Bool.and_eq_true, hsize, hmem, hoff, and_assoc]

/-! ### Formats read back -/

section
variable {R G : Type} {num : R → BitVec 3} {ofNum : BitVec 3 → R} {a : Attr} {o : Rm R}

theorem decodeRegRm_encodeRm {numG : G → BitVec 3} {ofNumG : BitVec 3 → G} (make : G → Rm R → Instr)
    (hG : ∀ g, ofNumG (numG g) = g) (hR : ∀ r, ofNum (num r) = r) (ho : o.inSize a.adsize) (g : G) (rest : List Byte) :
    decodeRegRm ofNum a (fun n o => make (ofNumG n) o) (encodeRm num (numG g) o ++ rest) = .ok (make g o, rest) := by
  obtain ⟨b, t, hb, hreg, hr⟩ := readRm_encodeRm hR (numG g) ho rest
  simp only [decodeRegRm, hb, readByte, except_ok_bind, hr, hreg, hG]

theorem decodeDigitRm_encodeRm (make : Rm R → Instr) (hR : ∀ r, ofNum (num r) = r) (ho : o.inSize a.adsize) (digit : BitVec 3)
    (no : DecodeRefusal) (rest : List Byte) :
    decodeDigitRm ofNum a digit no make (encodeRm num digit o ++ rest) = .ok (make o, rest) := by
  obtain ⟨b, t, hb, rfl, hr⟩ := readRm_encodeRm hR digit ho rest
  simp only [decodeDigitRm, hb, readByte, except_ok_bind, if_true, hr]

/-- `read` is the reader of the immediate. -/
theorem decodeRmImm_encodeRm {V : Type} {read : List Byte → Except DecodeStop (V × List Byte)} {imm rest : List Byte} {v : V}
    (make : Rm R → V → Instr) (hR : ∀ r, ofNum (num r) = r) (ho : o.inSize a.adsize) (hv : read (imm ++ rest) = .ok (v, rest)) :
    decodeRmImm ofNum a (fun o r => read r >>= fun x => .ok (make o x.1, x.2)) (encodeRm num 0#3 o ++ imm ++ rest)
      = .ok (make o v, rest) := by
  obtain ⟨b, t, hb, hreg, hr⟩ := readRm_encodeRm hR 0#3 ho (imm ++ rest)
  simp only [decodeRmImm, List.append_assoc, hb, readByte, except_ok_bind, hreg, if_true, hr, hv]

end

theorem decodeFromSreg_encodeRm {a : Attr} {o : Rm Reg} (ho : o.inSize a.adsize) (g : SegReg) (rest : List Byte) :
    decodeFromSreg a (encodeRm Reg.num g.num o ++ rest) = .ok (.movRm16Sreg a o g, rest) := by
  obtain ⟨b, t, hb, hreg, hr⟩ := readRm_encodeRm Reg.ofNum_num g.num ho rest
  simp only [decodeFromSreg, hb, readByte, except_ok_bind, hreg, SegReg.ofNum_num, hr]

theorem decodeToSreg_encodeRm {a : Attr} {o : Rm Reg} (ho : o.inSize a.adsize) (g : SegDest) (rest : List Byte) :
    decodeToSreg a (encodeRm Reg.num g.toSegReg.num o ++ rest) = .ok (.movSregRm16 a g o, rest) := by
  obtain ⟨b, t, hb, hreg, hr⟩ := readRm_encodeRm Reg.ofNum_num g.toSegReg.num ho rest
  simp only [decodeToSreg, hb, readByte, except_ok_bind, hreg, SegDest.ofNum_num, hr]

theorem decodeSpecial_fieldsByte {make : BitVec 3 → Reg → Option Instr} {n : BitVec 3} {r : Reg} {i : Instr}
    (hi : make n r = some i) (rest : List Byte) : decodeSpecial make (fieldsByte 3#2 n r.num :: rest) = .ok (i, rest) := by
  simp only [decodeSpecial, readByte, except_ok_bind, modField_fieldsByte, regField_fieldsByte, rmField_fieldsByte, if_true,
    Reg.ofNum_num, hi]

theorem decodeSpecial_map {G : Type} {numG : G → BitVec 3} {ofNumG : BitVec 3 → Option G} (make : G → Reg → Instr)
    (hG : ∀ g, ofNumG (numG g) = some g) (g : G) (r : Reg) (rest : List Byte) :
    decodeSpecial (fun n r => (ofNumG n).map fun g => make g r) (fieldsByte 3#2 (numG g) r.num :: rest) = .ok (make g r, rest) :=
  decodeSpecial_fieldsByte (by rw [hG]; rfl) rest

/-- An offset or an immediate that ends the instruction. -/
theorem read_bind_make {V : Type} {x : Except DecodeStop (V × List Byte)} {v : V} {rest : List Byte} (make : V → Instr)
    (hx : x = .ok (v, rest)) : (x >>= fun y => .ok (make y.1, y.2)) = .ok (make v, rest) := by
  rw [hx]; rfl

/-! ### The opcode maps -/

/-- A row that an operand size of 16 selects (R125). -/
theorem row_w16 {α : Type} {z : Size} {x y v : α} (hx : x = v) : z = .w16 → (match z with | .w16 => x | .w32 => y) = v := by
  rintro rfl; exact hx

/-- A row that an operand size of 32 selects (R125). -/
theorem row_w32 {α : Type} {z : Size} {x y v : α} (hy : y = v) : z = .w32 → (match z with | .w16 => x | .w32 => y) = v := by
  rintro rfl; exact hy

/-- Without F3h: where a row needs an operand size, the term has it, and the map chooses that row. -/
theorem decodeOpcode_body {i : Instr} (hw : i.wellFormed = true) (hr : i.isRep = false) (rest : List Byte) :
    decodeOpcode i.attr (i.body ++ rest) = .ok (i, rest) := by
  obtain ⟨hz, hm, ho⟩ := (Instr.wellFormed_iff i).1 hw
  cases i with
  | movRm8R8 a o r => exact decodeRegRm_encodeRm (fun r o => .movRm8R8 a o r) Reg8.ofNum_num Reg8.ofNum_num hm r rest
  | movRm16R16 a o r =>
    exact row_w16 (decodeRegRm_encodeRm (fun r o => .movRm16R16 a o r) Reg.ofNum_num Reg.ofNum_num hm r rest) (hz _ rfl)
  | movRm32R32 a o r =>
    exact row_w32 (decodeRegRm_encodeRm (fun r o => .movRm32R32 a o r) Reg.ofNum_num Reg.ofNum_num hm r rest) (hz _ rfl)
  | movR8Rm8 a r o => exact decodeRegRm_encodeRm (.movR8Rm8 a) Reg8.ofNum_num Reg8.ofNum_num hm r rest
  | movR16Rm16 a r o => exact row_w16 (decodeRegRm_encodeRm (.movR16Rm16 a) Reg.ofNum_num Reg.ofNum_num hm r rest) (hz _ rfl)
  | movR32Rm32 a r o => exact row_w32 (decodeRegRm_encodeRm (.movR32Rm32 a) Reg.ofNum_num Reg.ofNum_num hm r rest) (hz _ rfl)
  | movRm16Sreg a o g => exact decodeFromSreg_encodeRm hm g rest
  | movSregRm16 a g o => exact decodeToSreg_encodeRm hm g rest
  | movAlMoffs8 a off => exact (read_bind_make (.movAlMoffs8 a) (readOffset_offsetBytes (ho _ rfl) rest) :)
  | movAxMoffs16 a off =>
    obtain ⟨op, ad, seg⟩ := a
    obtain rfl : op = .w16 := hz _ rfl
    exact (read_bind_make (.movAxMoffs16 ⟨.w16, ad, seg⟩) (readOffset_offsetBytes (ho _ rfl) rest) :)
  | movEaxMoffs32 a off =>
    obtain ⟨op, ad, seg⟩ := a
    obtain rfl : op = .w32 := hz _ rfl
    exact (read_bind_make (.movEaxMoffs32 ⟨.w32, ad, seg⟩) (readOffset_offsetBytes (ho _ rfl) rest) :)
  | movMoffs8Al a off => exact (read_bind_make (.movMoffs8Al a) (readOffset_offsetBytes (ho _ rfl) rest) :)
  | movMoffs16Ax a off =>
    obtain ⟨op, ad, seg⟩ := a
    obtain rfl : op = .w16 := hz _ rfl
    exact (read_bind_make (.movMoffs16Ax ⟨.w16, ad, seg⟩) (readOffset_offsetBytes (ho _ rfl) rest) :)
  | movMoffs32Eax a off =>
    obtain ⟨op, ad, seg⟩ := a
    obtain rfl : op = .w32 := hz _ rfl
    exact (read_bind_make (.movMoffs32Eax ⟨.w32, ad, seg⟩) (readOffset_offsetBytes (ho _ rfl) rest) :)
  | movReg8Imm8 a r v => cases r <;> rfl
  | movReg16Imm16 a r v => cases r <;> exact row_w16 (read_bind_make (.movReg16Imm16 a _) (readHalf_halfBytes v rest)) (hz _ rfl)
  | movReg32Imm32 a r v => cases r <;> exact row_w32 (read_bind_make (.movReg32Imm32 a _) (readWord_wordBytes v rest)) (hz _ rfl)
  | movRm8Imm8 a o v =>
    exact decodeRmImm_encodeRm (read := readByte) (imm := [v]) (.movRm8Imm8 a) Reg8.ofNum_num hm rfl
  | movRm16Imm16 a o v =>
    exact row_w16 (decodeRmImm_encodeRm (.movRm16Imm16 a) Reg.ofNum_num hm (readHalf_halfBytes v rest)) (hz _ rfl)
  | movRm32Imm32 a o v =>
    exact row_w32 (decodeRmImm_encodeRm (.movRm32Imm32 a) Reg.ofNum_num hm (readWord_wordBytes v rest)) (hz _ rfl)
  | movR32Cr a r k => exact decodeSpecial_map (fun k r => .movR32Cr a r k) CtrlReg.ofNum_num k r rest
  | movCrR32 a k r => exact decodeSpecial_map (.movCrR32 a) CtrlReg.ofNum_num k r rest
  | movR32Dr03 a r k => exact decodeSpecial_fieldsByte (by cases k <;> rfl) rest
  | movR32Dr67 a r k => exact decodeSpecial_fieldsByte (by cases k <;> rfl) rest
  | movDr03R32 a k r => exact decodeSpecial_fieldsByte (by cases k <;> rfl) rest
  | movDr67R32 a k r => exact decodeSpecial_fieldsByte (by cases k <;> rfl) rest
  | movR32Tr a r k => exact decodeSpecial_map (fun k r => .movR32Tr a r k) TestReg.ofNum_num k r rest
  | movTrR32 a k r => exact decodeSpecial_map (.movTrR32 a) TestReg.ofNum_num k r rest
  | movs8 a => rfl
  | movs16 a => exact row_w16 rfl (hz _ rfl)
  | movs32 a => exact row_w32 rfl (hz _ rfl)
  | repMovs8 | repMovs16 | repMovs32 => exact nomatch hr
  | movsxR16Rm8 a r o => exact row_w16 (decodeRegRm_encodeRm (.movsxR16Rm8 a) Reg.ofNum_num Reg8.ofNum_num hm r rest) (hz _ rfl)
  | movsxR32Rm8 a r o => exact row_w32 (decodeRegRm_encodeRm (.movsxR32Rm8 a) Reg.ofNum_num Reg8.ofNum_num hm r rest) (hz _ rfl)
  | movsxR32Rm16 a r o => exact row_w32 (decodeRegRm_encodeRm (.movsxR32Rm16 a) Reg.ofNum_num Reg.ofNum_num hm r rest) (hz _ rfl)
  | movzxR16Rm8 a r o => exact row_w16 (decodeRegRm_encodeRm (.movzxR16Rm8 a) Reg.ofNum_num Reg8.ofNum_num hm r rest) (hz _ rfl)
  | movzxR32Rm8 a r o => exact row_w32 (decodeRegRm_encodeRm (.movzxR32Rm8 a) Reg.ofNum_num Reg8.ofNum_num hm r rest) (hz _ rfl)
  | movzxR32Rm16 a r o => exact row_w32 (decodeRegRm_encodeRm (.movzxR32Rm16 a) Reg.ofNum_num Reg.ofNum_num hm r rest) (hz _ rfl)
  | mulRm8 a o => exact decodeDigitRm_encodeRm (.mulRm8 a) Reg8.ofNum_num hm 4#3 _ rest
  | mulRm16 a o => exact row_w16 (decodeDigitRm_encodeRm (.mulRm16 a) Reg.ofNum_num hm 4#3 _ rest) (hz _ rfl)
  | mulRm32 a o => exact row_w32 (decodeDigitRm_encodeRm (.mulRm32 a) Reg.ofNum_num hm 4#3 _ rest) (hz _ rfl)

/-- Behind F3h: the rows of REP MOVS. -/
theorem decodeRep_body {i : Instr} (hw : i.wellFormed = true) (hr : i.isRep = true) (rest : List Byte) :
    decodeRep i.attr (i.body ++ rest) = .ok (i, rest) := by
  obtain ⟨hz, -, -⟩ := (Instr.wellFormed_iff i).1 hw
  cases i with
  | repMovs8 a => rfl
  | repMovs16 a => exact row_w16 rfl (hz _ rfl)
  | repMovs32 a => exact row_w32 rfl (hz _ rfl)
  | _ => exact nomatch hr

/-! ### The whole instruction -/

/-- The first opcode byte of an instruction is no prefix byte (R101). -/
theorem Instr.body_eq_cons (i : Instr) : ∃ b t, i.body = b :: t ∧ prefixByte b = none := by
  cases i with
  | movReg8Imm8 a r v => exact ⟨_, _, rfl, by cases r <;> rfl⟩
  | movReg16Imm16 a r v => exact ⟨_, _, rfl, by cases r <;> rfl⟩
  | movReg32Imm32 a r v => exact ⟨_, _, rfl, by cases r <;> rfl⟩
  | _ => exact ⟨_, _, rfl, rfl⟩

theorem Instr.body_length (i : Instr) : i.body.length = i.bodyLength := by
  cases i <;> simp only [Instr.body, Instr.bodyLength, List.length_cons, List.length_append, List.length_nil, encodeRm_length,
    offsetBytes_length, halfBytes, wordBytes] <;> omega

/-- Prefix bytes in any order, then the bytes of the instruction after them, then anything. -/
theorem decode_perm_body {d : Size} {i : Instr} {ps : List Byte} (hw : i.wellFormed = true)
    (hp : ps.Perm (encodePrefixes d i.attr i.isRep)) (rest : List Byte) :
    decode d (ps ++ i.body ++ rest) = .ok (i, i.length d) := by
  have hmap : (if i.isRep then decodeRep i.attr (i.body ++ rest) else decodeOpcode i.attr (i.body ++ rest)) = .ok (i, rest) := by
    cases hr : i.isRep with
    | false => exact decodeOpcode_body hw hr rest
    | true => exact decodeRep_body hw hr rest
  have hlen : (ps ++ (i.body ++ rest)).length - rest.length = i.length d := by
    simp only [List.length_append, hp.length_eq, encodePrefixes_length, Instr.body_length, Instr.length]
    omega
  obtain ⟨b, t, hb, hnone⟩ := i.body_eq_cons
  rw [List.append_assoc]
  rw [hb, List.cons_append] at hmap hlen ⊢
  rw [decode_of_perm hp (t ++ rest) hnone, hmap, except_ok_bind, hlen]

/-- Settles O1: the encoder's order of the prefix bytes is one of those that `decode_perm_body` speaks of. -/
theorem decodeInvertsEncode : Obligations.DecodeInvertsEncode := by
  unfold Obligations.DecodeInvertsEncode
  intro d i rest hw
  exact ⟨decode_perm_body hw (.refl _) rest, fun ps hp => decode_perm_body hw hp rest⟩

end Sys2Proof
end

section
/-!
How many bytes the decoder's readers take and what they answer (30_encoding.md R116, R122, D25): one closure lemma per way the
readers are put together, then one lemma per reader, with the largest number of bytes that it needs.
-/

namespace Sys2Proof

open Machine (except_bind_ok except_bind_error)

/-- A reader that needs at most `N` bytes, and takes as many of them as `Q` says of the value that it answers. -/
structure BoundedReader {α : Type} (N : Nat) (Q : α → Nat → Prop) (p : List Byte → Except DecodeStop (α × List Byte)) : Prop where
  ok {bs : List Byte} {v : α} {r : List Byte} : p bs = .ok (v, r) → ∃ n, bs.length = n + r.length ∧ n ≤ N ∧ Q v n
  more {bs : List Byte} : p bs = .error .more → bs.length < N

namespace BoundedReader

/-! ### How readers are put together -/

section
variable {α β : Type} {K N : Nat} {Q : α → Nat → Prop} {S : β → Nat → Prop} {p q : List Byte → Except DecodeStop (α × List Byte)}

protected theorem pure {v : α} (h : Q v 0) : BoundedReader N Q fun bs => .ok (v, bs) where
  ok hv := by cases hv; exact ⟨0, (Nat.zero_add _).symm, Nat.zero_le _, h⟩
  more hv := nomatch hv

theorem refuse (e : DecodeRefusal) : BoundedReader N Q fun _ => .error (.refuse e) where
  ok h := nomatch h
  more h := nomatch h

protected theorem bind {f : α × List Byte → Except DecodeStop (β × List Byte)} (hp : BoundedReader N Q p)
    (hf : ∀ v n, Q v n → BoundedReader (K - N) (fun w m => S w (n + m)) fun r => f (v, r)) (hK : N ≤ K := by decide) :
    BoundedReader K S fun bs => p bs >>= f where
  ok h := by
    obtain ⟨⟨x, t⟩, hx, hw⟩ := except_bind_ok.1 h
    obtain ⟨n, hn, hN, hQ⟩ := hp.ok hx
    obtain ⟨m, hm, hM, hS⟩ := (hf x n hQ).ok hw
    exact ⟨n + m, by omega, by omega, hS⟩
  more h := by
    rcases except_bind_error.1 h with hx | ⟨⟨x, t⟩, hx, hw⟩
    · exact Nat.lt_of_lt_of_le (hp.more hx) hK
    · obtain ⟨n, hn, hN, hQ⟩ := hp.ok hx
      have := (hf x n hQ).more hw
      omega

/-- A field of `N` bytes, whatever they are. -/
theorem bindField {f : α × List Byte → Except DecodeStop (β × List Byte)} (hp : BoundedReader N (fun _ n => n = N) p)
    (hf : ∀ v, BoundedReader (K - N) (fun w m => S w (N + m)) fun r => f (v, r)) (hK : N ≤ K := by decide) :
    BoundedReader K S fun bs => p bs >>= f :=
  hp.bind (fun v _ hn => hn ▸ hf v) hK

theorem ite {c : Prop} [Decidable c] (hp : c → BoundedReader N Q p) (hq : ¬c → BoundedReader N Q q) :
    BoundedReader N Q fun bs => if c then p bs else q bs := by
  by_cases h : c
  · simpa only [if_pos h] using hp h
  · simpa only [if_neg h] using hq h

/-- A choice by the operand size, in which no byte still to be read has a part. -/
theorem bySize {z : Size} : (z = .w16 → BoundedReader N Q p) → (z = .w32 → BoundedReader N Q q) →
    BoundedReader N Q fun bs => match z with | .w16 => p bs | .w32 => q bs := by
  intro hp hq
  cases z with
  | w16 => exact hp rfl
  | w32 => exact hq rfl

protected theorem mono (hp : BoundedReader N Q p) (hK : N ≤ K := by decide) : BoundedReader K Q p where
  ok h := by
    obtain ⟨n, hn, hN, hQ⟩ := hp.ok h
    exact ⟨n, hn, Nat.le_trans hN hK, hQ⟩
  more h := Nat.lt_of_lt_of_le (hp.more h) hK

protected theorem imp {Q' : α → Nat → Prop} (hQ : ∀ v n, Q v n → Q' v n) (hp : BoundedReader N Q p) : BoundedReader N Q' p where
  ok h := by
    obtain ⟨n, hn, hN, hv⟩ := hp.ok h
    exact ⟨n, hn, hN, hQ _ _ hv⟩
  more := hp.more

end

end BoundedReader

/-! ### Bytes, displacements, operands -/

theorem boundedReader_readByte : BoundedReader 1 (fun _ n => n = 1) readByte where
  ok {bs _ _} h := by
    match bs, h with
    | _ :: r, rfl => exact ⟨1, by simp only [List.length_cons]; omega, Nat.le_refl _, rfl⟩
  more {bs} h := by
    match bs, h with
    | [], _ => decide

theorem boundedReader_readHalf : BoundedReader 2 (fun _ n => n = 2) readHalf where
  ok {bs _ _} h := by
    match bs, h with
    | _ :: _ :: r, rfl => exact ⟨2, by simp only [List.length_cons]; omega, Nat.le_refl _, rfl⟩
  more {bs} h := by
    match bs, h with
    | [], _ | [_], _ => simp

theorem boundedReader_readWord : BoundedReader 4 (fun _ n => n = 4) readWord where
  ok {bs _ _} h := by
    match bs, h with
    | _ :: _ :: _ :: _ :: r, rfl => exact ⟨4, by simp only [List.length_cons]; omega, Nat.le_refl _, rfl⟩
  more {bs} h := by
    match bs, h with
    | [], _ | [_], _ | [_, _], _ | [_, _, _], _ => simp

/-- A displacement is missing only where mod is 00 (R108). -/
theorem boundedReader_readDisp16 (md : BitVec 2) :
    BoundedReader 2 (fun d n => d.length = n ∧ (d = .none → md = 0#2)) (readDisp16 md) :=
  .ite (fun h => .pure ⟨rfl, fun _ => h⟩) fun _ =>
    .ite (fun _ => boundedReader_readByte.bindField fun _ => .pure ⟨rfl, nofun⟩) fun _ =>
      boundedReader_readHalf.bindField fun _ => .pure ⟨rfl, nofun⟩

/-- A displacement is missing only where mod is 00 (R109). -/
theorem boundedReader_readDisp32 (md : BitVec 2) :
    BoundedReader 4 (fun d n => d.length = n ∧ (d = .none → md = 0#2)) (readDisp32 md) :=
  .ite (fun h => .pure ⟨rfl, fun _ => h⟩) fun _ =>
    .ite (fun _ => boundedReader_readByte.bindField fun _ => .pure ⟨rfl, nofun⟩) fun _ =>
      boundedReader_readWord.bindField fun _ => .pure ⟨rfl, nofun⟩

theorem Base16.eq_six_of_ofNum {n : BitVec 3} (h : Base16.ofNum n = .bp) : n = 6#3 := by revert n; decide

theorem Reg.eq_five_of_ofNum {n : BitVec 3} (h : Reg.ofNum n = .ebp) : n = 5#3 := by revert n; decide

theorem Reg.eq_four_of_ofNum {n : BitVec 3} (h : Reg.ofNum n = .esp) : n = 4#3 := by revert n; decide

/-- A memory operand of address size `z` with `n` bytes after its ModRM byte. -/
def Mem.Read (z : Size) (m : Mem) (n : Nat) : Prop := m.wellFormed = true ∧ m.addrSize = z ∧ m.tailLength = n

theorem boundedReader_readMem16 (md : BitVec 2) (rm : BitVec 3) : BoundedReader 2 (Mem.Read .w16) (readMem16 md rm) :=
  .ite (fun _ => boundedReader_readHalf.bindField fun _ => .pure ⟨rfl, rfl, rfl⟩) fun hdirect =>
    (boundedReader_readDisp16 md).bind fun | d, _, ⟨rfl, hd⟩ => .pure ⟨by
      have : Base16.ofNum rm ≠ .bp ∨ d ≠ .none := not_and_or.1 fun ⟨hb, h⟩ => hdirect ⟨hd h, Base16.eq_six_of_ofNum hb⟩
      simpa [Mem.wellFormed] using this, rfl, rfl⟩

/-- The index of a SIB byte that is not refused (R110, D27). -/
theorem scaleOk_indexOfNum {ss : BitVec 2} {n : BitVec 3} (h : ¬(n = 4#3 ∧ ss ≠ 0#2)) : scaleOk ss (indexOfNum n) = true := by
  unfold indexOfNum
  split
  case isTrue hn => simpa [scaleOk, hn] using h
  case isFalse hn => simpa [scaleOk] using fun he => hn (Reg.eq_four_of_ofNum he)

theorem boundedReader_readSib (md : BitVec 2) : BoundedReader 5 (Mem.Read .w32) (readSib md) :=
  boundedReader_readByte.bindField fun b => .ite (fun _ => .refuse _) fun hscale =>
    .ite (fun _ => boundedReader_readWord.bindField fun _ => .pure ⟨scaleOk_indexOfNum hscale, rfl, rfl⟩) fun hbase =>
      (boundedReader_readDisp32 md).bind fun | d, _, ⟨rfl, hd⟩ => .pure ⟨by
        have : Reg.ofNum (rmField b) ≠ .ebp ∨ d ≠ .none := not_and_or.1 fun ⟨hb, h⟩ => hbase ⟨Reg.eq_five_of_ofNum hb, hd h⟩
        simpa [Mem.wellFormed, scaleOk_indexOfNum hscale] using this, rfl, rfl⟩

theorem boundedReader_readMem32 (md : BitVec 2) (rm : BitVec 3) : BoundedReader 5 (Mem.Read .w32) (readMem32 md rm) :=
  .ite (fun _ => boundedReader_readSib md) fun hsib =>
    .ite (fun _ => boundedReader_readWord.bindField fun _ => .pure ⟨rfl, rfl, rfl⟩) fun hdirect =>
      (boundedReader_readDisp32 md).bind fun | d, _, ⟨rfl, hd⟩ => .pure ⟨by
        have h4 : Reg.ofNum rm ≠ .esp := fun h => hsib (Reg.eq_four_of_ofNum h)
        have h5 : Reg.ofNum rm ≠ .ebp ∨ d ≠ .none := not_and_or.1 fun ⟨hb, h⟩ => hdirect ⟨Reg.eq_five_of_ofNum hb, hd h⟩
        simpa [Mem.wellFormed, h4] using h5, rfl, rfl⟩

/-- The bytes behind the ModRM byte. -/
theorem boundedReader_readRm {R : Type} (ofNum : BitVec 3 → R) (z : Size) (b : Byte) :
    BoundedReader 5 (fun o n => o.inSize z ∧ o.length = 1 + n) (readRm ofNum z b) := by
  refine .ite (fun _ => .pure ⟨nofun, rfl⟩) fun _ => ?_
  have hmem {m : Mem} {n : Nat} (h : m.Read z n) : (Rm.mem (R := R) m).inSize z ∧ (Rm.mem (R := R) m).length = 1 + n := by
    obtain ⟨hw, hz, rfl⟩ := h
    refine ⟨?_, rfl⟩
    rintro _ ⟨⟩
    exact ⟨hw, hz⟩
  cases z with
  | w16 => exact (boundedReader_readMem16 ..).bind fun _ _ h => .pure (hmem h)
  | w32 => exact (boundedReader_readMem32 ..).bind fun _ _ h => .pure (hmem h)

theorem boundedReader_readOffset (z : Size) :
    BoundedReader 4 (fun off n => n = z.bytes ∧ (z = .w32 ∨ off.toNat < 65536)) (readOffset z) := by
  cases z with
  | w16 =>
    exact boundedReader_readHalf.bindField fun v => .pure ⟨rfl, .inr (by
      have := v.isLt
      simp only [BitVec.toNat_setWidth]; omega)⟩
  | w32 => exact boundedReader_readWord.imp fun _ _ hn => ⟨hn, .inl rfl⟩

/-! ### Formats -/

section
variable {R : Type} {ofNum : BitVec 3 → R} {a : Attr} {K : Nat} {S : Instr → Nat → Prop}

theorem boundedReader_decodeRegRm {make : BitVec 3 → Rm R → Instr} (hi : ∀ k o, o.inSize a.adsize → S (make k o) o.length)
    (hK : 6 ≤ K := by decide) : BoundedReader K S (decodeRegRm ofNum a make) :=
  .mono (hK := hK) <| boundedReader_readByte.bindField fun b =>
    (boundedReader_readRm ofNum a.adsize b).bind fun o _ ⟨ho, hn⟩ => .pure (hn ▸ hi _ o ho)

theorem boundedReader_decodeDigitRm {digit : BitVec 3} {no : DecodeRefusal} {make : Rm R → Instr}
    (hi : ∀ o, o.inSize a.adsize → S (make o) o.length) (hK : 6 ≤ K := by decide) :
    BoundedReader K S (decodeDigitRm ofNum a digit no make) :=
  .mono (hK := hK) <| boundedReader_readByte.bindField fun b => .ite
    (fun _ => (boundedReader_readRm ofNum a.adsize b).bind fun o _ ⟨ho, hn⟩ => .pure (hn ▸ hi o ho)) fun _ => .refuse _

theorem boundedReader_decodeFromSreg (hi : ∀ o g, o.inSize a.adsize → S (.movRm16Sreg a o g) o.length) (hK : 6 ≤ K := by decide) :
    BoundedReader K S (decodeFromSreg a) := by
  refine .mono (hK := hK) <| boundedReader_readByte.bindField fun b => ?_
  dsimp only
  cases SegReg.ofNum (regField b) with
  | none => exact .refuse _
  | some g =>
    exact (boundedReader_readRm Reg.ofNum a.adsize b).bind (K := 5) fun o _ ⟨ho, hn⟩ =>
      .pure (v := Instr.movRm16Sreg a o g) (hn ▸ hi o g ho)

theorem boundedReader_decodeToSreg (hi : ∀ o g, o.inSize a.adsize → S (.movSregRm16 a g o) o.length) (hK : 6 ≤ K := by decide) :
    BoundedReader K S (decodeToSreg a) := by
  refine .mono (hK := hK) <| boundedReader_readByte.bindField fun b => ?_
  dsimp only
  cases h : SegDest.ofNum (regField b) with
  | error e =>
    obtain ⟨r, rfl⟩ := segDest_ofNum_error h
    exact .refuse r
  | ok g =>
    exact (boundedReader_readRm Reg.ofNum a.adsize b).bind (K := 5) fun o _ ⟨ho, hn⟩ =>
      .pure (v := Instr.movSregRm16 a g o) (hn ▸ hi o g ho)

theorem boundedReader_decodeRmImm {make : Rm R → List Byte → Except DecodeStop (Instr × List Byte)}
    (hi : ∀ o, o.inSize a.adsize → BoundedReader 4 (fun i n => S i (o.length + n)) (make o)) (hK : 10 ≤ K := by decide) :
    BoundedReader K S (decodeRmImm ofNum a make) :=
  .mono (hK := hK) <| boundedReader_readByte.bindField fun b => .ite
    (fun _ => (boundedReader_readRm ofNum a.adsize b).bind fun o n ⟨ho, hn⟩ => by
      simpa only [hn, Nat.add_assoc] using hi o ho)
    fun _ => .refuse _

theorem boundedReader_decodeNoRow (no : DecodeRefusal) (hK : 1 ≤ K := by decide) : BoundedReader K S (decodeNoRow no) :=
  .mono (hK := hK) <| boundedReader_readByte.bindField fun _ => .refuse _

theorem boundedReader_decodeSpecial {make : BitVec 3 → Reg → Option Instr} (hi : ∀ n g i, make n g = some i → S i 1)
    (hK : 1 ≤ K := by decide) : BoundedReader K S (decodeSpecial make) :=
  .mono (hK := hK) <| boundedReader_readByte.bindField fun b => .ite
    (fun _ => by
      cases h : make (regField b) (Reg.ofNum (rmField b)) with
      | none => exact .refuse _
      | some i => exact .pure (hi _ _ i h))
    fun _ => .refuse _

end

/-! ### The opcode maps -/

/-- What the opcode maps answer: a well-formed term of the attributes and the REP byte read before, with `n` bytes from the
opcode on. -/
structure Instr.ReadAs (a : Attr) (rep : Bool) (i : Instr) (n : Nat) : Prop where
  wellFormed : i.wellFormed = true
  attr_eq : i.attr = a
  isRep_eq : i.isRep = rep
  bodyLength_eq : i.bodyLength = n

section
variable {i : Instr} {a : Attr} {rep : Bool} {n : Nat}

/-- A term with an `r/m` operand. -/
theorem Instr.ReadAs.rm (hz : ∀ z, i.rowOpsize = some z → i.attr.opsize = z)
    (hm : ∀ m, i.mem? = some m → m.wellFormed = true ∧ m.addrSize = i.attr.adsize) (ho : i.moffs? = none := by rfl)
    (ha : i.attr = a := by rfl) (hr : i.isRep = rep := by rfl) (hn : i.bodyLength = n := by rfl) : Instr.ReadAs a rep i n :=
  ⟨(Instr.wellFormed_iff i).2 ⟨hz, hm, by simp [ho]⟩, ha, hr, hn⟩

/-- A term with a `moffs` offset. -/
theorem Instr.ReadAs.moffs {off : Word} (hz : ∀ z, i.rowOpsize = some z → i.attr.opsize = z)
    (hoff : i.attr.adsize = .w32 ∨ off.toNat < 65536) (ho : i.moffs? = some off := by rfl) (hm : i.mem? = none := by rfl)
    (ha : i.attr = a := by rfl) (hr : i.isRep = rep := by rfl) (hn : i.bodyLength = n := by rfl) : Instr.ReadAs a rep i n :=
  ⟨(Instr.wellFormed_iff i).2 ⟨hz, by simp [hm], by simpa [ho] using hoff⟩, ha, hr, hn⟩

/-- A term with neither. -/
theorem Instr.ReadAs.regs (hz : ∀ z, i.rowOpsize = some z → i.attr.opsize = z) (hm : i.mem? = none := by rfl)
    (ho : i.moffs? = none := by rfl) (ha : i.attr = a := by rfl) (hr : i.isRep = rep := by rfl) (hn : i.bodyLength = n := by rfl) :
    Instr.ReadAs a rep i n :=
  ⟨(Instr.wellFormed_iff i).2 ⟨hz, by simp [hm], by simp [ho]⟩, ha, hr, hn⟩

end

/-- Where no operand size selects the row. -/
theorem anySize {w : Size} : ∀ z, none = some z → w = z := nofun

/-- Where the operand size that was read selects the row (R125). -/
theorem rowSize {w y : Size} (h : w = y) : ∀ z, some y = some z → w = z := by
  rintro _ ⟨⟩
  exact h

/-- A special register by its number: what is true of the terms of all of them is true of the one it names. -/
theorem map_readAs {G : Type} {o : Option G} {make : G → Instr} {a : Attr} {n : Nat} {i : Instr} (h : o.map make = some i)
    (hi : ∀ k, (make k).ReadAs a false n) : i.ReadAs a false n := by
  obtain ⟨k, -, rfl⟩ := Option.map_eq_some_iff.1 h
  exact hi k

theorem fromDebug_readAs {a : Attr} {n : BitVec 3} {r : Reg} {i : Instr} (h : fromDebug a n r = some i) :
    Instr.ReadAs a false i 3 := by
  unfold fromDebug at h
  split at h
  case h_1 => cases h; exact .regs anySize
  case h_2 => exact map_readAs h fun _ => .regs anySize

theorem toDebug_readAs {a : Attr} {n : BitVec 3} {r : Reg} {i : Instr} (h : toDebug a n r = some i) :
    Instr.ReadAs a false i 3 := by
  unfold toDebug at h
  split at h
  case h_1 => cases h; exact .regs anySize
  case h_2 => exact map_readAs h fun _ => .regs anySize

theorem boundedReader_decodeTwoByte (a : Attr) :
    BoundedReader 7 (fun i n => Instr.ReadAs a false i (1 + n)) (decodeTwoByte a) :=
  boundedReader_readByte.bindField fun _ =>
    .imp (Q := fun i n => Instr.ReadAs a false i (2 + n)) (fun _ n h => Nat.add_assoc 1 1 n ▸ h) <|
    .ite (fun _ => boundedReader_decodeSpecial fun _ _ _ h => map_readAs h fun _ => .regs anySize) fun _ =>
    .ite (fun _ => boundedReader_decodeSpecial fun _ _ _ h => map_readAs h fun _ => .regs anySize) fun _ =>
    .ite (fun _ => boundedReader_decodeSpecial fun _ _ _ => fromDebug_readAs) fun _ =>
    .ite (fun _ => boundedReader_decodeSpecial fun _ _ _ => toDebug_readAs) fun _ =>
    .ite (fun _ => boundedReader_decodeSpecial fun _ _ _ h => map_readAs h fun _ => .regs anySize) fun _ =>
    .ite (fun _ => boundedReader_decodeSpecial fun _ _ _ h => map_readAs h fun _ => .regs anySize) fun _ =>
    .ite (fun _ => .bySize
      (fun hz => boundedReader_decodeRegRm fun _ _ ho => .rm (rowSize hz) ho)
      (fun hz => boundedReader_decodeRegRm fun _ _ ho => .rm (rowSize hz) ho)) fun _ =>
    .ite (fun _ => .bySize
      (fun _ => boundedReader_decodeNoRow _)
      (fun hz => boundedReader_decodeRegRm fun _ _ ho => .rm (rowSize hz) ho)) fun _ =>
    .ite (fun _ => .bySize
      (fun hz => boundedReader_decodeRegRm fun _ _ ho => .rm (rowSize hz) ho)
      (fun hz => boundedReader_decodeRegRm fun _ _ ho => .rm (rowSize hz) ho)) fun _ =>
    .ite (fun _ => .bySize
      (fun _ => boundedReader_decodeNoRow _)
      (fun hz => boundedReader_decodeRegRm fun _ _ ho => .rm (rowSize hz) ho)) fun _ =>
    .refuse _

theorem boundedReader_decodeOpcode (a : Attr) : BoundedReader 11 (Instr.ReadAs a false) (decodeOpcode a) :=
  boundedReader_readByte.bindField fun _ =>
    -- MOV between an `r/m` operand and a register
    .ite (fun _ => boundedReader_decodeRegRm fun _ _ ho => .rm anySize ho) fun _ =>
    .ite (fun _ => .bySize
      (fun hz => boundedReader_decodeRegRm fun _ _ ho => .rm (rowSize hz) ho)
      (fun hz => boundedReader_decodeRegRm fun _ _ ho => .rm (rowSize hz) ho)) fun _ =>
    .ite (fun _ => boundedReader_decodeRegRm fun _ _ ho => .rm anySize ho) fun _ =>
    .ite (fun _ => .bySize
      (fun hz => boundedReader_decodeRegRm fun _ _ ho => .rm (rowSize hz) ho)
      (fun hz => boundedReader_decodeRegRm fun _ _ ho => .rm (rowSize hz) ho)) fun _ =>
    .ite (fun _ => boundedReader_decodeFromSreg fun _ _ ho => .rm anySize ho) fun _ =>
    .ite (fun _ => boundedReader_decodeToSreg fun _ _ ho => .rm anySize ho) fun _ =>
    -- `moffs`
    .ite (fun _ => (boundedReader_readOffset _).bind fun _ _ ⟨hn, ho⟩ => hn ▸ .pure (.moffs anySize ho)) fun _ =>
    .ite (fun _ => (boundedReader_readOffset _).bind fun _ _ ⟨hn, ho⟩ => hn ▸ .bySize
      (fun hz => .pure (.moffs (rowSize hz) ho))
      (fun hz => .pure (.moffs (rowSize hz) ho))) fun _ =>
    .ite (fun _ => (boundedReader_readOffset _).bind fun _ _ ⟨hn, ho⟩ => hn ▸ .pure (.moffs anySize ho)) fun _ =>
    .ite (fun _ => (boundedReader_readOffset _).bind fun _ _ ⟨hn, ho⟩ => hn ▸ .bySize
      (fun hz => .pure (.moffs (rowSize hz) ho))
      (fun hz => .pure (.moffs (rowSize hz) ho))) fun _ =>
    -- MOVS
    .ite (fun _ => .pure (.regs anySize)) fun _ =>
    .ite (fun _ => .bySize
      (fun hz => .pure (.regs (rowSize hz)))
      (fun hz => .pure (.regs (rowSize hz)))) fun _ =>
    -- immediates
    .ite (fun _ => boundedReader_readByte.bindField fun _ => .pure (.regs anySize)) fun _ =>
    .ite (fun _ => .bySize
      (fun hz => boundedReader_readHalf.bindField fun _ => .pure (.regs (rowSize hz)))
      (fun hz => boundedReader_readWord.bindField fun _ => .pure (.regs (rowSize hz)))) fun _ =>
    .ite (fun _ => boundedReader_decodeRmImm fun _ ho => boundedReader_readByte.bindField fun _ =>
      .pure (.rm anySize ho)) fun _ =>
    .ite (fun _ => .bySize
      (fun hz => boundedReader_decodeRmImm fun _ ho => boundedReader_readHalf.bindField fun _ =>
        .pure (.rm (rowSize hz) ho))
      (fun hz => boundedReader_decodeRmImm fun _ ho => boundedReader_readWord.bindField fun _ =>
        .pure (.rm (rowSize hz) ho))) fun _ =>
    -- MUL
    .ite (fun _ => boundedReader_decodeDigitRm fun _ ho => .rm anySize ho) fun _ =>
    .ite (fun _ => .bySize
      (fun hz => boundedReader_decodeDigitRm fun _ ho => .rm (rowSize hz) ho)
      (fun hz => boundedReader_decodeDigitRm fun _ ho => .rm (rowSize hz) ho)) fun _ =>
    .ite (fun _ => (boundedReader_decodeTwoByte a).mono) fun _ =>
    .refuse _

theorem boundedReader_decodeRepRefused {S : Instr → Nat → Prop} (op : Byte) : BoundedReader 2 S (decodeRepRefused op) :=
  .ite (fun _ => boundedReader_decodeNoRow _) fun _ =>
  .ite (fun _ => .refuse _) fun _ =>
  .ite (fun _ => boundedReader_readByte.bindField fun _ => .refuse _) fun _ =>
  .ite (fun _ => boundedReader_readByte.bindField fun _ => .ite (fun _ => boundedReader_decodeNoRow _) fun _ => .refuse _) fun _ =>
  .refuse _

theorem boundedReader_decodeRep (a : Attr) : BoundedReader 3 (Instr.ReadAs a true) (decodeRep a) :=
  boundedReader_readByte.bindField fun _ =>
    .ite (fun _ => .ite (fun _ => .pure (.regs anySize)) fun _ => .refuse _) fun _ =>
    .ite (fun _ => .ite
      (fun _ => .bySize
        (fun hz => .pure (.regs (rowSize hz)))
        (fun hz => .pure (.regs (rowSize hz))))
      (fun _ => .refuse _)) fun _ =>
    boundedReader_decodeRepRefused _

/-! ### Prefix bytes -/

/-- How many prefix bytes have been read. -/
def Prefixes.count (p : Prefixes) : Nat := p.osize.toNat + p.asize.toNat + p.seg.isSome.toNat + p.rep.toNat

theorem Prefixes.count_add {p q : Prefixes} {k : PrefixByte} (h : p.add k = .ok q) : q.count = p.count + 1 := by
  obtain ⟨o, z, g, f⟩ := p
  cases k with
  | osize => cases o <;> cases h; simp only [count, Bool.toNat_true, Bool.toNat_false]; omega
  | asize => cases z <;> cases h; simp only [count, Bool.toNat_true, Bool.toNat_false]; omega
  | segment => cases g <;> cases h; simp only [count, Option.isSome, Bool.toNat_true, Bool.toNat_false]; omega
  | rep => cases f <;> cases h; rfl
  | repne | lock => exact nomatch h

theorem Prefixes.count_le (p : Prefixes) : p.count ≤ 3 + p.rep.toNat := by
  have ho := Bool.toNat_le p.osize
  have hz := Bool.toNat_le p.asize
  have hg := Bool.toNat_le p.seg.isSome
  unfold count
  omega

/-- A prefix byte that is not admitted is refused by name: no later byte is wanted. -/
theorem Prefixes.add_ne_more {p : Prefixes} {k : PrefixByte} : p.add k ≠ .error .more := by
  cases k with
  | repne | lock => nofun
  | osize | asize | segment | rep => simp only [add]; split <;> nofun

/-- The attributes that the prefix bytes give need that many of them (R101, R102). -/
theorem Prefixes.prefixCount_attr (d : Size) (p : Prefixes) :
    (p.attr d).prefixCount d + (if p.rep then 1 else 0) = p.count := by
  obtain ⟨o, z, g, f⟩ := p
  cases d <;> cases o <;> cases z <;> cases g <;> cases f <;> rfl

theorem readPrefixes_opcode (p : Prefixes) {b : Byte} (hb : prefixByte b = none) (l : List Byte) :
    readPrefixes p (b :: l) = .ok (p, b :: l) := by
  simp only [readPrefixes, hb]

theorem readPrefixes_prefixByte (p : Prefixes) {b : Byte} {k : PrefixByte} (hb : prefixByte b = some k) (l : List Byte) :
    readPrefixes p (b :: l) = p.add k >>= fun q => readPrefixes q l := by
  simp only [readPrefixes, hb]
  cases p.add k <;> rfl

/-- Each byte that is read is of a kind more. -/
theorem readPrefixes_ok_length {p q : Prefixes} {bs r : List Byte} (h : readPrefixes p bs = .ok (q, r)) :
    p.count + bs.length = q.count + r.length := by
  induction bs generalizing p with
  | nil => exact nomatch h
  | cons b l ih =>
    cases hb : prefixByte b with
    | none =>
      rw [readPrefixes_opcode p hb] at h
      cases h
      rfl
    | some k =>
      rw [readPrefixes_prefixByte p hb] at h
      obtain ⟨p', hk, h⟩ := except_bind_ok.1 h
      have hl := ih h
      rw [Prefixes.count_add hk] at hl
      rw [List.length_cons]
      omega

/-- The bytes that no opcode follows are prefix bytes of different kinds, four at most. -/
theorem readPrefixes_more_length {p : Prefixes} {bs : List Byte} (h : readPrefixes p bs = .error .more) :
    p.count + bs.length ≤ 4 := by
  induction bs generalizing p with
  | nil => exact Nat.le_trans p.count_le (Nat.add_le_add_left (Bool.toNat_le _) 3)
  | cons b l ih =>
    cases hb : prefixByte b with
    | none => exact nomatch (readPrefixes_opcode p hb l).symm.trans h
    | some k =>
      rw [readPrefixes_prefixByte p hb] at h
      rcases except_bind_error.1 h with hk | ⟨p', hk, h⟩
      · exact absurd hk Prefixes.add_ne_more
      · have hl := ih h
        rw [Prefixes.count_add hk] at hl
        rw [List.length_cons]
        omega

/-! ### The whole decoder -/

/-- The bytes that the opcode maps need: with F3h only the opcode and its ModRM byte decide. -/
def Prefixes.bodyBound (p : Prefixes) : Nat := if p.rep then 3 else 11

theorem Prefixes.count_add_bodyBound (p : Prefixes) : p.count + p.bodyBound ≤ 14 := by
  have := p.count_le
  unfold bodyBound
  cases h : p.rep <;> simp [h] at this ⊢ <;> omega

theorem boundedReader_decodeBody (d : Size) (p : Prefixes) :
    BoundedReader p.bodyBound (Instr.ReadAs (p.attr d) p.rep) (decodeBody d p) := by
  obtain ⟨o, z, g, f⟩ := p
  cases f with
  | false => exact boundedReader_decodeOpcode _
  | true => exact boundedReader_decodeRep _

theorem Instr.bodyLength_pos (i : Instr) : 0 < i.bodyLength := by
  obtain ⟨b, t, hb, -⟩ := i.body_eq_cons
  rw [← i.body_length, hb]
  exact Nat.succ_pos _

/-- Settles O2: the prefix bytes, as many as the attributes need, then the bytes that the opcode map took. -/
theorem decodedInstructionIsWellFormed : Obligations.DecodedInstructionIsWellFormed := by
  unfold Obligations.DecodedInstructionIsWellFormed
  intro d bs i n h
  rw [decode_eq] at h
  obtain ⟨⟨j, rest⟩, hj, h⟩ := except_bind_ok.1 h
  simp only [Except.ok.injEq, Prod.mk.injEq] at h
  obtain ⟨rfl, rfl⟩ := h
  obtain ⟨⟨p, r⟩, hp, hb⟩ := except_bind_ok.1 hj
  obtain ⟨m, hm, hle, hread⟩ := (boundedReader_decodeBody d p).ok (bs := r) hb
  have hpre : bs.length = p.count + r.length := by simpa [Prefixes.count] using readPrefixes_ok_length hp
  have hlen : j.length d = p.count + m := by
    rw [Instr.length, hread.attr_eq, hread.isRep_eq, Prefixes.prefixCount_attr, hread.bodyLength_eq]
  have hpos : 0 < m := hread.bodyLength_eq ▸ j.bodyLength_pos
  have hmax := p.count_add_bodyBound
  exact ⟨hread.wellFormed, by omega, by omega, by omega, by omega⟩

theorem decode_more_length {d : Size} {bs : List Byte} (h : decode d bs = .error .more) : bs.length < 14 := by
  rw [decode_eq] at h
  rcases except_bind_error.1 h with h | ⟨_, _, h⟩
  · rcases except_bind_error.1 h with hp | ⟨⟨p, r⟩, hp, hb⟩
    · have := readPrefixes_more_length hp
      omega
    · have hpre : bs.length = p.count + r.length := by simpa [Prefixes.count] using readPrefixes_ok_length hp
      have hbody := (boundedReader_decodeBody d p).more (bs := r) hb
      have hmax := p.count_add_bodyBound
      omega
  · exact nomatch h

/-- Settles O3: `more` is the one other answer, and fewer than 14 bytes give it. -/
theorem decoderNeedsAtMostFourteenBytes : Obligations.DecoderNeedsAtMostFourteenBytes := by
  unfold Obligations.DecoderNeedsAtMostFourteenBytes
  intro d bs hlen
  match h : decode d bs with
  | .ok (i, n) => exact .inl ⟨i, n, rfl⟩
  | .error (.refuse r) => exact .inr ⟨r, rfl⟩
  | .error .more => exact absurd (decode_more_length h) (Nat.not_lt.2 hlen)

/-! ### Bytes behind an instruction, and written words -/

/-- Settles O4: an instruction is decoded from its own bytes, a refusal from those up to the one that decides it. -/
theorem decoderIgnoresLaterBytes : Obligations.DecoderIgnoresLaterBytes := by
  unfold Obligations.DecoderIgnoresLaterBytes
  refine fun d bs rest => ⟨fun i n h => ⟨decode_append h rest, ?_⟩, fun r h => decode_append_of_refused h rest⟩
  obtain ⟨used, tail, rfl, rfl, hused⟩ := decode_ok h
  rw [List.take_left]
  exact hused rest

/-- Settles O5: each word is run through the decoder. -/
theorem writtenWordsDecode : Obligations.WrittenWordsDecode := by
  unfold Obligations.WrittenWordsDecode
  decide

end Sys2Proof
end

section
/-!
What the decoder refuses, and under which name (30_encoding.md R101, R110, R115, R118, R119, R122; log 32): one lemma per way a
format refuses, then the two opcode maps, then the same behind any admitted prefix bytes.
-/

namespace Sys2Proof

open Machine (except_ok_bind)

/-! ### Behind the prefix bytes -/

section
variable {d : Size} {a : Attr} {ps t : List Byte} {b : Byte} {e : DecodeStop}

theorem decode_error_of_decodeOpcode (hp : ps.Perm (encodePrefixes d a false)) (hb : prefixByte b = none)
    (h : decodeOpcode a (b :: t) = .error e) : decode d (ps ++ b :: t) = .error e := by
  rw [decode_of_perm hp t hb, if_neg Bool.false_ne_true, h]
  rfl

theorem decode_error_of_decodeRep (hp : ps.Perm (encodePrefixes d a true)) (hb : prefixByte b = none)
    (h : decodeRep a (b :: t) = .error e) : decode d (ps ++ b :: t) = .error e := by
  rw [decode_of_perm hp t hb, if_pos rfl, h]
  rfl

/-- Where both opcode maps refuse, with and without F3h. -/
theorem decode_error_of_both {rep : Bool} (hp : ps.Perm (encodePrefixes d a rep)) (hb : prefixByte b = none)
    (h : decodeOpcode a (b :: t) = .error e) (hrep : decodeRep a (b :: t) = .error e) : decode d (ps ++ b :: t) = .error e := by
  cases rep with
  | false => exact decode_error_of_decodeOpcode hp hb h
  | true => exact decode_error_of_decodeRep hp hb hrep

end

/-! ### How the formats refuse -/

/-- Where the rows of both operand sizes answer the same. -/
theorem row_both {α : Type} {z : Size} {x y v : α} (hx : x = v) (hy : y = v) :
    (match z with | .w16 => x | .w32 => y) = v := by
  cases z with
  | w16 => exact hx
  | w32 => exact hy

section
variable {R : Type} {ofNum : BitVec 3 → R} {a : Attr} {b : Byte} {t : List Byte} {e : DecodeStop}

theorem decodeDigitRm_of_ne {digit : BitVec 3} {no : DecodeRefusal} {make : Rm R → Instr} (h : regField b ≠ digit) :
    decodeDigitRm ofNum a digit no make (b :: t) = .error (.refuse no) := by
  simp only [decodeDigitRm, readByte, except_ok_bind, if_neg h]

theorem decodeRmImm_of_ne {make : Rm R → List Byte → Except DecodeStop (Instr × List Byte)} (h : regField b ≠ 0#3) :
    decodeRmImm ofNum a make (b :: t) = .error (.refuse .reservedDigit) := by
  simp only [decodeRmImm, readByte, except_ok_bind, if_neg h]

theorem decodeFromSreg_of_none (h : SegReg.ofNum (regField b) = none) :
    decodeFromSreg a (b :: t) = .error (.refuse .segmentRegister) := by
  simp only [decodeFromSreg, readByte, except_ok_bind, h]

theorem decodeToSreg_of_error (h : SegDest.ofNum (regField b) = .error e) : decodeToSreg a (b :: t) = .error e := by
  simp only [decodeToSreg, readByte, except_ok_bind, h]
  rfl

theorem decodeSpecial_of_mod {make : BitVec 3 → Reg → Option Instr} (h : modField b ≠ 3#2) :
    decodeSpecial make (b :: t) = .error (.refuse .modNotEleven) := by
  simp only [decodeSpecial, readByte, except_ok_bind, if_neg h]

theorem decodeSpecial_of_none {make : BitVec 3 → Reg → Option Instr} (hm : modField b = 3#2)
    (h : make (regField b) (Reg.ofNum (rmField b)) = none) :
    decodeSpecial make (b :: t) = .error (.refuse .specialRegister) := by
  simp only [decodeSpecial, readByte, except_ok_bind, if_pos hm, h]

/-! A stop in the `r/m` operand is the format's. -/

theorem decodeRegRm_of_readRm {make : BitVec 3 → Rm R → Instr} (h : readRm ofNum a.adsize b t = .error e) :
    decodeRegRm ofNum a make (b :: t) = .error e := by
  simp only [decodeRegRm, readByte, except_ok_bind, h]
  rfl

theorem decodeDigitRm_of_readRm {digit : BitVec 3} {no : DecodeRefusal} {make : Rm R → Instr} (hd : regField b = digit)
    (h : readRm ofNum a.adsize b t = .error e) : decodeDigitRm ofNum a digit no make (b :: t) = .error e := by
  simp only [decodeDigitRm, readByte, except_ok_bind, if_pos hd, h]
  rfl

theorem decodeRmImm_of_readRm {make : Rm R → List Byte → Except DecodeStop (Instr × List Byte)} (hd : regField b = 0#3)
    (h : readRm ofNum a.adsize b t = .error e) : decodeRmImm ofNum a make (b :: t) = .error e := by
  simp only [decodeRmImm, readByte, except_ok_bind, if_pos hd, h]
  rfl

theorem decodeFromSreg_of_readRm (hg : regField b ∉ [6#3, 7#3]) (h : readRm Reg.ofNum a.adsize b t = .error e) :
    decodeFromSreg a (b :: t) = .error e := by
  have hsome : ∀ n : BitVec 3, n ∉ [6#3, 7#3] → (SegReg.ofNum n).isSome = true := by decide
  obtain ⟨g, hg⟩ := Option.isSome_iff_exists.1 (hsome _ hg)
  simp only [decodeFromSreg, readByte, except_ok_bind, hg, h]
  rfl

theorem decodeToSreg_of_readRm (hg : regField b ∉ [1#3, 6#3, 7#3]) (h : readRm Reg.ofNum a.adsize b t = .error e) :
    decodeToSreg a (b :: t) = .error e := by
  have hok : ∀ n : BitVec 3, n ∉ [1#3, 6#3, 7#3] → (SegDest.ofNum n).isOk = true := by decide
  cases hn : SegDest.ofNum (regField b) with
  | error x => exact nomatch hn ▸ hok _ hg
  | ok g =>
    simp only [decodeToSreg, readByte, except_ok_bind, hn, h]
    rfl

end

/-- The SIB byte that R110 leaves without an address (D27). -/
theorem readRm_scaledNoIndex {R : Type} (ofNum : BitVec 3 → R) {b sib : Byte} (t : List Byte) (hm : modField b ≠ 3#2)
    (hrm : rmField b = 4#3) (hi : regField sib = 4#3) (hs : modField sib ≠ 0#2) :
    readRm ofNum .w32 b (sib :: t) = .error (.refuse .scaledNoIndex) := by
  simp only [readRm, if_neg hm, readMem32, if_pos hrm, readSib, readByte, except_ok_bind, if_pos (And.intro hi hs)]
  rfl

/-! ### Opcodes outside section 17.3.M (R119) -/

/-- A first byte that is no opcode of R117 (R119), as the tests of the two opcode maps see it. -/
structure OutsideOpcode (b : Byte) : Prop where
  notListed : b ∉ [0x88#8, 0x89#8, 0x8A#8, 0x8B#8, 0x8C#8, 0x8E#8, 0xC6#8, 0xC7#8, 0xF6#8, 0xF7#8, 0x0F#8]
  notMoffs : b ∉ [0xA0#8, 0xA1#8, 0xA2#8, 0xA3#8]
  notMovs : b ∉ [0xA4#8, 0xA5#8]
  notImm8 : b.extractLsb' 3 5 ≠ 0b10110#5
  notImm : b.extractLsb' 3 5 ≠ 0b10111#5
  notB : b.extractLsb' 4 4 ≠ 0xB#4

theorem OutsideOpcode.of_ranges {b : Byte}
    (hl : b ∉ [0x88#8, 0x89#8, 0x8A#8, 0x8B#8, 0x8C#8, 0x8E#8, 0xC6#8, 0xC7#8, 0xF6#8, 0xF7#8, 0x0F#8])
    (hA : ¬(0xA0 ≤ b.toNat ∧ b.toNat ≤ 0xA5)) (hB : ¬(0xB0 ≤ b.toNat ∧ b.toNat ≤ 0xBF)) : OutsideOpcode b := by
  have inA : ∀ c ∈ [0xA0#8, 0xA1#8, 0xA2#8, 0xA3#8] ++ [0xA4#8, 0xA5#8], 0xA0 ≤ c.toNat ∧ c.toNat ≤ 0xA5 := by decide
  have inB : ∀ c : Byte, c.extractLsb' 3 5 = 0b10110#5 ∨ c.extractLsb' 3 5 = 0b10111#5 ∨ c.extractLsb' 4 4 = 0xB#4 →
      0xB0 ≤ c.toNat ∧ c.toNat ≤ 0xBF := by decide
  exact ⟨hl, fun h => hA (inA b (List.mem_append_left _ h)), fun h => hA (inA b (List.mem_append_right _ h)),
    fun h => hB (inB b (.inl h)), fun h => hB (inB b (.inr (.inl h))), fun h => hB (inB b (.inr (.inr h)))⟩

theorem decodeOpcode_outside {b : Byte} (h : OutsideOpcode b) (a : Attr) (t : List Byte) :
    decodeOpcode a (b :: t) = .error (.refuse .opcodeOutside) := by
  obtain ⟨hl, hA, hM, h8, hi, -⟩ := h
  simp only [List.mem_cons, List.not_mem_nil, or_false, not_or] at hl hA hM
  simp only [decodeOpcode, readByte, except_ok_bind, Config.opcMovSregRm, hl, hA, hM, h8, hi, if_false]

theorem decodeRep_outside {b : Byte} (h : OutsideOpcode b) (a : Attr) (t : List Byte) :
    decodeRep a (b :: t) = .error (.refuse .opcodeOutside) := by
  obtain ⟨hl, hA, hM, -, -, hB⟩ := h
  simp only [List.mem_cons, List.not_mem_nil, or_false, not_or] at hl hA hM
  simp [decodeRep, decodeRepRefused, readByte, Config.opcMovSregRm, hl, hA, hM, hB]

theorem decodeTwoByte_outside {c : Byte}
    (h : c ∉ [0x20#8, 0x21#8, 0x22#8, 0x23#8, 0x24#8, 0x26#8, 0xB6#8, 0xB7#8, 0xBE#8, 0xBF#8]) (a : Attr) (t : List Byte) :
    decodeTwoByte a (c :: t) = .error (.refuse .opcodeOutside) := by
  simp only [List.mem_cons, List.not_mem_nil, or_false, not_or] at h
  simp only [decodeTwoByte, readByte, except_ok_bind, h, if_false]

theorem decodeRep_twoByte_outside {c : Byte}
    (h : c ∉ [0x20#8, 0x21#8, 0x22#8, 0x23#8, 0x24#8, 0x26#8, 0xB6#8, 0xB7#8, 0xBE#8, 0xBF#8]) (a : Attr) (t : List Byte) :
    decodeRep a (0x0F#8 :: c :: t) = .error (.refuse .opcodeOutside) := by
  have hc : [0x20#8, 0x21#8, 0x22#8, 0x23#8, 0x24#8, 0x26#8, 0xB6#8, 0xB7#8, 0xBE#8, 0xBF#8].contains c = false := by
    rwa [← Bool.not_eq_true, List.contains_iff_mem]
  exact if_neg (Bool.eq_false_iff.1 hc)

/-- Behind F3h, the opcodes F6 and F7: what they are refused as is decided by the reg field. -/
theorem decodeRep_mul {op : Byte} (h : op ∈ [0xF6#8, 0xF7#8]) (a : Attr) (c : Byte) (t : List Byte) :
    decodeRep a (op :: c :: t) = .error (.refuse (if regField c = 4#3 then .misplacedRep else .opcodeOutside)) := by
  simp only [List.mem_cons, List.not_mem_nil, or_false] at h
  rcases h with rfl | rfl <;> rfl

/-- Settles O6: the opcode is outside in both maps, with and without F3h. -/
theorem opcodesOutsideAreRefused : Obligations.OpcodesOutsideAreRefused := by
  unfold Obligations.OpcodesOutsideAreRefused
  intro d a rep ps rest b c hp
  refine ⟨fun hb hl hA hB => ?_, fun hc => ?_, fun hc => ⟨?_, ?_⟩⟩
  · have hout := OutsideOpcode.of_ranges hl hA hB
    exact decode_error_of_both hp hb (decodeOpcode_outside hout a rest) (decodeRep_outside hout a rest)
  · exact decode_error_of_both hp rfl (decodeTwoByte_outside hc a rest) (decodeRep_twoByte_outside hc a rest)
  · refine decode_error_of_both hp rfl (decodeDigitRm_of_ne hc) ?_
    rw [decodeRep_mul (by decide), if_neg hc]
  · refine decode_error_of_both hp rfl (row_both (decodeDigitRm_of_ne hc) (decodeDigitRm_of_ne hc)) ?_
    rw [decodeRep_mul (by decide), if_neg hc]

/-! ### Encodings without a form: the prefix bytes (R101, R118) -/

/-- The one-byte opcodes with a ModRM byte are no prefix bytes (R101, R117). -/
theorem prefixByte_rmOpcode : ∀ c ∈ [0x88#8, 0x89#8, 0x8A#8, 0x8B#8, 0x8C#8, 0x8E#8, 0xC6#8, 0xC7#8] ++ [0xF6#8, 0xF7#8],
    prefixByte c = none := by decide

theorem prefixByte_override {b : Byte} (h : b ∈ [0x26#8, 0x2E#8, 0x36#8, 0x3E#8, 0x64#8, 0x65#8]) :
    ∃ g, prefixByte b = some (.segment g) := by
  simp only [List.mem_cons, List.not_mem_nil, or_false] at h
  rcases h with rfl | rfl | rfl | rfl | rfl | rfl <;> exact ⟨_, rfl⟩

/-! ### Encodings without a form: behind F3h (R118, R236) -/

theorem decodeRep_misplaced_modRM {c : Byte}
    (h : c ∈ [0x88#8, 0x89#8, 0x8A#8, 0x8B#8, 0x8C#8, 0x8E#8, 0xC6#8, 0xC7#8]) (a : Attr) (b : Byte) (t : List Byte) :
    decodeRep a (c :: b :: t) = .error (.refuse .misplacedRep) := by
  simp only [List.mem_cons, List.not_mem_nil, or_false] at h
  rcases h with rfl | rfl | rfl | rfl | rfl | rfl | rfl | rfl <;> rfl

theorem decodeRep_misplaced_twoByte {c : Byte}
    (h : c ∈ [0x20#8, 0x21#8, 0x22#8, 0x23#8, 0x24#8, 0x26#8, 0xB6#8, 0xB7#8, 0xBE#8, 0xBF#8]) (a : Attr) (b : Byte) (t : List Byte) :
    decodeRep a (0x0F#8 :: c :: b :: t) = .error (.refuse .misplacedRep) :=
  if_pos (List.contains_iff_mem.2 h)

/-- The opcodes without a ModRM byte: A0 to A3 and B0 to BF. -/
abbrev NoModRM (c : Byte) : Prop := (0xA0 ≤ c.toNat ∧ c.toNat ≤ 0xA3) ∨ (0xB0 ≤ c.toNat ∧ c.toNat ≤ 0xBF)

theorem decodeRep_misplaced_noModRM {c : Byte} (h : NoModRM c) (a : Attr) (t : List Byte) :
    prefixByte c = none ∧ decodeRep a (c :: t) = .error (.refuse .misplacedRep) := by
  have hall : ∀ c, NoModRM c → prefixByte c = none ∧ c ∉ [0xA4#8, 0xA5#8]
        ∧ [0x88#8, 0x89#8, 0x8A#8, 0x8B#8, 0x8C#8, Config.opcMovSregRm, 0xC6#8, 0xC7#8].contains c = false
        ∧ ([0xA0#8, 0xA1#8, 0xA2#8, 0xA3#8].contains c || c.extractLsb' 4 4 == 0xB#4) = true := by decide
  obtain ⟨hp, hM, hmodRM, hin⟩ := hall c h
  simp only [List.mem_cons, List.not_mem_nil, or_false, not_or] at hM
  refine ⟨hp, ?_⟩
  simp only [decodeRep, readByte, except_ok_bind, hM, if_false, decodeRepRefused, hmodRM, Bool.false_eq_true, hin, if_true]

/-! ### Encodings without a form: without F3h (R110, R115, R118, R178, R211, R213, R264, R274) -/

/-- The special-register numbers that the source does not name, by the second opcode byte (R107, R211). -/
abbrev UnnamedSpecial (c : Byte) (n : BitVec 3) : Prop :=
  c ∈ [0x20#8, 0x22#8] ∧ n ∉ [0#3, 2#3, 3#3] ∨ c ∈ [0x21#8, 0x23#8] ∧ n ∈ [4#3, 5#3] ∨ c ∈ [0x24#8, 0x26#8] ∧ n ∉ [6#3, 7#3]

/-- The opcodes 0F 20 to 0F 26 in scope have the special-register format, and make no term of an unnamed number (R117, R200). -/
theorem decodeOpcode_special {c : Byte} (h : c ∈ [0x20#8, 0x21#8, 0x22#8, 0x23#8, 0x24#8, 0x26#8]) (a : Attr) :
    ∃ make, (∀ t, decodeOpcode a (0x0F#8 :: c :: t) = decodeSpecial make t) ∧ ∀ n r, UnnamedSpecial c n → make n r = none := by
  have hctrl : ∀ c ∈ [0x20#8, 0x22#8], ∀ n, UnnamedSpecial c n → CtrlReg.ofNum n = none := by decide
  have hdebug : ∀ c ∈ [0x21#8, 0x23#8], ∀ n, UnnamedSpecial c n → BreakReg.ofNum n = none ∧ DebugReg.ofNum n = none := by decide
  have htest : ∀ c ∈ [0x24#8, 0x26#8], ∀ n, UnnamedSpecial c n → TestReg.ofNum n = none := by decide
  simp only [List.mem_cons, List.not_mem_nil, or_false] at h
  rcases h with rfl | rfl | rfl | rfl | rfl | rfl
  · exact ⟨fun n g => (CtrlReg.ofNum n).map fun k => .movR32Cr a g k, fun _ => rfl, fun n r h => by
      simp only [hctrl _ (by decide) n h, Option.map_none]⟩
  · exact ⟨fromDebug a, fun _ => rfl, fun n r h => by
      simp only [fromDebug, hdebug _ (by decide) n h, Option.map_none]⟩
  · exact ⟨fun n g => (CtrlReg.ofNum n).map fun k => .movCrR32 a k g, fun _ => rfl, fun n r h => by
      simp only [hctrl _ (by decide) n h, Option.map_none]⟩
  · exact ⟨toDebug a, fun _ => rfl, fun n r h => by
      simp only [toDebug, hdebug _ (by decide) n h, Option.map_none]⟩
  · exact ⟨fun n g => (TestReg.ofNum n).map fun k => .movR32Tr a g k, fun _ => rfl, fun n r h => by
      simp only [htest _ (by decide) n h, Option.map_none]⟩
  · exact ⟨fun n g => (TestReg.ofNum n).map fun k => .movTrR32 a k g, fun _ => rfl, fun n r h => by
      simp only [htest _ (by decide) n h, Option.map_none]⟩

theorem decodeOpcode_special_mod {c b : Byte} (h : c ∈ [0x20#8, 0x21#8, 0x22#8, 0x23#8, 0x24#8, 0x26#8])
    (hm : modField b ≠ 3#2) (a : Attr) (t : List Byte) :
    decodeOpcode a (0x0F#8 :: c :: b :: t) = .error (.refuse .modNotEleven) := by
  obtain ⟨make, hfmt, -⟩ := decodeOpcode_special h a
  rw [hfmt]
  exact decodeSpecial_of_mod hm

theorem decodeOpcode_special_reg {c b : Byte} (hm : modField b = 3#2) (h : UnnamedSpecial c (regField b)) (a : Attr)
    (t : List Byte) : decodeOpcode a (0x0F#8 :: c :: b :: t) = .error (.refuse .specialRegister) := by
  have hc : c ∈ [0x20#8, 0x21#8, 0x22#8, 0x23#8, 0x24#8, 0x26#8] := by
    rcases h with ⟨h, -⟩ | ⟨h, -⟩ | ⟨h, -⟩ <;> revert c <;> decide
  obtain ⟨make, hfmt, hnone⟩ := decodeOpcode_special hc a
  rw [hfmt]
  exact decodeSpecial_of_none hm (hnone _ _ h)

/-- The opcodes C6 and C7 have the format with an immediate (R115, R117). -/
theorem decodeOpcode_rmImm {c : Byte} (h : c ∈ [0xC6#8, 0xC7#8]) (a : Attr) :
    ∃ (R : Type) (ofNum : BitVec 3 → R) (make : Rm R → List Byte → Except DecodeStop (Instr × List Byte)),
      ∀ t, decodeOpcode a (c :: t) = decodeRmImm ofNum a make t := by
  simp only [List.mem_cons, List.not_mem_nil, or_false] at h
  rcases h with rfl | rfl
  · exact ⟨_, Reg8.ofNum, fun o r => readByte r >>= fun x => .ok (.movRm8Imm8 a o x.1, x.2), fun _ => rfl⟩
  · cases hz : a.opsize with
    | w16 => exact ⟨_, Reg.ofNum, fun o r => readHalf r >>= fun x => .ok (.movRm16Imm16 a o x.1, x.2), fun _ => row_w16 rfl hz⟩
    | w32 => exact ⟨_, Reg.ofNum, fun o r => readWord r >>= fun x => .ok (.movRm32Imm32 a o x.1, x.2), fun _ => row_w32 rfl hz⟩

/-- MUL has the digit 100, and what has another digit is outside (R115, R119). -/
theorem decodeOpcode_mul {c : Byte} (h : c ∈ [0xF6#8, 0xF7#8]) (a : Attr) :
    ∃ (R : Type) (ofNum : BitVec 3 → R) (make : Rm R → Instr),
      ∀ t, decodeOpcode a (c :: t) = decodeDigitRm ofNum a 4#3 .opcodeOutside make t := by
  simp only [List.mem_cons, List.not_mem_nil, or_false] at h
  rcases h with rfl | rfl
  · exact ⟨_, Reg8.ofNum, .mulRm8 a, fun _ => rfl⟩
  · cases hz : a.opsize with
    | w16 => exact ⟨_, Reg.ofNum, .mulRm16 a, fun _ => row_w16 rfl hz⟩
    | w32 => exact ⟨_, Reg.ofNum, .mulRm32 a, fun _ => row_w32 rfl hz⟩

/-- The opcodes whose `r/m` operand goes with a register in reg (R117). -/
theorem decodeOpcode_regRm {c : Byte} (h : c ∈ [0x88#8, 0x89#8, 0x8A#8, 0x8B#8]) (a : Attr) :
    ∃ (R : Type) (ofNum : BitVec 3 → R) (make : BitVec 3 → Rm R → Instr),
      ∀ t, decodeOpcode a (c :: t) = decodeRegRm ofNum a make t := by
  simp only [List.mem_cons, List.not_mem_nil, or_false] at h
  rcases h with rfl | rfl | rfl | rfl
  · exact ⟨_, Reg8.ofNum, fun n o => .movRm8R8 a o (Reg8.ofNum n), fun _ => rfl⟩
  · cases hz : a.opsize with
    | w16 => exact ⟨_, Reg.ofNum, fun n o => .movRm16R16 a o (Reg.ofNum n), fun _ => row_w16 rfl hz⟩
    | w32 => exact ⟨_, Reg.ofNum, fun n o => .movRm32R32 a o (Reg.ofNum n), fun _ => row_w32 rfl hz⟩
  · exact ⟨_, Reg8.ofNum, fun n o => .movR8Rm8 a (Reg8.ofNum n) o, fun _ => rfl⟩
  · cases hz : a.opsize with
    | w16 => exact ⟨_, Reg.ofNum, fun n o => .movR16Rm16 a (Reg.ofNum n) o, fun _ => row_w16 rfl hz⟩
    | w32 => exact ⟨_, Reg.ofNum, fun n o => .movR32Rm32 a (Reg.ofNum n) o, fun _ => row_w32 rfl hz⟩

/-- The two-byte opcodes of MOVSX and MOVZX, those with a word source where the operand size is 32 (R117, R264, R274). -/
theorem decodeOpcode_extend {c : Byte} {a : Attr} (h : c ∈ [0xBE#8, 0xB6#8] ∨ (c ∈ [0xBF#8, 0xB7#8] ∧ a.opsize = .w32)) :
    ∃ (R : Type) (ofNum : BitVec 3 → R) (make : BitVec 3 → Rm R → Instr),
      ∀ t, decodeOpcode a (0x0F#8 :: c :: t) = decodeRegRm ofNum a make t := by
  simp only [List.mem_cons, List.not_mem_nil, or_false] at h
  rcases h with (rfl | rfl) | ⟨rfl | rfl, hz⟩
  · cases hz : a.opsize with
    | w16 => exact ⟨_, Reg8.ofNum, fun n o => .movsxR16Rm8 a (Reg.ofNum n) o, fun _ => row_w16 rfl hz⟩
    | w32 => exact ⟨_, Reg8.ofNum, fun n o => .movsxR32Rm8 a (Reg.ofNum n) o, fun _ => row_w32 rfl hz⟩
  · cases hz : a.opsize with
    | w16 => exact ⟨_, Reg8.ofNum, fun n o => .movzxR16Rm8 a (Reg.ofNum n) o, fun _ => row_w16 rfl hz⟩
    | w32 => exact ⟨_, Reg8.ofNum, fun n o => .movzxR32Rm8 a (Reg.ofNum n) o, fun _ => row_w32 rfl hz⟩
  · exact ⟨_, Reg.ofNum, fun n o => .movsxR32Rm16 a (Reg.ofNum n) o, fun _ => row_w32 rfl hz⟩
  · exact ⟨_, Reg.ofNum, fun n o => .movzxR32Rm16 a (Reg.ofNum n) o, fun _ => row_w32 rfl hz⟩

section
variable {a : Attr} {b c : Byte} {t : List Byte} {e : DecodeStop}

/-- Under every one-byte opcode with an `r/m` operand, where nothing in the ModRM byte is refused, a stop in the operand is the
instruction's. -/
theorem decodeOpcode_of_readRm (hrm : ∀ {R : Type} (ofNum : BitVec 3 → R), readRm ofNum a.adsize b t = .error e)
    (h : c ∈ [0x88#8, 0x89#8, 0x8A#8, 0x8B#8] ∨ (c = 0x8C#8 ∧ regField b ∉ [6#3, 7#3])
      ∨ (c = 0x8E#8 ∧ regField b ∉ [1#3, 6#3, 7#3]) ∨ (c ∈ [0xC6#8, 0xC7#8] ∧ regField b = 0#3)
      ∨ (c ∈ [0xF6#8, 0xF7#8] ∧ regField b = 4#3)) : decodeOpcode a (c :: b :: t) = .error e := by
  rcases h with hc | ⟨rfl, hr⟩ | ⟨rfl, hr⟩ | ⟨hc, hr⟩ | ⟨hc, hr⟩
  · obtain ⟨R, ofNum, make, hfmt⟩ := decodeOpcode_regRm hc a
    rw [hfmt]
    exact decodeRegRm_of_readRm (hrm ofNum)
  · exact decodeFromSreg_of_readRm hr (hrm _)
  · exact decodeToSreg_of_readRm hr (hrm _)
  · obtain ⟨R, ofNum, make, hfmt⟩ := decodeOpcode_rmImm hc a
    rw [hfmt]
    exact decodeRmImm_of_readRm hr (hrm ofNum)
  · obtain ⟨R, ofNum, make, hfmt⟩ := decodeOpcode_mul hc a
    rw [hfmt]
    exact decodeDigitRm_of_readRm hr (hrm ofNum)

theorem decodeOpcode_extend_of_readRm (hrm : ∀ {R : Type} (ofNum : BitVec 3 → R), readRm ofNum a.adsize b t = .error e)
    (h : c ∈ [0xBE#8, 0xB6#8] ∨ (c ∈ [0xBF#8, 0xB7#8] ∧ a.opsize = .w32)) :
    decodeOpcode a (0x0F#8 :: c :: b :: t) = .error e := by
  obtain ⟨R, ofNum, make, hfmt⟩ := decodeOpcode_extend h
  rw [hfmt]
  exact decodeRegRm_of_readRm (hrm ofNum)

end

/-! ### Encodings without a form, behind any admitted prefix bytes -/

section
variable {d : Size} {a : Attr} {ps : List Byte} (rest : List Byte) (b c : Byte)

/-- A prefix byte more (R101, R118). -/
theorem prefixes_refused {rep : Bool} (hp : ps.Perm (encodePrefixes d a rep)) :
    decode d (ps ++ 0xF0#8 :: rest) = .error (.refuse .lock)
      ∧ decode d (ps ++ 0xF2#8 :: rest) = .error (.refuse .repne)
      ∧ (a.opsize ≠ d → decode d (ps ++ 0x66#8 :: rest) = .error (.refuse .repeatedKind))
      ∧ (a.adsize ≠ d → decode d (ps ++ 0x67#8 :: rest) = .error (.refuse .repeatedKind))
      ∧ (a.seg.isSome = true → b ∈ [0x26#8, 0x2E#8, 0x36#8, 0x3E#8, 0x64#8, 0x65#8] →
        decode d (ps ++ b :: rest) = .error (.refuse .repeatedKind)) := by
  refine ⟨decode_of_perm_refused hp rest rfl rfl, decode_of_perm_refused hp rest rfl rfl, fun h => ?_, fun h => ?_, fun h hb => ?_⟩
  · exact decode_of_perm_refused hp rest rfl (if_pos (decide_eq_true h))
  · exact decode_of_perm_refused hp rest rfl (if_pos (decide_eq_true h))
  · obtain ⟨g, hg⟩ := prefixByte_override hb
    exact decode_of_perm_refused hp rest hg (if_pos h)

/-- F3h before what is no REP MOVS (R118, R236). -/
theorem rep_refused (hp : ps.Perm (encodePrefixes d a true)) :
    decode d (ps ++ 0xF3#8 :: rest) = .error (.refuse .repeatedKind)
      ∧ (c ∈ [0x88#8, 0x89#8, 0x8A#8, 0x8B#8, 0x8C#8, 0x8E#8, 0xC6#8, 0xC7#8] ∨ (c ∈ [0xF6#8, 0xF7#8] ∧ regField b = 4#3) →
        decode d (ps ++ c :: b :: rest) = .error (.refuse .misplacedRep))
      ∧ ((0xA0 ≤ c.toNat ∧ c.toNat ≤ 0xA3) ∨ (0xB0 ≤ c.toNat ∧ c.toNat ≤ 0xBF) →
        decode d (ps ++ c :: rest) = .error (.refuse .misplacedRep))
      ∧ (c ∈ [0x20#8, 0x21#8, 0x22#8, 0x23#8, 0x24#8, 0x26#8, 0xB6#8, 0xB7#8, 0xBE#8, 0xBF#8] →
        decode d (ps ++ 0x0F#8 :: c :: b :: rest) = .error (.refuse .misplacedRep)) := by
  refine ⟨decode_of_perm_refused hp rest rfl rfl, fun hc => ?_, fun hc => ?_, fun hc => ?_⟩
  · rcases hc with hc | ⟨hc, hr⟩
    · exact decode_error_of_decodeRep hp (prefixByte_rmOpcode c (List.mem_append_left _ hc)) (decodeRep_misplaced_modRM hc a b rest)
    · refine decode_error_of_decodeRep hp (prefixByte_rmOpcode c (List.mem_append_right _ hc)) ?_
      rw [decodeRep_mul hc, if_pos hr]
  · obtain ⟨hnone, hrep⟩ := decodeRep_misplaced_noModRM hc a rest
    exact decode_error_of_decodeRep hp hnone hrep
  · exact decode_error_of_decodeRep hp rfl (decodeRep_misplaced_twoByte hc a b rest)

/-- The fields of the ModRM byte, and the operand size where the source is a word (R115, R178, R211, R213, R264, R274). -/
theorem modRM_refused (hp : ps.Perm (encodePrefixes d a false)) :
    (regField b = 1#3 → decode d (ps ++ 0x8E#8 :: b :: rest) = .error (.refuse .csDestination))
      ∧ (regField b = 6#3 ∨ regField b = 7#3 →
        decode d (ps ++ 0x8E#8 :: b :: rest) = .error (.refuse .segmentRegister)
          ∧ decode d (ps ++ 0x8C#8 :: b :: rest) = .error (.refuse .segmentRegister))
      ∧ (regField b ≠ 0#3 → decode d (ps ++ 0xC6#8 :: b :: rest) = .error (.refuse .reservedDigit)
          ∧ decode d (ps ++ 0xC7#8 :: b :: rest) = .error (.refuse .reservedDigit))
      ∧ (c ∈ [0x20#8, 0x21#8, 0x22#8, 0x23#8, 0x24#8, 0x26#8] → modField b ≠ 3#2 →
          decode d (ps ++ 0x0F#8 :: c :: b :: rest) = .error (.refuse .modNotEleven))
      ∧ (modField b = 3#2 → UnnamedSpecial c (regField b) →
          decode d (ps ++ 0x0F#8 :: c :: b :: rest) = .error (.refuse .specialRegister))
      ∧ (a.opsize = .w16 → decode d (ps ++ 0x0F#8 :: 0xBF#8 :: b :: rest) = .error (.refuse .wordSourceWordSize)
          ∧ decode d (ps ++ 0x0F#8 :: 0xB7#8 :: b :: rest) = .error (.refuse .wordSourceWordSize)) := by
  have hdigit (op : Byte) (hop : op ∈ [0xC6#8, 0xC7#8]) (h : regField b ≠ 0#3) :
      decodeOpcode a (op :: b :: rest) = .error (.refuse .reservedDigit) := by
    obtain ⟨R, ofNum, make, hfmt⟩ := decodeOpcode_rmImm hop a
    rw [hfmt]
    exact decodeRmImm_of_ne h
  refine ⟨fun h => ?_, fun h => ⟨?_, ?_⟩, fun h => ⟨?_, ?_⟩, fun hc h => ?_, fun hm h => ?_, fun h => ⟨?_, ?_⟩⟩
  · exact decode_error_of_decodeOpcode hp rfl (decodeToSreg_of_error (by rw [h]; rfl))
  · exact decode_error_of_decodeOpcode hp rfl (decodeToSreg_of_error (by rcases h with h | h <;> rw [h] <;> rfl))
  · exact decode_error_of_decodeOpcode hp rfl (decodeFromSreg_of_none (by rcases h with h | h <;> rw [h] <;> rfl))
  · exact decode_error_of_decodeOpcode hp rfl (hdigit _ (by decide) h)
  · exact decode_error_of_decodeOpcode hp rfl (hdigit _ (by decide) h)
  · exact decode_error_of_decodeOpcode hp rfl (decodeOpcode_special_mod hc h a rest)
  · exact decode_error_of_decodeOpcode hp rfl (decodeOpcode_special_reg hm h a rest)
  · exact decode_error_of_decodeOpcode hp rfl (row_w16 rfl h)
  · exact decode_error_of_decodeOpcode hp rfl (row_w16 rfl h)

/-- A SIB byte without index and with a scale (R110, D27). -/
theorem sib_refused (hp : ps.Perm (encodePrefixes d a false)) (sib : Byte) (hz : a.adsize = .w32) (hm : modField b ≠ 3#2)
    (hb : rmField b = 4#3) (hi : regField sib = 4#3) (hs : modField sib ≠ 0#2) :
    (c ∈ [0x88#8, 0x89#8, 0x8A#8, 0x8B#8] ∨ (c = 0x8C#8 ∧ regField b ∉ [6#3, 7#3])
        ∨ (c = 0x8E#8 ∧ regField b ∉ [1#3, 6#3, 7#3]) ∨ (c ∈ [0xC6#8, 0xC7#8] ∧ regField b = 0#3)
        ∨ (c ∈ [0xF6#8, 0xF7#8] ∧ regField b = 4#3) →
      decode d (ps ++ c :: b :: sib :: rest) = .error (.refuse .scaledNoIndex))
    ∧ (c ∈ [0xBE#8, 0xB6#8] ∨ (c ∈ [0xBF#8, 0xB7#8] ∧ a.opsize = .w32) →
      decode d (ps ++ 0x0F#8 :: c :: b :: sib :: rest) = .error (.refuse .scaledNoIndex)) := by
  have hrm {R : Type} (ofNum : BitVec 3 → R) : readRm ofNum a.adsize b (sib :: rest) = .error (.refuse .scaledNoIndex) := by
    rw [hz]
    exact readRm_scaledNoIndex ofNum rest hm hb hi hs
  refine ⟨fun h => ?_, fun h => decode_error_of_decodeOpcode hp rfl (decodeOpcode_extend_of_readRm hrm h)⟩
  have hc : c ∈ [0x88#8, 0x89#8, 0x8A#8, 0x8B#8, 0x8C#8, 0x8E#8, 0xC6#8, 0xC7#8] ++ [0xF6#8, 0xF7#8] := by
    rcases h with h | ⟨h, -⟩ | ⟨h, -⟩ | ⟨h, -⟩ | ⟨h, -⟩ <;> revert c <;> decide
  exact decode_error_of_decodeOpcode hp (prefixByte_rmOpcode c hc) (decodeOpcode_of_readRm hrm h)

end

/-- Settles O7: a prefix byte more, F3h before another form, the ModRM byte, the SIB byte. -/
theorem formlessEncodingsAreRefused : Obligations.FormlessEncodingsAreRefused := by
  unfold Obligations.FormlessEncodingsAreRefused
  intro d a rep ps rest b c hp
  refine ⟨prefixes_refused rest b hp, ?_, ?_⟩
  · rintro rfl
    exact rep_refused rest b c hp
  · rintro rfl
    obtain ⟨hcs, hseg, hdigit, hmod, hreg, hword⟩ := modRM_refused rest b c hp
    exact ⟨hcs, hseg, hdigit, hmod, hreg, hword, sib_refused rest b c hp⟩

end Sys2Proof
end

section
/-!
MOV between registers, memory and immediates (40_mov.md R152 to R157, R160 to R171): each form is one read or one write of an
operand, and where that succeeds the instruction completes.
-/

namespace Sys2Proof.Machine

/-- Where the body of an instruction succeeds and leaves pc, the instruction completes with the latch clear (R24, R37). -/
theorem retire_of_ok {i : Instr} {s t : State} {r : Except Stop State} (h : r = .ok t) (hp : t.pc = s.pc) :
    retire i s r = .next (t.past s i) := by
  rw [h, retire, retireWith_ok, advance_eq_past i hp]

/-- The same where the body reads an operand and then writes its value. -/
theorem retire_of_read {α : Type} {i : Instr} {s : State} {x : Except Stop α} {v : α} (f : α → State) (h : x = .ok v)
    (hp : (f v).pc = s.pc) : retire i s (x >>= fun y => .ok (f y)) = .next ((f v).past s i) :=
  retire_of_ok (by rw [h, except_ok_bind]) hp

section
variable {a : Attr} {s t : State}

/-! ### A write of an operand leaves pc (R24) -/

theorem rmSet8_pc {o : Rm Reg8} {v : BitVec 8} (h : s.rmSet8 a o v t) : t.pc = s.pc := by
  cases o with
  | reg r => cases h; rfl
  | mem m => obtain ⟨_, _, rfl⟩ := h; rfl

theorem rmSet16_pc {o : Rm Reg} {v : BitVec 16} (h : s.rmSet16 a o v t) : t.pc = s.pc := by
  cases o with
  | reg r => cases h; rfl
  | mem m => obtain ⟨_, _, rfl⟩ := h; rfl

theorem rmSet32_pc {o : Rm Reg} {v : BitVec 32} (h : s.rmSet32 a o v t) : t.pc = s.pc := by
  cases o with
  | reg r => cases h; rfl
  | mem m => obtain ⟨_, _, rfl⟩ := h; rfl

/-! ### An instruction that is one write of an operand -/

theorem retire_writeRm8 {i : Instr} {o : Rm Reg8} {v : BitVec 8} (h : s.rmSet8 a o v t) :
    retire i s (writeRm8 a s v o) = .next (t.past s i) := retire_of_ok (writeRm8_of_rmSet h) (rmSet8_pc h)

theorem retire_writeRm16 {i : Instr} {o : Rm Reg} {v : BitVec 16} (h : s.rmSet16 a o v t) :
    retire i s (writeRm16 a s v o) = .next (t.past s i) := retire_of_ok (writeRm16_of_rmSet h) (rmSet16_pc h)

theorem retire_writeRm32 {i : Instr} {o : Rm Reg} {v : BitVec 32} (h : s.rmSet32 a o v t) :
    retire i s (writeRm32 a s v o) = .next (t.past s i) := retire_of_ok (writeRm32_of_rmSet h) (rmSet32_pc h)

end

/-! ### The statements -/

/-- Settles O15: at each width the instruction is one write of the register's value. -/
theorem movStoresRegister : Obligations.MovStoresRegister := by
  unfold Obligations.MovStoresRegister
  exact fun a s t => ⟨fun dst src h => retire_writeRm8 h, fun dst src h => retire_writeRm16 h,
    fun dst src h => retire_writeRm32 h⟩

/-- Settles O20: at each width the instruction is one write of the immediate. -/
theorem movImmediateToOperand : Obligations.MovImmediateToOperand := by
  unfold Obligations.MovImmediateToOperand
  exact fun a s t => ⟨fun dst imm h => retire_writeRm8 h, fun dst imm h => retire_writeRm16 h,
    fun dst imm h => retire_writeRm32 h⟩

/-- Settles O16: at each width the operand is read and its value goes to the register. -/
theorem movLoadsOperand : Obligations.MovLoadsOperand := by
  unfold Obligations.MovLoadsOperand
  exact fun a s => ⟨fun dst src v h => retire_of_read (s.setReg8 dst) (readRm8_of_rmIs h) rfl,
    fun dst src v h => retire_of_read (s.setReg16 dst) (readRm16_of_rmIs h) rfl,
    fun dst src v h => retire_of_read (s.setReg dst) (readRm32_of_rmIs h) rfl⟩

/-- Settles O17: at each width the datum is read through DS or the override and goes to the accumulator. -/
theorem moffsLoadsAccumulator : Obligations.MoffsLoadsAccumulator := by
  unfold Obligations.MoffsLoadsAccumulator
  exact fun a off s => ⟨fun v h => retire_of_read (s.setReg8 .al) (segRead8_of_reads h) rfl,
    fun v h => retire_of_read (s.setReg16 .eax) (segRead16_of_reads h) rfl,
    fun v h => retire_of_read (s.setReg .eax) (segRead32_of_reads h) rfl⟩

/-- Settles O18: at each width the accumulator is written through DS or the override. -/
theorem moffsStoresAccumulator : Obligations.MoffsStoresAccumulator := by
  unfold Obligations.MoffsStoresAccumulator
  exact fun a off s m => ⟨fun h => retire_of_ok (segWrite8_of_stores h) rfl,
    fun h => retire_of_ok (segWrite16_of_stores h) rfl, fun h => retire_of_ok (segWrite32_of_stores h) rfl⟩

/-- Settles O19: the body is a register write, which nothing stops. -/
theorem movImmediateToRegister : Obligations.MovImmediateToRegister := by
  unfold Obligations.MovImmediateToRegister
  exact fun a s => ⟨fun dst imm => retire_of_ok (t := s.setReg8 dst imm) rfl rfl,
    fun dst imm => retire_of_ok (t := s.setReg16 dst imm) rfl rfl, fun dst imm => retire_of_ok (t := s.setReg dst imm) rfl rfl⟩

end Sys2Proof.Machine
end

section
/-!
MOV to and from the segment registers (40_mov.md R158, R159, R172 to R179; 20_memory.md R81): the store of a selector, and the
load of a segment register in each mode, its checks in the listing's order, and the page fault of the Accessed bit.
-/

namespace Sys2Proof.Machine

/-- Settles O21: a store of the selector to memory, to a word register, or below the drawn half of a doubleword register. -/
theorem movFromSegmentRegister : Obligations.MovFromSegmentRegister := by
  unfold Obligations.MovFromSegmentRegister
  intro a src s
  refine ⟨fun dm m h => ?_, fun r hz => ?_, fun r hz => ?_⟩
  · exact retire_of_ok (segWrite16_of_stores h) rfl
  · obtain ⟨z, _, _⟩ := a
    obtain rfl : z = .w16 := hz
    exact retire_of_ok rfl rfl
  · obtain ⟨z, _, _⟩ := a
    obtain rfl : z = .w32 := hz
    exact retire_of_ok rfl rfl

section
variable {a : Attr} {g : SegDest} {o : Rm Reg} {sel : BitVec 16} {s t : State} {d : BitVec 64} {v : Bool}

/-! ### The instruction is the load of the selector its operand holds (R159, R172) -/

theorem movSregRm16_of_rmIs (ho : s.rmIs16 a o sel) :
    exec (.movSregRm16 a g o) s = retireWith (g == .ss) (.movSregRm16 a g o) s (loadSegment s g sel) := by
  have hbody : (readRm16 a s o >>= loadSegment s g) = loadSegment s g sel := by rw [readRm16_of_rmIs ho, except_ok_bind]
  exact congrArg (retireWith (g == .ss) (.movSregRm16 a g o) s) hbody

/-- A load that raises #GP ends the instruction so. -/
theorem movSregRm16_of_gp {c : BitVec 16} (ho : s.rmIs16 a o sel) (h : loadSegment s g sel = raise (.gp c)) :
    exec (.movSregRm16 a g o) s = gpFault c := by
  rw [movSregRm16_of_rmIs ho, h]
  rfl

/-- A load that succeeds and leaves pc completes the instruction; the latch is set for SS (R37, R177). -/
theorem movSregRm16_of_loaded (ho : s.rmIs16 a o sel) (h : loadSegment s g sel = .ok t) (hp : t.pc = s.pc) :
    exec (.movSregRm16 a g o) s = .next (t.pastLatch s (.movSregRm16 a g o) (g == .ss)) := by
  rw [movSregRm16_of_rmIs ho, h, retireWith_ok, advance_eq_pastLatch _ _ hp]

/-- With another destination than SS the latch is clear (R37). -/
theorem movSregRm16_of_loaded_of_ne (ho : s.rmIs16 a o sel) (hg : g ≠ .ss) (h : loadSegment s g sel = .ok t)
    (hp : t.pc = s.pc) : exec (.movSregRm16 a g o) s = .next (t.past s (.movSregRm16 a g o)) := by
  rw [movSregRm16_of_loaded ho h hp, beq_eq_false_iff_ne.2 hg]
  rfl

theorem selectorNull_of_lt (h : 3 < sel.toNat) : selectorNull sel = false := by
  rw [selectorNull_eq]
  exact decide_eq_false (Nat.not_le.2 h)

theorem selectorNull_of_le (h : sel.toNat ≤ 3) : selectorNull sel = true := by
  rw [selectorNull_eq]
  exact decide_eq_true h

/-! ### Outside Protected Mode, and with a null selector (R175, R176) -/

/-- The base is 16 times the selector (R176). -/
theorem realBase_eq (sel : BitVec 16) : sel.setWidth 32 <<< 4 = BitVec.ofNat 32 (16 * sel.toNat) := by
  apply BitVec.eq_of_toNat_eq
  rw [BitVec.toNat_shiftLeft, BitVec.toNat_setWidth_of_le (by decide), BitVec.toNat_ofNat, Nat.shiftLeft_eq, Nat.mul_comm]

theorem loadSegment_of_ne_prot (hm : s.mode ≠ .prot) : loadSegment s g sel = .ok (loadRealSegment s g sel) := by
  unfold loadSegment
  cases h : s.mode with
  | prot => exact absurd h hm
  | real | v86 => rfl

theorem loadSegment_null (hm : s.mode = .prot) (hg : g ≠ .ss) (hn : sel.toNat ≤ 3) :
    loadSegment s g sel = .ok (loadNullSegment s g sel) := by
  simp only [loadSegment, hm, if_neg hg, selectorNull_of_le hn, if_true]

theorem loadSegment_ss_null (hm : s.mode = .prot) (hn : sel.toNat ≤ 3) : loadSegment s .ss sel = raise (.gp 0#16) := by
  simp only [loadSegment, hm, loadStackSegment, selectorNull_of_le hn, if_true]

/-- A selector whose entry is not in its table raises #GP(selector), whichever register is loaded (R81, R173, R174). -/
theorem loadSegment_of_not_inTable (hm : s.mode = .prot) (hn : 3 < sel.toNat) (ht : ¬s.inTable sel) :
    loadSegment s g sel = raise (.gp (selectorCode sel)) :=
  loadSegment_of_readDescriptor_error hm (selectorNull_of_lt hn) (if_neg (mt (indexInTable_iff ..).1 ht))

/-! ### The checks on a descriptor, in the bits of the descriptor (R31, R173, R174) -/

/-- What the load of SS does with a descriptor it has read (R173). -/
def stackChecked (s : State) (sel : BitVec 16) (d : BitVec 64) : Except Stop State :=
  if sel.extractLsb' 0 2 ≠ s.cpl then raise (.gp (selectorCode sel))
  else if ¬(d.getLsbD 44 = true ∧ d.getLsbD 43 = false ∧ d.getLsbD 41 = true) then raise (.gp (selectorCode sel))
  else if d.extractLsb' 45 2 ≠ s.cpl then raise (.gp (selectorCode sel))
  else if d.getLsbD 47 = false then raise (.ss (selectorCode sel))
  else commitLoad s .ss sel d

/-- What the load of DS, ES, FS or GS does with a descriptor it has read (R174). -/
def dataChecked (s : State) (g : SegDest) (sel : BitVec 16) (d : BitVec 64) : Except Stop State :=
  if ¬(d.getLsbD 44 = true ∧ (d.getLsbD 43 = false ∨ d.getLsbD 41 = true)) then raise (.gp (selectorCode sel))
  else if (d.getLsbD 43 = false ∨ d.getLsbD 42 = false)
      ∧ ¬((sel.extractLsb' 0 2).toNat ≤ (d.extractLsb' 45 2).toNat ∧ s.cpl.toNat ≤ (d.extractLsb' 45 2).toNat) then
    raise (.gp (selectorCode sel))
  else if d.getLsbD 47 = false then raise (.np (selectorCode sel))
  else commitLoad s g sel d

theorem loadSegment_ss_eq (hm : s.mode = .prot) (hn : 3 < sel.toNat) :
    loadSegment s .ss sel = readDescriptor s sel >>= stackChecked s sel := by
  simp only [loadSegment, hm, if_true, loadStackSegment, selectorNull_of_lt hn, Bool.false_eq_true, if_false]
  congr 1
  funext d
  obtain ⟨hs, hcode, _, hw, hp, hdpl⟩ := descriptorAr_bits d
  simp only [stackChecked, arWritableData, selectorRpl, hs, hcode, hw, hp, hdpl, Bool.not_eq_true', Bool.and_eq_true,
    ← Bool.not_eq_true, and_assoc]

theorem loadSegment_data_eq (hm : s.mode = .prot) (hg : g ≠ .ss) (hn : 3 < sel.toNat) :
    loadSegment s g sel = readDescriptor s sel >>= dataChecked s g sel := by
  simp only [loadSegment, hm, if_neg hg, selectorNull_of_lt hn, Bool.false_eq_true, if_false, loadDataSegment]
  congr 1
  funext d
  obtain ⟨hs, hcode, hconf, hw, hp, hdpl⟩ := descriptorAr_bits d
  simp only [dataChecked, arDataOrReadableCode, arDataOrNonconforming, selectorRpl, hs, hcode, hconf, hw, hp, hdpl,
    BitVec.le_def, Bool.not_eq_true', Bool.and_eq_true, Bool.or_eq_true, ← Bool.not_eq_true]

/-! ### The page fault of the Accessed bit (R70, R81; log 31) -/

theorem firstMissing_zero_iff {w u : Bool} {lin : Word} : s.firstMissing v w u lin 0 ↔ s.misses v w u lin := by
  rw [State.firstMissing, BitVec.add_zero]
  exact ⟨And.right, fun h => ⟨⟨[], rfl, trivial⟩, h⟩⟩

/-- After the checks a load page-faults exactly where the Accessed bit is 0 and its page is missing for the write. -/
theorem commitLoad_eq_miss_iff : commitLoad s g sel d = .error (missStop v true false (s.entryAt sel + 5#32))
    ↔ d.getLsbD 40 = false ∧ s.misses v true false (s.entryAt sel + 5#32) := by
  cases hd : d.getLsbD 40 with
  | true =>
    have hset : s.accessedSet sel d s.mem := by rw [State.accessedSet, if_pos hd]
    simp [commitLoad_of_accessedSet hset]
  | false =>
    have hwrite := linWrite_eq_miss_iff (s := s) (w := 8) (k := 0) (lin := s.entryAt sel + 5#32) (v := v) (u := false)
      (x := descriptorAr d ||| 0x01#8) (by decide) (by decide)
    rw [BitVec.add_zero, firstMissing_zero_iff] at hwrite
    simp only [commitLoad, Config.setAccessed, hd, Bool.true_and, Bool.not_false, if_true, entryAddress_eq, except_bind_error,
      hwrite, reduceCtorEq, and_false, exists_false, or_false, true_and]

theorem raise_ne_miss {α : Type} {x : Exception} {w u : Bool} {lin : Word} (h : x.linear = none) :
    (raise x : Except Stop α) ≠ .error (missStop v w u lin) := by
  simp [raise, missStop, h]

/-- A check that fails raises no page fault. -/
theorem raise_eq_miss_iff {α : Type} {x : Exception} {w u : Bool} {lin : Word} {p q : Prop} (hx : x.linear = none) (hp : ¬p) :
    (raise x : Except Stop α) = .error (missStop v w u lin) ↔ p ∧ q :=
  ⟨fun h => absurd h (raise_ne_miss hx), fun h => absurd h.1 hp⟩

/-- Reading a descriptor is no write, and its page faults show it. -/
theorem readDescriptor_ne_miss_write {lin : Word} : readDescriptor s sel ≠ .error (missStop v true false lin) := by
  intro h
  rcases readDescriptor_error h with ⟨_, hgp⟩ | ⟨_, hread⟩
  · exact raise_ne_miss rfl hgp
  · rcases linRead_error hread with ⟨v', k, _, _, he⟩ | ⟨_, _, _, _, _, _, he⟩
    · obtain ⟨_, hw, _, _⟩ := missStop_inj he
      exact nomatch hw
    · exact nomatch he

/-- The load of SS page-faults where every check passes and the load itself page-faults. -/
theorem stackChecked_eq_miss_iff {lin : Word} : stackChecked s sel d = .error (missStop v true false lin)
    ↔ s.stackLoadPasses sel d ∧ commitLoad s .ss sel d = .error (missStop v true false lin) := by
  unfold stackChecked
  split
  case isTrue hrpl => exact raise_eq_miss_iff rfl fun ⟨h, _⟩ => hrpl h
  split
  case isTrue htype => exact raise_eq_miss_iff rfl fun ⟨_, h, _⟩ => htype h
  split
  case isTrue hdpl => exact raise_eq_miss_iff rfl fun ⟨_, _, h, _⟩ => hdpl h
  split
  case isTrue habsent => exact raise_eq_miss_iff rfl fun ⟨_, _, _, h⟩ => Bool.false_ne_true (habsent.symm.trans h)
  case isFalse hrpl htype hdpl hpresent =>
    exact (and_iff_right ⟨not_not.1 hrpl, not_not.1 htype, not_not.1 hdpl, Bool.eq_true_of_not_eq_false hpresent⟩).symm

/-- The load of DS, ES, FS or GS page-faults where every check passes and the load itself page-faults. -/
theorem dataChecked_eq_miss_iff {lin : Word} : dataChecked s g sel d = .error (missStop v true false lin)
    ↔ s.dataLoadPasses sel d ∧ commitLoad s g sel d = .error (missStop v true false lin) := by
  unfold dataChecked
  split
  case isTrue htype => exact raise_eq_miss_iff rfl fun ⟨h, _⟩ => htype h
  split
  case isTrue hpriv => exact raise_eq_miss_iff rfl fun ⟨_, h, _⟩ => hpriv.2 (h hpriv.1)
  split
  case isTrue habsent => exact raise_eq_miss_iff rfl fun ⟨_, _, h⟩ => Bool.false_ne_true (habsent.symm.trans h)
  case isFalse htype hpriv hpresent =>
    exact (and_iff_right ⟨not_not.1 htype, not_and_not_right.1 hpriv, Bool.eq_true_of_not_eq_false hpresent⟩).symm

/-- A load whose checks are `f` page-faults at its Accessed bit exactly where its descriptor passes them, has that bit 0, and
the page is missing for the write. -/
theorem movSregRm16_eq_pageFault_iff {f : BitVec 64 → Except Stop State} {passes : BitVec 64 → Prop} (ho : s.rmIs16 a o sel)
    (hload : loadSegment s g sel = readDescriptor s sel >>= f)
    (hf : ∀ d, f d = .error (missStop v true false (s.entryAt sel + 5#32))
      ↔ passes d ∧ commitLoad s g sel d = .error (missStop v true false (s.entryAt sel + 5#32))) :
    exec (.movSregRm16 a g o) s = pageFault v true false (s.entryAt sel + 5#32)
      ↔ ∃ d, s.descriptorIs sel d ∧ passes d ∧ d.getLsbD 40 = false ∧ s.misses v true false (s.entryAt sel + 5#32) := by
  rw [movSregRm16_of_rmIs ho, retireWith_eq_pageFault, hload, except_bind_error]
  simp only [readDescriptor_ne_miss_write, false_or, readDescriptor_ok_iff, hf, commitLoad_eq_miss_iff]

end

/-! ### The statements -/

/-- Settles O22: outside Protected Mode the load always succeeds. -/
theorem segmentLoadOutsideProtectedMode : Obligations.SegmentLoadOutsideProtectedMode := by
  unfold Obligations.SegmentLoadOutsideProtectedMode
  intro a dst src sel s hm hsrc
  rw [← realBase_eq]
  exact movSregRm16_of_loaded hsrc (loadSegment_of_ne_prot hm) rfl

/-- Settles O23: the null selector is told apart before any table is read. -/
theorem nullSelectorLoads : Obligations.NullSelectorLoads := by
  unfold Obligations.NullSelectorLoads
  intro a dst src sel s hm hsrc hn
  refine ⟨fun hg => movSregRm16_of_loaded_of_ne hsrc hg (loadSegment_null hm hg hn) rfl, ?_⟩
  rintro rfl
  exact movSregRm16_of_gp hsrc (loadSegment_ss_null hm hn)

/-- Settles O24: in both clauses the entry is not in its table. -/
theorem selectorOutsideTableFaults : Obligations.SelectorOutsideTableFaults := by
  unfold Obligations.SelectorOutsideTableFaults
  intro a dst src sel s hm hsrc hn
  have hgp (ht : ¬s.inTable sel) : exec (.movSregRm16 a dst src) s = gpFault (sel &&& 0xFFFC#16) :=
    movSregRm16_of_gp hsrc (loadSegment_of_not_inTable hm hn ht)
  refine ⟨fun hti hlim => hgp fun ⟨hglobal, _⟩ => absurd (hglobal hti) (Nat.not_le.2 hlim),
    fun hti hldt => hgp fun ⟨_, hlocal⟩ => ?_⟩
  obtain ⟨hvalid, hle⟩ := hlocal hti
  rcases hldt with hinvalid | hlim
  · exact Bool.false_ne_true (hinvalid.symm.trans hvalid)
  · exact absurd hle (Nat.not_le.2 hlim)

/-- Settles O25: the load is `stackChecked` of the descriptor it reads. -/
theorem stackSegmentLoad : Obligations.StackSegmentLoad := by
  unfold Obligations.StackSegmentLoad
  intro a src sel s hm hsrc hn
  have hload := loadSegment_ss_eq hm hn
  refine ⟨fun d m hd => ?_, fun v => movSregRm16_eq_pageFault_iff hsrc hload fun d => stackChecked_eq_miss_iff⟩
  rw [(readDescriptor_ok_iff ..).2 hd, except_ok_bind] at hload
  rw [movSregRm16_of_rmIs hsrc, hload, stackChecked]
  split
  · rfl
  split
  · rfl
  split
  · rfl
  split
  · rfl
  intro hacc
  rw [commitLoad_of_accessedSet hacc]
  rfl

/-- Settles O26: the load is `dataChecked` of the descriptor it reads. -/
theorem dataSegmentLoad : Obligations.DataSegmentLoad := by
  unfold Obligations.DataSegmentLoad
  intro a dst src sel s hm hg hsrc hn
  have hload := loadSegment_data_eq hm hg hn
  refine ⟨fun d m hd => ?_, fun v => movSregRm16_eq_pageFault_iff hsrc hload fun d => dataChecked_eq_miss_iff⟩
  rw [(readDescriptor_ok_iff ..).2 hd, except_ok_bind] at hload
  rw [movSregRm16_of_rmIs hsrc, hload, beq_eq_false_iff_ne.2 hg, dataChecked]
  split
  · rfl
  split
  · rfl
  split
  · rfl
  intro hacc
  rw [commitLoad_of_accessedSet hacc]
  rfl

end Sys2Proof.Machine
end

section
/-!
MOV to and from the special registers (41_mov_special.md R200 to R212): the privilege check comes first and is their only
exception; behind it each row is one write of a cell or of a general register, and six flags are drawn.
-/

namespace Sys2Proof.Machine

section
variable {i : Instr} {s t u : State}

/-! ### The privilege check (R201) -/

theorem not_privileged_iff : ¬s.privileged ↔ s.mode = .v86 ∨ (s.mode = .prot ∧ s.cpl ≠ 0#2) := by
  unfold State.privileged
  cases s.mode <;> simp

theorem privCheck_of_not_privileged (h : ¬s.privileged) : privCheck s = raise (.gp 0#16) := by
  unfold privCheck
  rcases not_privileged_iff.1 h with hm | ⟨hm, hcpl⟩
  · rw [hm]
  · rw [hm]
    exact if_pos hcpl

theorem retire_privCheck_of_not_privileged {f : Unit → Except Stop State} (h : ¬s.privileged) :
    retire i s (privCheck s >>= f) = gpFault 0#16 := by
  rw [privCheck_of_not_privileged h]
  rfl

theorem retire_privCheck_of_privileged {f : Unit → Except Stop State} (h : s.privileged) :
    retire i s (privCheck s >>= f) = retire i s (f ()) := by
  rw [(privCheck_ok_iff s).2 h, except_ok_bind]

/-- Each of the eight rows is the privilege check and then a part that raises no exception. -/
theorem exec_special (hi : isSpecial i = true) (s : State) :
    ∃ body : Except Stop State, exec i s = retire i s (privCheck s >>= fun _ => body) ∧ ∀ e, body ≠ .error (.fault e) := by
  cases i with
  | movR32Cr a dst src | movCrR32 a dst src | movR32Dr03 a dst src | movR32Dr67 a dst src | movDr03R32 a dst src
  | movR32Tr a dst src => exact ⟨_, rfl, fun _ => nofun⟩
  | movDr67R32 a dst src | movTrR32 a dst src =>
    refine ⟨_, rfl, fun e he => ?_⟩
    split at he <;> exact nomatch he
  | _ => exact absurd hi Bool.false_ne_true

theorem exec_special_of_not_privileged (hi : isSpecial i = true) (h : ¬s.privileged) : exec i s = gpFault 0#16 := by
  obtain ⟨body, hexec, _⟩ := exec_special hi s
  rw [hexec, retire_privCheck_of_not_privileged h]

theorem exec_special_ne_fault (hi : isSpecial i = true) (h : s.privileged) (e : Fault) : exec i s ≠ .fault e := by
  obtain ⟨body, hexec, hbody⟩ := exec_special hi s
  rw [hexec, retire_privCheck_of_privileged h]
  exact fun he => hbody e (retireWith_eq_fault.1 he)

/-! ### The six flags (R202) -/

theorem undefFlags6_eq_sixFlagsDrawn (hf : u.flags = s.flags) : undefFlags6 u = s.sixFlagsDrawn u := by
  unfold undefFlags6 State.sixFlagsDrawn
  rw [hf]

/-- A privileged row that writes `u`, which leaves pc and the flags, completes with the six flags drawn. -/
theorem retire_special_drawn (h : s.privileged) (hpc : u.pc = s.pc) (hf : u.flags = s.flags) :
    retire i s (privCheck s >>= fun _ => .ok (undefFlags6 u)) = .next (State.past (s.sixFlagsDrawn u) s i) := by
  rw [retire_privCheck_of_privileged h, undefFlags6_eq_sixFlagsDrawn hf]
  exact retire_of_ok rfl hpc

/-- The same for a row that refuses some writes. -/
theorem retire_special_drawn_unless {c : Prop} [Decidable c] {q : Refusal} (h : s.privileged) (hpc : u.pc = s.pc)
    (hf : u.flags = s.flags) :
    retire i s (privCheck s >>= fun _ => if c then .error (.refuse q) else .ok (undefFlags6 u))
      = if c then .refused q else .next (State.past (s.sixFlagsDrawn u) s i) := by
  by_cases hc : c
  · rw [retire_privCheck_of_privileged h, if_pos hc, if_pos hc]
    rfl
  · simpa only [if_neg hc] using retire_special_drawn h hpc hf

/-! ### The reads (R203, R205, R206, R209) -/

theorem testRead_defined (k : TestReg) (h : s.tlbTested = false) :
    testRead s k &&& testDefined k = s.test k &&& testDefined k := by
  rw [testRead, h, if_neg Bool.false_ne_true, withReserved_and]

/-! ### The writes (R204, R207, R208, R210, R212) -/

variable {a : Attr} {r : Reg}

theorem movCrR32_of_privileged (h : s.privileged) (c : CtrlReg) : exec (.movCrR32 a c r) s
    = .next (State.past (s.sixFlagsDrawn (s.setCtrl c (s.regs.get r))) s (.movCrR32 a c r)) :=
  retire_special_drawn h (State.setCtrl_pc ..) (State.setCtrl_flags ..)

theorem movDr03R32_of_privileged (h : s.privileged) (k : BreakReg) : exec (.movDr03R32 a k r) s
    = .next (State.past (s.sixFlagsDrawn (s.setBreakAddr k (s.regs.get r))) s (.movDr03R32 a k r)) :=
  retire_special_drawn h (State.setBreakAddr_pc ..) (State.setBreakAddr_flags ..)

theorem movDr67R32_of_privileged (h : s.privileged) (k : DebugReg) : exec (.movDr67R32 a k r) s
    = if armsBreakpoint k (s.regs.get r) then .refused .breakpointEnable
      else .next (State.past (s.sixFlagsDrawn (s.setDebug k (s.regs.get r))) s (.movDr67R32 a k r)) :=
  retire_special_drawn_unless h (State.setDebug_pc ..) (State.setDebug_flags ..)

theorem movTrR32_of_privileged (h : s.privileged) (k : TestReg) : exec (.movTrR32 a k r) s
    = if (k == .tr6 && s.pg) = true then .refused .tlbCommandWithPaging
      else .next (State.past (s.sixFlagsDrawn (s.setTest k (s.regs.get r))) s (.movTrR32 a k r)) :=
  retire_special_drawn_unless h (State.setTest_pc ..) (State.setTest_flags ..)

/-- A value of DR7 enables a breakpoint where its low byte is not 0 (R212, R320). -/
theorem armsBreakpoint_dr7_iff (v : Word) : armsBreakpoint .dr7 v = true ↔ v.toNat % 256 ≠ 0 := by
  simp [armsBreakpoint, ← BitVec.toNat_inj, BitVec.extractLsb'_toNat]

/-! ### Instructions that are none of the eight rows -/

/-- An instruction that is none of the eight rows writes no special register. -/
theorem exec_not_special (hi : isSpecial i = false) (h : exec i s = .next t) :
    ∃ r p f g l m d, t = { s with regs := r, pc := p, flags := f, segs := g, inhibit := l, mem := m, draws := d } := by
  rcases exec_shape h with ⟨_, _, _, _, _, _, _, _, rfl⟩ | ⟨_, _, _, _, _, _, _, _, rfl⟩ | ⟨_, _, _, _, _, _, rfl⟩
    | ⟨hs, _⟩
  · exact ⟨_, _, _, _, _, _, _, rfl⟩
  · exact ⟨_, _, _, _, _, _, _, rfl⟩
  · exact ⟨_, _, _, _, _, _, _, rfl⟩
  · exact absurd (hi.symm.trans hs) Bool.false_ne_true

end

/-! ### The statements -/

/-- Settles O29: each row is the privilege check and then a part that raises no exception. -/
theorem specialMovesNeedPrivilege : Obligations.SpecialMovesNeedPrivilege := by
  unfold Obligations.SpecialMovesNeedPrivilege
  intro i s hi
  exact ⟨fun hm => exec_special_of_not_privileged hi (not_privileged_iff.2 hm),
    fun e he => not_privileged_iff.1 fun hp => exec_special_ne_fault hi hp e he⟩

/-- Settles O30: the value read has the cell's bits in the defined positions, whatever the draw. -/
theorem movFromSpecialRegister : Obligations.MovFromSpecialRegister := by
  unfold Obligations.MovFromSpecialRegister
  intro a dst s hp
  have drawn (defined cell : Word) := withReserved_and defined cell (Config.anyWord s.draws)
  exact ⟨fun src => ⟨_, drawn _ _, retire_special_drawn hp rfl rfl⟩, fun src => retire_special_drawn hp rfl rfl,
    fun src => ⟨_, drawn _ _, retire_special_drawn hp rfl rfl⟩,
    fun src => ⟨_, testRead_defined src, retire_special_drawn hp rfl rfl⟩⟩

/-- Settles O31: each row writes its cell; DR7 and TR6 where the write is not refused. -/
theorem movToSpecialRegister : Obligations.MovToSpecialRegister := by
  unfold Obligations.MovToSpecialRegister
  intro a src s hp
  have hcr := movCrR32_of_privileged (a := a) (r := src) hp
  have hdr03 := movDr03R32_of_privileged (a := a) (r := src) hp
  have hdr67 := movDr67R32_of_privileged (a := a) (r := src) hp
  have htr := movTrR32_of_privileged (a := a) (r := src) hp
  refine ⟨hcr .cr0, hcr .cr2, hcr .cr3, hdr03 .dr0, hdr03 .dr1, hdr03 .dr2, hdr03 .dr3, hdr67 .dr6, fun hlow => ?_,
    fun hpg => ?_, htr .tr7⟩
  · have harms : ¬armsBreakpoint .dr7 (s.regs.get src) = true := fun h => (armsBreakpoint_dr7_iff _).1 h hlow
    exact (hdr67 .dr7).trans (if_neg harms)
  · exact (htr .tr6).trans (if_neg (by simp [hpg]))

/-- Settles O32: the two branches of the rows that refuse. -/
theorem refusedSpecialWrites : Obligations.RefusedSpecialWrites := by
  unfold Obligations.RefusedSpecialWrites
  intro a src s hp
  refine ⟨fun hlow => ?_, fun hpg => ?_⟩
  · rw [movDr67R32_of_privileged hp, if_pos ((armsBreakpoint_dr7_iff _).2 hlow)]
  · rw [movTrR32_of_privileged hp, if_pos (by simp [hpg])]

/-- Settles O35: without privilege the eight rows raise #GP(0), and no other instruction writes a special register. -/
theorem unprivilegedCodeKeepsSpecialRegisters : Obligations.UnprivilegedCodeKeepsSpecialRegisters := by
  unfold Obligations.UnprivilegedCodeKeepsSpecialRegisters
  intro i s t hp h
  have hi : isSpecial i = false := Bool.eq_false_iff.2 fun hs =>
    nomatch (exec_special_of_not_privileged hs hp).symm.trans h
  obtain ⟨_, _, _, _, _, _, _, rfl⟩ := exec_not_special hi h
  exact ⟨rfl, rfl, rfl, rfl, rfl, rfl, rfl, rfl, rfl, rfl, rfl, rfl⟩

end Sys2Proof.Machine
end

section
/-!
MOVS and REP MOVS (42_movs.md R230 to R237): one element is read and then written, the index registers advance, and an iteration
of REP MOVS counts down. A block of iterations follows by induction from what one of them leaves.
-/

namespace Sys2Proof.Machine

/-! ### Registers after an element and after a count (R230, R236) -/

section
variable {z : Size} {x : Regs} {s : State} {k : Nat} {r : Reg}

theorem sizedValue_movedIndexes_ecx : sizedValue z (movedIndexes s z k) .ecx = sizedValue z s.regs .ecx := by
  rw [movedIndexes, sizedValue_sizedSet_of_ne _ _ _ _ _ (by decide), sizedValue_sizedSet_of_ne _ _ _ _ _ (by decide)]

/-- Each index register is one element further, modulo the address size. -/
theorem sizedValue_movedIndexes (h : r = .esi ∨ r = .edi) :
    (sizedValue z (movedIndexes s z k) r : Int)
      = (sizedValue z s.regs r + moveDelta s k) % (if z = .w16 then 65536 else 4294967296) := by
  rcases h with rfl | rfl
  · rw [movedIndexes, sizedValue_sizedSet_of_ne _ _ _ _ _ (by decide), sizedValue_sizedSet]
  · rw [movedIndexes, sizedValue_sizedSet]

/-- A count that is not 0 goes down by one without a borrow. -/
theorem sizedValue_countDown (h : sizedValue z x .ecx ≠ 0) :
    sizedValue z (countDown z x) .ecx = sizedValue z x .ecx - 1 := by
  have hlt := sizedValue_lt z x .ecx
  have hset := sizedValue_sizedSet z x .ecx (sizedValue z x .ecx - 1)
  rw [← countDown_eq, Int.emod_eq_of_lt (by omega) (by split <;> split at hlt <;> omega)] at hset
  omega

theorem sizedValue_countDown_of_ne (h : r ≠ .ecx) : sizedValue z (countDown z x) r = sizedValue z x r := by
  rw [countDown_eq, sizedValue_sizedSet_of_ne _ _ _ _ _ h]

theorem sizedValue_countDown_movedIndexes (h : sizedValue z s.regs .ecx ≠ 0) :
    sizedValue z (countDown z (movedIndexes s z k)) .ecx = sizedValue z s.regs .ecx - 1 := by
  rw [sizedValue_countDown (by rwa [sizedValue_movedIndexes_ecx]), sizedValue_movedIndexes_ecx]

theorem countDown_movedIndexes :
    countDown z (movedIndexes s z k) = sizedSet z (movedIndexes s z k) .ecx (sizedValue z s.regs .ecx - 1) := by
  rw [countDown_eq, sizedValue_movedIndexes_ecx]

end

/-! ### One element (R230 to R237) -/

section
variable {i : Instr} {a : Attr} {w : Nat} {s t : State}

/-- An element that can be read and stored is moved. -/
theorem movsStep_of_accesses {m : Memory} {v : BitVec w}
    (hread : segRead s w (a.seg.getD .ds) (BitVec.ofNat 32 (sizedValue a.adsize s.regs .esi)) = .ok v)
    (hwrite : segWrite s w .es (BitVec.ofNat 32 (sizedValue a.adsize s.regs .edi)) v = .ok { s with mem := m }) :
    movsStep a w s = .ok { s with mem := m, regs := movedIndexes s a.adsize (w / 8) } := by
  rw [movsStep, stringSource, indexRead_eq, indexRead_eq, hread, except_ok_bind, hwrite, except_ok_bind, advanceIndexes_eq]

theorem movsStep8_of_moves {m : Memory} {v : BitVec 8}
    (hread : s.reads8 (a.seg.getD .ds) (BitVec.ofNat 32 (sizedValue a.adsize s.regs .esi)) v)
    (hwrite : s.stores8 .es (BitVec.ofNat 32 (sizedValue a.adsize s.regs .edi)) v m) :
    movsStep a 8 s = .ok { s with mem := m, regs := movedIndexes s a.adsize 1 } :=
  movsStep_of_accesses (segRead8_of_reads hread) (segWrite8_of_stores hwrite)

theorem movsStep16_of_moves {m : Memory} {v : BitVec 16}
    (hread : s.reads16 (a.seg.getD .ds) (BitVec.ofNat 32 (sizedValue a.adsize s.regs .esi)) v)
    (hwrite : s.stores16 .es (BitVec.ofNat 32 (sizedValue a.adsize s.regs .edi)) v m) :
    movsStep a 16 s = .ok { s with mem := m, regs := movedIndexes s a.adsize 2 } :=
  movsStep_of_accesses (segRead16_of_reads hread) (segWrite16_of_stores hwrite)

theorem movsStep32_of_moves {m : Memory} {v : BitVec 32}
    (hread : s.reads32 (a.seg.getD .ds) (BitVec.ofNat 32 (sizedValue a.adsize s.regs .esi)) v)
    (hwrite : s.stores32 .es (BitVec.ofNat 32 (sizedValue a.adsize s.regs .edi)) v m) :
    movsStep a 32 s = .ok { s with mem := m, regs := movedIndexes s a.adsize 4 } :=
  movsStep_of_accesses (segRead32_of_reads hread) (segWrite32_of_stores hwrite)

/-! ### One iteration (R236) -/

/-- With a count of 0 nothing moves and the instruction completes. -/
theorem repStep_of_count_zero (hc : sizedValue a.adsize s.regs .ecx = 0) : repStep i a w s = .next (s.past s i) := by
  rw [repStep, if_pos ((indexRead_eq_zero ..).2 hc), retire_of_ok rfl rfl]

/-- An iteration whose element stops, stops with it. -/
theorem repStep_of_movsStep_error {e : Stop} (hc : sizedValue a.adsize s.regs .ecx ≠ 0) (h : movsStep a w s = .error e) :
    repStep i a w s = e.outcome := by
  rw [repStep, if_neg (mt (indexRead_eq_zero ..).1 hc), h]

/-- An iteration whose element is moved counts down, and completes the instruction where that leaves 0. -/
theorem repStep_of_movsStep_ok (hc : sizedValue a.adsize s.regs .ecx ≠ 0) (h : movsStep a w s = .ok t) :
    repStep i a w s
      = if sizedValue a.adsize (countDown a.adsize t.regs) .ecx = 0 then
          retire i s (.ok { t with regs := countDown a.adsize t.regs })
        else .next { t with regs := countDown a.adsize t.regs } := by
  rw [repStep, if_neg (mt (indexRead_eq_zero ..).1 hc), h]
  simp only [indexRead_eq_zero]

/-- The same in numbers: the count goes down by one, and the instruction completes where it was 1. -/
theorem repStep_of_moved {m : Memory} {k : Nat} (hc : sizedValue a.adsize s.regs .ecx ≠ 0)
    (h : movsStep a w s = .ok { s with mem := m, regs := movedIndexes s a.adsize k }) :
    repStep i a w s
      = .next (if sizedValue a.adsize s.regs .ecx = 1
          then State.past { s with mem := m, regs := sizedSet a.adsize (movedIndexes s a.adsize k) .ecx 0 } s i
          else { s with
            mem := m
            regs := sizedSet a.adsize (movedIndexes s a.adsize k) .ecx (sizedValue a.adsize s.regs .ecx - 1) }) := by
  rw [repStep_of_movsStep_ok hc h, sizedValue_countDown_movedIndexes hc, countDown_movedIndexes]
  by_cases hlast : sizedValue a.adsize s.regs .ecx = 1
  · rw [if_pos (by omega), if_pos hlast, hlast]
    exact retire_of_ok rfl rfl
  · rw [if_neg (by omega), if_neg hlast]

/-- What an iteration with a count that is not 0 leaves of registers and flags where it has a next state. -/
theorem regs_of_repStep_next (h : repStep i a w s = .next t) (hc : sizedValue a.adsize s.regs .ecx ≠ 0) :
    t.regs = countDown a.adsize (movedIndexes s a.adsize (w / 8)) ∧ t.flags = s.flags ∧ t.defaultSize = s.defaultSize := by
  rw [Ne, ← indexRead_eq_zero] at hc
  rcases repStep_next h with ⟨hz, _⟩ | ⟨_, u, hu, ht⟩
  · exact absurd hz hc
  · obtain ⟨_, _, _, _, _, rfl⟩ := movsStep_ok hu
    rw [← advanceIndexes_eq]
    rcases ht with ⟨_, rfl⟩ | ⟨_, rfl⟩ <;> exact ⟨rfl, rfl, rfl⟩

/-! ### A block of iterations (R236) -/

/-- `t` is `s` after `n` iterations of REP MOVS `i` with address size `z` and elements of `w` bytes, as far as the count, the
indexes, pc and what the next iteration reads of the rest are concerned. -/
structure RepProgress (i : Instr) (z : Size) (w n : Nat) (s t : State) : Prop where
  count : sizedValue z t.regs .ecx = sizedValue z s.regs .ecx - n
  index : ∀ r, r = .esi ∨ r = .edi → (sizedValue z t.regs r : Int)
    = (sizedValue z s.regs r + n * moveDelta s w) % (if z = .w16 then 65536 else 4294967296)
  pc : t.pc = if n = sizedValue z s.regs .ecx then nextPc s.defaultSize s.pc (i.length s.defaultSize) else s.pc
  flags : t.flags = s.flags
  defaultSize : t.defaultSize = s.defaultSize

theorem repStep_progress (h : repStep i a (8 * w) s = .next t) (hc : sizedValue a.adsize s.regs .ecx ≠ 0) :
    RepProgress i a.adsize w 1 s t := by
  obtain ⟨hregs, hflags, hsize⟩ := regs_of_repStep_next h hc
  rw [bits_div_eight] at hregs
  have hcount : sizedValue a.adsize t.regs .ecx = sizedValue a.adsize s.regs .ecx - 1 := by
    rw [hregs, sizedValue_countDown_movedIndexes hc]
  refine ⟨hcount, fun r hr => ?_, ?_, hflags, hsize⟩
  · have hne : r ≠ .ecx := by rcases hr with rfl | rfl <;> decide
    rw [hregs, sizedValue_countDown_of_ne hne, sizedValue_movedIndexes hr, Nat.cast_one, one_mul]
  · rcases repStep_pc h with ⟨hz, hpc, _⟩ | ⟨hz, hpc, _⟩
    · rw [hpc, if_pos (by omega)]
    · rw [hpc, if_neg (by omega)]

/-- One iteration and then `n` more are `n + 1`: while the count lasts, the first leaves pc at the instruction. -/
theorem RepProgress.trans {z : Size} {n : Nat} {u : State} (h₁ : RepProgress i z w 1 s u) (h₂ : RepProgress i z w n u t)
    (hn : 0 < n) (hc : n + 1 ≤ sizedValue z s.regs .ecx) : RepProgress i z w (n + 1) s t := by
  have hcount := h₁.count
  have hpc : u.pc = s.pc := by rw [h₁.pc, if_neg (by omega)]
  have hdelta : moveDelta u w = moveDelta s w := by rw [moveDelta, h₁.flags, moveDelta]
  refine ⟨by rw [h₂.count]; omega, fun r hr => ?_, ?_, h₂.flags.trans h₁.flags, h₂.defaultSize.trans h₁.defaultSize⟩
  · rw [h₂.index r hr, h₁.index r hr, hdelta, Int.emod_add_emod]
    congr 1
    push_cast
    ring
  · have hlast : n = sizedValue z u.regs .ecx ↔ n + 1 = sizedValue z s.regs .ecx := by omega
    simp only [h₂.pc, hpc, h₁.defaultSize, hlast]

theorem execTimes_succ_iff {n : Nat} :
    execTimes i (n + 1) s = some t ↔ ∃ u, exec i s = .next u ∧ execTimes i n u = some t := by
  rw [execTimes]
  cases exec i s <;> simp

/-- A block of iterations, by induction on what follows the first. -/
theorem execTimes_progress {n : Nat} (hi : ∀ s, exec i s = repStep i a (8 * w) s)
    (hc : n + 1 ≤ sizedValue a.adsize s.regs .ecx) (h : execTimes i (n + 1) s = some t) :
    RepProgress i a.adsize w (n + 1) s t := by
  induction n generalizing s with
  | zero =>
    obtain ⟨u, hu, ht⟩ := execTimes_succ_iff.1 h
    cases ht
    exact repStep_progress ((hi s).symm.trans hu) (by omega)
  | succ n ih =>
    obtain ⟨u, hu, ht⟩ := execTimes_succ_iff.1 h
    have hfirst := repStep_progress ((hi s).symm.trans hu) (by omega)
    have hcount := hfirst.count
    exact hfirst.trans (ih (by omega) ht) n.succ_pos hc

/-! ### What stops an element (R71, R237) -/

theorem Stop.outcome_inj {e f : Stop} : e.outcome = f.outcome ↔ e = f := by
  cases e <;> cases f <;> simp [Stop.outcome]

/-- An element stops with its read, or with its write once it is read. -/
theorem movsStep_error_iff {e : Stop} :
    movsStep a w s = .error e
      ↔ segRead s w (a.seg.getD .ds) (BitVec.ofNat 32 (sizedValue a.adsize s.regs .esi)) = .error e
        ∨ ∃ v, segRead s w (a.seg.getD .ds) (BitVec.ofNat 32 (sizedValue a.adsize s.regs .esi)) = .ok v
          ∧ segWrite s w .es (BitVec.ofNat 32 (sizedValue a.adsize s.regs .edi)) v = .error e := by
  simp only [movsStep, stringSource, indexRead_eq, except_bind_error, reduceCtorEq, and_false, exists_false, or_false]

theorem retire_eq_outcome_iff {r : Except Stop State} {e : Stop} : retire i s r = e.outcome ↔ r = .error e := by
  cases e with
  | fault f => exact retireWith_eq_fault
  | refuse f => exact retireWith_eq_refused

/-- An iteration with a count that is not 0 stops exactly where its element does. -/
theorem repStep_eq_outcome_iff {e : Stop} (hc : sizedValue a.adsize s.regs .ecx ≠ 0) :
    repStep i a w s = e.outcome ↔ movsStep a w s = .error e := by
  refine ⟨fun h => ?_, repStep_of_movsStep_error hc⟩
  cases hstep : movsStep a w s with
  | error f =>
    rw [repStep_of_movsStep_error hc hstep, Stop.outcome_inj] at h
    rw [h]
  | ok u =>
    rw [repStep_of_movsStep_ok hc hstep] at h
    split at h
    · exact nomatch retire_eq_outcome_iff.1 h
    · cases e <;> exact nomatch h

/-- MOVS, and REP MOVS with a count that is not 0, stop exactly where the element does. -/
theorem exec_movs_eq_outcome_iff {n : Nat} {e : Stop}
    (hi : (n = 1 ∧ (i = .movs8 a ∨ i = .repMovs8 a)) ∨ (n = 2 ∧ (i = .movs16 a ∨ i = .repMovs16 a))
      ∨ (n = 4 ∧ (i = .movs32 a ∨ i = .repMovs32 a)))
    (hc : i.isRep = true → sizedValue a.adsize s.regs .ecx ≠ 0) :
    exec i s = e.outcome ↔ movsStep a (8 * n) s = .error e := by
  rcases hi with ⟨rfl, rfl | rfl⟩ | ⟨rfl, rfl | rfl⟩ | ⟨rfl, rfl | rfl⟩
  · exact retire_eq_outcome_iff
  · exact repStep_eq_outcome_iff (hc rfl)
  · exact retire_eq_outcome_iff
  · exact repStep_eq_outcome_iff (hc rfl)
  · exact retire_eq_outcome_iff
  · exact repStep_eq_outcome_iff (hc rfl)

/-- The checks before translation raise no page fault. -/
theorem linear_of_accessRaises {g : SegReg} {k : Access} {off n : Nat} {x : Exception} (h : s.accessRaises g k off n x) :
    x.linear = none := by
  unfold State.accessRaises at h
  split at h
  · obtain ⟨_, rfl⟩ := h; rfl
  · obtain ⟨_, rfl⟩ := h; rfl
  · rcases h with ⟨_, rfl⟩ | ⟨_, _, rfl⟩ | ⟨_, _, _, rfl⟩
    · rfl
    · rfl
    · split <;> rfl

/-- The page fault of a read shows that it is no write. -/
theorem segRead_ne_miss_write {g : SegReg} {off lin : Word} {v u : Bool} :
    segRead s w g off ≠ .error (missStop v true u lin) := by
  intro h
  rcases segRead_error h with ⟨x, hx, hraise⟩ | ⟨_, hread⟩
  · exact raise_ne_miss (linear_of_accessRaises hx) hraise
  · rcases linRead_error hread with ⟨v', k, _, _, he⟩ | ⟨_, _, _, _, _, _, he⟩
    · obtain ⟨_, hw, _, _⟩ := missStop_inj he
      exact nomatch hw
    · exact nomatch he

/-- An offset in an index register, put into a word, is the number in the register. -/
theorem toNat_ofNat_sizedValue (z : Size) (x : Regs) (r : Reg) :
    (BitVec.ofNat 32 (sizedValue z x r)).toNat = sizedValue z x r := by
  rw [← indexRead_eq, indexRead_toNat]

/-- An element whose source can be read and whose destination is illegal stops with the destination's exception. -/
theorem movsStep_of_raises {n : Nat} {x : Exception}
    (hread : s.canRead (a.seg.getD .ds) (BitVec.ofNat 32 (sizedValue a.adsize s.regs .esi)) n)
    (hx : s.accessRaises .es .write (sizedValue a.adsize s.regs .edi) n x) : movsStep a (8 * n) s = raise x := by
  rw [← bits_div_eight n] at hread hx
  obtain ⟨v, hv⟩ := (segRead_ok_iff ..).2 hread
  exact movsStep_error_iff.2 (.inr ⟨v, hv, segWrite_of_raises (by rwa [toNat_ofNat_sizedValue])⟩)

/-- An element with a legal destination stops with the page fault of byte `k` of it exactly where the source can be read and
that byte is the first whose page is missing for a write. -/
theorem movsStep_eq_miss_write_iff {n k : Nat} {v : Bool} (hn : n ≤ 4) (hk : k < n)
    (hl : s.accessLegal .es .write (sizedValue a.adsize s.regs .edi) n) :
    movsStep a (8 * n) s = .error (missStop v true s.user
        (s.linear .es (BitVec.ofNat 32 (sizedValue a.adsize s.regs .edi)) + BitVec.ofNat 32 k))
      ↔ s.canRead (a.seg.getD .ds) (BitVec.ofNat 32 (sizedValue a.adsize s.regs .esi)) n
        ∧ s.firstMissing v true s.user (s.linear .es (BitVec.ofNat 32 (sizedValue a.adsize s.regs .edi))) k := by
  have hread := segRead_ok_iff s (8 * n) (a.seg.getD .ds) (BitVec.ofNat 32 (sizedValue a.adsize s.regs .esi))
  rw [bits_div_eight] at hread
  have hwrite : ∀ x : BitVec (8 * n), _ := fun x =>
    linWrite_eq_miss_iff (s := s) (lin := s.linear .es (BitVec.ofNat 32 (sizedValue a.adsize s.regs .edi))) (v := v)
      (u := s.user) (x := x) (k := k) (by rwa [bits_div_eight]) (by rw [bits_div_eight]; omega)
  rw [movsStep_error_iff, or_iff_right segRead_ne_miss_write, ← hread, ← exists_and_right]
  refine exists_congr fun x => and_congr_right fun _ => ?_
  rw [segWrite_of_legal (by rwa [bits_div_eight, toNat_ofNat_sizedValue]), hwrite]

end

/-! ### The statements -/

/-- Settles O36: at each width the body is one element, which is moved. -/
theorem movsMovesOneElement : Obligations.MovsMovesOneElement := by
  unfold Obligations.MovsMovesOneElement
  exact fun a s m => ⟨fun v hread hwrite => retire_of_ok (movsStep8_of_moves hread hwrite) rfl,
    fun v hread hwrite => retire_of_ok (movsStep16_of_moves hread hwrite) rfl,
    fun v hread hwrite => retire_of_ok (movsStep32_of_moves hread hwrite) rfl⟩

/-- Settles O37: at each width the iteration moves one element and counts down. -/
theorem repMovsMovesOneElement : Obligations.RepMovsMovesOneElement := by
  unfold Obligations.RepMovsMovesOneElement
  exact fun a s m hc => ⟨fun v hread hwrite => repStep_of_moved hc (movsStep8_of_moves hread hwrite),
    fun v hread hwrite => repStep_of_moved hc (movsStep16_of_moves hread hwrite),
    fun v hread hwrite => repStep_of_moved hc (movsStep32_of_moves hread hwrite)⟩

/-- Settles O38: the test of the count comes before the element. -/
theorem repMovsWithCountZero : Obligations.RepMovsWithCountZero := by
  unfold Obligations.RepMovsWithCountZero
  exact fun a s hc => ⟨repStep_of_count_zero hc, repStep_of_count_zero hc, repStep_of_count_zero hc⟩

/-- Settles O39: each width is a `repStep`, and `execTimes_progress` is the induction over the block. -/
theorem repMovsBlockProgress : Obligations.RepMovsBlockProgress := by
  unfold Obligations.RepMovsBlockProgress
  intro i a w n s t hi hc hn h
  have hrep : ∀ s, exec i s = repStep i a (8 * w) s := by
    rcases hi with ⟨rfl, rfl⟩ | ⟨rfl, rfl⟩ | ⟨rfl, rfl⟩ <;> exact fun s => rfl
  obtain ⟨n, rfl⟩ := Nat.exists_eq_add_of_le' hn
  have hp := execTimes_progress hrep hc h
  exact ⟨hp.count, hp.index .esi (.inl rfl), hp.index .edi (.inr rfl), hp.pc⟩

/-- Settles O46: the element is read before it is written, and a page fault of the read has bit 1 of its fault code clear. -/
theorem movsIllegalDestinationRaises : Obligations.MovsIllegalDestinationRaises := by
  unfold Obligations.MovsIllegalDestinationRaises
  intro a i n s hi hc
  refine ⟨fun hread x hx => ?_, fun hl v k hk => ?_⟩
  · exact (exec_movs_eq_outcome_iff hi hc).2 (movsStep_of_raises hread hx)
  · rw [← missStop_outcome, exec_movs_eq_outcome_iff hi hc]
    exact movsStep_eq_miss_write_iff (by omega) hk hl

end Sys2Proof.Machine
end

section
/-!
MOVSX (43_movsx.md R260 to R263): a read of the source and a register write of its signed value.
-/

namespace Sys2Proof.Machine

/-- Settles O40: in each form the operand is read, and its sign extension, which is by definition its signed value at the
register's width, goes to the register. -/
theorem movsxExtendsSigned : Obligations.MovsxExtendsSigned := by
  unfold Obligations.MovsxExtendsSigned
  exact fun a dst s =>
    ⟨fun src v h => retire_of_read (fun x : BitVec 8 => s.setReg16 dst (BitVec.ofInt 16 x.toInt)) (readRm8_of_rmIs h) rfl,
    fun src v h => retire_of_read (fun x : BitVec 8 => s.setReg dst (BitVec.ofInt 32 x.toInt)) (readRm8_of_rmIs h) rfl,
    fun src v h => retire_of_read (fun x : BitVec 16 => s.setReg dst (BitVec.ofInt 32 x.toInt)) (readRm16_of_rmIs h) rfl⟩

end Sys2Proof.Machine
end

section
/-!
MOVZX (44_movzx.md R270 to R273): a read of the source and a register write of its unsigned value.
-/

namespace Sys2Proof.Machine

/-- Settles O41: in each form the operand is read and its zero extension goes to the register; the zero extension is the
unsigned value at the register's width (`BitVec.ofNat_toNat`). -/
theorem movzxExtendsUnsigned : Obligations.MovzxExtendsUnsigned := by
  unfold Obligations.MovzxExtendsUnsigned
  simp only [BitVec.ofNat_toNat]
  exact fun a dst s =>
    ⟨fun src v h => retire_of_read (fun x : BitVec 8 => s.setReg16 dst (x.setWidth 16)) (readRm8_of_rmIs h) rfl,
    fun src v h => retire_of_read (fun x : BitVec 8 => s.setReg dst (x.setWidth 32)) (readRm8_of_rmIs h) rfl,
    fun src v h => retire_of_read (fun x : BitVec 16 => s.setReg dst (x.setWidth 32)) (readRm16_of_rmIs h) rfl⟩

end Sys2Proof.Machine
end

section
/-!
MUL (45_mul.md R280 to R285): a read of the operand and the exact product of the accumulator and its value, in halves; CF and
OF say that the high half is not 0, which is that the product does not fit the width of its factors.
-/

namespace Sys2Proof.Machine

/-! ### The product and its halves, in numbers (R280, R285) -/

/-- The product of two bytes, at the width of AX (R281). -/
theorem product_byte_eq_ofNat (x y : BitVec 8) : product x y = BitVec.ofNat 16 (x.toNat * y.toNat) := by
  rw [← product_toNat, BitVec.ofNat_toNat, BitVec.setWidth_eq]

theorem productLow_eq_ofNat {n : Nat} (x y : BitVec n) : productLow (product x y) = BitVec.ofNat n (x.toNat * y.toNat) :=
  BitVec.eq_of_toNat_eq (by rw [productLow_toNat, BitVec.toNat_ofNat])

theorem productHigh_eq_ofNat {n : Nat} (x y : BitVec n) :
    productHigh (product x y) = BitVec.ofNat n (x.toNat * y.toNat / 2 ^ n) := by
  rw [← productHigh_toNat, BitVec.ofNat_toNat, BitVec.setWidth_eq]

/-- The high half is not 0 exactly where the product does not fit the width of its factors (R284). -/
theorem productHigh_bne_zero {n : Nat} (x y : BitVec n) :
    (productHigh (product x y) != 0#n) = decide (2 ^ n ≤ x.toNat * y.toNat) := by
  have hfits : productHigh (product x y) = 0#n ↔ x.toNat * y.toNat < 2 ^ n := by
    rw [← BitVec.toNat_inj, BitVec.toNat_zero, productHigh_toNat, Nat.div_eq_zero_iff_lt (Nat.two_pow_pos n)]
  rw [Bool.eq_iff_iff, bne_iff_ne, decide_eq_true_iff, ne_eq, hfits, Nat.not_lt]

section
variable (s : State)

/-! ### Where CF and OF come from: the register that takes the high half (R284) -/

/-- AH is the high half of the product in AX (R281). -/
theorem mulByte_regs_ah (v : BitVec 8) : (mulByte s v).regs.get8 .ah = productHigh (product (s.regs.get8 .al) v) := by
  rw [mulByte, mulFlags_regs, State.setReg16_regs, Regs.get8_ah, Regs.get16_set16_same]
  rfl

theorem mulHalf_regs_dx (v : BitVec 16) :
    (mulHalf s v).regs.get16 .edx = productHigh (product (s.regs.get16 .eax) v) := by
  rw [mulHalf, mulFlags_regs, State.setReg16_regs, Regs.get16_set16_same]

theorem mulWord_regs_edx (v : BitVec 32) : (mulWord s v).regs.get .edx = productHigh (product (s.regs.get .eax) v) := by
  rw [mulWord, mulFlags_regs, State.setReg_regs, Regs.get_set_same]

end

/-! ### The statements -/

/-- Settles O42: at each width the operand is read, and the product of the accumulator and its value is written in halves;
CF and OF by `productHigh_bne_zero`. -/
theorem mulGivesExactProduct : Obligations.MulGivesExactProduct := by
  unfold Obligations.MulGivesExactProduct
  simp only [← product_byte_eq_ofNat, ← productLow_eq_ofNat, ← productHigh_eq_ofNat, ← productHigh_bne_zero]
  exact fun a s => ⟨fun src v h => retire_of_read (mulByte s) (readRm8_of_rmIs h) rfl,
    fun src v h => retire_of_read (mulHalf s) (readRm16_of_rmIs h) rfl,
    fun src v h => retire_of_read (mulWord s) (readRm32_of_rmIs h) rfl⟩

/-- Settles O43: a next state is the product's, whose flags are `mulFlags` of the register with the high half; an operand that
cannot be read stops the instruction before it writes anything. -/
theorem mulFlagsFromHighHalf : Obligations.MulFlagsFromHighHalf := by
  unfold Obligations.MulFlagsFromHighHalf
  intro a s t
  refine ⟨fun src h => ?_, fun src h => ?_, fun src h => ?_, fun src e he => retireWith_bind_error he,
    fun src e he => retireWith_bind_error he, fun src e he => retireWith_bind_error he⟩
  · obtain ⟨v, -, rfl⟩ := mulRm8_next h
    rw [State.advance_regs, mulByte_regs_ah]
    rfl
  · obtain ⟨v, -, rfl⟩ := mulRm16_next h
    rw [State.advance_regs, mulHalf_regs_dx]
    rfl
  · obtain ⟨v, -, rfl⟩ := mulRm32_next h
    rw [State.advance_regs, mulWord_regs_edx]
    rfl

end Sys2Proof.Machine
end

section
/-!
Which exceptions the instructions raise in each mode, and the forms that raise none (60_exceptions.md R300, R302).
-/

namespace Sys2Proof.Machine

/-! ### The vectors of each mode (R65, R70, R300) -/

/-- The vector of a range violation in Real Address Mode is 13, or the alternative 12 where it is chosen (R65, C9; log 14). -/
theorem realLimitVector_cases (g : SegReg) :
    realLimitVector g = 13#8 ∨ (realLimitVector g = 12#8 ∧ Config.realSsLimitIsTwelve = true) := by
  unfold realLimitVector
  split
  case isTrue h => exact .inr ⟨rfl, h.2⟩
  case isFalse => exact .inl rfl

/-- Paging is never in effect in Real Address Mode (R70; log 11). -/
theorem mode_ne_real_of_paging {s : State} (h : s.paging = true) : s.mode ≠ .real := by
  intro hm
  simp [State.paging, hm] at h

/-- What an exception among the stops of an instruction shows of the mode: a range violation of Real Address Mode, one of
Virtual 8086 Mode, a violation of Protected Mode, or a page fault with paging on. -/
theorem mayStop_exception {s : State} {v : BitVec 8} {c : Option (BitVec 16)} {l : Option Word}
    (h : MayStop s (.fault (.exception v c l))) :
    (s.mode = .real ∧ (v = 13#8 ∨ (v = 12#8 ∧ Config.realSsLimitIsTwelve = true)) ∧ c = none ∧ l = none)
      ∨ (s.mode = .v86 ∧ v = 13#8 ∧ c = some 0#16 ∧ l = none)
      ∨ (s.mode = .prot ∧ (v = 11#8 ∨ v = 12#8 ∨ v = 13#8) ∧ c.isSome = true ∧ l = none)
      ∨ (s.mode ≠ .real ∧ v = 14#8 ∧ s.paging = true ∧ c.isSome = true ∧ l.isSome = true) := by
  cases h with
  | real g hm => exact .inl ⟨hm, realLimitVector_cases g, rfl, rfl⟩
  | v86 hm => exact .inr (.inl ⟨hm, rfl, rfl, rfl⟩)
  | prot v c hm hv => exact .inr (.inr (.inl ⟨hm, hv, rfl, rfl⟩))
  | page _ _ _ _ hmiss =>
    obtain ⟨hp, _⟩ := hmiss
    exact .inr (.inr (.inr ⟨mode_ne_real_of_paging hp, rfl, hp, rfl, rfl⟩))

/-! ### Forms without a memory operand (R302) -/

/-- An instruction whose operands are registers and immediates, and which is none of the eight special rows, no MOVS and no
load of a segment register, completes: its body writes general registers, flags and draws, and nothing can stop it. -/
theorem exec_registerForm {i : Instr} {s : State} (hmem : i.mem? = none) (hoff : i.moffs? = none) (hspecial : isSpecial i = false)
    (hmovs : ∀ a, i ≠ .movs8 a ∧ i ≠ .movs16 a ∧ i ≠ .movs32 a) (hrep : i.isRep = false)
    (hload : ∀ a g o, i ≠ .movSregRm16 a g o) : ∃ t, exec i s = .next t ∧ t.mem = s.mem := by
  cases i with
  | movReg8Imm8 a d v | movReg16Imm16 a d v | movReg32Imm32 a d v => exact ⟨_, rfl, rfl⟩
  | movRm8R8 a o r | movRm16R16 a o r | movRm32R32 a o r | movRm8Imm8 a o v | movRm16Imm16 a o v | movRm32Imm32 a o v
  | movR8Rm8 a d o | movR16Rm16 a d o | movR32Rm32 a d o | movsxR16Rm8 a d o | movsxR32Rm8 a d o | movsxR32Rm16 a d o
  | movzxR16Rm8 a d o | movzxR32Rm8 a d o | movzxR32Rm16 a d o | mulRm8 a o | mulRm16 a o | mulRm32 a o =>
    cases o with
    | reg r => exact ⟨_, rfl, rfl⟩
    | mem m => exact nomatch hmem
  | movRm16Sreg a o g =>
    obtain ⟨z, _, _⟩ := a
    cases o with
    | reg r => cases z with
      | w16 => exact ⟨_, rfl, rfl⟩
      | w32 => exact ⟨_, rfl, rfl⟩
    | mem m => exact nomatch hmem
  | movAlMoffs8 a off | movAxMoffs16 a off | movEaxMoffs32 a off | movMoffs8Al a off | movMoffs16Ax a off
  | movMoffs32Eax a off => exact nomatch hoff
  | movR32Cr a d c | movCrR32 a c d | movR32Dr03 a d c | movR32Dr67 a d c | movDr03R32 a c d | movDr67R32 a c d
  | movR32Tr a d c | movTrR32 a c d => exact nomatch hspecial
  | movs8 a => exact absurd rfl (hmovs a).1
  | movs16 a => exact absurd rfl (hmovs a).2.1
  | movs32 a => exact absurd rfl (hmovs a).2.2
  | repMovs8 a | repMovs16 a | repMovs32 a => exact nomatch hrep
  | movSregRm16 a g o => exact absurd rfl (hload a g o)

/-! ### The statements -/

/-- Settles O48: an exception is one of the stops of `exec_stops`, each of which belongs to its mode. -/
theorem exceptionsByMode : Obligations.ExceptionsByMode := by
  unfold Obligations.ExceptionsByMode
  intro i s v c l h
  rcases mayStop_exception (exec_stops i s _ h) with ⟨hm, hx⟩ | ⟨hm, hx⟩ | ⟨hm, hx⟩ | ⟨hm, hx⟩
  · rw [hm]
    exact ⟨fun _ => hx, nofun, nofun⟩
  · rw [hm]
    exact ⟨nofun, fun _ => .inl hx, nofun⟩
  · rw [hm]
    exact ⟨nofun, nofun, fun _ => .inl hx⟩
  · exact ⟨fun hreal => absurd hreal hm, fun _ => .inr hx, fun _ => .inr hx⟩

/-- Settles O49: no form that is left reads or writes memory, checks a privilege or loads a descriptor. -/
theorem registerFormsNeverStop : Obligations.RegisterFormsNeverStop := by
  unfold Obligations.RegisterFormsNeverStop
  exact fun i s => exec_registerForm

end Sys2Proof.Machine
end
